-- ==== Sys2Proof/Word.lean ====
section
/-! DEFINITION. The number types of the JLQ4: bytes and 16-bit words, and the numbers of channels, cells and direct words. -/

namespace Sys2Proof

/-- One byte, as the links, the packet memory and the byte lanes carry it. -/
abbrev Byte := BitVec 8

/-- One 16-bit word of the bus window or of the indirect space. -/
abbrev Word := BitVec 16

/-- A channel number, 0 to 3 (Table 3). -/
abbrev ChanId := Fin 4

/-- A cell number, 0 to 511 (R78). -/
abbrev CellNo := Fin 512

/-- The number of a direct word, 0 to 15 (R164). -/
abbrev WordNo := Fin 16

end Sys2Proof
end

