-- ==== Sys2Proof/Syntax.lean ====
section
/-! DEFINITION. The commands the JLQ4 takes: one constructor per row of spec/opcode_table.json.

The operands are what stands on the pins at the event: the data lines of a bus write, the word addressed where the row does not fix
it, the channel whose clock gives the edge, and the level of RXD_n. -/

namespace Sys2Proof

/-- Which of the two event words (or mask words) a write names: GEVENT or GEMASK, or the paged CEVENT or CEMASK (Table 19). -/
inductive EventScope where
  | global
  | channel
  deriving DecidableEq, Repr

/-- The blocks of a channel that count occurrences (Table 16's column of blocks: FA, OM, BD and TF). -/
inductive CountingBlock where
  | aligner
  | monitor
  | delineator
  | framer
  deriving DecidableEq, Repr

/-- An event of a receive link, which two blocks may count (R154): the expiry of a silence timer, or a rising edge of the receive clock
with RXD_n at level `b`. -/
inductive LineEvent where
  | silence (ch : ChanId)
  | rising (ch : ChanId) (b : Bool)
  deriving DecidableEq, Repr

/-- A line event that arrives together with a CNT_SNAP, and the blocks whose parts of it are taken before the CNT_SNAP; the other
blocks' parts are taken after it (R156). DESIGN CHOICE, log entry 20, safe. -/
structure Meeting where
  event : LineEvent
  first : List CountingBlock
  deriving DecidableEq, Repr

/-- The CMD write of a CNT_SNAP: `hi` as in every command row, and the line event that arrives together with it, if one does. -/
structure SnapWrite where
  hi : Byte
  meets : Option Meeting
  deriving DecidableEq, Repr

/-- The steps of the part, one per row of the table of operations and events. DESIGN CHOICE, log entries 1 to 3, safe.

`d` is D[15:0] at a bus write. A write row is the access that commits a word: the word write of 16-bit mode, the odd-byte write of
8-bit mode (D[7:0] is the byte). A row of a command code has the code fixed and carries `hi`: D[15:8] in 16-bit mode, the odd byte in
8-bit mode (disregarded by CMD, R137). `b` is the level of RXD_n at the rising edge (disregarded under LOOP 1, R16). -/
inductive Instr where
  | powerOnReset
  | resetRelease (width : Bool)
  | poolBuildComplete
  | softReset (d : Word)
  | pageWrite (d : Word)
  | idxWrite (d : Word)
  | idataRead (word : WordNo) (odd : Bool)
  | configurationWrite (d : Word)
  | globalEntryWrite (d : Word)
  | ignoredIndirectWrite (d : Word)
  | eventFlagClear (scope : EventScope) (d : Word)
  | eventMaskWrite (scope : EventScope) (d : Word)
  | registerWrite (word : WordNo) (d : Word)
  | evenByteWrite (word : WordNo) (d : Word)
  | conflictingStrobes (word : WordNo) (d : Word)
  | rxdataRead
  | txdataWrite (d : Word)
  | chStart (hi : Byte)
  | chStop (hi : Byte)
  | chReset (hi : Byte)
  | chFlush (hi : Byte)
  | rxOpen (hi : Byte)
  | rxRelease (hi : Byte)
  | rxSkip (hi : Byte)
  | txAlloc (hi : Byte)
  | txSubmit (hi : Byte)
  | txCancel (hi : Byte)
  | ohPop (hi : Byte)
  | cntSnap (w : SnapWrite)
  | unknownCommand (d : Word)
  | drainEnd (ch : ChanId)
  | drainTimerExpiry (ch : ChanId) (clockStopped : Bool)
  | markerMatch (ch : ChanId) (b : Bool)
  | verifyMarkerComparison (ch : ChanId) (b : Bool)
  | lockedMarkerComparison (ch : ChanId) (b : Bool)
  | silenceTimerExpiry (ch : ChanId)
  | silentFirstBit (ch : ChanId) (b : Bool)
  | fcntByte (ch : ChanId) (b : Bool)
  | offsetPoint (ch : ChanId) (b : Bool)
  | overheadClose (ch : ChanId) (b : Bool)
  | payloadByte (ch : ChanId) (b : Bool)
  | processedFrameEnd (ch : ChanId) (b : Bool)
  | frameStart (ch : ChanId)
  | blockBoundary (ch : ChanId)
  | packetEnd (ch : ChanId)
  | transmitFrameEnd (ch : ChanId)
  | receivedBit (ch : ChanId) (b : Bool)
  | txclkFallingEdge (ch : ChanId)
  deriving DecidableEq, Repr

end Sys2Proof
end

