-- ==== Sys2Proof/Config.lean ====
section
/-! DEFINITION. The free values: what the data sheet leaves open while the part goes on. Each is an opaque constant applied to
the model's own counter State.fresh, so no proof can know a value of it. -/

namespace Sys2Proof.Config

/-- How many further cells the pool's build has appended by a read of FREE during INIT: the data sheet bounds the value read
(0 to 512, never decreasing) and does not state it (R84). DESIGN CHOICE, log entry 4, safe. -/
opaque buildAdvance : Nat → Nat

/-- Whether TXCLK_n has stopped when a drain timer's last tick is taken on an empty queue: it decides whether TXD_n goes to 1 at
once or at the next falling edge (R130). DESIGN CHOICE, log entry 6, safe. -/
opaque txClockStopped : Nat → Bool

end Sys2Proof.Config
end

