-- ==== Sys2Proof/Machine/State.lean ====
section
/-! DEFINITION. The state of the JLQ4 as plain data: what chapters 2 to 10 give each block, and the model's queue of waiting
commands. State.reset is the part under a power-on or pin reset (log entry 9). -/

namespace Sys2Proof.Machine

open Sys2Proof

/-! ### Four of a kind -/

/-- One item for each of the four channels. -/
structure Quad (α : Type) where
  ch0 : α
  ch1 : α
  ch2 : α
  ch3 : α
  deriving DecidableEq, Repr

/-- Channel `i`'s item. -/
def Quad.get {α : Type} (q : Quad α) (i : ChanId) : α :=
  match i.val with
  | 0 => q.ch0
  | 1 => q.ch1
  | 2 => q.ch2
  | _ => q.ch3

/-- `q` with channel `i`'s item replaced. -/
def Quad.set {α : Type} (q : Quad α) (i : ChanId) (a : α) : Quad α :=
  match i.val with
  | 0 => { q with ch0 := a }
  | 1 => { q with ch1 := a }
  | 2 => { q with ch2 := a }
  | _ => { q with ch3 := a }

/-- Every channel's item through `f`. -/
def Quad.map {α : Type} (f : α → α) (q : Quad α) : Quad α := ⟨f q.ch0, f q.ch1, f q.ch2, f q.ch3⟩

/-! ### Counters and event flags -/

/-- The sixteen counters of Table 16, in counter-number order. -/
inductive Ctr where
  | rxframes | fcerr | fcjump | alignloss | rxpkts | rxlong | rxpadded | hdrerr
  | offmiss | dropnobuf | dropqfull | rxabort | ohlost | txframes | txpkts | txabort
  deriving DecidableEq, Repr

/-- Sixteen counts of 24 bits (R152): a channel's live counters, or its snapshot values. -/
structure Counters where
  rxframes : BitVec 24 := 0
  fcerr : BitVec 24 := 0
  fcjump : BitVec 24 := 0
  alignloss : BitVec 24 := 0
  rxpkts : BitVec 24 := 0
  rxlong : BitVec 24 := 0
  rxpadded : BitVec 24 := 0
  hdrerr : BitVec 24 := 0
  offmiss : BitVec 24 := 0
  dropnobuf : BitVec 24 := 0
  dropqfull : BitVec 24 := 0
  rxabort : BitVec 24 := 0
  ohlost : BitVec 24 := 0
  txframes : BitVec 24 := 0
  txpkts : BitVec 24 := 0
  txabort : BitVec 24 := 0
  deriving DecidableEq, Repr

/-- The six global event flags, or their masks (R167, Table 23, words 3 and 4). -/
structure GFlags where
  initdone : Bool := false
  cmddone : Bool := false
  cmdlost : Bool := false
  poollow : Bool := false
  porterr : Bool := false
  cfgerr : Bool := false
  deriving DecidableEq, Repr

/-- The six event flags of one channel, or their masks (R167, Table 23, words 14 and 15). -/
structure CFlags where
  rxq : Bool := false
  rxdrop : Bool := false
  ohrec : Bool := false
  align : Bool := false
  alarm : Bool := false
  txdone : Bool := false
  deriving DecidableEq, Repr

/-! ### Channel Control -/

/-- The admin state (R135). -/
inductive Admin where
  | disabled
  | active
  | draining
  deriving DecidableEq, Repr

/-- The eighteen configuration entries of a channel (R146, Table 27), each a 16-bit word, with their defaults. -/
structure ChanCfg where
  flen : Word := 256
  maxlen : Word := 4095
  slotlen : Word := 0
  rxquota : Word := 96
  txquota : Word := 32
  persist : Word := 3
  vcount : Word := 2
  misslim : Word := 4
  dwin : Word := 1000
  loop : Word := 0
  explabel : Word := 0
  txlabel : Word := 0
  dset : Word := 10
  dclr : Word := 2
  rqthr : Word := 1
  sendalarm : Word := 0
  forcefe : Word := 0
  autofe : Word := 1
  deriving DecidableEq, Repr

/-- The three global entries (R150, Table 32), with their defaults. -/
structure Globals where
  tsil : Word := 10
  tdrain : Word := 50
  poolthr : Word := 32
  deriving DecidableEq, Repr

/-! ### Frame Aligner -/

/-- The five aligner states (R15). -/
inductive AlState where
  | off
  | silent
  | hunt
  | verify
  | locked
  deriving DecidableEq, Repr

/-- The Frame Aligner of a channel (R15). `bitPos` counts the bits of the current frame received so far, 0 to 8 × FLEN − 1, and is
0 where there is no frame position. `silence` is the silence timer: none while stopped. -/
structure Aligner where
  state : AlState := .off
  searchReg : Word := 0
  bitPos : Nat := 0
  verifyCount : Nat := 0
  missCount : Nat := 0
  silence : Option Nat := none
  loopSource : Bool := false
  deriving DecidableEq, Repr

/-! ### Overhead Monitor -/

/-- The monitor's mode (R32). -/
inductive MonMode where
  | waiting
  | monitoring
  deriving DecidableEq, Repr

/-- PV and FE, filtered as one value (R38). -/
structure StatVal where
  pv : Bool
  fe : Bool
  deriving DecidableEq, Repr

/-- A persistence filter: the candidate with its count, and the accepted value, none while unknown (R38, R39). -/
structure Persist (α : Type) where
  cand : Option α := none
  count : Nat := 0
  accepted : Option α := none
  deriving DecidableEq, Repr

/-- The four link conditions (Table 6). -/
structure Conds where
  carrier : Bool := false
  farend : Bool := false
  labelmis : Bool := false
  degraded : Bool := false
  deriving DecidableEq, Repr

/-- The CAUSES field of a record (R46). -/
structure Causes where
  align : Bool := false
  status : Bool := false
  label : Bool := false
  degrade : Bool := false
  deriving DecidableEq, Repr

/-- One overhead record (R47). -/
structure OhRecord where
  seq : Word
  causes : Causes
  fcnt : Byte
  locked : Bool
  statKnown : Bool
  pv : Bool
  fe : Bool
  labelKnown : Bool
  label : Byte
  degraded : Bool
  lost : Byte
  deriving DecidableEq, Repr

/-- The Overhead Monitor of a channel (Table 6). `statByte` and `labelByte` are the current frame's bytes at offsets 3 and 6, kept
for the overhead close at offset 7 (R35). `entrySeq` is the SEQ of the entry record that waits for its FCNT (R48), none
when that record was not stored. DEDUCED, log entry 14, safe. -/
structure Monitor where
  mode : MonMode := .waiting
  firstFrame : Bool := false
  frameFcnt : Byte := 0
  lastFcnt : Byte := 0
  runXor : Byte := 0
  prevXor : Byte := 0
  statByte : Byte := 0
  labelByte : Byte := 0
  stat : Persist StatVal := {}
  label : Persist Byte := {}
  conds : Conds := {}
  winFrames : Nat := 0
  winMismatches : Nat := 0
  ring : List OhRecord := []
  nextSeq : Word := 0
  pendingLost : Byte := 0
  entryFill : Bool := false
  entrySeq : Option Word := none
  deriving DecidableEq, Repr

/-! ### Block Delineator and receive queue -/

/-- The delineator's state, with TRACK given by its phase (R54). -/
inductive DelState where
  | hold
  | seek
  | header
  | body
  | skip
  deriving DecidableEq, Repr

/-- A receive descriptor (R64). CELLS is `RxDesc.cells`, a function of STORELEN. -/
structure RxDesc where
  pktseq : Word
  wirelen : Nat
  storelen : Nat
  long : Bool
  padded : Bool
  fcnt : Byte
  chain : List CellNo
  deriving DecidableEq, Repr

/-- The Block Delineator of a channel (Table 7). `fboHigh` is the FBO byte at offset 4, kept until the offset point (R55). -/
structure Delin where
  state : DelState := .hold
  latchedFbo : Word := 0
  fboHigh : Byte := 0
  startPos : Option Nat := none
  headerByte : Option Byte := none
  headerFcnt : Byte := 0
  remaining : Nat := 0
  stored : Nat := 0
  mismatch : Nat := 0
  assembly : Option RxDesc := none
  nextPktseq : Word := 0
  deriving DecidableEq, Repr

/-- The held packet with its read cursor (R97). -/
structure Held where
  desc : RxDesc
  cursor : Nat
  deriving DecidableEq, Repr

/-! ### Transmit side -/

/-- The open fill packet (Table 11). -/
structure FillPkt where
  len : Nat
  cursor : Nat
  chain : List CellNo
  deriving DecidableEq, Repr

/-- A transmit descriptor (R111). CELLS is `TxDesc.cells`, a function of LEN. -/
structure TxDesc where
  txseq : Word
  len : Nat
  chain : List CellNo
  deriving DecidableEq, Repr

/-- The in-flight packet with its send cursor (R118). -/
structure InFlight where
  desc : TxDesc
  cursor : Nat
  deriving DecidableEq, Repr

/-- The framer's mode (R118). -/
inductive TxMode where
  | normal
  | alarm
  deriving DecidableEq, Repr

/-- What the owed bytes belong to (Table 12). -/
inductive BlockKind where
  | idleHeader
  | packetHeader
  | packetBody
  deriving DecidableEq, Repr

/-- The overhead composed at a frame start, fixed for the whole frame (R119). -/
structure Overhead where
  fcnt : Byte := 0
  stat : Byte := 0
  fbo : Word := 0
  label : Byte := 0
  fchk : Byte := 0
  deriving DecidableEq, Repr

/-- The Transmit Framer of a channel (Table 12). `bitPos` is the number of the frame's bits presented so far, none before a frame's
first bit. `outByte` is the byte whose bits are going out, `presented` whether a bit has been presented since CH_START
(R16), `txd` the level of TXD_n. -/
structure Framer where
  running : Bool := false
  bitPos : Option Nat := none
  mode : TxMode := .normal
  owed : Nat := 0
  kind : BlockKind := .idleHeader
  inflight : Option InFlight := none
  nextFcnt : Byte := 0
  runXor : Byte := 0
  prevXor : Byte := 0
  drainTimer : Option Nat := none
  flenInUse : Nat := 256
  overhead : Overhead := {}
  outByte : Byte := 0
  presented : Bool := false
  txd : Bool := true
  deriving DecidableEq, Repr

/-! ### Channel, pool, Command Unit, Bus Window -/

/-- One channel with its eight blocks (Table 1) and its two holdings (R81). -/
structure Chan where
  admin : Admin := .disabled
  cfg : ChanCfg := {}
  al : Aligner := {}
  mon : Monitor := {}
  del : Delin := {}
  rq : List RxDesc := []
  held : Option Held := none
  fill : Option FillPkt := none
  tq : List TxDesc := []
  nextTxseq : Word := 0
  fr : Framer := {}
  live : Counters := {}
  snap : Counters := {}
  flags : CFlags := {}
  mask : CFlags := {}
  rxHolding : Nat := 0
  txHolding : Nat := 0
  deriving DecidableEq, Repr

/-- The pool's state (R80). -/
inductive PoolState where
  | init
  | ready
  deriving DecidableEq, Repr

/-- The Cell Pool (Table 8). FREE is `Pool.freeCount`, the free list's length. `ticks` counts the 10 µs ticks taken in INIT since
the build began (log entry 5). -/
structure Pool where
  state : PoolState := .init
  free : List CellNo := []
  ticks : Nat := 0
  deriving DecidableEq, Repr

/-- The CSTAT codes (R140), in the order of Table 26. -/
inductive CStat where
  | none | ok | pending | busy | badcmd | badarg | state | empty | nospace | qfull | short | timeout
  deriving DecidableEq, Repr

/-- The Command Unit (R136): PENDING exactly while `pending` names a channel. -/
structure CmdUnit where
  pending : Option ChanId := none
  cstat : CStat := .none
  arg0 : Word := 0
  arg1 : Word := 0
  res0 : Word := 0
  res1 : Word := 0
  deriving DecidableEq, Repr

/-- What the part drives on D[15:0] in answer to an access (R159, R160). -/
inductive DataLines where
  | released
  | low (b : Byte)
  | all (w : Word)
  deriving DecidableEq, Repr

/-- The Bus Window (chapter 10). `lines` and `ready` are the part's answer to the latest access, kept until the next one
(DESIGN CHOICE, log entry 17, safe). `inReset` is set while -RESET is asserted or the part's own power-up reset lasts. -/
structure Window where
  width16 : Bool := true
  inReset : Bool := true
  page : ChanId := 0
  idx : BitVec 8 := 0
  readLatch : Word := 0
  holdLatch : Byte := 0
  lines : DataLines := .released
  ready : Bool := false
  deriving DecidableEq, Repr

/-! ### The whole part -/

/-- The state of the part. `mem` is packet memory in canonical form (Memory.wf). `fresh`, `prescale` and `pending` are the
model's own: the counter of the free values, the place in a 100 µs tick, and the queue of commands that wait. -/
structure State where
  chans : Quad Chan
  pool : Pool
  cu : CmdUnit
  gflags : GFlags
  gmask : GFlags
  globals : Globals
  win : Window
  mem : List Host.Cell
  fresh : Nat
  prescale : Nat
  pending : List Instr
  deriving DecidableEq, Repr

/-- The part stops with no fault: the data sheet gives it none (errors are flags, CSTAT codes and counters). Nobody raises one;
that is safe. -/
inductive Fault where
  deriving DecidableEq, Repr

/-- Why a command has no outcome. -/
inductive Refusal where
  /-- Raised by exec's arm of a command that has no meaning yet, and by nothing else; safe. No arm raises it now. -/
  | notModelled (mnemonic : String)
  deriving DecidableEq, Repr

/-- The part as a power-on or pin reset leaves it, with -RESET still asserted (log entry 9): every field at the value the data sheet
states (R30, R53, R75, R82, R109, R133, R136, R146, R150, R158, R160 to R162, R165, R166, R171), the rest at the values of
log entry 8. Packet memory lists nothing, and no command waits. -/
def State.reset : State where
  chans := ⟨{}, {}, {}, {}⟩
  pool := {}
  cu := {}
  gflags := {}
  gmask := {}
  globals := {}
  win := {}
  mem := []
  fresh := 0
  prescale := 0
  pending := []

end Sys2Proof.Machine
end

