-- ==== Sys2Proof/Machine/Ops.lean ====
section
/-! DEFINITION. The named operations the blocks share: bytes and words, packet memory, counters, channels and lanes, the cell pool's
claims and returns, and the overhead record ring's store. -/

namespace Sys2Proof.Machine

open Sys2Proof

/-! ### Bytes and words -/

/-- Bits 7–0 of a word: its even byte (Table 23's note on 8-bit mode). -/
def lowByte (w : Word) : Byte := w.setWidth 8

/-- Bits 15–8 of a word: its odd byte. -/
def highByte (w : Word) : Byte := (w >>> 8).setWidth 8

/-- The word with odd byte `hi` and even byte `lo`. -/
def mkWord (hi lo : Byte) : Word := hi ++ lo

/-- A number as a word. -/
def natWord (n : Nat) : Word := BitVec.ofNat 16 n

/-- A word with one field bit, at bit `i`. -/
def bitAt (i : Nat) (b : Bool) : Word := if b then natWord (2 ^ i) else 0

/-- A word with the number `n` in a field whose least significant bit is bit `i`. -/
def fieldAt (i n : Nat) : Word := natWord (n * 2 ^ i)

/-- The number of cells that hold `n` bytes: ceil(n/128). -/
def cellsFor (n : Nat) : Nat := (n + 127) / 128

/-- The cells 0 to k−1 in ascending order, as the build appends them (R82). -/
def cellsUpTo (k : Nat) : List CellNo := (List.range k).map (Fin.ofNat 512)

/-- CELLS of a receive descriptor (R64). -/
def RxDesc.cells (d : RxDesc) : Nat := cellsFor d.storelen

/-- CELLS of a transmit descriptor (R111). -/
def TxDesc.cells (d : TxDesc) : Nat := cellsFor d.len

/-! ### Packet memory -/

namespace Memory

/-- The byte at address `a`; an unlisted address reads 0. DESIGN CHOICE, log entry 7: the data sheet gives packet memory no
contents at power-on (R78); unsafe. -/
def read : List Host.Cell → Nat → Byte
  | [], _ => 0
  | (k, b) :: rest, a => if a = k then b else read rest a

/-- `m` with the byte at `a` set to `v`, in canonical form. -/
def write : List Host.Cell → Nat → Byte → List Host.Cell
  | [], a, v => if v = 0 then [] else [(a, v)]
  | (k, b) :: rest, a, v =>
    if a < k then (if v = 0 then (k, b) :: rest else (a, v) :: (k, b) :: rest)
    else if a = k then (if v = 0 then rest else (a, v) :: rest)
    else (k, b) :: write rest a v

/-- The canonical form: addresses strictly rising, no entry with the value an unlisted address reads as. -/
abbrev wf (m : List Host.Cell) : Prop :=
  m.Pairwise (fun x y => x.1 < y.1) ∧ ∀ c ∈ m, c.2 ≠ 0

end Memory

/-- R78: byte `i` of a packet lies at byte i mod 128 of the cell at place i / 128 of its chain; none beyond the chain. -/
def packetAddr (chain : List CellNo) (i : Nat) : Option Nat :=
  (chain[i / 128]?).map fun c => 128 * c.val + i % 128

/-- Byte `i` of the packet stored in `chain`. A position beyond the chain, which no reachable state asks for, reads 0 (log
entry 16). -/
def packetByte (mem : List Host.Cell) (chain : List CellNo) (i : Nat) : Byte :=
  match packetAddr chain i with
  | some a => Memory.read mem a
  | none => 0

/-- Packet memory with byte `i` of the packet stored in `chain` written. A position beyond the chain writes nothing (log entry 16). -/
def packetWrite (mem : List Host.Cell) (chain : List CellNo) (i : Nat) (v : Byte) : List Host.Cell :=
  match packetAddr chain i with
  | some a => Memory.write mem a v
  | none => mem

/-! ### Counters -/

/-- The count of number `k`. -/
def Counters.get (c : Counters) : Ctr → BitVec 24
  | .rxframes => c.rxframes
  | .fcerr => c.fcerr
  | .fcjump => c.fcjump
  | .alignloss => c.alignloss
  | .rxpkts => c.rxpkts
  | .rxlong => c.rxlong
  | .rxpadded => c.rxpadded
  | .hdrerr => c.hdrerr
  | .offmiss => c.offmiss
  | .dropnobuf => c.dropnobuf
  | .dropqfull => c.dropqfull
  | .rxabort => c.rxabort
  | .ohlost => c.ohlost
  | .txframes => c.txframes
  | .txpkts => c.txpkts
  | .txabort => c.txabort

/-- A count one higher, staying at 16,777,215 (R153). -/
def countUp (n : BitVec 24) : BitVec 24 := if n = 0xFFFFFF then n else n + 1

/-- The bank with counter `k` increased by its occurrence (R152, R153). -/
def Counters.bump (k : Ctr) (c : Counters) : Counters :=
  match k with
  | .rxframes => { c with rxframes := countUp c.rxframes }
  | .fcerr => { c with fcerr := countUp c.fcerr }
  | .fcjump => { c with fcjump := countUp c.fcjump }
  | .alignloss => { c with alignloss := countUp c.alignloss }
  | .rxpkts => { c with rxpkts := countUp c.rxpkts }
  | .rxlong => { c with rxlong := countUp c.rxlong }
  | .rxpadded => { c with rxpadded := countUp c.rxpadded }
  | .hdrerr => { c with hdrerr := countUp c.hdrerr }
  | .offmiss => { c with offmiss := countUp c.offmiss }
  | .dropnobuf => { c with dropnobuf := countUp c.dropnobuf }
  | .dropqfull => { c with dropqfull := countUp c.dropqfull }
  | .rxabort => { c with rxabort := countUp c.rxabort }
  | .ohlost => { c with ohlost := countUp c.ohlost }
  | .txframes => { c with txframes := countUp c.txframes }
  | .txpkts => { c with txpkts := countUp c.txpkts }
  | .txabort => { c with txabort := countUp c.txabort }

/-- The channel with a live counter increased. -/
def Chan.bump (k : Ctr) (c : Chan) : Chan := { c with live := c.live.bump k }

/-! ### Channels and lanes -/

/-- Channel `ch` of the part. -/
def State.chan (s : State) (ch : ChanId) : Chan := s.chans.get ch

/-- `s` with channel `ch` replaced. -/
def State.setChan (s : State) (ch : ChanId) (c : Chan) : State := { s with chans := s.chans.set ch c }

/-- What an event of one channel can touch: the channel itself, the pool, packet memory and the global event flags (Table 1: the
channels meet only at the pool, the Command Unit, the Event Unit and the Bus Window). -/
structure Lane where
  c : Chan
  pool : Pool
  mem : List Host.Cell
  gf : GFlags
  deriving DecidableEq, Repr

/-- Channel `ch`'s lane. -/
def State.lane (s : State) (ch : ChanId) : Lane := ⟨s.chan ch, s.pool, s.mem, s.gflags⟩

/-- `s` with channel `ch`'s lane replaced. -/
def State.setLane (s : State) (ch : ChanId) (l : Lane) : State :=
  { s with chans := s.chans.set ch l.c, pool := l.pool, mem := l.mem, gflags := l.gf }

/-- An event of channel `ch`. -/
def State.onLane (s : State) (ch : ChanId) (f : Lane → Lane) : State := s.setLane ch (f (s.lane ch))

/-- A lane with its channel changed. -/
def Lane.mapChan (f : Chan → Chan) (l : Lane) : Lane := { l with c := f l.c }

/-! ### The cell pool: claims and returns -/

/-- The two directions in which a channel holds cells (R81). -/
inductive Dir where
  | rx
  | tx
  deriving DecidableEq, Repr

/-- The channel's holding in a direction (R81). -/
def Chan.holding (d : Dir) (c : Chan) : Nat :=
  match d with
  | .rx => c.rxHolding
  | .tx => c.txHolding

/-- The channel with its holding in a direction replaced. -/
def Chan.setHolding (d : Dir) (n : Nat) (c : Chan) : Chan :=
  match d with
  | .rx => { c with rxHolding := n }
  | .tx => { c with txHolding := n }

/-- The channel's quota in a direction (R86). -/
def Chan.quota (d : Dir) (c : Chan) : Nat :=
  match d with
  | .rx => c.cfg.rxquota.toNat
  | .tx => c.cfg.txquota.toNat

/-- FREE (Table 8). -/
def Pool.freeCount (p : Pool) : Nat := p.free.length

/-- R85: a claim of `n` cells is granted when the pool is READY, FREE is at least n, and the holding plus n is within the quota. -/
def Lane.canClaim (d : Dir) (n : Nat) (l : Lane) : Bool :=
  l.pool.state == .ready && decide (n ≤ l.pool.freeCount) && decide (l.c.holding d + n ≤ l.c.quota d)

/-- The chain a granted claim of `n` cells gets: the first n cells of the free list, in its order (R85). -/
def Lane.claimed (n : Nat) (l : Lane) : List CellNo := l.pool.free.take n

/-- R88: a grant takes FREE from `thr` or above to below it. -/
def crossesDown (thr before after : Nat) : Bool := decide (thr ≤ before) && decide (after < thr)

/-- The grant of a claim (R85) with its POOLLOW test (R88): `thr` is POOLTHR. -/
def Lane.grant (thr : Word) (d : Dir) (n : Nat) (l : Lane) : Lane :=
  { l with
    c := l.c.setHolding d (l.c.holding d + n)
    pool := { l.pool with free := l.pool.free.drop n }
    gf := { l.gf with
      poollow := l.gf.poollow || crossesDown thr.toNat l.pool.freeCount (l.pool.freeCount - n) } }

/-- The return of a whole chain (R89): appended to the free list's tail in chain order, the holding lower by its cells. -/
def Lane.returnChain (d : Dir) (chain : List CellNo) (l : Lane) : Lane :=
  { l with
    c := l.c.setHolding d (l.c.holding d - chain.length)
    pool := { l.pool with free := l.pool.free ++ chain } }

/-- The build's end (R82): the free list holds 0 to 511, the pool is READY. -/
def Pool.built (p : Pool) : Pool := { p with state := .ready, free := cellsUpTo 512, ticks := 0 }

/-- The build having appended at least `k` further cells, short of the last one, whose appending is the build's end (R82, R84). -/
def Pool.advanced (k : Nat) (p : Pool) : Pool := { p with free := cellsUpTo (min 511 (p.freeCount + k)) }

/-! ### Event flags set by a channel's blocks -/

/-- The channel with its ALIGN flag set. -/
def Chan.flagAlign (c : Chan) : Chan := { c with flags := { c.flags with align := true } }

/-- The channel with its ALARM flag set. -/
def Chan.flagAlarm (c : Chan) : Chan := { c with flags := { c.flags with alarm := true } }

/-- The channel with its OHREC flag set. -/
def Chan.flagOhrec (c : Chan) : Chan := { c with flags := { c.flags with ohrec := true } }

/-- The channel with its RXDROP flag set. -/
def Chan.flagRxdrop (c : Chan) : Chan := { c with flags := { c.flags with rxdrop := true } }

/-- The channel with its RXQ flag set. -/
def Chan.flagRxq (c : Chan) : Chan := { c with flags := { c.flags with rxq := true } }

/-- The channel with its TXDONE flag set. -/
def Chan.flagTxdone (c : Chan) : Chan := { c with flags := { c.flags with txdone := true } }

/-! ### The record ring -/

/-- The record that shows a monitor's state after an occurrence (R47). -/
def Monitor.record (m : Monitor) (causes : Causes) (fcnt : Byte) (locked : Bool) : OhRecord where
  seq := m.nextSeq
  causes := causes
  fcnt := fcnt
  locked := locked
  statKnown := m.stat.accepted.isSome
  pv := (m.stat.accepted.map StatVal.pv).getD false
  fe := (m.stat.accepted.map StatVal.fe).getD false
  labelKnown := m.label.accepted.isSome
  label := m.label.accepted.getD 0
  degraded := m.conds.degraded
  lost := m.pendingLost

/-- A record falls due (R49): with fewer than 16 in the ring it is stored at the tail and OHREC is set; with 16 it is lost, and the
pending-lost count and OHLOST increase. -/
def Chan.recordDue (causes : Causes) (fcnt : Byte) (locked : Bool) (c : Chan) : Chan :=
  if c.mon.ring.length < 16 then
    { c with mon := { c.mon with
        ring := c.mon.ring ++ [c.mon.record causes fcnt locked]
        nextSeq := c.mon.nextSeq + 1
        pendingLost := 0 } }.flagOhrec
  else
    { c with mon := { c.mon with
        pendingLost := if c.mon.pendingLost = 255 then 255 else c.mon.pendingLost + 1 } }.bump .ohlost

end Sys2Proof.Machine
end

