-- ==== Sys2Proof/Machine/Flags.lean ====
section
/-! DEFINITION. The Event Unit: event flags and masks as words, clearing, and -INT (R167 to R170). -/

namespace Sys2Proof.Machine

open Sys2Proof

/-- GEVENT or GEMASK as read (Table 23). -/
def GFlags.toWord (f : GFlags) : Word :=
  bitAt 0 f.initdone ||| bitAt 1 f.cmddone ||| bitAt 2 f.cmdlost ||| bitAt 3 f.poollow
    ||| bitAt 4 f.porterr ||| bitAt 5 f.cfgerr

/-- CEVENT or CEMASK as read (Table 23). -/
def CFlags.toWord (f : CFlags) : Word :=
  bitAt 0 f.rxq ||| bitAt 1 f.rxdrop ||| bitAt 2 f.ohrec ||| bitAt 3 f.align ||| bitAt 4 f.alarm ||| bitAt 5 f.txdone

/-- The mask bits of a written GEMASK word; bits 15–6 are disregarded (R173). -/
def GFlags.ofWord (w : Word) : GFlags where
  initdone := w.getLsbD 0
  cmddone := w.getLsbD 1
  cmdlost := w.getLsbD 2
  poollow := w.getLsbD 3
  porterr := w.getLsbD 4
  cfgerr := w.getLsbD 5

/-- The mask bits of a written CEMASK word; bits 15–6 are disregarded (R173). -/
def CFlags.ofWord (w : Word) : CFlags where
  rxq := w.getLsbD 0
  rxdrop := w.getLsbD 1
  ohrec := w.getLsbD 2
  align := w.getLsbD 3
  alarm := w.getLsbD 4
  txdone := w.getLsbD 5

/-- The global flags after a clearing write: each flag whose bit is written as 1 is cleared (R169). -/
def GFlags.clear (f : GFlags) (w : Word) : GFlags where
  initdone := f.initdone && !w.getLsbD 0
  cmddone := f.cmddone && !w.getLsbD 1
  cmdlost := f.cmdlost && !w.getLsbD 2
  poollow := f.poollow && !w.getLsbD 3
  porterr := f.porterr && !w.getLsbD 4
  cfgerr := f.cfgerr && !w.getLsbD 5

/-- A channel's flags after a clearing write (R169). -/
def CFlags.clear (f : CFlags) (w : Word) : CFlags where
  rxq := f.rxq && !w.getLsbD 0
  rxdrop := f.rxdrop && !w.getLsbD 1
  ohrec := f.ohrec && !w.getLsbD 2
  align := f.align && !w.getLsbD 3
  alarm := f.alarm && !w.getLsbD 4
  txdone := f.txdone && !w.getLsbD 5

/-- At least one flag of the channel is set: its GSTAT summary bit, whatever the masks (R164). -/
def CFlags.any (f : CFlags) : Bool := f.rxq || f.rxdrop || f.ohrec || f.align || f.alarm || f.txdone

/-- Some global flag and its mask bit are both set. -/
def GFlags.enabled (f m : GFlags) : Bool :=
  (f.initdone && m.initdone) || (f.cmddone && m.cmddone) || (f.cmdlost && m.cmdlost)
    || (f.poollow && m.poollow) || (f.porterr && m.porterr) || (f.cfgerr && m.cfgerr)

/-- Some flag of the channel and its mask bit are both set. -/
def Chan.enabledEvent (c : Chan) : Bool :=
  (c.flags.rxq && c.mask.rxq) || (c.flags.rxdrop && c.mask.rxdrop) || (c.flags.ohrec && c.mask.ohrec)
    || (c.flags.align && c.mask.align) || (c.flags.alarm && c.mask.alarm) || (c.flags.txdone && c.mask.txdone)

/-- -INT is asserted exactly while at least one event flag and its mask bit are both set (R170). -/
def State.intAsserted (s : State) : Bool :=
  s.gflags.enabled s.gmask
    || (s.chan 0).enabledEvent || (s.chan 1).enabledEvent || (s.chan 2).enabledEvent || (s.chan 3).enabledEvent

/-- PORTERR set (R104, R113, R114). -/
def GFlags.withPorterr (f : GFlags) : GFlags := { f with porterr := true }

/-- CFGERR set (R147, R150, R165). -/
def GFlags.withCfgerr (f : GFlags) : GFlags := { f with cfgerr := true }

/-- CMDLOST set (R139). -/
def GFlags.withCmdlost (f : GFlags) : GFlags := { f with cmdlost := true }

/-- CMDDONE set (R142, R143). -/
def GFlags.withCmddone (f : GFlags) : GFlags := { f with cmddone := true }

/-- INITDONE set (R82, R83). -/
def GFlags.withInitdone (f : GFlags) : GFlags := { f with initdone := true }

end Sys2Proof.Machine
end

