-- ==== Sys2Proof/Machine/Delineator.lean ====
section
/-! DEFINITION. The Block Delineator and the receive queue's append (chapter 4, and R93 to R95 of chapter 6). -/

namespace Sys2Proof.Machine

open Sys2Proof

/-- The payload length P = FLEN − 8 of the channel (R2). -/
def Chan.payloadLen (c : Chan) : Nat := c.cfg.flen.toNat - 8

/-! ### Block headers -/

/-- LEN, the upper twelve bits of a block header (R10). -/
def headerLen (h : Word) : Nat := h.toNat / 16

/-- The HCHK that a LEN requires: the bitwise inverse of the XOR of its three nibbles (R10). -/
def hchkOf (len : Nat) : Nat := 15 - (((len / 256) % 16 ^^^ (len / 16) % 16) ^^^ len % 16)

/-- The block header of a LEN (R10). -/
def headerOf (len : Nat) : Word := natWord (len * 16 + hchkOf len)

/-- A header is valid when its HCHK agrees with its LEN (R10). -/
def headerValid (h : Word) : Bool := h.toNat % 16 == hchkOf (headerLen h)

/-! ### Leaving a parse -/

/-- The delineator's parse state given up and `st` entered: no header byte, no bytes remaining, no start position, no mismatch. -/
def Delin.enter (st : DelState) (d : Delin) : Delin :=
  { d with state := st, startPos := none, headerByte := none, remaining := 0, stored := 0, mismatch := 0 }

/-- The abort of the packet in assembly, if there is one (R70): its chain is returned, RXABORT is counted and RXDROP set. What
is parsed without being stored is dropped without counting. -/
def Lane.abortAssembly (l : Lane) : Lane :=
  match l.c.del.assembly with
  | none => l
  | some d =>
    (l.returnChain .rx d.chain).mapChan fun c =>
      { (c.bump .rxabort).flagRxdrop with del := { c.del with assembly := none } }

/-- R71: a departure from LOCKED or a CARRIER onset puts the delineator in HOLD, aborting a packet in assembly; one already in HOLD
is not affected. -/
def Lane.delinHold (l : Lane) : Lane :=
  if l.c.del.state = .hold then l
  else l.abortAssembly.mapChan fun c => { c with del := c.del.enter .hold }

/-! ### Finding the stream -/

/-- R57: the latched FBO evaluated in SEEK. With `counting` an FBO from P to 0xFFFE counts OFFMISS (R62 evaluates without counting
again); with `pos0Passed` payload position 0 has gone by, so an FBO of 0 cannot be taken (R62). -/
def Chan.seekEvaluate (counting pos0Passed : Bool) (c : Chan) : Chan :=
  let fbo := c.del.latchedFbo.toNat
  if fbo < c.payloadLen then
    if pos0Passed && fbo == 0 then c
    else { c with del := { c.del.enter .header with startPos := some fbo } }
  else if fbo = 0xFFFF then c
  else if counting then c.bump .offmiss
  else c

/-- R56: the aligner tells of an entry to LOCKED: HOLD is left for SEEK. -/
def Chan.delinLockedEntered (c : Chan) : Chan :=
  if c.del.state = .hold then { c with del := c.del.enter .seek } else c

/-- R56: the monitor tells of a CARRIER end: HOLD is left for SEEK, and this frame's FBO is evaluated at once. -/
def Chan.delinCarrierEnd (c : Chan) : Chan :=
  if c.del.state = .hold then { c with del := c.del.enter .seek }.seekEvaluate true false else c

/-! ### The offset check -/

/-- The prediction from `r` bytes of the block in progress: position r if it lies in this frame, else none (R60). -/
def predictAfter (payloadLen r : Nat) : Option Nat := if r < payloadLen then some r else none

/-- R61: the FBO agrees with a prediction when it equals the predicted position, or is 0xFFFF where none is predicted. -/
def fboAgrees (fbo : Nat) (prediction : Option Nat) : Bool :=
  match prediction with
  | some p => fbo == p
  | none => fbo == 0xFFFF

/-- R61 and R62: the latched FBO compared with the prediction. On a second consecutive disagreement the parse ends and the FBO
is evaluated in SEEK without counting again. The answer says whether the delineator stays with its parse. -/
def Lane.offsetCompare (prediction : Option Nat) (pos0Passed : Bool) (l : Lane) : Lane × Bool :=
  if fboAgrees l.c.del.latchedFbo.toNat prediction then
    (l.mapChan fun c => { c with del := { c.del with mismatch := 0 } }, true)
  else
    let counted := l.mapChan (Chan.bump .offmiss)
    if l.c.del.mismatch + 1 < 2 then
      (counted.mapChan fun c => { c with del := { c.del with mismatch := c.del.mismatch + 1 } }, true)
    else
      (counted.abortAssembly.mapChan fun c =>
        { c with del := c.del.enter .seek }.seekEvaluate false pos0Passed, false)

/-- R60: the check made at the offset point in TRACK; with one header byte collected it is deferred to payload position 0. -/
def Lane.offsetCheck (l : Lane) : Lane :=
  match l.c.del.state with
  | .body | .skip => (l.offsetCompare (predictAfter l.c.payloadLen l.c.del.remaining) false).1
  | .header =>
    match l.c.del.headerByte with
    | none => (l.offsetCompare (some 0) false).1
    | some _ => l
  | .hold | .seek => l

/-- R55: the FBO byte at offset 5 arrives: the FBO is latched in every state, evaluated in SEEK and checked in TRACK. -/
def Lane.offsetPoint (low : Byte) (l : Lane) : Lane :=
  let latched := l.mapChan fun c => { c with del := { c.del with latchedFbo := mkWord c.del.fboHigh low } }
  match l.c.del.state with
  | .hold => latched
  | .seek => latched.mapChan (Chan.seekEvaluate true false)
  | .header | .body | .skip => latched.offsetCheck

/-! ### Header acceptance -/

/-- R65: the stored length of a packet of LEN `len`. -/
def ChanCfg.storeLen (g : ChanCfg) (len : Nat) : Nat :=
  if g.slotlen = 0 then min len g.maxlen.toNat else g.slotlen.toNat

/-- R64 and R65: the receive descriptor of an accepted header, with the chain granted. -/
def Chan.newDesc (len : Nat) (chain : List CellNo) (c : Chan) : RxDesc where
  pktseq := c.del.nextPktseq
  wirelen := len
  storelen := c.cfg.storeLen len
  long := decide (c.cfg.storeLen len < len)
  padded := decide (len < c.cfg.storeLen len)
  fcnt := c.del.headerFcnt
  chain := chain

/-- R64 to R66: a valid header with LEN `len` ≥ 1 is accepted: it takes the next PKTSEQ and makes one claim; granted, the packet is in
assembly in BODY; refused, DROPNOBUF is counted, RXDROP set, and the body is skipped. `thr` is POOLTHR. -/
def Lane.acceptHeader (thr : Word) (len : Nat) (l : Lane) : Lane :=
  let n := cellsFor (l.c.cfg.storeLen len)
  let desc := l.c.newDesc len (l.claimed n)
  if l.canClaim .rx n then
    (l.grant thr .rx n).mapChan fun c =>
      { c with del := { c.del with
          state := .body, headerByte := none, remaining := len, stored := 0
          assembly := some desc, nextPktseq := c.del.nextPktseq + 1 } }
  else
    l.mapChan fun c =>
      { (c.bump .dropnobuf).flagRxdrop with del := { c.del with
          state := .skip, headerByte := none, remaining := len, nextPktseq := c.del.nextPktseq + 1 } }

/-- A valid header acted on: an idle block returns to HEADER (R59), a packet header is accepted (R64). -/
def Lane.actOnHeader (thr : Word) (len : Nat) (l : Lane) : Lane :=
  if len = 0 then l.mapChan fun c => { c with del := { c.del with headerByte := none } }
  else l.acceptHeader thr len

/-- R63: a header that fails its check counts HDRERR and sends the delineator to SEEK. -/
def Chan.headerFailed (c : Chan) : Chan :=
  { c.bump .hdrerr with del := c.del.enter .seek }

/-- The header `h` completes at payload position `pos`. At position 0 it began in an earlier frame, and the deferred comparison
of R61 is made after the check and before the header is acted on. -/
def Lane.headerCompleted (thr : Word) (pos : Nat) (h : Word) (l : Lane) : Lane :=
  if headerValid h then
    if pos = 0 then
      let (l', stays) := l.offsetCompare (predictAfter l.c.payloadLen (1 + headerLen h)) true
      if stays then l'.actOnHeader thr (headerLen h) else l'
    else l.actOnHeader thr (headerLen h)
  else l.mapChan Chan.headerFailed

/-! ### Body and completion -/

/-- R94 and R95: a descriptor appended to the receive queue, with RXPKTS, RXLONG or RXPADDED counted together (R154) and the RXQ test. -/
def Chan.appendRx (d : RxDesc) (c : Chan) : Chan :=
  let c1 := { c with rq := c.rq ++ [d] }.bump .rxpkts
  let c2 := if d.long then c1.bump .rxlong else c1
  let c3 := if d.padded then c2.bump .rxpadded else c2
  if c.rq.length < c.cfg.rqthr.toNat ∧ c.cfg.rqthr.toNat ≤ c.rq.length + 1 then c3.flagRxq else c3

/-- R68: the packet in assembly is complete: appended to a queue with room, or dropped against a full one with its chain returned,
DROPQFULL counted and RXDROP set. Either way HEADER begins with no byte collected. -/
def Lane.completePacket (l : Lane) : Lane :=
  match l.c.del.assembly with
  | none => l.mapChan fun c => { c with del := { c.del with state := .header, headerByte := none } }
  | some d =>
    let l1 :=
      if l.c.rq.length < 32 then l.mapChan (Chan.appendRx d)
      else (l.returnChain .rx d.chain).mapChan fun c => (c.bump .dropqfull).flagRxdrop
    l1.mapChan fun c =>
      { c with del := { c.del with state := .header, headerByte := none, stored := 0, assembly := none } }

/-- R67: a body byte is written to packet memory while the stored count is below STORELEN. -/
def Lane.storeBody (v : Byte) (l : Lane) : Lane :=
  match l.c.del.assembly with
  | none => l
  | some d =>
    if l.c.del.stored < d.storelen then
      { l with
        mem := packetWrite l.mem d.chain l.c.del.stored v
        c := { l.c with del := { l.c.del with stored := l.c.del.stored + 1 } } }
    else l

/-- The lane with one wire byte of the body consumed. -/
def Lane.consume (l : Lane) : Lane :=
  l.mapChan fun c => { c with del := { c.del with remaining := c.del.remaining - 1 } }

/-- R58, BODY: a byte is consumed and stored; the last one completes the packet. -/
def Lane.bodyByte (v : Byte) (l : Lane) : Lane :=
  let l' := (l.storeBody v).consume
  if l'.c.del.remaining = 0 then l'.completePacket else l'

/-- R58, SKIP: a byte is consumed and discarded; after the last one HEADER begins. -/
def Lane.skipByte (l : Lane) : Lane :=
  let l' := l.consume
  if l'.c.del.remaining = 0 then
    l'.mapChan fun c => { c with del := { c.del with state := .header, headerByte := none } }
  else l'

/-- R58, HEADER: the first byte is kept with the frame FCNT; the second completes the header. -/
def Lane.headerByteIn (thr : Word) (pos : Nat) (v : Byte) (l : Lane) : Lane :=
  match l.c.del.headerByte with
  | none =>
    l.mapChan fun c => { c with del := { c.del with headerByte := some v, headerFcnt := c.mon.frameFcnt } }
  | some h => l.headerCompleted thr pos (mkWord h v)

/-- A payload byte lies before the start position of its frame (R58). -/
def Delin.beforeStart (pos : Nat) (d : Delin) : Bool :=
  match d.startPos with
  | some p => decide (pos < p)
  | none => false

/-- R58: the payload byte at position `pos` is discarded, collected, stored or skipped. -/
def Lane.payloadByte (thr : Word) (pos : Nat) (v : Byte) (l : Lane) : Lane :=
  match l.c.del.state with
  | .hold | .seek => l
  | .header => if l.c.del.beforeStart pos then l else l.headerByteIn thr pos v
  | .body => if l.c.del.beforeStart pos then l else l.bodyByte v
  | .skip => if l.c.del.beforeStart pos then l else l.skipByte

/-- R55: at the end of a frame the start position becomes none. -/
def Chan.delinFrameEnd (c : Chan) : Chan := { c with del := { c.del with startPos := none } }

end Sys2Proof.Machine
end

