-- ==== Sys2Proof/Machine/OverheadMonitor.lean ====
section
/-! DEFINITION. The Overhead Monitor (chapter 3). -/

namespace Sys2Proof.Machine

open Sys2Proof

/-! ### Persistence and conditions -/

/-- R38 and R39: a frame's value `v` goes through the filter of length `lim`. -/
def Persist.step {α : Type} [DecidableEq α] (lim : Nat) (v : α) (p : Persist α) : Persist α :=
  let n := if p.cand = some v then (if p.count = lim then p.count else p.count + 1) else 1
  { cand := some v, count := n, accepted := if n = lim then some v else p.accepted }

/-- LABELMIS holds: EXPLABEL is not 0, the accepted LABEL is known and differs from it (R40). -/
def labelMismatch (explabel : Word) (accepted : Option Byte) : Bool :=
  match accepted with
  | none => false
  | some v => explabel != 0 && v.setWidth 16 != explabel

/-- CARRIER and FAREND from the accepted STAT, LABELMIS from the accepted LABEL (R40); DEGRADED as given. -/
def Conds.evaluate (explabel : Word) (stat : Option StatVal) (label : Option Byte) (degraded : Bool) : Conds where
  carrier := (stat.map fun v => !v.pv).getD false
  farend := (stat.map StatVal.fe).getD false
  labelmis := labelMismatch explabel label
  degraded := degraded

/-- At least one condition is set. -/
def Conds.any (k : Conds) : Bool := k.carrier || k.farend || k.labelmis || k.degraded

/-- PV and FE of a STAT byte, bits 7 and 6; bits 5–0 are disregarded (R5, R38). -/
def StatVal.ofByte (b : Byte) : StatVal where
  pv := b.getLsbD 7
  fe := b.getLsbD 6

/-- R43: DEGRADED after a window end with `m` mismatches. -/
def degradedAfter (g : ChanCfg) (m : Nat) (old : Bool) : Bool :=
  if g.dset.toNat ≤ m then true else if m ≤ g.dclr.toNat then false else old

/-! ### Entering and leaving LOCKED -/

/-- R33, R46, R48: the monitor is told that LOCKED has been entered: it starts afresh in MONITORING, an ALIGN record with LOCKED 1
and FCNT 0 is due, and the entry-fill flag is set. The record to be filled is known by its SEQ, if it was stored. -/
def Chan.monitorEnter (c : Chan) : Chan :=
  let fresh := { c with mon := { c.mon with
    mode := .monitoring, firstFrame := true, runXor := 0
    stat := {}, label := {}, winFrames := 0, winMismatches := 0 } }
  let recorded := fresh.recordDue { align := true } 0 true
  { recorded with mon := { recorded.mon with
      entryFill := true
      entrySeq := if c.mon.ring.length < 16 then some c.mon.nextSeq else none } }

/-- R45: the monitor is told that LOCKED has been left: WAITING, everything unknown and clear, an ALIGN record with LOCKED 0 due, and
ALARM set if a condition was set. R45 does not say what the first-frame flag does; it keeps its value here. DESIGN CHOICE, log
entry 22, safe. -/
def Chan.monitorLeave (c : Chan) : Chan :=
  let cleared := { c with mon := { c.mon with
    mode := .waiting, runXor := 0, stat := {}, label := {}, conds := {}
    winFrames := 0, winMismatches := 0, entryFill := false, entrySeq := none } }
  let recorded := cleared.recordDue { align := true } c.mon.frameFcnt false
  if c.mon.conds.any then recorded.flagAlarm else recorded

/-! ### Bytes of a processed frame -/

/-- R34: a byte of a processed frame is XORed into the running XOR. -/
def Chan.monitorXor (v : Byte) (c : Chan) : Chan := { c with mon := { c.mon with runXor := c.mon.runXor ^^^ v } }

/-- R48: the entry record, if it is still in the ring, gets its FCNT. -/
def fillEntry (seq : Option Word) (v : Byte) (ring : List OhRecord) : List OhRecord :=
  ring.map fun r => if some r.seq = seq then { r with fcnt := v } else r

/-- R34 and R48: the FCNT byte is kept as the frame FCNT and fills a waiting entry record. -/
def Chan.monitorFcnt (v : Byte) (c : Chan) : Chan :=
  { c with mon := { c.mon with
      frameFcnt := v
      ring := if c.mon.entryFill then fillEntry c.mon.entrySeq v c.mon.ring else c.mon.ring
      entryFill := false
      entrySeq := none } }

/-- R34: at the last byte of a processed frame the running XOR becomes the previous XOR, and the first-frame flag is cleared. -/
def Chan.monitorFrameEnd (c : Chan) : Chan :=
  { c with mon := { c.mon with prevXor := c.mon.runXor, runXor := 0, firstFrame := false } }

/-! ### The overhead close -/

/-- R36: from the second processed frame on, the frame's FCNT differs from the last FCNT plus 1. -/
def Monitor.fcntJumped (m : Monitor) : Bool := !m.firstFrame && m.frameFcnt != m.lastFcnt + 1

/-- R37: from the second processed frame on, the FCHK byte differs from the previous XOR. -/
def Monitor.checkFailed (fchk : Byte) (m : Monitor) : Bool := !m.firstFrame && fchk != m.prevXor

/-- The window frame count after this frame, before a window end resets it (R43). -/
def Monitor.windowFrames (m : Monitor) : Nat := m.winFrames + 1

/-- The window mismatch count after this frame's check (R37). -/
def Monitor.windowMismatches (fchk : Byte) (m : Monitor) : Nat := m.winMismatches + (m.checkFailed fchk).toNat

/-- R43: this overhead close is a window end. -/
def Chan.windowEnds (c : Chan) : Bool := c.mon.windowFrames == c.cfg.dwin.toNat

/-- The STAT filter after the frame's STAT byte (R38). -/
def Chan.statAfter (c : Chan) : Persist StatVal := c.mon.stat.step c.cfg.persist.toNat (StatVal.ofByte c.mon.statByte)

/-- The LABEL filter after the frame's LABEL byte (R39). -/
def Chan.labelAfter (c : Chan) : Persist Byte := c.mon.label.step c.cfg.persist.toNat c.mon.labelByte

/-- The four conditions after the overhead close (R40, R43). -/
def Chan.condsAfter (fchk : Byte) (c : Chan) : Conds :=
  Conds.evaluate c.cfg.explabel c.statAfter.accepted c.labelAfter.accepted
    (if c.windowEnds then degradedAfter c.cfg (c.mon.windowMismatches fchk) c.mon.conds.degraded
     else c.mon.conds.degraded)

/-- The causes that arise at the overhead close (R46). -/
def Chan.closeCauses (fchk : Byte) (c : Chan) : Causes where
  status := c.statAfter.accepted != c.mon.stat.accepted
  label := c.labelAfter.accepted != c.mon.label.accepted
  degrade := (c.condsAfter fchk).degraded != c.mon.conds.degraded

/-- Some cause is in the set. -/
def Causes.any (k : Causes) : Bool := k.align || k.status || k.label || k.degrade

/-- R35: the monitor's judgement of a frame at its FCHK byte: counts, persistence, conditions, window, record and ALARM as one event. -/
def Chan.overheadJudge (fchk : Byte) (c : Chan) : Chan :=
  let counted0 := if c.mon.fcntJumped then c.bump .fcjump else c
  let counted := if c.mon.checkFailed fchk then counted0.bump .fcerr else counted0
  let judged := { counted with mon := { c.mon with
    lastFcnt := c.mon.frameFcnt
    stat := c.statAfter
    label := c.labelAfter
    conds := c.condsAfter fchk
    winFrames := if c.windowEnds then 0 else c.mon.windowFrames
    winMismatches := if c.windowEnds then 0 else c.mon.windowMismatches fchk } }
  let recorded :=
    if (c.closeCauses fchk).any then judged.recordDue (c.closeCauses fchk) c.mon.frameFcnt true else judged
  if c.condsAfter fchk = c.mon.conds then recorded else recorded.flagAlarm

/-- R35 and R42: the overhead close, with the delineator told of a CARRIER onset or end before the frame's first payload byte. -/
def Lane.overheadClose (fchk : Byte) (l : Lane) : Lane :=
  let judged := l.mapChan (Chan.overheadJudge fchk)
  let after := (l.c.condsAfter fchk).carrier
  if !l.c.mon.conds.carrier && after then judged.delinHold
  else if l.c.mon.conds.carrier && !after then judged.mapChan Chan.delinCarrierEnd
  else judged

/-- R41: an accepted write of EXPLABEL re-evaluates LABELMIS at once; in MONITORING a change sets ALARM. In WAITING LABELMIS stays
clear, the accepted LABEL being unknown. -/
def Chan.labelmisReevaluated (c : Chan) : Chan :=
  let now := labelMismatch c.cfg.explabel c.mon.label.accepted
  let c' := { c with mon := { c.mon with conds := { c.mon.conds with labelmis := now } } }
  if c.mon.mode = .monitoring ∧ now ≠ c.mon.conds.labelmis then c'.flagAlarm else c'

end Sys2Proof.Machine
end

