-- ==== Sys2Proof/Machine/Aligner.lean ====
section
/-! DEFINITION. The Frame Aligner (chapter 2) and the hand-off of a processed frame's bytes (R22). -/

namespace Sys2Proof.Machine

open Sys2Proof

/-- The alignment marker 0xB5, 0x4E as sixteen bits (R3). -/
def marker : Word := 0xB54E

/-- R17: the search register with a bit shifted in. -/
def shiftIn (reg : Word) (b : Bool) : Word := (reg <<< 1) ||| (if b then 1 else 0)

/-- R17 and R25: a bit restarts the silence timer and is shifted into the search register. -/
def Aligner.takeBit (tsil : Word) (b : Bool) (a : Aligner) : Aligner :=
  { a with searchReg := shiftIn a.searchReg b, silence := some tsil.toNat }

/-- The aligner back in HUNT, its position and counts discarded (R19, R24); the search register is kept. -/
def Aligner.toHunt (a : Aligner) : Aligner :=
  { a with state := .hunt, bitPos := 0, verifyCount := 0, missCount := 0 }

/-- The aligner entering SILENT (R26). -/
def Aligner.toSilent (a : Aligner) : Aligner :=
  { state := .silent, loopSource := a.loopSource }

/-! ### Processed frames -/

/-- R22: a processed frame starts: RXFRAMES counts it, and its two marker bytes, as received, reach the monitor. DEDUCED, log
entry 13, safe: both are handed on at the comparison that decides to process the frame. -/
def Chan.startProcessed (c : Chan) : Chan :=
  ((c.bump .rxframes).monitorXor (highByte c.al.searchReg)).monitorXor (lowByte c.al.searchReg)

/-- R20: the aligner enters LOCKED: ALIGN is set, the monitor and the delineator are told, and the first processed frame starts. -/
def Chan.enterLocked (c : Chan) : Chan :=
  let locked := { c with al := { c.al with state := .locked, missCount := 0, verifyCount := 0 } }
  (locked.flagAlign.monitorEnter.delinLockedEntered).startProcessed

/-- The monitor and the delineator are told that LOCKED has been left, and ALIGN is set (R24, R29). -/
def Lane.leaveLocked (l : Lane) : Lane := (l.mapChan fun c => c.flagAlign.monitorLeave).delinHold

/-- R24: alignment loss: ALIGNLOSS is counted, and LOCKED is left. -/
def Lane.loseAlignment (l : Lane) : Lane := (l.mapChan (Chan.bump .alignloss)).leaveLocked

/-! ### Marker comparisons -/

/-- R18: in HUNT every bit ends a window that is tested against the marker; a match moves to VERIFY and fixes the frame position. -/
def Aligner.testWindow (a : Aligner) : Aligner :=
  if a.searchReg = marker then { a with state := .verify, bitPos := 16, verifyCount := 0 } else a

/-- R19: the comparison in VERIFY, at the sixteenth bit of an expected marker position. -/
def Chan.verifyComparison (c : Chan) : Chan :=
  if c.al.searchReg = marker then
    if c.al.verifyCount + 1 = c.cfg.vcount.toNat then c.enterLocked
    else { c with al := { c.al with verifyCount := c.al.verifyCount + 1 } }
  else { c with al := c.al.toHunt }

/-- R21: the comparison in LOCKED. A match, or a miss that stays below MISSLIM, processes the frame; the miss that reaches MISSLIM
is an alignment loss, after which the state is HUNT. -/
def Lane.lockedComparison (l : Lane) : Lane :=
  if l.c.al.searchReg = marker then
    l.mapChan fun c => { c with al := { c.al with missCount := 0 } }.startProcessed
  else if l.c.al.missCount + 1 = l.c.cfg.misslim.toNat then
    l.loseAlignment.mapChan fun c => { c with al := c.al.toHunt }
  else
    l.mapChan fun c => { c with al := { c.al with missCount := c.al.missCount + 1 } }.startProcessed

/-! ### Bytes of a processed frame -/

/-- What the byte at offset `off` does beyond the running XOR (R34, R35, R55, R58). -/
def Lane.actOnByte (thr : Word) (off : Nat) (v : Byte) (l : Lane) : Lane :=
  match off with
  | 0 | 1 => l
  | 2 => l.mapChan (Chan.monitorFcnt v)
  | 3 => l.mapChan fun c => { c with mon := { c.mon with statByte := v } }
  | 4 => l.mapChan fun c => { c with del := { c.del with fboHigh := v } }
  | 5 => l.offsetPoint v
  | 6 => l.mapChan fun c => { c with mon := { c.mon with labelByte := v } }
  | 7 => l.overheadClose v
  | pos + 8 => l.payloadByte thr pos v

/-- R22: the byte at offset `off` of a processed frame is handed on; the last one also ends the frame. -/
def Lane.deliverByte (thr : Word) (off : Nat) (v : Byte) (l : Lane) : Lane :=
  let l' := (l.mapChan (Chan.monitorXor v)).actOnByte thr off v
  if off + 1 = l.c.cfg.flen.toNat then l'.mapChan fun c => c.monitorFrameEnd.delinFrameEnd else l'

/-! ### Received bits -/

/-- R17, VERIFY and LOCKED: the bit advances the frame position; the sixteenth bit of a frame makes the marker comparison, and in LOCKED
a bit that completes a later byte delivers it. -/
def Lane.trackBit (g : Globals) (b : Bool) (l : Lane) : Lane :=
  let n := l.c.al.bitPos + 1
  let l' := l.mapChan fun c => { c with al := { c.al.takeBit g.tsil b with
    bitPos := if n = 8 * c.cfg.flen.toNat then 0 else n } }
  if n = 16 then
    if l.c.al.state = .locked then l'.lockedComparison else l'.mapChan Chan.verifyComparison
  else if l.c.al.state = .locked ∧ 16 < n ∧ n % 8 = 0 then
    l'.deliverByte g.poolthr (n / 8 - 1) (lowByte l'.c.al.searchReg)
  else l'

/-- R17: what a received bit does in each state. The first bit in SILENT moves to HUNT and is treated as a bit in HUNT (R27). -/
def Lane.receiveBit (g : Globals) (b : Bool) (l : Lane) : Lane :=
  match l.c.al.state with
  | .off => l
  | .silent => l.mapChan fun c => { c with al := ({ c.al with state := .hunt }.takeBit g.tsil b).testWindow }
  | .hunt => l.mapChan fun c => { c with al := (c.al.takeBit g.tsil b).testWindow }
  | .verify => l.trackBit g b
  | .locked => l.trackBit g b

/-- R16: the bit that a rising edge of the aligner's source delivers: RXD_n's level on the line; under LOOP 1 the bit the framer
presented after the preceding falling edge, none before the first falling edge of the run. -/
def Chan.sourceBit (rxd : Bool) (c : Chan) : Option Bool :=
  if c.al.loopSource then (if c.fr.presented then some c.fr.txd else none) else some rxd

/-- A rising edge of the aligner's source clock, with RXD_n at `rxd` (R1, R16, R17). -/
def Lane.risingEdge (g : Globals) (rxd : Bool) (l : Lane) : Lane :=
  match l.c.sourceBit rxd with
  | some b => l.receiveBit g b
  | none => l

/-! ### Silence, start and stop -/

/-- R26: the silence timer expires: SILENT is entered from HUNT, VERIFY or LOCKED, with an alignment loss from LOCKED. In OFF and SILENT
the timer is stopped, and there is no expiry. -/
def Lane.silenceExpiry (l : Lane) : Lane :=
  match l.c.al.state with
  | .off | .silent => l
  | .hunt | .verify => l.mapChan fun c => { c with al := c.al.toSilent }
  | .locked => l.loseAlignment.mapChan fun c => { c with al := c.al.toSilent }

/-- R25: one 10 µs tick of the silence timer. -/
def Lane.silenceTick (l : Lane) : Lane :=
  match l.c.al.silence with
  | none => l
  | some n =>
    if n ≤ 1 then l.silenceExpiry
    else l.mapChan fun c => { c with al := { c.al with silence := some (n - 1) } }

/-- R28: CH_START moves the aligner from OFF to HUNT. -/
def Chan.alignerStart (g : Globals) (c : Chan) : Chan :=
  { c with al := { state := .hunt, silence := some g.tsil.toNat, loopSource := c.cfg.loop == 1 } }

/-- R29: CH_STOP and CH_RESET move the aligner to OFF; from LOCKED the monitor and the delineator are told and ALIGN is set. -/
def Lane.alignerStop (l : Lane) : Lane :=
  (if l.c.al.state = .locked then l.leaveLocked else l).mapChan fun c => { c with al := {} }

end Sys2Proof.Machine
end

