-- ==== Sys2Proof/Machine/Framer.lean ====
section
/-! DEFINITION. The Transmit Framer (chapter 7, sections 7.2 to 7.6). -/

namespace Sys2Proof.Machine

open Sys2Proof

/-- The payload length P of the frame length in use (R118). -/
def Framer.payloadLen (f : Framer) : Nat := f.flenInUse - 8

/-! ### Frame starts -/

/-- R124 and R125: the mode rules at a frame start. Either change gives up the stream in progress, so no byte is owed. -/
def Chan.applyModeRules (c : Chan) : Chan :=
  match c.fr.mode with
  | .normal =>
    if c.cfg.sendalarm = 1 ∧ c.fr.inflight = none then
      { c with fr := { c.fr with mode := .alarm, owed := 0, kind := .idleHeader } }
    else c
  | .alarm =>
    if c.cfg.sendalarm = 0 then
      { c with fr := { c.fr with mode := .normal, owed := 0, kind := .idleHeader } }
    else c

/-- R126: the FE flag of the frame. -/
def Chan.feSent (c : Chan) : Bool :=
  if c.cfg.forcefe = 1 then true
  else if c.cfg.autofe = 1 then !(c.al.state == .locked && !c.mon.conds.carrier)
  else false

/-- R120: the FBO of the frame from the bytes owed; an alarm frame carries 0xFFFF. -/
def Framer.fbo (f : Framer) : Word :=
  match f.mode with
  | .alarm => 0xFFFF
  | .normal => if f.owed < f.payloadLen then natWord f.owed else 0xFFFF

/-- The STAT byte of a frame: PV in bit 7, FE in bit 6, the rest 0 (R5). -/
def statByteOf (pv fe : Bool) : Byte := (if pv then 0x80 else 0) ||| (if fe then 0x40 else 0)

/-- R119: the overhead composed at a frame start. -/
def Chan.composed (c : Chan) : Overhead where
  fcnt := c.fr.nextFcnt
  stat := statByteOf (c.fr.mode == .normal) c.feSent
  fbo := c.fr.fbo
  label := lowByte c.cfg.txlabel
  fchk := c.fr.prevXor

/-- R119: a frame start: the mode rules, then the overhead as one event; the next FCNT increases. -/
def Chan.frameStart (c : Chan) : Chan :=
  let m := c.applyModeRules
  { m with fr := { m.fr with bitPos := some 0, overhead := m.composed, nextFcnt := m.fr.nextFcnt + 1 } }

/-! ### Bytes of a frame -/

/-- The overhead byte at offset `off` (Table 21). -/
def Overhead.byteAt (o : Overhead) (off : Nat) : Byte :=
  match off with
  | 0 => 0xB5
  | 1 => 0x4E
  | 2 => o.fcnt
  | 3 => o.stat
  | 4 => highByte o.fbo
  | 5 => lowByte o.fbo
  | 6 => o.label
  | _ => o.fchk

/-- R121 and R122: a block boundary: the head of the transmit queue is started if the channel is ACTIVE, SENDALARM is 0 and the queue holds a
descriptor; otherwise an idle block is sent. The bytes owed count the whole block (log entry 11). -/
def Chan.blockBoundary (c : Chan) : Chan :=
  match c.tq with
  | [] => { c with fr := { c.fr with owed := 2, kind := .idleHeader } }
  | d :: rest =>
    if c.admin = .active ∧ c.cfg.sendalarm = 0 then
      { c with
        tq := rest
        fr := { c.fr with owed := d.len + 2, kind := .packetHeader, inflight := some ⟨d, 0⟩ } }
    else { c with fr := { c.fr with owed := 2, kind := .idleHeader } }

/-- The payload byte that the owed bytes begin with: of an idle header 0x000F, of the in-flight packet's header, or of its body, fetched
from its chain (R78, R121, R122). -/
def Lane.streamByte (l : Lane) : Byte :=
  match l.c.fr.kind with
  | .idleHeader => if l.c.fr.owed = 2 then highByte (headerOf 0) else lowByte (headerOf 0)
  | .packetHeader =>
    match l.c.fr.inflight with
    | none => 0
    | some p => if l.c.fr.owed = p.desc.len + 2 then highByte (headerOf p.desc.len) else lowByte (headerOf p.desc.len)
  | .packetBody =>
    match l.c.fr.inflight with
    | none => 0
    | some p => packetByte l.mem p.desc.chain p.cursor

/-- The first bit of the byte at offset `off` is due: the byte is taken from the overhead, from an alarm frame's payload of 0xFF
(R12), or from the block stream, whose boundary is reached here when no byte is owed (R121). -/
def Lane.loadByte (off : Nat) (l : Lane) : Lane :=
  if off < 8 then l.mapChan fun c => { c with fr := { c.fr with outByte := c.fr.overhead.byteAt off } }
  else
    match l.c.fr.mode with
    | .alarm => l.mapChan fun c => { c with fr := { c.fr with outByte := 0xFF } }
    | .normal =>
      let l' := if l.c.fr.owed = 0 then l.mapChan Chan.blockBoundary else l
      l'.mapChan fun c => { c with fr := { c.fr with outByte := l'.streamByte } }

/-- R119: bit `k` of the byte going out, most significant first, is presented on TXD_n. -/
def Framer.presentBit (k : Nat) (f : Framer) : Framer :=
  { f with txd := f.outByte.getLsbD (7 - k), presented := true }

/-- R123: the in-flight packet ends: its chain is returned, TXPKTS counted, TXDONE set. -/
def Lane.packetEnd (l : Lane) : Lane :=
  match l.c.fr.inflight with
  | none => l
  | some p =>
    (l.returnChain .tx p.desc.chain).mapChan fun c =>
      { (c.bump .txpkts).flagTxdone with fr := { c.fr with inflight := none } }

/-- The last bit of a byte of the block stream has been presented: one byte less is owed; a body byte advances the send cursor, and
the last one ends the packet (R122, R123). -/
def Lane.streamByteSent (l : Lane) : Lane :=
  let o := l.c.fr.owed - 1
  match l.c.fr.kind with
  | .idleHeader => l.mapChan fun c => { c with fr := { c.fr with owed := o } }
  | .packetHeader =>
    l.mapChan fun c => { c with fr := { c.fr with
      owed := o
      kind := match c.fr.inflight with
        | none => .packetHeader
        | some p => if o = p.desc.len then .packetBody else .packetHeader } }
  | .packetBody =>
    let sent := l.mapChan fun c => { c with fr := { c.fr with
      owed := o
      inflight := c.fr.inflight.map fun p => { p with cursor := p.cursor + 1 } } }
    if o = 0 then sent.packetEnd else sent

/-- R119: a byte's last bit has been presented: the byte enters the running XOR, and a payload byte of a NORMAL frame leaves the stream. -/
def Lane.byteSent (off : Nat) (l : Lane) : Lane :=
  let l' := l.mapChan fun c => { c with fr := { c.fr with runXor := c.fr.runXor ^^^ c.fr.outByte } }
  if 8 ≤ off ∧ l.c.fr.mode = .normal then l'.streamByteSent else l'

/-- R119: a frame ends: the running XOR becomes the previous XOR, TXFRAMES is counted, the frame position becomes none. -/
def Chan.transmitFrameEnd (c : Chan) : Chan :=
  { c.bump .txframes with fr := { c.fr with prevXor := c.fr.runXor, runXor := 0, bitPos := none } }

/-- R118 and R129: the framer becomes STOPPED; TXD_n keeps its level until the next falling edge (log entry 12). -/
def Framer.stop (f : Framer) : Framer := { f with running := false, bitPos := none, drainTimer := none }

/-- A drain has ended: the channel is DRAINING, no packet is in flight and no frame is in progress (R129). -/
def Chan.drainOver (c : Chan) : Bool := c.admin == .draining && c.fr.inflight.isNone && c.fr.bitPos.isNone

/-! ### The falling edge -/

/-- R119: with `pos` bits of the frame presented, the next one is presented. -/
def Lane.presentNext (pos : Nat) (l : Lane) : Lane :=
  let loaded := if pos % 8 = 0 then l.loadByte (pos / 8) else l
  let shown := loaded.mapChan fun c =>
    { c with fr := { c.fr.presentBit (pos % 8) with bitPos := some (pos + 1) } }
  if pos % 8 = 7 then
    let sent := shown.byteSent (pos / 8)
    if pos + 1 = 8 * l.c.fr.flenInUse then sent.mapChan Chan.transmitFrameEnd else sent
  else shown

/-- R119: a falling edge of TXCLK_n. While RUNNING the framer presents one bit, starting a frame if none is in progress; while STOPPED it
takes no action, and TXD_n is at 1 from this edge. -/
def Lane.fallingEdge (l : Lane) : Lane :=
  if l.c.fr.running then
    match l.c.fr.bitPos with
    | none => (l.mapChan Chan.frameStart).presentNext 0
    | some pos => l.presentNext pos
  else l.mapChan fun c => { c with fr := { c.fr with txd := true } }

/-! ### Start, abandonment, drain -/

/-- R127: CH_START moves the framer from STOPPED to RUNNING. TXD_n keeps its level until the first falling edge. -/
def Chan.framerStart (c : Chan) : Chan :=
  { c with fr := { running := true, flenInUse := c.cfg.flen.toNat, txd := c.fr.txd } }

/-- R130: the drain timer expires: an in-flight packet's chain is returned and TXABORT counted, the frame is cut, the framer becomes
STOPPED and the channel DISABLED. TXD_n goes to 1 at once if TXCLK_n has stopped, else at its next falling edge. -/
def Lane.abandonDrain (clockStopped : Bool) (l : Lane) : Lane :=
  let l' := match l.c.fr.inflight with
    | none => l
    | some p => (l.returnChain .tx p.desc.chain).mapChan (Chan.bump .txabort)
  l'.mapChan fun c =>
    { c with
      admin := .disabled
      fr := { c.fr.stop with
        inflight := none, owed := 0, kind := .idleHeader, runXor := 0
        txd := if clockStopped then true else c.fr.txd } }

/-- R131: CH_RESET stops the framer at once; a packet in flight is abandoned with TXABORT counted. Its chain goes back with the
channel's other chains (R90). -/
def Chan.framerReset (c : Chan) : Chan :=
  let c' := if c.fr.inflight.isSome then c.bump .txabort else c
  { c' with fr := { txd := c.fr.txd } }

end Sys2Proof.Machine
end

