-- ==== Sys2Proof/Machine/Operands.lean ====
section
/-! DEFINITION. What a write access puts on a word, the configuration table's entries by index with their ranges, and the command
codes. -/

namespace Sys2Proof.Machine

open Sys2Proof

/-! ### The word a bus access carries -/

/-- The word that a committing write writes when the data lines carry `d`: all of them in 16-bit mode; in 8-bit mode the odd byte on
D[7:0] as the high byte and the holding latch as the low byte (R160, R162). -/
def Window.committed (w : Window) (d : Word) : Word :=
  if w.width16 then d else mkWord (lowByte d) w.holdLatch

/-- The data lines of a CMD write that carries `code`: in 16-bit mode the code in the low byte and `hi` above it; in 8-bit mode `hi`
is the odd byte on D[7:0], and the code stands in the holding latch already (R137, R162). -/
def Window.cmdLines (w : Window) (code hi : Byte) : Word :=
  if w.width16 then mkWord hi code else mkWord 0 hi

/-! ### The configuration table -/

/-- The eighteen entries by name (R146). -/
inductive Entry where
  | flen | maxlen | slotlen | rxquota | txquota | persist | vcount | misslim | dwin
  | loop | explabel | txlabel | dset | dclr | rqthr | sendalarm | forcefe | autofe
  deriving DecidableEq, Repr

/-- The entry at an index (Table 27). -/
def Entry.atIndex (i : Nat) : Option Entry :=
  match i with
  | 0x00 => some .flen
  | 0x01 => some .maxlen
  | 0x02 => some .slotlen
  | 0x03 => some .rxquota
  | 0x04 => some .txquota
  | 0x05 => some .persist
  | 0x06 => some .vcount
  | 0x07 => some .misslim
  | 0x08 => some .dwin
  | 0x09 => some .loop
  | 0x0A => some .explabel
  | 0x0B => some .txlabel
  | 0x0C => some .dset
  | 0x0D => some .dclr
  | 0x0E => some .rqthr
  | 0x0F => some .sendalarm
  | 0x10 => some .forcefe
  | 0x11 => some .autofe
  | _ => none

/-- An entry's value. -/
def ChanCfg.get (g : ChanCfg) : Entry → Word
  | .flen => g.flen
  | .maxlen => g.maxlen
  | .slotlen => g.slotlen
  | .rxquota => g.rxquota
  | .txquota => g.txquota
  | .persist => g.persist
  | .vcount => g.vcount
  | .misslim => g.misslim
  | .dwin => g.dwin
  | .loop => g.loop
  | .explabel => g.explabel
  | .txlabel => g.txlabel
  | .dset => g.dset
  | .dclr => g.dclr
  | .rqthr => g.rqthr
  | .sendalarm => g.sendalarm
  | .forcefe => g.forcefe
  | .autofe => g.autofe

/-- The table with an entry replaced. -/
def ChanCfg.put (g : ChanCfg) (e : Entry) (v : Word) : ChanCfg :=
  match e with
  | .flen => { g with flen := v }
  | .maxlen => { g with maxlen := v }
  | .slotlen => { g with slotlen := v }
  | .rxquota => { g with rxquota := v }
  | .txquota => { g with txquota := v }
  | .persist => { g with persist := v }
  | .vcount => { g with vcount := v }
  | .misslim => { g with misslim := v }
  | .dwin => { g with dwin := v }
  | .loop => { g with loop := v }
  | .explabel => { g with explabel := v }
  | .txlabel => { g with txlabel := v }
  | .dset => { g with dset := v }
  | .dclr => { g with dclr := v }
  | .rqthr => { g with rqthr := v }
  | .sendalarm => { g with sendalarm := v }
  | .forcefe => { g with forcefe := v }
  | .autofe => { g with autofe := v }

/-- The least and the greatest value of an entry's range (R146, Table 27). -/
def Entry.bounds : Entry → Nat × Nat
  | .flen => (64, 2048)
  | .maxlen => (1, 4095)
  | .slotlen => (0, 4095)
  | .rxquota => (0, 512)
  | .txquota => (0, 512)
  | .persist => (2, 7)
  | .vcount => (1, 3)
  | .misslim => (2, 7)
  | .dwin => (16, 65535)
  | .loop => (0, 1)
  | .explabel => (0, 255)
  | .txlabel => (0, 255)
  | .dset => (1, 255)
  | .dclr => (0, 254)
  | .rqthr => (1, 32)
  | .sendalarm => (0, 1)
  | .forcefe => (0, 1)
  | .autofe => (0, 1)

/-- R147, test 1: the whole written word is in the entry's range; FLEN is also a multiple of 8. -/
def Entry.inRange (e : Entry) (v : Word) : Bool :=
  decide (e.bounds.1 ≤ v.toNat) && decide (v.toNat ≤ e.bounds.2) && (e != .flen || v.toNat % 8 == 0)

/-- The locked entries of R146; the others are live. -/
def Entry.locked : Entry → Bool
  | .flen | .maxlen | .slotlen | .rxquota | .txquota | .persist | .vcount | .misslim | .dwin | .loop => true
  | _ => false

/-- R147: a write of `v` to entry `e` of the channel passes the four tests (range, lock, the quota rule R148, the pair rule R149). -/
def Chan.acceptsEntry (e : Entry) (v : Word) (c : Chan) : Bool :=
  e.inRange v
    && (!e.locked || c.admin == .disabled)
    && (e != .rxquota || decide (c.rxHolding ≤ v.toNat))
    && (e != .txquota || decide (c.txHolding ≤ v.toNat))
    && (e != .dset || decide (c.cfg.dclr.toNat < v.toNat))
    && (e != .dclr || decide (v.toNat < c.cfg.dset.toNat))

/-- The three global entries (R150). -/
inductive GEntry where
  | tsil
  | tdrain
  | poolthr
  deriving DecidableEq, Repr

/-- The global entry at an index (Table 32); FREE at 0xF3 is none, being read-only. -/
def GEntry.atIndex (i : Nat) : Option GEntry :=
  match i with
  | 0xF0 => some .tsil
  | 0xF1 => some .tdrain
  | 0xF2 => some .poolthr
  | _ => none

/-- A global entry's value. -/
def Globals.get (g : Globals) : GEntry → Word
  | .tsil => g.tsil
  | .tdrain => g.tdrain
  | .poolthr => g.poolthr

/-- The global entries with one replaced. -/
def Globals.put (g : Globals) (e : GEntry) (v : Word) : Globals :=
  match e with
  | .tsil => { g with tsil := v }
  | .tdrain => { g with tdrain := v }
  | .poolthr => { g with poolthr := v }

/-- R150: the whole written word is in the global entry's range. -/
def GEntry.inRange (e : GEntry) (v : Word) : Bool :=
  match e with
  | .tsil => decide (2 ≤ v.toNat) && decide (v.toNat ≤ 255)
  | .tdrain => decide (1 ≤ v.toNat) && decide (v.toNat ≤ 255)
  | .poolthr => decide (v.toNat ≤ 511)

/-! ### Commands and outcomes -/

/-- The twelve commands (Table 25). -/
inductive Cmd where
  | chStart | chStop | chReset | chFlush | rxOpen | rxRelease | rxSkip
  | txAlloc | txSubmit | txCancel | ohPop | cntSnap
  deriving DecidableEq, Repr

/-- A command's code (Table 25). -/
def Cmd.code : Cmd → Byte
  | .chStart => 0x01
  | .chStop => 0x02
  | .chReset => 0x03
  | .chFlush => 0x04
  | .rxOpen => 0x10
  | .rxRelease => 0x11
  | .rxSkip => 0x12
  | .txAlloc => 0x20
  | .txSubmit => 0x21
  | .txCancel => 0x22
  | .ohPop => 0x30
  | .cntSnap => 0x31

/-- The command a code names, none for an unknown code (R140). -/
def Cmd.ofCode (code : Byte) : Option Cmd :=
  match code.toNat with
  | 0x01 => some .chStart
  | 0x02 => some .chStop
  | 0x03 => some .chReset
  | 0x04 => some .chFlush
  | 0x10 => some .rxOpen
  | 0x11 => some .rxRelease
  | 0x12 => some .rxSkip
  | 0x20 => some .txAlloc
  | 0x21 => some .txSubmit
  | 0x22 => some .txCancel
  | 0x30 => some .ohPop
  | 0x31 => some .cntSnap
  | _ => none

/-- A CSTAT code (Table 26). -/
def CStat.code : CStat → Nat
  | .none => 0x00
  | .ok => 0x01
  | .pending => 0x02
  | .busy => 0x03
  | .badcmd => 0x04
  | .badarg => 0x05
  | .state => 0x06
  | .empty => 0x07
  | .nospace => 0x08
  | .qfull => 0x09
  | .short => 0x0A
  | .timeout => 0x0B

end Sys2Proof.Machine
end

