-- ==== Sys2Proof/Machine/Commands.lean ====
section
/-! DEFINITION. The Command Unit: how a CMD write is decided (R137 to R140), and what each command taken does. -/

namespace Sys2Proof.Machine

open Sys2Proof

/-! ### Outcomes -/

/-- A command or refusal completes with a CSTAT code; RES0 and RES1 keep their values (R140). -/
def State.answer (st : CStat) (s : State) : State := { s with cu := { s.cu with cstat := st } }

/-- A command completes with OK and its two results. -/
def State.answerWith (r0 r1 : Word) (s : State) : State :=
  { s with cu := { s.cu with cstat := .ok, res0 := r0, res1 := r1 } }

/-- A change of channel `ch` alone. -/
def State.onChan (s : State) (ch : ChanId) (f : Chan → Chan) : State := s.setChan ch (f (s.chan ch))

/-! ### Channel commands -/

/-- CH_START on channel `p` (R141, with R28, R73 and R127). -/
def State.takeChStart (p : ChanId) (s : State) : State :=
  if (s.chan p).admin = .disabled then
    (s.onChan p fun c =>
      let c1 := (c.alignerStart s.globals).framerStart
      { c1 with admin := .active, del := { c1.del with nextPktseq := 0 } }).answer .ok
  else s.answer .state

/-- The completion of CH_STOP with CMDDONE (R142, R143). -/
def State.stopCompleted (st : CStat) (s : State) : State :=
  { s with
    cu := { s.cu with pending := none, cstat := st }
    gflags := s.gflags.withCmddone }

/-- R129: the drain ends at once: no packet in flight, and the frame position none. -/
def Chan.drainsAtOnce (c : Chan) : Bool := c.fr.inflight.isNone && c.fr.bitPos.isNone

/-- CH_STOP on channel `p` (R142, with R29, R45, R71, R129, R130): the receive side first, then the drain. -/
def State.takeChStop (p : ChanId) (s : State) : State :=
  if (s.chan p).admin = .active then
    let s1 := s.onLane p Lane.alignerStop
    if (s.chan p).drainsAtOnce then
      (s1.onChan p fun c => { c with admin := .disabled, fr := c.fr.stop }).stopCompleted .ok
    else
      let s2 := s1.onChan p fun c =>
        { c with admin := .draining, fr := { c.fr with drainTimer := some s.globals.tdrain.toNat } }
      { s2 with cu := { s2.cu with pending := some p, cstat := .pending } }
  else s.answer .state

/-- The chains of the receive side in the order of R90: the packet in assembly, the held packet, the queue from head to tail. -/
def Chan.rxChains (c : Chan) : List CellNo :=
  (c.del.assembly.map RxDesc.chain).getD [] ++ (c.held.map fun h => h.desc.chain).getD []
    ++ c.rq.flatMap RxDesc.chain

/-- The chains of the transmit side in the order of R90: the in-flight packet, the queue from head to tail, the fill packet. -/
def Chan.txChains (c : Chan) : List CellNo :=
  (c.fr.inflight.map fun p => p.desc.chain).getD [] ++ c.tq.flatMap TxDesc.chain
    ++ (c.fill.map FillPkt.chain).getD []

/-- The chains CH_FLUSH returns on the transmit side: it does not touch the framer (R132). -/
def Chan.queuedTxChains (c : Chan) : List CellNo := c.tq.flatMap TxDesc.chain ++ (c.fill.map FillPkt.chain).getD []

/-- The chains CH_FLUSH returns on the receive side: it does not touch the delineator (R73). -/
def Chan.queuedRxChains (c : Chan) : List CellNo :=
  (c.held.map fun h => h.desc.chain).getD [] ++ c.rq.flatMap RxDesc.chain

/-- The channel with its queues, held packet and fill packet emptied. -/
def Chan.emptied (c : Chan) : Chan := { c with rq := [], held := none, tq := [], fill := none }

/-- CH_FLUSH on channel `p` (R144, with R53, R90, R107, R132). -/
def State.takeChFlush (p : ChanId) (s : State) : State :=
  let c := s.chan p
  if c.admin = .disabled then
    (s.onLane p fun l =>
      ((l.returnChain .rx c.queuedRxChains).returnChain .tx c.queuedTxChains).mapChan fun d =>
        { d.emptied with mon := { d.mon with ring := [] } }).answerWith
      (natWord c.queuedRxChains.length) (natWord c.queuedTxChains.length)
  else s.answer .state

/-- CH_RESET's work on the lane (R145): the receive side stops with an abort counted (step 1), the framer stops with an abandonment
counted (step 2), every chain is returned (step 3), the ring, the numbers and the flags are cleared (steps 4 to 6) and
the channel is DISABLED (step 7). The aborted packet's chain goes first, as R90 orders. -/
def Lane.channelReset (l : Lane) : Lane :=
  let stopped := l.alignerStop
  let held := stopped.c.rxChains
  let sent := stopped.c.txChains
  (((stopped.mapChan Chan.framerReset).returnChain .rx held).returnChain .tx sent).mapChan fun c =>
    { c.emptied with admin := .disabled, mon := {}, del := {}, nextTxseq := 0, flags := {} }

/-- CH_RESET on channel `p` (R145); the results count the cells of every chain returned, the aborted packet's among them (R90). -/
def State.takeChReset (p : ChanId) (s : State) : State :=
  let c := s.chan p
  (s.onLane p Lane.channelReset).answerWith (natWord c.rxChains.length) (natWord c.txChains.length)

/-! ### Receive commands -/

/-- RX_OPEN on channel `p` (R98). -/
def State.takeRxOpen (p : ChanId) (s : State) : State :=
  let c := s.chan p
  if c.held.isSome then s.answer .state
  else
    match c.rq with
    | [] => s.answer .empty
    | d :: rest =>
      (s.setChan p { c with rq := rest, held := some ⟨d, 0⟩ }).answerWith (natWord d.storelen) d.pktseq

/-- RX_RELEASE on channel `p` (R99). -/
def State.takeRxRelease (p : ChanId) (s : State) : State :=
  match (s.chan p).held with
  | none => s.answer .state
  | some h =>
    (s.onLane p fun l => (l.returnChain .rx h.desc.chain).mapChan fun c => { c with held := none }).answerWith
      h.desc.pktseq (natWord h.cursor)

/-- RX_SKIP on channel `p` (R100). -/
def State.takeRxSkip (p : ChanId) (s : State) : State :=
  match (s.chan p).rq with
  | [] => s.answer .empty
  | d :: rest =>
    (s.onLane p fun l => (l.returnChain .rx d.chain).mapChan fun c => { c with rq := rest }).answerWith
      d.pktseq (natWord rest.length)

/-! ### Transmit commands -/

/-- TX_ALLOC on channel `p` (R112): the tests in order, then the claim on the transmit direction. -/
def State.takeTxAlloc (p : ChanId) (s : State) : State :=
  let len := s.cu.arg0.toNat
  if len = 0 ∨ 4095 < len then s.answer .badarg
  else if (s.chan p).fill.isSome then s.answer .state
  else if (s.lane p).canClaim .tx (cellsFor len) then
    (s.onLane p fun l =>
      (l.grant s.globals.poolthr .tx (cellsFor len)).mapChan fun c =>
        { c with fill := some ⟨len, 0, l.claimed (cellsFor len)⟩ }).answerWith
      (natWord (cellsFor len)) (natWord len)
  else s.answer .nospace

/-- TX_SUBMIT on channel `p` (R115): the tests in order, then the append with the next TXSEQ. -/
def State.takeTxSubmit (p : ChanId) (s : State) : State :=
  let c := s.chan p
  match c.fill with
  | none => s.answer .state
  | some f =>
    if f.cursor < f.len then s.answer .short
    else if 16 ≤ c.tq.length then s.answer .qfull
    else
      (s.setChan p { c with
        tq := c.tq ++ [⟨c.nextTxseq, f.len, f.chain⟩]
        fill := none
        nextTxseq := c.nextTxseq + 1 }).answerWith c.nextTxseq (natWord (c.tq.length + 1))

/-- TX_CANCEL on channel `p` (R116). -/
def State.takeTxCancel (p : ChanId) (s : State) : State :=
  match (s.chan p).fill with
  | none => s.answer .state
  | some f =>
    (s.onLane p fun l => (l.returnChain .tx f.chain).mapChan fun c => { c with fill := none }).answerWith
      (natWord f.chain.length) (natWord f.cursor)

/-! ### Ring and counters -/

/-- OH_POP on channel `p` (R50). -/
def State.takeOhPop (p : ChanId) (s : State) : State :=
  let c := s.chan p
  match c.mon.ring with
  | [] => s.answer .empty
  | r :: rest =>
    (s.setChan p { c with mon := { c.mon with ring := rest } }).answerWith r.seq (natWord rest.length)

/-- CNT_SNAP on channel `p` (R155): the sixteen live counters become the snapshot values and start again from 0. -/
def State.takeCntSnap (p : ChanId) (s : State) : State :=
  (s.onChan p fun c => { c with snap := c.live, live := {} }).answer .ok

/-! ### The Command Unit's decision -/

/-- A command taken acts on the channel PAGE names (R137). -/
def State.take (k : Cmd) (s : State) : State :=
  let p := s.win.page
  match k with
  | .chStart => s.takeChStart p
  | .chStop => s.takeChStop p
  | .chReset => s.takeChReset p
  | .chFlush => s.takeChFlush p
  | .rxOpen => s.takeRxOpen p
  | .rxRelease => s.takeRxRelease p
  | .rxSkip => s.takeRxSkip p
  | .txAlloc => s.takeTxAlloc p
  | .txSubmit => s.takeTxSubmit p
  | .txCancel => s.takeTxCancel p
  | .ohPop => s.takeOhPop p
  | .cntSnap => s.takeCntSnap p

/-- A write of CMD (R137): refused with BUSY while the pool is in INIT (R138), refused with CMDLOST while the unit is PENDING (R139),
refused with BADCMD for an unknown code (R140), else taken. -/
def State.cmdWrite (code : Byte) (s : State) : State :=
  if s.pool.state = .init then s.answer .busy
  else if s.cu.pending.isSome then { s with gflags := s.gflags.withCmdlost }
  else
    match Cmd.ofCode code with
    | none => s.answer .badcmd
    | some k => s.take k

end Sys2Proof.Machine
end

