-- ==== Sys2Proof/Machine/Resets.lean ====
section
/-! DEFINITION. The resets of the whole part, and the pool's build (R82, R83, R133, R172). -/

namespace Sys2Proof.Machine

open Sys2Proof

/-- A channel after a soft reset: configuration and masks kept, everything else as a device reset leaves it (R172). -/
def Chan.softReset (c : Chan) : Chan := { cfg := c.cfg, mask := c.mask }

/-- R172: a soft reset acts on every block in one event. The pool is in INIT with an empty free list, and its build starts (R83). Global
entries, masks, PAGE, IDX, the width and the two latches are kept, and packet memory keeps its bytes (R78). -/
def State.softReset (s : State) : State :=
  { s with
    chans := s.chans.map Chan.softReset
    pool := {}
    cu := {}
    gflags := {} }

/-- R82, R133, R146, R158, R160 to R162, R165, R166, R171: -RESET is asserted, or power applied. Every part of the state goes to its
reset value but packet memory (log entry 7), the bus width, which is sampled at the release (R160), and the model's own
counters and queue. -/
def State.powerOnReset (s : State) : State :=
  { s with
    chans := ⟨{}, {}, {}, {}⟩
    pool := {}
    cu := {}
    gflags := {}
    gmask := {}
    globals := {}
    win := { width16 := s.win.width16 } }

/-- R82 and R160: the reset ends: WIDTH is sampled, and the pool's build begins. With no reset in force there is none to end (log
entry 10). -/
def State.resetRelease (width : Bool) (s : State) : State :=
  if s.win.inReset then { s with win := { s.win with inReset := false, width16 := width } } else s

/-- R82: cell 511 is appended, the pool enters READY, INITDONE is set. With no build under way (the pool READY, or -RESET still
asserted) there is none to complete (log entry 10). -/
def State.buildComplete (s : State) : State :=
  if s.pool.state = .init ∧ s.win.inReset = false then
    { s with pool := s.pool.built, gflags := s.gflags.withInitdone }
  else s

end Sys2Proof.Machine
end

