-- ==== Sys2Proof/Machine/Views.lean ====
section
/-! DEFINITION. What the processor reads: the direct words' values and the indirect space's words (chapters 10 and 11). -/

namespace Sys2Proof.Machine

open Sys2Proof

/-! ### Codes of the status fields (Table 31) -/

/-- ADMIN. -/
def Admin.code : Admin → Nat
  | .disabled => 0
  | .active => 1
  | .draining => 2

/-- ALSTATE. -/
def AlState.code : AlState → Nat
  | .off => 0
  | .silent => 1
  | .hunt => 2
  | .verify => 3
  | .locked => 4

/-- DELIN. -/
def DelState.code : DelState → Nat
  | .hold => 0
  | .seek => 1
  | .header => 2
  | .body => 3
  | .skip => 4

/-- Framer mode: STOPPED, NORMAL, WAITALARM (RUNNING in NORMAL with SENDALARM 1) or ALARM (R134). -/
def Chan.framerModeCode (c : Chan) : Nat :=
  if c.fr.running then
    match c.fr.mode with
    | .normal => if c.cfg.sendalarm = 1 then 2 else 1
    | .alarm => 3
  else 0

/-! ### Views -/

/-- Counter number `n` (Table 16). -/
def Ctr.ofNum (n : Nat) : Ctr :=
  match n with
  | 0 => .rxframes
  | 1 => .fcerr
  | 2 => .fcjump
  | 3 => .alignloss
  | 4 => .rxpkts
  | 5 => .rxlong
  | 6 => .rxpadded
  | 7 => .hdrerr
  | 8 => .offmiss
  | 9 => .dropnobuf
  | 10 => .dropqfull
  | 11 => .rxabort
  | 12 => .ohlost
  | 13 => .txframes
  | 14 => .txpkts
  | _ => .txabort

/-- The counter snapshot word `k` of the 32 (R157, Table 28): the low 16 bits of a value, then its high 8 bits. -/
def Chan.snapshotWord (k : Nat) (c : Chan) : Word :=
  let v := (c.snap.get (Ctr.ofNum (k / 2))).toNat
  if k % 2 = 0 then natWord (v % 65536) else natWord (v / 65536)

/-- The receive head view (R96, Table 29); all 0 while the queue is empty (R176). -/
def Chan.headView (k : Nat) (c : Chan) : Word :=
  match c.rq with
  | [] => 0
  | d :: _ =>
    match k with
    | 0 => bitAt 0 true ||| bitAt 1 d.long ||| bitAt 2 d.padded
    | 1 => d.pktseq
    | 2 => fieldAt 0 d.wirelen
    | 3 => fieldAt 0 d.storelen
    | 4 => d.fcnt.setWidth 16
    | 5 => fieldAt 0 d.cells
    | _ => 0

/-- The overhead head record view (R52, Table 30); all 0 while the ring is empty (R176). -/
def Chan.recordView (k : Nat) (c : Chan) : Word :=
  match c.mon.ring with
  | [] => 0
  | r :: _ =>
    match k with
    | 0 => bitAt 0 true ||| bitAt 1 r.locked ||| bitAt 2 r.statKnown ||| bitAt 3 r.pv ||| bitAt 4 r.fe
        ||| bitAt 5 r.labelKnown ||| bitAt 6 r.degraded
        ||| bitAt 8 r.causes.align ||| bitAt 9 r.causes.status ||| bitAt 10 r.causes.label ||| bitAt 11 r.causes.degrade
    | 1 => r.seq
    | 2 => mkWord r.label r.fcnt
    | 3 => r.lost.setWidth 16
    | _ => 0

/-- The channel status view (Table 31; R52, R76, R110, R134, R176). -/
def Chan.statusView (k : Nat) (c : Chan) : Word :=
  match k with
  | 0 => fieldAt 0 c.admin.code ||| fieldAt 2 c.al.state.code ||| fieldAt 5 c.del.state.code
      ||| fieldAt 8 c.framerModeCode
  | 1 => bitAt 0 c.mon.conds.carrier ||| bitAt 1 c.mon.conds.farend ||| bitAt 2 c.mon.conds.labelmis
      ||| bitAt 3 c.mon.conds.degraded ||| bitAt 4 c.mon.stat.accepted.isSome
      ||| bitAt 5 ((c.mon.stat.accepted.map StatVal.pv).getD false)
      ||| bitAt 6 ((c.mon.stat.accepted.map StatVal.fe).getD false)
      ||| bitAt 7 c.mon.label.accepted.isSome ||| fieldAt 8 (c.mon.label.accepted.getD 0).toNat
  | 2 => fieldAt 0 c.rq.length
  | 3 => fieldAt 0 c.tq.length
  | 4 => fieldAt 0 c.mon.ring.length
  | 5 => fieldAt 0 c.rxHolding
  | 6 => fieldAt 0 c.txHolding
  | 7 => bitAt 0 c.held.isSome
  | 8 => fieldAt 0 ((c.held.map Held.cursor).getD 0)
  | 9 => bitAt 0 c.fill.isSome
  | 10 => fieldAt 0 ((c.fill.map FillPkt.cursor).getD 0)
  | 11 => fieldAt 0 ((c.fill.map FillPkt.len).getD 0)
  | _ => 0

/-- The indirect word at index `i` of a page whose channel is `c` (R166, Table 24). -/
def indirectWord (i : Nat) (c : Chan) (g : Globals) (p : Pool) : Word :=
  match Entry.atIndex i with
  | some e => c.cfg.get e
  | none =>
    match GEntry.atIndex i with
    | some e => g.get e
    | none =>
      if 0x20 ≤ i ∧ i ≤ 0x3F then c.snapshotWord (i - 0x20)
      else if 0x40 ≤ i ∧ i ≤ 0x47 then c.headView (i - 0x40)
      else if 0x48 ≤ i ∧ i ≤ 0x4F then c.recordView (i - 0x48)
      else if 0x50 ≤ i ∧ i ≤ 0x5F then c.statusView (i - 0x50)
      else if i = 0xF3 then fieldAt 0 p.freeCount
      else 0

/-- GSTAT (R164, Table 23). -/
def State.gstat (s : State) : Word :=
  bitAt 0 (s.pool.state == .ready) ||| bitAt 1 s.cu.pending.isSome ||| bitAt 2 s.win.width16
    ||| bitAt 8 (s.chan 0).flags.any ||| bitAt 9 (s.chan 1).flags.any
    ||| bitAt 10 (s.chan 2).flags.any ||| bitAt 11 (s.chan 3).flags.any

end Sys2Proof.Machine
end

