-- ==== Sys2Proof/Machine/BusWindow.lean ====
section
/-! DEFINITION. The Bus Window: what an access does at each direct word, in 16-bit and in 8-bit mode (chapter 10; R101 to R104, R113,
R114). -/

namespace Sys2Proof.Machine

open Sys2Proof

/-! ### Answers -/

/-- The access is answered: -RDY asserted, the data lines as given (R159, R163). -/
def State.answered (lines : DataLines) (s : State) : State :=
  { s with win := { s.win with lines := lines, ready := true } }

/-- While -RESET is asserted no access is taken, and -RDY stays released (R159). -/
def State.notTaken (s : State) : State := { s with win := { s.win with lines := .released, ready := false } }

/-- The channel that PAGE names. -/
def State.paged (s : State) : Chan := s.chan s.win.page

/-- The state with PORTERR set. -/
def State.porterr (s : State) : State := { s with gflags := s.gflags.withPorterr }

/-- The state with CFGERR set. -/
def State.cfgerr (s : State) : State := { s with gflags := s.gflags.withCfgerr }

/-! ### The data ports -/

/-- The byte of a held packet at position `i`: 0 at or beyond WIRELEN, else the stored byte (R101, R103). -/
def Held.byteAt (mem : List Host.Cell) (i : Nat) (h : Held) : Byte :=
  if i < h.desc.wirelen then packetByte mem h.desc.chain i else 0

/-- The paged channel's read cursor moved on by `n` bytes. -/
def State.advanceHeld (n : Nat) (s : State) : State :=
  s.onChan s.win.page fun c => { c with held := c.held.map fun h => { h with cursor := h.cursor + n } }

/-- A 16-bit read of RXDATA (R101, R104): two bytes, one byte with a high byte of 0, or a port error. -/
def State.rxdataWord (s : State) : Word × State :=
  match s.paged.held with
  | none => (0, s.porterr)
  | some h =>
    if h.cursor + 2 ≤ h.desc.storelen then
      (mkWord (h.byteAt s.mem (h.cursor + 1)) (h.byteAt s.mem h.cursor), s.advanceHeld 2)
    else if h.cursor + 1 = h.desc.storelen then (mkWord 0 (h.byteAt s.mem h.cursor), s.advanceHeld 1)
    else (0, s.porterr)

/-- An 8-bit read of RXDATA, at either byte address (R102, R104): the next byte, or a port error. -/
def State.rxdataByte (s : State) : Byte × State :=
  match s.paged.held with
  | none => (0, s.porterr)
  | some h =>
    if h.cursor < h.desc.storelen then (h.byteAt s.mem h.cursor, s.advanceHeld 1) else (0, s.porterr)

/-- One byte into the paged channel's fill packet at its cursor, if there is room (R113, R114). -/
def State.fillByte (v : Byte) (s : State) : State :=
  match s.paged.fill with
  | none => s
  | some f =>
    if f.cursor < f.len then
      { s.onChan s.win.page fun c => { c with fill := some { f with cursor := f.cursor + 1 } } with
        mem := packetWrite s.mem f.chain f.cursor v }
    else s

/-- The bytes the paged channel's fill packet still takes; none while no fill packet is open. -/
def State.fillRoom (s : State) : Nat := (s.paged.fill.map fun f => f.len - f.cursor).getD 0

/-- A 16-bit write of TXDATA (R113): both bytes, the low byte with PORTERR, or none with PORTERR. -/
def State.txdataWord (d : Word) (s : State) : State :=
  if 2 ≤ s.fillRoom then (s.fillByte (lowByte d)).fillByte (highByte d)
  else if s.fillRoom = 1 then (s.fillByte (lowByte d)).porterr
  else s.porterr

/-- An 8-bit write of TXDATA, at either byte address (R114): one byte, or PORTERR. -/
def State.txdataByte (v : Byte) (s : State) : State :=
  if 1 ≤ s.fillRoom then s.fillByte v else s.porterr

/-! ### The indirect space -/

/-- IDX increased by 1 modulo 256, after every IDATA access (R166). -/
def State.nextIdx (s : State) : State := { s with win := { s.win with idx := s.win.idx + 1 } }

/-- A read of FREE during a build shows the build as far as it has got: a free number of further cells (R84, log entry 4). -/
def State.buildSeen (s : State) : State :=
  if s.pool.state = .init ∧ s.win.idx.toNat = 0xF3 then
    { s with pool := s.pool.advanced (Config.buildAdvance s.fresh), fresh := s.fresh + 1 }
  else s

/-- A read of IDATA (R166): the indirect word that IDX names on the page PAGE names, then IDX increases. -/
def State.idataRead (s : State) : Word × State :=
  let s' := s.buildSeen
  (indirectWord s.win.idx.toNat s'.paged s'.globals s'.pool, s'.nextIdx)

/-- A write of an entry of the paged channel's configuration table (R147): accepted, or refused with CFGERR. An accepted EXPLABEL
re-evaluates LABELMIS at once (R41). -/
def State.configWrite (e : Entry) (v : Word) (s : State) : State :=
  if s.paged.acceptsEntry e v then
    s.onChan s.win.page fun c =>
      let c' := { c with cfg := c.cfg.put e v }
      if e = .explabel then c'.labelmisReevaluated else c'
  else s.cfgerr

/-- A write of a global entry (R150): accepted, or refused with CFGERR. -/
def State.globalWrite (e : GEntry) (v : Word) (s : State) : State :=
  if e.inRange v then { s with globals := s.globals.put e v } else s.cfgerr

/-- A write of IDATA (R166): tested and written at an entry's index, ignored elsewhere; IDX increases either way. -/
def State.idataWrite (v : Word) (s : State) : State :=
  (match Entry.atIndex s.win.idx.toNat with
    | some e => s.configWrite e v
    | none =>
      match GEntry.atIndex s.win.idx.toNat with
      | some e => s.globalWrite e v
      | none => s).nextIdx

/-! ### The direct words -/

/-- A write of PAGE (R165): a whole value of 0 to 3 is taken, any other refused with CFGERR. -/
def State.pageWrite (v : Word) (s : State) : State :=
  if v.toNat < 4 then { s with win := { s.win with page := Fin.ofNat 4 v.toNat } } else s.cfgerr

/-- A write of GCTL (R172): SRST 1 starts a soft reset, SRST 0 does nothing. -/
def State.gctlWrite (v : Word) (s : State) : State := if v.getLsbD 0 then s.softReset else s

/-- A word written at a direct word, by Table 19; a read-only word ignores it (R164). TXDATA is a 16-bit port write here. -/
def State.writeWord (word : WordNo) (v : Word) (s : State) : State :=
  match word.val with
  | 1 => s.gctlWrite v
  | 3 => { s with gflags := s.gflags.clear v }
  | 4 => { s with gmask := GFlags.ofWord v }
  | 5 => s.pageWrite v
  | 6 => s.cmdWrite (lowByte v)
  | 8 => { s with cu := { s.cu with arg0 := v } }
  | 9 => { s with cu := { s.cu with arg1 := v } }
  | 10 => { s with win := { s.win with idx := lowByte v } }
  | 11 => s.idataWrite v
  | 13 => s.txdataWord v
  | 14 => s.onChan s.win.page fun c => { c with flags := c.flags.clear v }
  | 15 => s.onChan s.win.page fun c => { c with mask := CFlags.ofWord v }
  | _ => s

/-- A direct word read as a whole, with the side effects of that read (Table 19). -/
def State.readWord (word : WordNo) (s : State) : Word × State :=
  match word.val with
  | 0 => (0x4A51, s)
  | 2 => (s.gstat, s)
  | 3 => (s.gflags.toWord, s)
  | 4 => (s.gmask.toWord, s)
  | 5 => (natWord s.win.page.val, s)
  | 7 => (natWord s.cu.cstat.code, s)
  | 8 => (s.cu.res0, s)
  | 9 => (s.cu.res1, s)
  | 10 => (s.win.idx.setWidth 16, s)
  | 11 => s.idataRead
  | 12 => s.rxdataWord
  | 14 => (s.paged.flags.toWord, s)
  | 15 => (s.paged.mask.toWord, s)
  | _ => (0, s)

/-! ### Accesses -/

/-- A committing write access at `word` with the data lines at `d`: the word write of 16-bit mode, or the odd-byte write of 8-bit mode, which
commits the holding latch with it (R160, R162); TXDATA takes a byte without the latch (R114). -/
def State.writeAccess (word : WordNo) (d : Word) (s : State) : State :=
  if s.win.inReset then s.notTaken
  else if s.win.width16 = false ∧ word = 13 then (s.txdataByte (lowByte d)).answered .released
  else (s.writeWord word (s.win.committed d)).answered .released

/-- A write access with A0 at 0. In 8-bit mode the byte goes to the holding latch and nothing else happens (R162), but to TXDATA it is a
port write (R114). In 16-bit mode A0 is disregarded (Table 18), and the access is a word write. RXDATA's even byte goes to the holding
latch as that of any other word: R162 says so, the text under R160 that RXDATA does not use the latches, R104 that a write to RXDATA
is ignored. DESIGN CHOICE, log entry 23, unsafe. -/
def State.evenWriteAccess (word : WordNo) (d : Word) (s : State) : State :=
  if s.win.inReset then s.notTaken
  else if s.win.width16 ∨ word = 13 then s.writeAccess word d
  else { s with win := { s.win with holdLatch := lowByte d } }.answered .released

/-- A read access. In 16-bit mode the word is driven. In 8-bit mode an even byte reads the whole word, drives its low byte and keeps
it in the read latch; an odd byte drives the latch's high byte and reads nothing (R161); RXDATA reads do not use the latch (R102). TXDATA
reads use it like those of any other word: R161 says so, the text under R160 that they do not. DESIGN CHOICE, log entry 21, unsafe. -/
def State.readAccess (word : WordNo) (odd : Bool) (s : State) : State :=
  if s.win.inReset then s.notTaken
  else if s.win.width16 then (s.readWord word).2.answered (.all (s.readWord word).1)
  else if word = 12 then s.rxdataByte.2.answered (.low s.rxdataByte.1)
  else if odd then s.answered (.low (highByte s.win.readLatch))
  else
    let r := s.readWord word
    { r.2 with win := { r.2.win with readLatch := r.1 } }.answered (.low (lowByte r.1))

/-- R159: an access with -RD and -WR both asserted is taken as neither: -RDY asserted, the data lines not driven, nothing else. -/
def State.strobesConflict (s : State) : State := if s.win.inReset then s.notTaken else s.answered .released

/-- The CMD write that carries a command's code (R137). -/
def State.cmdAccess (code hi : Byte) (s : State) : State := s.writeAccess 6 (s.win.cmdLines code hi)

end Sys2Proof.Machine
end

