-- ==== Sys2Proof/Machine/ResetRows.lean ====
section
/-! DEFINITION. The meanings of the reset and build rows. -/

namespace Sys2Proof.Machine

open Sys2Proof

/-- What a step answers. -/
abbrev Answer := Host.Outcome State Fault Refusal

/-- POWER_ON_RESET (R133, R82): -RESET is asserted, or power is applied. -/
def execPowerOnReset (s : State) : Answer := .next s.powerOnReset

/-- RESET_RELEASE (R82, R160): the reset ends, WIDTH is sampled, the build starts. -/
def execResetRelease (width : Bool) (s : State) : Answer := .next (s.resetRelease width)

/-- POOL_BUILD_COMPLETE (R82): the pool enters READY with INITDONE set. -/
def execPoolBuildComplete (s : State) : Answer := .next s.buildComplete

/-- SOFT_RESET (R172): a write access at GCTL. -/
def execSoftReset (d : Word) (s : State) : Answer := .next (s.writeAccess 1 d)

end Sys2Proof.Machine
end

