-- ==== Sys2Proof/Machine/BusRows.lean ====
section
/-! DEFINITION. The meanings of the local bus rows. Each is an access at the pins; the row's name says which word it names, and for the
three rows of an IDATA write IDX says which of them the access is (log entry 1). -/

namespace Sys2Proof.Machine

open Sys2Proof

/-- PAGE_WRITE (R165). -/
def execPageWrite (d : Word) (s : State) : Answer := .next (s.writeAccess 5 d)

/-- IDX_WRITE (R166). -/
def execIdxWrite (d : Word) (s : State) : Answer := .next (s.writeAccess 10 d)

/-- IDATA_READ (R166): a read access, of IDATA or of another direct word whose read has no row of its own (log entry 3). -/
def execIdataRead (word : WordNo) (odd : Bool) (s : State) : Answer := .next (s.readAccess word odd)

/-- CONFIGURATION_WRITE (R147): a write access at IDATA. -/
def execConfigurationWrite (d : Word) (s : State) : Answer := .next (s.writeAccess 11 d)

/-- GLOBAL_ENTRY_WRITE (R150): a write access at IDATA. -/
def execGlobalEntryWrite (d : Word) (s : State) : Answer := .next (s.writeAccess 11 d)

/-- IGNORED_INDIRECT_WRITE (R166): a write access at IDATA. -/
def execIgnoredIndirectWrite (d : Word) (s : State) : Answer := .next (s.writeAccess 11 d)

/-- The direct word that holds the flags of a scope (Table 19). -/
def flagWord : EventScope → WordNo
  | .global => 3
  | .channel => 14

/-- The direct word that holds the masks of a scope (Table 19). -/
def maskWord : EventScope → WordNo
  | .global => 4
  | .channel => 15

/-- EVENT_FLAG_CLEAR (R169): a write access at GEVENT or CEVENT. -/
def execEventFlagClear (scope : EventScope) (d : Word) (s : State) : Answer := .next (s.writeAccess (flagWord scope) d)

/-- EVENT_MASK_WRITE (R170): a write access at GEMASK or CEMASK. -/
def execEventMaskWrite (scope : EventScope) (d : Word) (s : State) : Answer := .next (s.writeAccess (maskWord scope) d)

/-- REGISTER_WRITE (R164): a write access at a direct word without a row of its own. -/
def execRegisterWrite (word : WordNo) (d : Word) (s : State) : Answer := .next (s.writeAccess word d)

/-- EVEN_BYTE_WRITE (R162): a write access with A0 at 0. -/
def execEvenByteWrite (word : WordNo) (d : Word) (s : State) : Answer := .next (s.evenWriteAccess word d)

/-- CONFLICTING_STROBES (R159): whatever word and data stand on the pins. -/
def execConflictingStrobes (_word : WordNo) (_d : Word) (s : State) : Answer := .next s.strobesConflict

/-- RXDATA_READ (R101, R102): a read access at RXDATA, at either byte address. -/
def execRxdataRead (s : State) : Answer := .next (s.readAccess 12 false)

/-- TXDATA_WRITE (R113, R114): a write access at TXDATA, at either byte address. -/
def execTxdataWrite (d : Word) (s : State) : Answer := .next (s.writeAccess 13 d)

end Sys2Proof.Machine
end

