-- ==== Sys2Proof/Machine/Links.lean ====
section
/-! DEFINITION. The edges of the link clocks and the expiries of the timers, as events of the whole part, and the 10 µs tick of REFCLK
that a step on an empty queue takes. -/

namespace Sys2Proof.Machine

open Sys2Proof

/-- A rising edge of channel `ch`'s receive clock (of its transmit clock under LOOP 1), with RXD_n at `rxd` (R1, R16, R17). -/
def State.rxEdge (ch : ChanId) (rxd : Bool) (s : State) : State := s.onLane ch (Lane.risingEdge s.globals rxd)

/-- R129 and R143: a drain has ended: the framer stops, the channel is DISABLED, CH_STOP completes with OK and CMDDONE. -/
def State.drainEnded (ch : ChanId) (s : State) : State :=
  (s.onChan ch fun c => { c with admin := .disabled, fr := c.fr.stop }).stopCompleted .ok

/-- A falling edge of TXCLK_n (R119); the edge that presents the last bit of a drain's last frame also ends the drain (R143). -/
def State.txEdge (ch : ChanId) (s : State) : State :=
  let s' := s.onLane ch Lane.fallingEdge
  if (s.chan ch).fr.running ∧ (s'.chan ch).drainOver then s'.drainEnded ch else s'

/-- R130 and R143: channel `ch`'s drain timer expires: the drain is abandoned, and CH_STOP completes with TIMEOUT and CMDDONE. A stopped
timer does not expire (log entry 10). -/
def State.drainExpiry (ch : ChanId) (clockStopped : Bool) (s : State) : State :=
  if (s.chan ch).fr.drainTimer.isSome then
    (s.onLane ch (Lane.abandonDrain clockStopped)).stopCompleted .timeout
  else s

/-- R26: channel `ch`'s silence timer expires. -/
def State.silenceExpiry (ch : ChanId) (s : State) : State := s.onLane ch Lane.silenceExpiry

/-! ### The tick -/

/-- R25: one 10 µs tick of channel `ch`'s silence timer. -/
def State.silenceTick (ch : ChanId) (s : State) : State := s.onLane ch Lane.silenceTick

/-- R130 and R177: one 100 µs tick of channel `ch`'s drain timer. At an expiry, whether TXCLK_n has stopped is a free value (log
entry 6). -/
def State.drainTick (ch : ChanId) (s : State) : State :=
  match (s.chan ch).fr.drainTimer with
  | none => s
  | some n =>
    if n ≤ 1 then { s.drainExpiry ch (Config.txClockStopped s.fresh) with fresh := s.fresh + 1 }
    else s.onChan ch fun c => { c with fr := { c.fr with drainTimer := some (n - 1) } }

/-- R82 and R83: the build completes within 30 µs, so a fourth 10 µs tick after its start finds it complete. -/
def State.buildTick (s : State) : State :=
  if s.pool.state = .init then
    if 3 ≤ s.pool.ticks then s.buildComplete
    else { s with pool := { s.pool with ticks := s.pool.ticks + 1 } }
  else s

/-- The drain timers' tick, on every tenth tick of 10 µs. -/
def State.drainTicks (s : State) : State :=
  if s.prescale = 9 then
    { (((s.drainTick 0).drainTick 1).drainTick 2).drainTick 3 with prescale := 0 }
  else { s with prescale := s.prescale + 1 }

/-- One 10 µs tick of REFCLK (DESIGN CHOICE, log entry 5): the silence timers, every tenth time the drain timers, and the build's bound.
While -RESET is asserted nothing is timed. -/
def State.tick (s : State) : State :=
  if s.win.inReset then s
  else ((((s.silenceTick 0).silenceTick 1).silenceTick 2).silenceTick 3).drainTicks.buildTick

end Sys2Proof.Machine
end

