-- ==== Sys2Proof/Machine/Meetings.lean ====
section
/-! DEFINITION. A CNT_SNAP that arrives together with a line event: which side of it each block's counts fall on (R154, R156). -/

namespace Sys2Proof.Machine

open Sys2Proof

/-- The block that takes a counter's occurrences (Table 16). -/
def Ctr.block : Ctr → CountingBlock
  | .rxframes | .alignloss => .aligner
  | .fcerr | .fcjump | .ohlost => .monitor
  | .rxpkts | .rxlong | .rxpadded | .hdrerr | .offmiss | .dropnobuf | .dropqfull | .rxabort => .delineator
  | .txframes | .txpkts | .txabort => .framer

/-- The bank that takes the counts of the blocks in `first` from `early` and every other count from `late`. -/
def Counters.merge (first : List CountingBlock) (early late : Counters) : Counters :=
  let pick (k : Ctr) : BitVec 24 := if k.block ∈ first then early.get k else late.get k
  { rxframes := pick .rxframes, fcerr := pick .fcerr, fcjump := pick .fcjump, alignloss := pick .alignloss
    rxpkts := pick .rxpkts, rxlong := pick .rxlong, rxpadded := pick .rxpadded, hdrerr := pick .hdrerr
    offmiss := pick .offmiss, dropnobuf := pick .dropnobuf, dropqfull := pick .dropqfull, rxabort := pick .rxabort
    ohlost := pick .ohlost, txframes := pick .txframes, txpkts := pick .txpkts, txabort := pick .txabort }

/-- A line event taken. -/
def State.lineEvent (e : LineEvent) (s : State) : State :=
  match e with
  | .silence ch => s.silenceExpiry ch
  | .rising ch b => s.rxEdge ch b

/-- A CMD write of the row CNT_SNAP takes a snapshot: it passes the tests of R137, and in 8-bit mode the latch holds the code (R162). -/
def State.takesSnap (s : State) : Bool :=
  !s.win.inReset && s.pool.state == .ready && s.cu.pending.isNone && (s.win.width16 || s.win.holdLatch == 0x31)

/-- R156: the CMD write of a CNT_SNAP and a line event arrive together. The parts of the blocks in `m.first` are taken before the
snapshot, so that their counts are in it; the parts of the others after it, so that theirs are in the next. Nothing else
depends on the order. A write that takes no snapshot comes after the event. -/
def State.snapMeets (m : Meeting) (hi : Byte) (s : State) : State :=
  let early := (s.lineEvent m.event).cmdAccess 0x31 hi
  let late := ((s.cmdAccess 0x31 hi).lineEvent m.event).chan s.win.page
  if s.takesSnap then
    early.onChan s.win.page fun c =>
      { c with snap := Counters.merge m.first c.snap late.snap, live := Counters.merge m.first c.live late.live }
  else early

end Sys2Proof.Machine
end

