-- ==== Sys2Proof/Machine/CommandRows.lean ====
section
/-! DEFINITION. The meanings of the command rows: each is the CMD write that carries the command's code (R137, Table 25). In 8-bit mode the
code is the one in the holding latch (log entry 1). -/

namespace Sys2Proof.Machine

open Sys2Proof

/-- CH_START (R141). -/
def execChStart (hi : Byte) (s : State) : Answer := .next (s.cmdAccess 0x01 hi)

/-- CH_STOP (R142). -/
def execChStop (hi : Byte) (s : State) : Answer := .next (s.cmdAccess 0x02 hi)

/-- CH_RESET (R145). -/
def execChReset (hi : Byte) (s : State) : Answer := .next (s.cmdAccess 0x03 hi)

/-- CH_FLUSH (R144). -/
def execChFlush (hi : Byte) (s : State) : Answer := .next (s.cmdAccess 0x04 hi)

/-- RX_OPEN (R98). -/
def execRxOpen (hi : Byte) (s : State) : Answer := .next (s.cmdAccess 0x10 hi)

/-- RX_RELEASE (R99). -/
def execRxRelease (hi : Byte) (s : State) : Answer := .next (s.cmdAccess 0x11 hi)

/-- RX_SKIP (R100). -/
def execRxSkip (hi : Byte) (s : State) : Answer := .next (s.cmdAccess 0x12 hi)

/-- TX_ALLOC (R112). -/
def execTxAlloc (hi : Byte) (s : State) : Answer := .next (s.cmdAccess 0x20 hi)

/-- TX_SUBMIT (R115). -/
def execTxSubmit (hi : Byte) (s : State) : Answer := .next (s.cmdAccess 0x21 hi)

/-- TX_CANCEL (R116). -/
def execTxCancel (hi : Byte) (s : State) : Answer := .next (s.cmdAccess 0x22 hi)

/-- OH_POP (R50). -/
def execOhPop (hi : Byte) (s : State) : Answer := .next (s.cmdAccess 0x30 hi)

/-- CNT_SNAP (R155), alone or met by a line event (R156). -/
def execCntSnap (w : SnapWrite) (s : State) : Answer :=
  match w.meets with
  | none => .next (s.cmdAccess 0x31 w.hi)
  | some m => .next (s.snapMeets m w.hi)

/-- UNKNOWN_COMMAND (R140): a CMD write with the data lines at `d`. -/
def execUnknownCommand (d : Word) (s : State) : Answer := .next (s.writeAccess 6 d)

end Sys2Proof.Machine
end

