-- ==== Sys2Proof/Machine/LinkRows.lean ====
section
/-! DEFINITION. The meanings of the link and timer rows. A receive row is a rising edge of the channel's receive clock, a transmit row a
falling edge of its transmit clock; the state says which of the table's steps the edge is (log entry 2). -/

namespace Sys2Proof.Machine

open Sys2Proof

/-! ### Rising edges of the receive clock -/

/-- RECEIVED_BIT (R17). -/
def execReceivedBit (ch : ChanId) (b : Bool) (s : State) : Answer := .next (s.rxEdge ch b)

/-- SILENT_FIRST_BIT (R27): the edge whose bit finds the aligner SILENT. -/
def execSilentFirstBit (ch : ChanId) (b : Bool) (s : State) : Answer := .next (s.rxEdge ch b)

/-- MARKER_MATCH (R18): the edge whose bit completes a matching window in HUNT. -/
def execMarkerMatch (ch : ChanId) (b : Bool) (s : State) : Answer := .next (s.rxEdge ch b)

/-- VERIFY_MARKER_COMPARISON (R19): the edge of the sixteenth bit of an expected marker position in VERIFY. -/
def execVerifyMarkerComparison (ch : ChanId) (b : Bool) (s : State) : Answer := .next (s.rxEdge ch b)

/-- LOCKED_MARKER_COMPARISON (R21): the edge of the sixteenth bit of a marker position in LOCKED. -/
def execLockedMarkerComparison (ch : ChanId) (b : Bool) (s : State) : Answer := .next (s.rxEdge ch b)

/-- FCNT_BYTE (R34): the edge that completes the byte at offset 2 of a processed frame. -/
def execFcntByte (ch : ChanId) (b : Bool) (s : State) : Answer := .next (s.rxEdge ch b)

/-- OFFSET_POINT (R55): the edge that completes the byte at offset 5 of a processed frame. -/
def execOffsetPoint (ch : ChanId) (b : Bool) (s : State) : Answer := .next (s.rxEdge ch b)

/-- OVERHEAD_CLOSE (R35): the edge that completes the byte at offset 7 of a processed frame. -/
def execOverheadClose (ch : ChanId) (b : Bool) (s : State) : Answer := .next (s.rxEdge ch b)

/-- PAYLOAD_BYTE (R58): the edge that completes a byte at offset 8 or above of a processed frame. -/
def execPayloadByte (ch : ChanId) (b : Bool) (s : State) : Answer := .next (s.rxEdge ch b)

/-- PROCESSED_FRAME_END (R22): the edge that completes the byte at offset FLEN − 1 of a processed frame. -/
def execProcessedFrameEnd (ch : ChanId) (b : Bool) (s : State) : Answer := .next (s.rxEdge ch b)

/-! ### Falling edges of the transmit clock -/

/-- TXCLK_FALLING_EDGE (R119). -/
def execTxclkFallingEdge (ch : ChanId) (s : State) : Answer := .next (s.txEdge ch)

/-- FRAME_START (R119): the edge that presents the first bit of a frame. -/
def execFrameStart (ch : ChanId) (s : State) : Answer := .next (s.txEdge ch)

/-- BLOCK_BOUNDARY (R121): the edge that presents the first bit of a block. -/
def execBlockBoundary (ch : ChanId) (s : State) : Answer := .next (s.txEdge ch)

/-- PACKET_END (R123): the edge that presents the last bit of the in-flight packet's body. -/
def execPacketEnd (ch : ChanId) (s : State) : Answer := .next (s.txEdge ch)

/-- TRANSMIT_FRAME_END (R119): the edge that presents the last bit of a frame. -/
def execTransmitFrameEnd (ch : ChanId) (s : State) : Answer := .next (s.txEdge ch)

/-- DRAIN_END (R143): the edge that presents the last bit of a drain's last frame. -/
def execDrainEnd (ch : ChanId) (s : State) : Answer := .next (s.txEdge ch)

/-! ### Timers -/

/-- SILENCE_TIMER_EXPIRY (R26). -/
def execSilenceTimerExpiry (ch : ChanId) (s : State) : Answer := .next (s.silenceExpiry ch)

/-- DRAIN_TIMER_EXPIRY (R130), with TXCLK_n stopped or not. -/
def execDrainTimerExpiry (ch : ChanId) (clockStopped : Bool) (s : State) : Answer := .next (s.drainExpiry ch clockStopped)

end Sys2Proof.Machine
end

