-- ==== Sys2Proof/Machine/Dispatch.lean ====
section
/-! DEFINITION. One arm per constructor of Instr. -/

namespace Sys2Proof.Machine

open Sys2Proof

def exec (i : Instr) (s : State) : Host.Outcome State Fault Refusal :=
  match i with
  | .powerOnReset => Sys2Proof.Machine.execPowerOnReset s
  | .resetRelease width => Sys2Proof.Machine.execResetRelease width s
  | .poolBuildComplete => Sys2Proof.Machine.execPoolBuildComplete s
  | .softReset d => Sys2Proof.Machine.execSoftReset d s
  | .pageWrite d => Sys2Proof.Machine.execPageWrite d s
  | .idxWrite d => Sys2Proof.Machine.execIdxWrite d s
  | .idataRead word odd => Sys2Proof.Machine.execIdataRead word odd s
  | .configurationWrite d => Sys2Proof.Machine.execConfigurationWrite d s
  | .globalEntryWrite d => Sys2Proof.Machine.execGlobalEntryWrite d s
  | .ignoredIndirectWrite d => Sys2Proof.Machine.execIgnoredIndirectWrite d s
  | .eventFlagClear scope d => Sys2Proof.Machine.execEventFlagClear scope d s
  | .eventMaskWrite scope d => Sys2Proof.Machine.execEventMaskWrite scope d s
  | .registerWrite word d => Sys2Proof.Machine.execRegisterWrite word d s
  | .evenByteWrite word d => Sys2Proof.Machine.execEvenByteWrite word d s
  | .conflictingStrobes word d => Sys2Proof.Machine.execConflictingStrobes word d s
  | .rxdataRead => Sys2Proof.Machine.execRxdataRead s
  | .txdataWrite d => Sys2Proof.Machine.execTxdataWrite d s
  | .chStart hi => Sys2Proof.Machine.execChStart hi s
  | .chStop hi => Sys2Proof.Machine.execChStop hi s
  | .chReset hi => Sys2Proof.Machine.execChReset hi s
  | .chFlush hi => Sys2Proof.Machine.execChFlush hi s
  | .rxOpen hi => Sys2Proof.Machine.execRxOpen hi s
  | .rxRelease hi => Sys2Proof.Machine.execRxRelease hi s
  | .rxSkip hi => Sys2Proof.Machine.execRxSkip hi s
  | .txAlloc hi => Sys2Proof.Machine.execTxAlloc hi s
  | .txSubmit hi => Sys2Proof.Machine.execTxSubmit hi s
  | .txCancel hi => Sys2Proof.Machine.execTxCancel hi s
  | .ohPop hi => Sys2Proof.Machine.execOhPop hi s
  | .cntSnap w => Sys2Proof.Machine.execCntSnap w s
  | .unknownCommand d => Sys2Proof.Machine.execUnknownCommand d s
  | .drainEnd ch => Sys2Proof.Machine.execDrainEnd ch s
  | .drainTimerExpiry ch clockStopped => Sys2Proof.Machine.execDrainTimerExpiry ch clockStopped s
  | .markerMatch ch b => Sys2Proof.Machine.execMarkerMatch ch b s
  | .verifyMarkerComparison ch b => Sys2Proof.Machine.execVerifyMarkerComparison ch b s
  | .lockedMarkerComparison ch b => Sys2Proof.Machine.execLockedMarkerComparison ch b s
  | .silenceTimerExpiry ch => Sys2Proof.Machine.execSilenceTimerExpiry ch s
  | .silentFirstBit ch b => Sys2Proof.Machine.execSilentFirstBit ch b s
  | .fcntByte ch b => Sys2Proof.Machine.execFcntByte ch b s
  | .offsetPoint ch b => Sys2Proof.Machine.execOffsetPoint ch b s
  | .overheadClose ch b => Sys2Proof.Machine.execOverheadClose ch b s
  | .payloadByte ch b => Sys2Proof.Machine.execPayloadByte ch b s
  | .processedFrameEnd ch b => Sys2Proof.Machine.execProcessedFrameEnd ch b s
  | .frameStart ch => Sys2Proof.Machine.execFrameStart ch s
  | .blockBoundary ch => Sys2Proof.Machine.execBlockBoundary ch s
  | .packetEnd ch => Sys2Proof.Machine.execPacketEnd ch s
  | .transmitFrameEnd ch => Sys2Proof.Machine.execTransmitFrameEnd ch s
  | .receivedBit ch b => Sys2Proof.Machine.execReceivedBit ch b s
  | .txclkFallingEdge ch => Sys2Proof.Machine.execTxclkFallingEdge ch s

end Sys2Proof.Machine
end

