-- ==== Sys2Proof/WellFormed.lean ====
section
/-! DEFINITION. Which terms of Instr spell the row they are named after. Every operand is in range by its type; what is left to check
is that a row with an open address or code does not name an access that has a row of its own. The meaning of an ill-formed
term is still that of the access on the pins (log entry 1): nothing is refused. -/

namespace Sys2Proof

/-- The twelve command codes of Table 25. -/
def commandCodes : List Byte :=
  [0x01, 0x02, 0x03, 0x04, 0x10, 0x11, 0x12, 0x20, 0x21, 0x22, 0x30, 0x31]

/-- The direct words whose writes have no row of their own: ID, GSTAT, CSTAT, ARG0, ARG1 and RXDATA, and GCTL (a write with SRST 0). -/
def plainWriteWords : List WordNo := [0, 1, 2, 7, 8, 9, 12]

/-- R101 and R102 give RXDATA reads a row of their own, so `idataRead` names any other word. -/
def Instr.readWordOk : Instr → Bool
  | .idataRead word _ => word != 12
  | _ => true

/-- REGISTER_WRITE is "a write to a direct word without a row of its own". -/
def Instr.registerWordOk : Instr → Bool
  | .registerWrite word _ => plainWriteWords.contains word
  | _ => true

/-- EVEN_BYTE_WRITE is "a write of an even byte, other than to TXDATA" (R162). -/
def Instr.evenByteWordOk : Instr → Bool
  | .evenByteWrite word _ => word != 13
  | _ => true

/-- UNKNOWN_COMMAND carries a code that is none of Table 25's (R140). -/
def Instr.unknownCodeOk : Instr → Bool
  | .unknownCommand d => !(commandCodes.contains (d.setWidth 8))
  | _ => true

/-- A term spells its own row. -/
def Instr.wellFormed (i : Instr) : Bool :=
  i.readWordOk && i.registerWordOk && i.evenByteWordOk && i.unknownCodeOk

end Sys2Proof
end

