-- ==== Sys2Proof/Safety.lean ====
section
/-! DEFINITION. The laws a state of the part keeps (modes, cells, bounds), and the vocabulary in which the rows' effects are claimed: when
an access or a command is taken, what a byte of a frame brings with it, what a record due does. -/

namespace Sys2Proof.Machine

open Sys2Proof

/-! ### Accesses and commands -/

/-- Accesses are taken: -RESET is not asserted (R159). -/
def State.taking (s : State) : Prop := s.win.inReset = false

/-- A committing write with the data lines at `d` carries the word `v`: all of them in 16-bit mode, the odd byte over the holding latch
in 8-bit mode (R160, R162). -/
def State.carries (d v : Word) (s : State) : Prop :=
  (s.win.width16 = true ∧ v = d) ∨ (s.win.width16 = false ∧ v = mkWord (lowByte d) s.win.holdLatch)

/-- A CMD write carries `code`: any access of the row in 16-bit mode; in 8-bit mode the code stands in the holding latch (R137). -/
def State.carriesCode (code : Byte) (s : State) : Prop := s.win.width16 = true ∨ s.win.holdLatch = code

/-- R137: a CMD write that carries `code` passes the tests for INIT and PENDING. -/
def State.takesCmd (code : Byte) (s : State) : Prop :=
  s.taking ∧ s.pool.state = .ready ∧ s.cu.pending = none ∧ s.carriesCode code

/-- A write access answered: -RDY asserted, no data driven (R159, R163). -/
def State.acked (s : State) : State := { s with win := { s.win with lines := .released, ready := true } }

/-- A CMD write answered with `st` in CSTAT; RES0 and RES1 keep their values (R140). -/
def State.outcome (st : CStat) (s : State) : State := { s with cu := { s.cu with cstat := st } }.acked

/-- A CMD write answered with OK and two results. -/
def State.outcomeWith (r0 r1 : Word) (s : State) : State :=
  { s with cu := { s.cu with cstat := .ok, res0 := r0, res1 := r1 } }.acked

/-- `t` differs from `s` at most in channel `ch`, the pool, packet memory and the global event flags. -/
def State.othersKept (ch : ChanId) (s t : State) : Prop :=
  (∀ k, k ≠ ch → t.chan k = s.chan k) ∧ t.cu = s.cu ∧ t.gmask = s.gmask ∧ t.globals = s.globals ∧ t.win = s.win
    ∧ t.fresh = s.fresh ∧ t.prescale = s.prescale ∧ t.pending = s.pending

/-! ### Bytes of a processed frame -/

/-- The bit `x` that the edge delivers completes the byte `v` at offset `off` (2 or above) of a processed frame (R17, R22). -/
def Chan.byteArrives (b x : Bool) (off : Nat) (v : Byte) (c : Chan) : Prop :=
  c.sourceBit b = some x ∧ c.al.state = .locked ∧ 2 ≤ off ∧ c.al.bitPos + 1 = 8 * (off + 1)
    ∧ v = lowByte (shiftIn c.al.searchReg x)

/-- The channel with bit `x` taken by the aligner and the byte `v` it completes XORed into the running XOR (R17, R25, R34): what every byte
of a processed frame short of its last brings with it. -/
def Chan.withByte (g : Globals) (x : Bool) (v : Byte) (c : Chan) : Chan :=
  { c with
    al := { c.al with searchReg := shiftIn c.al.searchReg x, silence := some g.tsil.toNat, bitPos := c.al.bitPos + 1 }
    mon := { c.mon with runXor := c.mon.runXor ^^^ v } }

/-- The channel after a byte at offset `off`: if that was the frame's last, the frame has ended too (R22, R34, R55). -/
def Chan.endedAt (off : Nat) (c : Chan) : Chan :=
  if off + 1 = c.cfg.flen.toNat then
    { c with
      al := { c.al with bitPos := 0 }
      mon := { c.mon with prevXor := c.mon.runXor, runXor := 0, firstFrame := false }
      del := { c.del with startPos := none } }
  else c

/-- What a record due leaves of the ring, its numbering, the OHREC flag and OHLOST: `r` stored, or counted as lost (R49). -/
def Chan.recordOutcome (r : OhRecord) (c d : Chan) : Prop :=
  if c.mon.ring.length < 16 then
    r.seq = c.mon.nextSeq ∧ r.lost = c.mon.pendingLost ∧ d.mon.ring = c.mon.ring ++ [r]
      ∧ d.mon.nextSeq = c.mon.nextSeq + 1 ∧ d.mon.pendingLost = 0 ∧ d.flags.ohrec = true ∧ d.live.ohlost = c.live.ohlost
  else
    d.mon.ring = c.mon.ring ∧ d.mon.nextSeq = c.mon.nextSeq
      ∧ d.mon.pendingLost.toNat = min 255 (c.mon.pendingLost.toNat + 1)
      ∧ d.flags.ohrec = c.flags.ohrec ∧ d.live.ohlost = countUp c.live.ohlost

/-- The delineator's parse given up in `st`: no byte collected, no position, no packet in assembly (R62, R63, R71). -/
def Delin.givenUp (st : DelState) (d : Delin) : Delin :=
  { d with state := st, startPos := none, headerByte := none, remaining := 0, stored := 0, mismatch := 0, assembly := none }

/-- What an abort cause does to the packet in assembly, from pool `p` and channel `c` to pool `q` and channel `d` (R70): its chain goes to
the free list's tail, the holding falls, RXABORT is counted and RXDROP set; with no packet in assembly none of this. -/
def Chan.abortOutcome (c d : Chan) (p q : Pool) : Prop :=
  match c.del.assembly with
  | none => q = p ∧ d.rxHolding = c.rxHolding ∧ d.live.rxabort = c.live.rxabort ∧ d.flags.rxdrop = c.flags.rxdrop
  | some a => q = { p with free := p.free ++ a.chain } ∧ d.rxHolding = c.rxHolding - a.chain.length
      ∧ d.live.rxabort = countUp c.live.rxabort ∧ d.flags.rxdrop = true

/-- The departure record of R45 and R47. -/
def Monitor.departureRecord (m : Monitor) : OhRecord where
  seq := m.nextSeq
  causes := { align := true }
  fcnt := m.frameFcnt
  locked := false
  statKnown := false
  pv := false
  fe := false
  labelKnown := false
  label := 0
  degraded := false
  lost := m.pendingLost

/-- The entry record of R33 and R48, its FCNT still 0. -/
def Monitor.entryRecord (m : Monitor) : OhRecord := { m.departureRecord with fcnt := 0, locked := true }

/-- What leaving LOCKED does beside the aligner's own part, from channel `c` and pool `p` to channel `d` and pool `q`: ALIGN is set (R24, R29),
the monitor goes to WAITING with its record due (R45), the delineator to HOLD with a packet in assembly aborted (R70, R71);
`lost` says whether ALIGNLOSS is counted (R24). Everything else of the channel is kept, but for its aligner, admin state
and framer, of which nothing is said here. -/
structure Chan.DepartsLocked (lost : Bool) (c d : Chan) (p q : Pool) : Prop where
  align : d.flags.align = true
  waiting : d.mon.mode = .waiting ∧ d.mon.stat = {} ∧ d.mon.label = {} ∧ d.mon.conds = {} ∧ d.mon.winFrames = 0
    ∧ d.mon.winMismatches = 0 ∧ d.mon.runXor = 0 ∧ d.mon.entryFill = false
  kept_mon : d.mon.lastFcnt = c.mon.lastFcnt ∧ d.mon.frameFcnt = c.mon.frameFcnt ∧ d.mon.prevXor = c.mon.prevXor
  record : c.recordOutcome c.mon.departureRecord d
  alarm : d.flags.alarm = (c.flags.alarm || c.mon.conds.any)
  hold : c.del.state = .hold → d.del = c.del ∧ q = p ∧ d.rxHolding = c.rxHolding ∧ d.live.rxabort = c.live.rxabort
    ∧ d.flags.rxdrop = c.flags.rxdrop
  parsing : c.del.state ≠ .hold → d.del = c.del.givenUp .hold ∧ c.abortOutcome d p q
  alignloss : d.live.alignloss = if lost then countUp c.live.alignloss else c.live.alignloss
  kept_counts : ∀ k, k ≠ .alignloss → k ≠ .rxabort → k ≠ .ohlost → d.live.get k = c.live.get k
  kept_flags : d.flags.rxq = c.flags.rxq ∧ d.flags.txdone = c.flags.txdone
  kept : d.cfg = c.cfg ∧ d.rq = c.rq ∧ d.held = c.held ∧ d.fill = c.fill ∧ d.tq = c.tq ∧ d.nextTxseq = c.nextTxseq
    ∧ d.snap = c.snap ∧ d.mask = c.mask ∧ d.txHolding = c.txHolding

/-! ### Rows -/

/-- The rows that are accesses of the bus window and nothing beside: a CNT_SNAP met by a line event is also that event. -/
def isAccess : Instr → Bool
  | .powerOnReset | .resetRelease _ | .poolBuildComplete | .drainEnd _ | .drainTimerExpiry _ _ | .markerMatch _ _
  | .verifyMarkerComparison _ _ | .lockedMarkerComparison _ _ | .silenceTimerExpiry _ | .silentFirstBit _ _ | .fcntByte _ _
  | .offsetPoint _ _ | .overheadClose _ _ | .payloadByte _ _ | .processedFrameEnd _ _ | .frameStart _ | .blockBoundary _ | .cntSnap ⟨_, some _⟩
  | .packetEnd _ | .transmitFrameEnd _ | .receivedBit _ _ | .txclkFallingEdge _ => false
  | .softReset _ | .pageWrite _ | .idxWrite _ | .idataRead _ _ | .configurationWrite _ | .globalEntryWrite _
  | .ignoredIndirectWrite _ | .eventFlagClear _ _ | .eventMaskWrite _ _ | .registerWrite _ _ | .evenByteWrite _ _
  | .conflictingStrobes _ _ | .rxdataRead | .txdataWrite _ | .chStart _ | .chStop _ | .chReset _ | .chFlush _ | .rxOpen _
  | .rxRelease _ | .rxSkip _ | .txAlloc _ | .txSubmit _ | .txCancel _ | .ohPop _ | .cntSnap ⟨_, none⟩ | .unknownCommand _ => true

/-- The rows of Table 25's commands, with the code each carries. -/
def cmdRows (hi : Byte) : List (Instr × Byte) :=
  [(.chStart hi, 0x01), (.chStop hi, 0x02), (.chReset hi, 0x03), (.chFlush hi, 0x04), (.rxOpen hi, 0x10), (.rxRelease hi, 0x11),
   (.rxSkip hi, 0x12), (.txAlloc hi, 0x20), (.txSubmit hi, 0x21), (.txCancel hi, 0x22), (.ohPop hi, 0x30), (.cntSnap ⟨hi, none⟩, 0x31)]

/-! ### Modes -/

/-- One channel's blocks agree with its admin state and with each other: R15 and R25 (aligner), R32 (monitor), R54 (delineator),
R118 and Table 12 (framer). -/
structure Chan.ModesAgree (c : Chan) : Prop where
  off_iff : c.al.state = .off ↔ c.admin ≠ .active
  silence_iff : c.al.silence.isSome ↔ c.al.state ≠ .off ∧ c.al.state ≠ .silent
  silent_clear : c.al.state = .silent → c.al.searchReg = 0
  monitoring_iff : c.mon.mode = .monitoring ↔ c.al.state = .locked
  waiting_clear : c.mon.mode = .waiting → c.mon.conds = {} ∧ c.mon.stat = {} ∧ c.mon.label = {}
  parsing_iff : c.del.state ≠ .hold ↔ c.al.state = .locked ∧ c.mon.conds.carrier = false
  running_iff : c.fr.running = true ↔ c.admin ≠ .disabled
  draining_iff : c.fr.drainTimer.isSome ↔ c.admin = .draining
  stopped_none : c.fr.running = false → c.fr.bitPos = none ∧ c.fr.inflight = none

/-- The modes of the whole part: every channel's agree, a channel is DRAINING exactly when the Command Unit is PENDING on it (R135), and
while the pool is in INIT every channel is DISABLED (R84). -/
structure State.ModesAgree (s : State) : Prop where
  chans : ∀ ch, (s.chan ch).ModesAgree
  draining_iff : ∀ ch, (s.chan ch).admin = .draining ↔ s.cu.pending = some ch
  init_disabled : s.pool.state = .init → ∀ ch, (s.chan ch).admin = .disabled

/-! ### Cells -/

/-- What the framer's in-flight packet and bytes owed have to do with each other (Table 12, R122): a packet is in flight only in NORMAL mode,
within its header or its body, and with none in flight only an idle header is owed. -/
def Framer.FlightAgrees (f : Framer) : Prop :=
  match f.inflight with
  | none => f.owed = 0 ∨ f.kind = .idleHeader
  | some p => f.mode = .normal ∧ 1 ≤ p.desc.len ∧
      ((f.kind = .packetHeader ∧ p.cursor = 0 ∧ (f.owed = p.desc.len + 2 ∨ f.owed = p.desc.len + 1))
        ∨ (f.kind = .packetBody ∧ 1 ≤ f.owed ∧ p.cursor + f.owed = p.desc.len))

/-- One channel's holdings count the cells of its packets (R81), each packet's chain has the cells its length needs (R80), and what is in
assembly or in flight is where R54 and R122 put it. -/
structure Chan.CellsAgree (c : Chan) : Prop where
  rx_holding : c.rxHolding = c.rxChains.length
  tx_holding : c.txHolding = c.txChains.length
  assembly_iff : c.del.assembly.isSome ↔ c.del.state = .body
  flight : c.fr.FlightAgrees
  assembly_cells : ∀ d ∈ c.del.assembly, d.chain.length = d.cells
  held_cells : ∀ h ∈ c.held, h.desc.chain.length = h.desc.cells
  rq_cells : ∀ d ∈ c.rq, d.chain.length = d.cells
  tq_cells : ∀ d ∈ c.tq, 1 ≤ d.len ∧ d.chain.length = d.cells
  fill_cells : ∀ f ∈ c.fill, 1 ≤ f.len ∧ f.chain.length = cellsFor f.len
  flight_cells : ∀ p ∈ c.fr.inflight, p.desc.chain.length = p.desc.cells

/-- Every cell the channel's packets hold, receive side first. -/
def Chan.cells (c : Chan) : List CellNo := c.rxChains ++ c.txChains

/-- Every cell of the part: the free list, then each channel's packets. -/
def State.cells (s : State) : List CellNo :=
  s.pool.free ++ ((s.chan 0).cells ++ ((s.chan 1).cells ++ ((s.chan 2).cells ++ (s.chan 3).cells)))

/-- R80: in READY each of the 512 cells belongs to the free list or to one packet; in INIT no cell belongs to a packet, and the free list
holds the first cells in ascending order, short of the last. -/
structure State.CellsConserved (s : State) : Prop where
  chans : ∀ ch, (s.chan ch).CellsAgree
  ready : s.pool.state = .ready → s.cells.Perm (cellsUpTo 512)
  init : s.pool.state = .init → (∀ ch, (s.chan ch).cells = []) ∧ s.pool.freeCount ≤ 511 ∧ s.pool.free = cellsUpTo s.pool.freeCount

/-! ### Bounds -/

/-- A channel's configuration entries are in their ranges, and DSET is above DCLR (R146, R149). -/
structure ChanCfg.InRange (g : ChanCfg) : Prop where
  ranges : ∀ e : Entry, e.inRange (g.get e) = true
  pair : g.dclr.toNat < g.dset.toNat

/-- The global entries are in their ranges (R150). -/
def Globals.InRange (g : Globals) : Prop := ∀ e : GEntry, e.inRange (g.get e) = true

/-- One channel's queues, ring, cursors, holdings and persistence counts are within their bounds: R93, R117, R49, R97, R111, R86, R38. -/
structure Chan.InBounds (c : Chan) : Prop where
  cfg : c.cfg.InRange
  rq : c.rq.length ≤ 32
  tq : c.tq.length ≤ 16
  ring : c.mon.ring.length ≤ 16
  held : ∀ h ∈ c.held, h.cursor ≤ h.desc.storelen
  fill : ∀ f ∈ c.fill, 1 ≤ f.len ∧ f.len ≤ 4095 ∧ f.cursor ≤ f.len
  rxQuota : c.rxHolding ≤ c.cfg.rxquota.toNat
  txQuota : c.txHolding ≤ c.cfg.txquota.toNat
  persist : c.mon.stat.count ≤ c.cfg.persist.toNat ∧ c.mon.label.count ≤ c.cfg.persist.toNat

/-- The bounds of the whole part. -/
structure State.InBounds (s : State) : Prop where
  chans : ∀ ch, (s.chan ch).InBounds
  globals : s.globals.InRange

end Sys2Proof.Machine
end

