-- ==== Sys2Proof/Certificates/Slice0/Obligations.lean ====
section
/-! DEFINITION. The statements for the provers, from the data sheet's rules. In an equality `exec i s = .next t` the state `t`
is written as `s` with what the rule changes, so that everything else is unchanged: the frame. -/

open Sys2Proof Sys2Proof.Machine

/-! ### Steps and resets -/

/-- A step takes the command at the front of the queue and runs it with the queue's rest. -/
def Obligations.StepRunsTheFrontCommand : Prop :=
  ∀ (i : Instr) (rest : List Instr) (s : State), step { s with pending := i :: rest } = exec i { s with pending := rest }

/-- The model's choice (log entry 5): a step on an empty queue is 10 µs of REFCLK. Nothing is timed under -RESET; with no timer
due, each silence timer counts one tick (R25), and each drain timer on every tenth (R130); a build is complete by the fourth
(R82). The tick at which a timer is due takes the expiry's row (R26, R130): the silence timers first, then the drain timers, in
channel order, then the build. -/
def Obligations.EmptyQueueStepIsOneTick : Prop :=
  ∀ s : State, s.pending = [] →
    (s.win.inReset = true → step s = .next s) ∧
    (s.taking → (∀ ch n, (s.chan ch).al.silence = some n → 2 ≤ n) → (∀ ch n, (s.chan ch).fr.drainTimer = some n → 2 ≤ n) →
      ∃ t, step s = .next t ∧ t.mem = s.mem ∧ t.cu = s.cu ∧ t.gmask = s.gmask ∧ t.globals = s.globals ∧ t.win = s.win
        ∧ t.fresh = s.fresh ∧ t.pending = []
        ∧ (∀ ch, t.chan ch = { s.chan ch with
            al := { (s.chan ch).al with silence := (s.chan ch).al.silence.map (· - 1) }
            fr := { (s.chan ch).fr with drainTimer :=
              if s.prescale = 9 then (s.chan ch).fr.drainTimer.map (· - 1) else (s.chan ch).fr.drainTimer } })
        ∧ t.prescale = (if s.prescale = 9 then 0 else s.prescale + 1)
        ∧ (s.pool.state = .ready → t.pool = s.pool ∧ t.gflags = s.gflags)
        ∧ (s.pool.state = .init → s.pool.ticks < 3 →
            t.pool = { s.pool with ticks := s.pool.ticks + 1 } ∧ t.gflags = s.gflags)
        ∧ (s.pool.state = .init → 3 ≤ s.pool.ticks →
            t.pool.state = .ready ∧ t.pool.freeCount = 512 ∧ t.gflags = { s.gflags with initdone := true })) ∧
    (let silence (ch : ChanId) (a b : State) : Prop :=
       ((a.chan ch).al.silence = none → b = a) ∧
       ∀ n, (a.chan ch).al.silence = some n →
         (n ≤ 1 → exec (.silenceTimerExpiry ch) a = .next b) ∧
         (2 ≤ n → b = a.setChan ch { a.chan ch with al := { (a.chan ch).al with silence := some (n - 1) } })
     let drain (ch : ChanId) (a b : State) : Prop :=
       ((a.chan ch).fr.drainTimer = none → b = a) ∧
       ∀ n, (a.chan ch).fr.drainTimer = some n →
         (n ≤ 1 → ∃ u clockStopped, exec (.drainTimerExpiry ch clockStopped) a = .next u ∧ b = { u with fresh := b.fresh }) ∧
         (2 ≤ n → b = a.setChan ch { a.chan ch with fr := { (a.chan ch).fr with drainTimer := some (n - 1) } })
     s.taking → ∃ a b c d e f g h u t, silence 0 s a ∧ silence 1 a b ∧ silence 2 b c ∧ silence 3 c d
       ∧ (s.prescale = 9 → drain 0 d e ∧ drain 1 e f ∧ drain 2 f g ∧ drain 3 g h ∧ u = { h with prescale := 0 })
       ∧ (s.prescale ≠ 9 → u = { d with prescale := s.prescale + 1 })
       ∧ (u.pool.state = .ready → t = u)
       ∧ (u.pool.state = .init → u.pool.ticks < 3 → t = { u with pool := { u.pool with ticks := u.pool.ticks + 1 } })
       ∧ (u.pool.state = .init → 3 ≤ u.pool.ticks → exec .poolBuildComplete u = .next t)
       ∧ step s = .next t)

/-- R30, R53, R75, R82, R109, R133, R136, R146, R150, R158, R161, R162, R165, R166 and R171: the values of State.reset, and a
power-on or pin reset puts everything at them. That packet memory (log entry 7), the width not yet sampled (R160) and the
model's own fields are kept is the model's choice. -/
def Obligations.PowerOnResetGivesTheResetState : Prop :=
  (let s := State.reset
   (s.win.page = 0 ∧ s.win.idx = 0 ∧ s.win.readLatch = 0 ∧ s.win.holdLatch = 0 ∧ s.win.ready = false) ∧
   (s.pool.state = .init ∧ s.pool.freeCount = 0) ∧
   (s.cu.pending = none ∧ s.cu.cstat = .none ∧ s.cu.arg0 = 0 ∧ s.cu.arg1 = 0 ∧ s.cu.res0 = 0 ∧ s.cu.res1 = 0) ∧
   (s.gflags = ⟨false, false, false, false, false, false⟩ ∧ s.gmask = ⟨false, false, false, false, false, false⟩) ∧
   (s.globals.tsil = 10 ∧ s.globals.tdrain = 50 ∧ s.globals.poolthr = 32) ∧
   (s.intAsserted = false ∧ s.pending = []) ∧
   ∀ ch, let c := s.chan ch
     (c.admin = .disabled
       ∧ c.cfg = ⟨256, 4095, 0, 96, 32, 3, 2, 4, 1000, 0, 0, 0, 10, 2, 1, 0, 0, 1⟩) ∧
     (c.al.state = .off ∧ c.al.searchReg = 0 ∧ c.al.verifyCount = 0 ∧ c.al.missCount = 0 ∧ c.al.silence = none) ∧
     (c.mon.mode = .waiting ∧ c.mon.stat = ⟨none, 0, none⟩ ∧ c.mon.label = ⟨none, 0, none⟩ ∧ c.mon.conds = ⟨false, false, false, false⟩
       ∧ c.mon.winFrames = 0 ∧ c.mon.winMismatches = 0 ∧ c.mon.runXor = 0 ∧ c.mon.prevXor = 0 ∧ c.mon.lastFcnt = 0
       ∧ c.mon.frameFcnt = 0 ∧ c.mon.entryFill = false ∧ c.mon.ring = [] ∧ c.mon.nextSeq = 0 ∧ c.mon.pendingLost = 0) ∧
     (c.del.state = .hold ∧ c.del.nextPktseq = 0 ∧ c.del.mismatch = 0 ∧ c.del.latchedFbo = 0 ∧ c.del.headerFcnt = 0
       ∧ c.del.assembly = none ∧ c.del.startPos = none ∧ c.del.headerByte = none ∧ c.del.remaining = 0) ∧
     (c.rq = [] ∧ c.held = none ∧ c.fill = none ∧ c.tq = [] ∧ c.nextTxseq = 0) ∧
     (c.fr.running = false ∧ c.fr.txd = true ∧ c.fr.inflight = none ∧ c.fr.drainTimer = none) ∧
     (∀ k, c.live.get k = 0 ∧ c.snap.get k = 0) ∧
     (c.flags = ⟨false, false, false, false, false, false⟩ ∧ c.mask = ⟨false, false, false, false, false, false⟩) ∧
     (c.rxHolding = 0 ∧ c.txHolding = 0)) ∧
  (∀ s : State, exec .powerOnReset s = .next { State.reset with
     win := { State.reset.win with width16 := s.win.width16 }
     mem := s.mem, fresh := s.fresh, prescale := s.prescale, pending := s.pending })

/-- R82 and R160: the end of the reset samples WIDTH; the build's end leaves cells 0 to 511 in ascending order on the free list,
READY and INITDONE. That either row without its occasion changes nothing is the model's choice (log entry 10). -/
def Obligations.ResetEndsAndThePoolIsBuilt : Prop :=
  ∀ (s : State) (width : Bool),
    (s.win.inReset = true →
      exec (.resetRelease width) s = .next { s with win := { s.win with inReset := false, width16 := width } }) ∧
    (s.taking → exec (.resetRelease width) s = .next s) ∧
    (s.taking → s.pool.state = .init → ∃ t, exec .poolBuildComplete s = .next t
      ∧ t = { s with pool := t.pool, gflags := { s.gflags with initdone := true } }
      ∧ t.pool.state = .ready ∧ t.pool.free.map Fin.val = List.range 512) ∧
    (s.win.inReset = true ∨ s.pool.state = .ready → exec .poolBuildComplete s = .next s)

/-- R172: a write of GCTL with SRST 1 acts on every block in one event: each channel keeps its configuration and its masks and
is otherwise as a device reset leaves it, the pool is in INIT with nothing on its free list, the Command Unit is IDLE with CSTAT
NONE, every flag is clear; globals, masks, PAGE, IDX, width and latches are kept. With SRST 0 nothing happens. -/
def Obligations.SoftResetActsOnEveryBlock : Prop :=
  ∀ (s : State) (d v : Word), s.taking → s.carries d v →
    (v.getLsbD 0 = false → exec (.softReset d) s = .next s.acked) ∧
    (v.getLsbD 0 = true → ∃ t, exec (.softReset d) s = .next t
      ∧ (∀ ch, t.chan ch = { State.reset.chan ch with cfg := (s.chan ch).cfg, mask := (s.chan ch).mask })
      ∧ t.pool.state = .init ∧ t.pool.freeCount = 0 ∧ t.cu = State.reset.cu ∧ t.gflags = State.reset.gflags
      ∧ t.gmask = s.gmask ∧ t.globals = s.globals ∧ t.mem = s.mem ∧ t.pending = s.pending
      ∧ t.win = { s.win with lines := .released, ready := true })

/-! ### Bus window -/

/-- R159: while -RESET is asserted no access is taken and -RDY stays released; an access with both strobes is taken as neither:
answered, no data driven, no side effect. -/
def Obligations.AccessesInResetAndWithBothStrobesTouchNothing : Prop :=
  (∀ (i : Instr) (s : State), isAccess i = true → s.win.inReset = true →
     exec i s = .next { s with win := { s.win with lines := .released, ready := false } }) ∧
  (∀ (word : WordNo) (d : Word) (s : State), s.taking → exec (.conflictingStrobes word d) s = .next s.acked)

/-- R165, whole: PAGE takes a whole value of 0 to 3; any other is refused with CFGERR; a power-on or pin reset sets it to 0, a
soft reset and CH_RESET keep it. -/
def Obligations.PageTakesAWholeValueOfZeroToThree : Prop :=
  (∀ (s : State) (d v : Word), s.taking → s.carries d v →
    (∀ p : ChanId, v.toNat = p.val → exec (.pageWrite d) s = .next { s with win := { s.win with page := p } }.acked) ∧
    (4 ≤ v.toNat → exec (.pageWrite d) s = .next { s with gflags := { s.gflags with cfgerr := true } }.acked)) ∧
  (∀ s t : State, exec .powerOnReset s = .next t → t.win.page = 0) ∧
  (∀ (s t : State) (d : Word), exec (.softReset d) s = .next t → t.win.page = s.win.page) ∧
  (∀ (s t : State) (hi : Byte), s.takesCmd 0x03 → exec (.chReset hi) s = .next t → t.win.page = s.win.page)

/-- R166: IDX takes the low byte of the written word; an IDATA write at an index with no entry is ignored, and IDX still
increases modulo 256. -/
def Obligations.IdxIsWrittenAndCountsIgnoredWrites : Prop :=
  ∀ (s : State) (d v : Word), s.taking → s.carries d v →
    exec (.idxWrite d) s = .next { s with win := { s.win with idx := lowByte v } }.acked ∧
    ((0x12 ≤ s.win.idx.toNat ∧ s.win.idx.toNat < 0xF0) ∨ 0xF3 ≤ s.win.idx.toNat →
      exec (.ignoredIndirectWrite d) s = .next { s with win := { s.win with idx := s.win.idx + 1 } }.acked)

/-- Tables 19, 23 and 26: what a 16-bit read of each direct word other than IDATA and RXDATA returns; such a read changes
nothing. -/
def Obligations.DirectWordsReadTheirFields : Prop :=
  ∀ (s : State) (odd : Bool), s.taking → s.win.width16 = true →
    let reads (k : WordNo) (w : Word) : Prop :=
      exec (.idataRead k odd) s = .next { s with win := { s.win with lines := .all w, ready := true } }
    (reads 0 0x4A51 ∧ reads 1 0 ∧ reads 6 0 ∧ reads 13 0) ∧
    (reads 5 (natWord s.win.page.val) ∧ reads 10 (s.win.idx.setWidth 16)) ∧
    (reads 7 (match s.cu.cstat with
        | .none => 0x00 | .ok => 0x01 | .pending => 0x02 | .busy => 0x03 | .badcmd => 0x04 | .badarg => 0x05 | .state => 0x06
        | .empty => 0x07 | .nospace => 0x08 | .qfull => 0x09 | .short => 0x0A | .timeout => 0x0B)
      ∧ reads 8 s.cu.res0 ∧ reads 9 s.cu.res1) ∧
    (∃ w, reads 2 w ∧ w.getLsbD 0 = (s.pool.state == .ready) ∧ w.getLsbD 1 = s.cu.pending.isSome
      ∧ w.getLsbD 2 = s.win.width16
      ∧ (∀ ch : ChanId, w.getLsbD (8 + ch.val) = (s.chan ch).flags.any)
      ∧ ∀ i, ¬(i < 3 ∨ (8 ≤ i ∧ i < 12)) → w.getLsbD i = false) ∧
    (∃ w, reads 3 w ∧ w.getLsbD 0 = s.gflags.initdone ∧ w.getLsbD 1 = s.gflags.cmddone ∧ w.getLsbD 2 = s.gflags.cmdlost
      ∧ w.getLsbD 3 = s.gflags.poollow ∧ w.getLsbD 4 = s.gflags.porterr ∧ w.getLsbD 5 = s.gflags.cfgerr
      ∧ ∀ i, 6 ≤ i → w.getLsbD i = false) ∧
    (∃ w, reads 4 w ∧ w.getLsbD 0 = s.gmask.initdone ∧ w.getLsbD 1 = s.gmask.cmddone ∧ w.getLsbD 2 = s.gmask.cmdlost
      ∧ w.getLsbD 3 = s.gmask.poollow ∧ w.getLsbD 4 = s.gmask.porterr ∧ w.getLsbD 5 = s.gmask.cfgerr
      ∧ ∀ i, 6 ≤ i → w.getLsbD i = false) ∧
    (let f := (s.chan s.win.page).flags
     ∃ w, reads 14 w ∧ w.getLsbD 0 = f.rxq ∧ w.getLsbD 1 = f.rxdrop ∧ w.getLsbD 2 = f.ohrec ∧ w.getLsbD 3 = f.align
      ∧ w.getLsbD 4 = f.alarm ∧ w.getLsbD 5 = f.txdone ∧ ∀ i, 6 ≤ i → w.getLsbD i = false) ∧
    (let f := (s.chan s.win.page).mask
     ∃ w, reads 15 w ∧ w.getLsbD 0 = f.rxq ∧ w.getLsbD 1 = f.rxdrop ∧ w.getLsbD 2 = f.ohrec ∧ w.getLsbD 3 = f.align
      ∧ w.getLsbD 4 = f.alarm ∧ w.getLsbD 5 = f.txdone ∧ ∀ i, 6 ≤ i → w.getLsbD i = false)

/-- R166 and R84 with Tables 24, 27 and 32: a 16-bit read of IDATA at an entry's index returns the entry, at FREE's the free
count, at an unlisted index 0; IDX increases by 1, modulo 256. During a build FREE has not decreased since the last read and is
at most 512: how far the build has got is a free value (log entry 4), so nothing more is said of it. -/
def Obligations.EntriesAndFreeReadAtTheirIndices : Prop :=
  (∀ s : State, s.taking → s.win.width16 = true →
     let c := s.chan s.win.page
     let i := s.win.idx.toNat
     let reads (w : Word) : Prop :=
       exec (.idataRead 11 false) s
         = .next { s with win := { s.win with idx := s.win.idx + 1, lines := .all w, ready := true } }
     (i < 0x12 → reads ([c.cfg.flen, c.cfg.maxlen, c.cfg.slotlen, c.cfg.rxquota, c.cfg.txquota, c.cfg.persist, c.cfg.vcount,
       c.cfg.misslim, c.cfg.dwin, c.cfg.loop, c.cfg.explabel, c.cfg.txlabel, c.cfg.dset, c.cfg.dclr, c.cfg.rqthr,
       c.cfg.sendalarm, c.cfg.forcefe, c.cfg.autofe].getD i 0)) ∧
     (i = 0xF0 → reads s.globals.tsil) ∧ (i = 0xF1 → reads s.globals.tdrain) ∧ (i = 0xF2 → reads s.globals.poolthr) ∧
     (i = 0xF3 → s.pool.state = .ready → reads (natWord s.pool.freeCount)) ∧
     ((0x12 ≤ i ∧ i < 0x20) ∨ (0x60 ≤ i ∧ i < 0xF0) ∨ 0xF4 ≤ i → reads 0)) ∧
  (∀ s : State, s.taking → s.win.width16 = true → s.win.idx.toNat = 0xF3 → s.pool.state = .init → s.pool.freeCount ≤ 511 →
     ∃ t, exec (.idataRead 11 false) s = .next t
       ∧ t = { s with pool := t.pool, fresh := t.fresh
                      win := { s.win with idx := s.win.idx + 1, lines := .all (natWord t.pool.freeCount), ready := true } }
       ∧ t.pool.state = .init ∧ s.pool.freeCount ≤ t.pool.freeCount ∧ t.pool.freeCount ≤ 512)

/-- R157, R96, R52, R31, R76, R92, R110, R134 and R176 with Tables 28 to 31: the snapshot words, the head view, the record view
and the channel status view; an absent item reads 0. -/
def Obligations.ViewsReadTheirFields : Prop :=
  (∀ s : State, s.taking → s.win.width16 = true →
     let c := s.chan s.win.page
     let i := s.win.idx.toNat
     let reads (w : Word) : Prop :=
       exec (.idataRead 11 false) s
         = .next { s with win := { s.win with idx := s.win.idx + 1, lines := .all w, ready := true } }
     let counts := [c.snap.rxframes, c.snap.fcerr, c.snap.fcjump, c.snap.alignloss, c.snap.rxpkts, c.snap.rxlong, c.snap.rxpadded,
       c.snap.hdrerr, c.snap.offmiss, c.snap.dropnobuf, c.snap.dropqfull, c.snap.rxabort, c.snap.ohlost, c.snap.txframes,
       c.snap.txpkts, c.snap.txabort]
     (∀ n v, counts[n]? = some v →
       (i = 0x20 + 2 * n → reads (v.extractLsb' 0 16)) ∧ (i = 0x21 + 2 * n → reads ((v.extractLsb' 16 8).setWidth 16))) ∧
     (c.rq = [] → 0x40 ≤ i → i ≤ 0x47 → reads 0) ∧
     (∀ d rest, c.rq = d :: rest →
       (i = 0x40 → reads (natWord (1 + 2 * d.long.toNat + 4 * d.padded.toNat))) ∧ (i = 0x41 → reads d.pktseq)
       ∧ (i = 0x42 → reads (natWord d.wirelen)) ∧ (i = 0x43 → reads (natWord d.storelen))
       ∧ (i = 0x44 → reads (d.fcnt.setWidth 16)) ∧ (i = 0x45 → reads (natWord d.cells))
       ∧ (i = 0x46 ∨ i = 0x47 → reads 0)) ∧
     (c.mon.ring = [] → 0x48 ≤ i → i ≤ 0x4F → reads 0) ∧
     (∀ r rest, c.mon.ring = r :: rest →
       (i = 0x48 → reads (natWord (1 + 2 * r.locked.toNat + 4 * r.statKnown.toNat + 8 * r.pv.toNat + 16 * r.fe.toNat
           + 32 * r.labelKnown.toNat + 64 * r.degraded.toNat + 256 * r.causes.align.toNat + 512 * r.causes.status.toNat
           + 1024 * r.causes.label.toNat + 2048 * r.causes.degrade.toNat)))
       ∧ (i = 0x49 → reads r.seq) ∧ (i = 0x4A → reads (r.label ++ r.fcnt)) ∧ (i = 0x4B → reads (r.lost.setWidth 16))
       ∧ (0x4C ≤ i → i ≤ 0x4F → reads 0))) ∧
  (∀ s : State, s.taking → s.win.width16 = true →
     let c := s.chan s.win.page
     let i := s.win.idx.toNat
     let reads (w : Word) : Prop :=
       exec (.idataRead 11 false) s
         = .next { s with win := { s.win with idx := s.win.idx + 1, lines := .all w, ready := true } }
     let admin : Nat := match c.admin with
       | .disabled => 0 | .active => 1 | .draining => 2
     let alstate : Nat := match c.al.state with
       | .off => 0 | .silent => 1 | .hunt => 2 | .verify => 3 | .locked => 4
     let delin : Nat := match c.del.state with
       | .hold => 0 | .seek => 1 | .header => 2 | .body => 3 | .skip => 4
     (i = 0x50 → reads (natWord (admin + 4 * alstate + 32 * delin + 256 *
       (if c.fr.running = false then 0 else if c.fr.mode = .alarm then 3 else if c.cfg.sendalarm = 1 then 2 else 1)))) ∧
     (i = 0x51 → reads ((c.mon.label.accepted.getD 0) ++ BitVec.ofNat 8 (c.mon.conds.carrier.toNat + 2 * c.mon.conds.farend.toNat
       + 4 * c.mon.conds.labelmis.toNat + 8 * c.mon.conds.degraded.toNat + 16 * c.mon.stat.accepted.isSome.toNat
       + 32 * ((c.mon.stat.accepted.map StatVal.pv).getD false).toNat
       + 64 * ((c.mon.stat.accepted.map StatVal.fe).getD false).toNat + 128 * c.mon.label.accepted.isSome.toNat))) ∧
     (i = 0x52 → reads (natWord c.rq.length)) ∧ (i = 0x53 → reads (natWord c.tq.length)) ∧
     (i = 0x54 → reads (natWord c.mon.ring.length)) ∧ (i = 0x55 → reads (natWord c.rxHolding)) ∧
     (i = 0x56 → reads (natWord c.txHolding)) ∧
     (i = 0x57 → reads (if c.held = none then 0 else 1)) ∧
     (i = 0x58 → (c.held = none → reads 0) ∧ ∀ h, c.held = some h → reads (natWord h.cursor)) ∧
     (i = 0x59 → reads (if c.fill = none then 0 else 1)) ∧
     (i = 0x5A → (c.fill = none → reads 0) ∧ ∀ f, c.fill = some f → reads (natWord f.cursor)) ∧
     (i = 0x5B → (c.fill = none → reads 0) ∧ ∀ f, c.fill = some f → reads (natWord f.len)) ∧
     (0x5C ≤ i → i ≤ 0x5F → reads 0))

/-- R161 and R162: in 8-bit mode an even-byte read of any word but RXDATA reads the whole word with its side effects, returns
the low byte and keeps the word in the read latch, and an odd-byte read returns the latch's high byte and does nothing else; an
even-byte write of any word but TXDATA goes to the holding latch alone. The word read is the one that a 16-bit read of the same
state returns, but for GSTAT's width bit. In 16-bit mode A0 is disregarded (Table 18). That TXDATA is among the words whose
reads use the latch is the model's choice (log entry 21), and so is that RXDATA is among the words whose even-byte writes go to
the holding latch (log entry 23). -/
def Obligations.EvenBytesFillTheByteLaneLatches : Prop :=
  (∀ (s : State) (word : WordNo), s.taking → s.win.width16 = false → word ≠ 12 →
     (let r := s.readWord word
      exec (.idataRead word false) s
       = .next { r.2 with win := { r.2.win with readLatch := r.1, lines := .low (lowByte r.1), ready := true } }) ∧
     (word ≠ 2 → ∃ t w, exec (.idataRead word false) { s with win := { s.win with width16 := true } } = .next t
       ∧ t.win.lines = .all w
       ∧ exec (.idataRead word false) s
         = .next { t with win := { t.win with width16 := false, readLatch := w, lines := .low (w.extractLsb' 0 8) } }) ∧
     (word = 2 → ∃ w : Word, exec (.idataRead 2 false) s
         = .next { s with win := { s.win with readLatch := w, lines := .low (w.extractLsb' 0 8), ready := true } }
       ∧ w.getLsbD 0 = (s.pool.state == .ready) ∧ w.getLsbD 1 = s.cu.pending.isSome
       ∧ (∀ ch : ChanId, w.getLsbD (8 + ch.val) = (s.chan ch).flags.any)
       ∧ ∀ i, ¬(i < 2 ∨ (8 ≤ i ∧ i < 12)) → w.getLsbD i = false) ∧
     exec (.idataRead word true) s = .next { s with win := { s.win with lines := .low (highByte s.win.readLatch), ready := true } }) ∧
  (∀ (s : State) (word : WordNo) (d : Word), s.taking →
     (s.win.width16 = false → word ≠ 13 →
       exec (.evenByteWrite word d) s = .next { s with win := { s.win with holdLatch := lowByte d } }.acked) ∧
     (s.win.width16 = true → exec (.evenByteWrite word d) s = exec (.registerWrite word d) s))

/-- R164 and R136: a write of ARG0 or ARG1 stores the argument and leaves the results; a write of ID, GSTAT, CSTAT or RXDATA is
ignored, and so is GCTL's with SRST 0. -/
def Obligations.RegisterWritesStoreArgumentsAndIgnoreReadOnlyWords : Prop :=
  ∀ (s : State) (d v : Word), s.taking → s.carries d v →
    exec (.registerWrite 8 d) s = .next { s with cu := { s.cu with arg0 := v } }.acked ∧
    exec (.registerWrite 9 d) s = .next { s with cu := { s.cu with arg1 := v } }.acked ∧
    (∀ word : WordNo, word = 0 ∨ word = 2 ∨ word = 7 ∨ word = 12 → exec (.registerWrite word d) s = .next s.acked) ∧
    (v.getLsbD 0 = false → exec (.registerWrite 1 d) s = .next s.acked)

/-- R147 with Table 27, the quota rule R148, the pair rule R149 and R41: a configuration write is refused with CFGERR when a test
fails, and else the entry takes the value; an accepted EXPLABEL re-evaluates LABELMIS, with ALARM if it changes in MONITORING;
IDX increases either way. -/
def Obligations.ConfigurationWriteIsTestedAndTaken : Prop :=
  ∀ (s : State) (d v : Word) (lo hi : Nat) (locked : Bool), s.taking → s.carries d v →
    let p := s.win.page
    let c := s.chan p
    let i := s.win.idx.toNat
    let table : List (Nat × Nat × Bool) := [(64, 2048, true), (1, 4095, true), (0, 4095, true), (0, 512, true), (0, 512, true),
      (2, 7, true), (1, 3, true), (2, 7, true), (16, 65535, true), (0, 1, true), (0, 255, false), (0, 255, false), (1, 255, false),
      (0, 254, false), (1, 32, false), (0, 1, false), (0, 1, false), (0, 1, false)]
    let entries (g : ChanCfg) : List Word := [g.flen, g.maxlen, g.slotlen, g.rxquota, g.txquota, g.persist, g.vcount, g.misslim,
      g.dwin, g.loop, g.explabel, g.txlabel, g.dset, g.dclr, g.rqthr, g.sendalarm, g.forcefe, g.autofe]
    let accepted : Prop :=
      (lo ≤ v.toNat ∧ v.toNat ≤ hi ∧ (i = 0x00 → v.toNat % 8 = 0))
      ∧ (locked = true → c.admin = .disabled)
      ∧ (i = 0x03 → c.rxHolding ≤ v.toNat) ∧ (i = 0x04 → c.txHolding ≤ v.toNat)
      ∧ (i = 0x0C → c.cfg.dclr.toNat < v.toNat) ∧ (i = 0x0D → v.toNat < c.cfg.dset.toNat)
    let after (t : State) : State := { t with win := { t.win with idx := t.win.idx + 1 } }.acked
    table[i]? = some (lo, hi, locked) →
    (¬accepted →
      exec (.configurationWrite d) s = .next (after { s with gflags := { s.gflags with cfgerr := true } })) ∧
    (accepted → i ≠ 0x0A → ∃ g, entries g = (entries c.cfg).set i v ∧
      exec (.configurationWrite d) s = .next (after (s.setChan p { c with cfg := g }))) ∧
    (accepted → i = 0x0A →
      let mis := match c.mon.label.accepted with
        | none => false
        | some label => decide (v ≠ 0 ∧ label.toNat ≠ v.toNat)
      exec (.configurationWrite d) s = .next (after (s.setChan p { c with
        cfg := { c.cfg with explabel := v }
        mon := { c.mon with conds := { c.mon.conds with labelmis := mis } }
        flags := { c.flags with
          alarm := c.flags.alarm || (decide (c.mon.mode = .monitoring) && (mis != c.mon.conds.labelmis)) } })))

/-- R150: a write of TSIL, TDRAIN or POOLTHR through any page is tested for its range and taken or refused with CFGERR; a write
of FREE is ignored; IDX increases; a timer already running keeps its count, as nothing else changes. -/
def Obligations.GlobalEntryWriteIsTestedAndTaken : Prop :=
  ∀ (s : State) (d v : Word), s.taking → s.carries d v →
    let i := s.win.idx.toNat
    let after (t : State) : State := { t with win := { t.win with idx := t.win.idx + 1 } }.acked
    let refused : State := after { s with gflags := { s.gflags with cfgerr := true } }
    (i = 0xF0 → exec (.globalEntryWrite d) s = .next
      (if 2 ≤ v.toNat ∧ v.toNat ≤ 255 then after { s with globals := { s.globals with tsil := v } } else refused)) ∧
    (i = 0xF1 → exec (.globalEntryWrite d) s = .next
      (if 1 ≤ v.toNat ∧ v.toNat ≤ 255 then after { s with globals := { s.globals with tdrain := v } } else refused)) ∧
    (i = 0xF2 → exec (.globalEntryWrite d) s = .next
      (if v.toNat ≤ 511 then after { s with globals := { s.globals with poolthr := v } } else refused)) ∧
    (i = 0xF3 → exec (.globalEntryWrite d) s = .next (after s))

/-- R169 and R170: a write of GEVENT or of the paged CEVENT clears each flag whose bit is 1 and leaves the rest; a mask write
sets every mask bit of the word; -INT is asserted exactly while some flag and its mask bit are both set. -/
def Obligations.FlagsClearMasksAreWrittenAndIntFollows : Prop :=
  (∀ (s : State) (d v : Word), s.taking → s.carries d v →
     (let f := s.gflags
      exec (.eventFlagClear .global d) s = .next { s with gflags :=
       { initdone := f.initdone && !v.getLsbD 0, cmddone := f.cmddone && !v.getLsbD 1, cmdlost := f.cmdlost && !v.getLsbD 2
         poollow := f.poollow && !v.getLsbD 3, porterr := f.porterr && !v.getLsbD 4
         cfgerr := f.cfgerr && !v.getLsbD 5 } }.acked) ∧
     (let c := s.chan s.win.page
      let f := c.flags
      exec (.eventFlagClear .channel d) s = .next (s.setChan s.win.page { c with flags :=
       { rxq := f.rxq && !v.getLsbD 0, rxdrop := f.rxdrop && !v.getLsbD 1, ohrec := f.ohrec && !v.getLsbD 2
         align := f.align && !v.getLsbD 3, alarm := f.alarm && !v.getLsbD 4
         txdone := f.txdone && !v.getLsbD 5 } }).acked)) ∧
  ((∀ (s : State) (d v : Word), s.taking → s.carries d v →
     exec (.eventMaskWrite .global d) s = .next { s with gmask :=
       { initdone := v.getLsbD 0, cmddone := v.getLsbD 1, cmdlost := v.getLsbD 2, poollow := v.getLsbD 3
         porterr := v.getLsbD 4, cfgerr := v.getLsbD 5 } }.acked ∧
     exec (.eventMaskWrite .channel d) s = .next (s.setChan s.win.page { s.chan s.win.page with mask :=
       { rxq := v.getLsbD 0, rxdrop := v.getLsbD 1, ohrec := v.getLsbD 2, align := v.getLsbD 3
         alarm := v.getLsbD 4, txdone := v.getLsbD 5 } }).acked) ∧
   (∀ s : State, s.intAsserted = true ↔
     ((s.gflags.initdone ∧ s.gmask.initdone) ∨ (s.gflags.cmddone ∧ s.gmask.cmddone) ∨ (s.gflags.cmdlost ∧ s.gmask.cmdlost)
       ∨ (s.gflags.poollow ∧ s.gmask.poollow) ∨ (s.gflags.porterr ∧ s.gmask.porterr) ∨ (s.gflags.cfgerr ∧ s.gmask.cfgerr))
     ∨ ∃ ch, let c := s.chan ch
       (c.flags.rxq ∧ c.mask.rxq) ∨ (c.flags.rxdrop ∧ c.mask.rxdrop) ∨ (c.flags.ohrec ∧ c.mask.ohrec)
       ∨ (c.flags.align ∧ c.mask.align) ∨ (c.flags.alarm ∧ c.mask.alarm) ∨ (c.flags.txdone ∧ c.mask.txdone)))

/-! ### Data ports -/

/-- R101 to R104: RXDATA returns the held packet's next two bytes in 16-bit mode (one and 0 at an odd end), its next byte in
8-bit mode, without the read latch; with no packet held or the cursor at STORELEN it returns 0 with PORTERR. The byte at a
position is the stored one below WIRELEN and 0 from there on. -/
def Obligations.RxdataReadReturnsHeldBytes : Prop :=
  (∀ s : State, s.taking → s.win.width16 = true →
     let p := s.win.page
     let c := s.chan p
     let returns (t : State) (w : Word) : Prop :=
       exec .rxdataRead s = .next { t with win := { s.win with lines := .all w, ready := true } }
     let portError : State := { s with gflags := { s.gflags with porterr := true } }
     (c.held = none → returns portError 0) ∧
     ∀ h, c.held = some h →
       let byte (i : Nat) : Byte := if i < h.desc.wirelen then packetByte s.mem h.desc.chain i else 0
       (h.cursor = h.desc.storelen → returns portError 0) ∧
       (h.cursor + 1 = h.desc.storelen →
         returns (s.setChan p { c with held := some { h with cursor := h.cursor + 1 } }) (0#8 ++ byte h.cursor)) ∧
       (h.cursor + 2 ≤ h.desc.storelen →
         returns (s.setChan p { c with held := some { h with cursor := h.cursor + 2 } })
           (byte (h.cursor + 1) ++ byte h.cursor))) ∧
  (∀ s : State, s.taking → s.win.width16 = false →
     let p := s.win.page
     let c := s.chan p
     let returns (t : State) (b : Byte) : Prop :=
       exec .rxdataRead s = .next { t with win := { s.win with lines := .low b, ready := true } }
     let portError : State := { s with gflags := { s.gflags with porterr := true } }
     (c.held = none → returns portError 0) ∧
     ∀ h, c.held = some h →
       (h.cursor = h.desc.storelen → returns portError 0) ∧
       (h.cursor < h.desc.storelen →
         returns (s.setChan p { c with held := some { h with cursor := h.cursor + 1 } })
           (if h.cursor < h.desc.wirelen then packetByte s.mem h.desc.chain h.cursor else 0)))

/-- R113 and R114: a 16-bit write of TXDATA writes both bytes at the fill cursor, or the low one with PORTERR, or none with
PORTERR; an 8-bit write, at either byte address, writes the byte or is discarded with PORTERR, and leaves the holding latch. A
read of TXDATA returns 0 and changes nothing. -/
def Obligations.TxdataWriteFillsTheFillPacket : Prop :=
  (∀ (s : State) (d : Word), s.taking → s.win.width16 = true →
     let p := s.win.page
     let c := s.chan p
     let portError (t : State) : State := { t with gflags := { t.gflags with porterr := true } }
     (c.fill = none → exec (.txdataWrite d) s = .next (portError s).acked) ∧
     ∀ f, c.fill = some f →
       (f.cursor = f.len → exec (.txdataWrite d) s = .next (portError s).acked) ∧
       (f.cursor + 1 = f.len →
         exec (.txdataWrite d) s = .next (portError { s.setChan p { c with fill := some { f with cursor := f.cursor + 1 } } with
           mem := packetWrite s.mem f.chain f.cursor (lowByte d) }).acked) ∧
       (f.cursor + 2 ≤ f.len →
         exec (.txdataWrite d) s = .next { s.setChan p { c with fill := some { f with cursor := f.cursor + 2 } } with
           mem := packetWrite (packetWrite s.mem f.chain f.cursor (lowByte d)) f.chain (f.cursor + 1) (highByte d) }.acked)) ∧
  (∀ (s : State) (d : Word) (i : Instr), s.taking → s.win.width16 = false → i = .txdataWrite d ∨ i = .evenByteWrite 13 d →
     let p := s.win.page
     let c := s.chan p
     let portError : State := { s with gflags := { s.gflags with porterr := true } }
     (c.fill = none → exec i s = .next portError.acked) ∧
     ∀ f, c.fill = some f →
       (f.cursor = f.len → exec i s = .next portError.acked) ∧
       (f.cursor < f.len →
         exec i s = .next { s.setChan p { c with fill := some { f with cursor := f.cursor + 1 } } with
           mem := packetWrite s.mem f.chain f.cursor (lowByte d) }.acked)) ∧
  (∀ (s : State) (odd : Bool), s.taking → s.win.width16 = true →
     exec (.idataRead 13 odd) s = .next { s with win := { s.win with lines := .all 0, ready := true } })

/-- R78: byte i of a packet lies at address 128 × c + i mod 128, where c is the cell at place i / 128 of its chain; a write there
changes no other byte of packet memory. A byte written at a position of a chain of distinct cells is read back there, every
other position of the chain keeps its byte, and so does every position of a chain that shares no cell with it (R79). -/
def Obligations.PacketBytesAreKeptApart : Prop :=
  ∀ (m : List Host.Cell) (chain other : List CellNo) (i j : Nat) (v : Byte), Memory.wf m → chain.Nodup →
    i < 128 * chain.length →
    (∃ c, chain[i / 128]? = some c ∧ packetByte m chain i = Memory.read m (128 * c.val + i % 128)
      ∧ ∀ a, Memory.read (packetWrite m chain i v) a = if a = 128 * c.val + i % 128 then v else Memory.read m a) ∧
    packetByte (packetWrite m chain i v) chain i = v ∧
    (j ≠ i → packetByte (packetWrite m chain i v) chain j = packetByte m chain j) ∧
    ((∀ x ∈ chain, x ∉ other) → packetByte (packetWrite m chain i v) other j = packetByte m other j)

/-! ### Commands -/

/-- R138 to R140, the tests of R137: while the pool is in INIT every CMD write answers BUSY; while the unit is PENDING it sets
CMDLOST and leaves CSTAT; else an unknown code answers BADCMD. Nothing else changes. -/
def Obligations.CmdWritesAreRefusedInInitAndWhilePending : Prop :=
  (∀ (hi : Byte) (d : Word) (i : Instr) (s : State), i ∈ Instr.unknownCommand d :: (cmdRows hi).map Prod.fst → s.taking →
    (s.pool.state = .init → exec i s = .next (s.outcome .busy)) ∧
    (s.pool.state = .ready → s.cu.pending ≠ none →
      exec i s = .next { s with gflags := { s.gflags with cmdlost := true } }.acked)) ∧
  (∀ (s : State) (d v : Word), s.taking → s.pool.state = .ready → s.cu.pending = none → s.carries d v →
    commandCodes.contains (v.setWidth 8) = false → exec (.unknownCommand d) s = .next (s.outcome .badcmd))

/-- R141, with R28, R73 and R127: CH_START of a DISABLED channel starts the aligner in HUNT and the framer at a block boundary,
and sets the next PKTSEQ to 0; of an ACTIVE channel it answers STATE. That TXD_n keeps its level until the first falling edge is the
model's choice (log entry 12, against a literal reading of R127). -/
def Obligations.ChStartStartsADisabledChannel : Prop :=
  ∀ (s : State) (hi : Byte), s.takesCmd 0x01 →
    let p := s.win.page
    let c := s.chan p
    (c.admin = .active → exec (.chStart hi) s = .next (s.outcome .state)) ∧
    (c.admin = .disabled → ∃ d, exec (.chStart hi) s = .next ((s.setChan p d).outcome .ok)
      ∧ d = { c with admin := .active, al := d.al, fr := d.fr, del := { c.del with nextPktseq := 0 } }
      ∧ d.al.state = .hunt ∧ d.al.searchReg = 0 ∧ d.al.verifyCount = 0 ∧ d.al.missCount = 0
      ∧ d.al.silence = some s.globals.tsil.toNat ∧ (d.al.loopSource = true ↔ c.cfg.loop = 1)
      ∧ d.fr.running = true ∧ d.fr.mode = .normal ∧ d.fr.bitPos = none ∧ d.fr.owed = 0 ∧ d.fr.inflight = none
      ∧ d.fr.nextFcnt = 0 ∧ d.fr.runXor = 0 ∧ d.fr.prevXor = 0 ∧ d.fr.drainTimer = none
      ∧ d.fr.flenInUse = c.cfg.flen.toNat ∧ d.fr.txd = c.fr.txd)

/-- R142, with R29, R45, R71, R129 and R130: CH_STOP of an ACTIVE channel puts the aligner OFF, telling monitor and delineator
if it was LOCKED; then the channel is DISABLED at once with CMDDONE, or DRAINING with the unit PENDING and the drain timer
loaded. -/
def Obligations.ChStopStopsReceivingAndStartsTheDrain : Prop :=
  ∀ (s : State) (hi : Byte), s.takesCmd 0x02 →
    let p := s.win.page
    let c := s.chan p
    (c.admin = .disabled → exec (.chStop hi) s = .next (s.outcome .state)) ∧
    (c.admin = .active → ∃ t, exec (.chStop hi) s = .next t
      ∧ (∀ k, k ≠ p → t.chan k = s.chan k) ∧ t.mem = s.mem ∧ t.globals = s.globals ∧ t.gmask = s.gmask
      ∧ t.win = s.acked.win ∧ t.cu.arg0 = s.cu.arg0 ∧ t.cu.arg1 = s.cu.arg1 ∧ t.cu.res0 = s.cu.res0 ∧ t.cu.res1 = s.cu.res1
      ∧ (t.chan p).al.state = .off
      ∧ (c.al.state = .locked → c.DepartsLocked false (t.chan p) s.pool t.pool)
      ∧ (c.al.state ≠ .locked → t.pool = s.pool
          ∧ t.chan p = { c with al := (t.chan p).al, admin := (t.chan p).admin, fr := (t.chan p).fr })
      ∧ (if c.fr.inflight = none ∧ c.fr.bitPos = none then
          (t.chan p).admin = .disabled ∧ (t.chan p).fr.running = false ∧ t.cu.pending = none ∧ t.cu.cstat = .ok
            ∧ t.gflags = { s.gflags with cmddone := true }
        else
          (t.chan p).admin = .draining ∧ (t.chan p).fr = { c.fr with drainTimer := some s.globals.tdrain.toNat }
            ∧ t.cu.pending = some p ∧ t.cu.cstat = .pending ∧ t.gflags = s.gflags))

/-- R145 with R90, R53, R74 and R131, for a channel whose holdings count its cells (CellsAgree): CH_RESET leaves the channel as
a device reset would, but for configuration, masks, counters and the level of TXD_n, and returns every chain of it as one
return, receive side first. That TXD_n keeps its level (log entry 12) and that every other item goes to its reset value, those
that R145's steps do not name among them (log entry 15), is the model's choice. -/
def Obligations.ChResetReturnsTheChannelToItsResetState : Prop :=
  ∀ (s : State) (hi : Byte), s.takesCmd 0x03 → (s.chan s.win.page).CellsAgree → (s.chan s.win.page).ModesAgree →
    let p := s.win.page
    let c := s.chan p
    ∃ t, exec (.chReset hi) s = .next t
      ∧ t = { (s.setChan p (t.chan p)).outcomeWith (natWord c.rxChains.length) (natWord c.txChains.length) with
          pool := { s.pool with free := s.pool.free ++ (c.rxChains ++ c.txChains) } }
      ∧ t.chan p = { State.reset.chan p with
          cfg := c.cfg, mask := c.mask, snap := c.snap, live := (t.chan p).live
          fr := { (State.reset.chan p).fr with txd := c.fr.txd } }
      ∧ (t.chan p).live = { c.live with
          rxabort := if c.del.assembly.isSome then countUp c.live.rxabort else c.live.rxabort
          txabort := if c.fr.inflight.isSome then countUp c.live.txabort else c.live.txabort
          ohlost := if c.al.state = .locked ∧ 16 ≤ c.mon.ring.length then countUp c.live.ohlost else c.live.ohlost }

/-- R144 with R90: CH_FLUSH of a DISABLED channel empties its stores and its ring as one return, oldest first within each side;
of an ACTIVE channel it answers STATE. -/
def Obligations.ChFlushEmptiesADisabledChannel : Prop :=
  ∀ (s : State) (hi : Byte), s.takesCmd 0x04 →
    let p := s.win.page
    let c := s.chan p
    (c.admin = .active → exec (.chFlush hi) s = .next (s.outcome .state)) ∧
    (c.admin = .disabled → c.CellsAgree → c.ModesAgree →
      exec (.chFlush hi) s = .next
        { (s.setChan p { c with rq := [], held := none, tq := [], fill := none, rxHolding := 0, txHolding := 0
                                mon := { c.mon with ring := [] } }).outcomeWith
            (natWord c.rxChains.length) (natWord c.txChains.length) with
          pool := { s.pool with free := s.pool.free ++ (c.rxChains ++ c.txChains) } })

/-- R98, whole: RX_OPEN answers STATE with a packet held, EMPTY with none queued, and else opens the head. -/
def Obligations.RxOpenTakesTheHeadOfTheQueue : Prop :=
  ∀ (s : State) (hi : Byte), s.takesCmd 0x10 →
    let p := s.win.page
    let c := s.chan p
    (c.held ≠ none → exec (.rxOpen hi) s = .next (s.outcome .state)) ∧
    (c.held = none → c.rq = [] → exec (.rxOpen hi) s = .next (s.outcome .empty)) ∧
    (∀ d rest, c.held = none → c.rq = d :: rest →
      exec (.rxOpen hi) s = .next ((s.setChan p { c with rq := rest, held := some ⟨d, 0⟩ }).outcomeWith
        (natWord d.storelen) d.pktseq))

/-- R99 and R100: RX_RELEASE returns the held packet's chain, with PKTSEQ and the cursor as results, or answers STATE; RX_SKIP
returns the head descriptor's chain, with its PKTSEQ and the count left as results, or answers EMPTY. -/
def Obligations.RxReleaseAndRxSkipReturnTheirChains : Prop :=
  (∀ (s : State) (hi : Byte), s.takesCmd 0x11 →
     let p := s.win.page
     let c := s.chan p
     (c.held = none → exec (.rxRelease hi) s = .next (s.outcome .state)) ∧
     (∀ h, c.held = some h → exec (.rxRelease hi) s = .next
       { (s.setChan p { c with held := none, rxHolding := c.rxHolding - h.desc.chain.length }).outcomeWith
           h.desc.pktseq (natWord h.cursor) with
         pool := { s.pool with free := s.pool.free ++ h.desc.chain } })) ∧
  (∀ (s : State) (hi : Byte), s.takesCmd 0x12 →
     let p := s.win.page
     let c := s.chan p
     (c.rq = [] → exec (.rxSkip hi) s = .next (s.outcome .empty)) ∧
     (∀ d rest, c.rq = d :: rest → exec (.rxSkip hi) s = .next
       { (s.setChan p { c with rq := rest, rxHolding := c.rxHolding - d.chain.length }).outcomeWith
           d.pktseq (natWord rest.length) with
         pool := { s.pool with free := s.pool.free ++ d.chain } }))

/-- R112 with R85 and R88, whole: TX_ALLOC's tests in order; granted, the fill packet has the first cells of the free list, and
POOLLOW is set when FREE falls from POOLTHR or above to below it. -/
def Obligations.TxAllocClaimsTheWholePacket : Prop :=
  ∀ (s : State) (hi : Byte), s.takesCmd 0x20 →
    let p := s.win.page
    let c := s.chan p
    let len := s.cu.arg0.toNat
    let n := (len + 127) / 128
    let fits : Prop := n ≤ s.pool.free.length ∧ c.txHolding + n ≤ c.cfg.txquota.toNat
    (len = 0 ∨ 4095 < len → exec (.txAlloc hi) s = .next (s.outcome .badarg)) ∧
    (1 ≤ len → len ≤ 4095 → c.fill ≠ none → exec (.txAlloc hi) s = .next (s.outcome .state)) ∧
    (1 ≤ len → len ≤ 4095 → c.fill = none → ¬fits → exec (.txAlloc hi) s = .next (s.outcome .nospace)) ∧
    (1 ≤ len → len ≤ 4095 → c.fill = none → fits → exec (.txAlloc hi) s = .next
      { (s.setChan p { c with fill := some ⟨len, 0, s.pool.free.take n⟩, txHolding := c.txHolding + n }).outcomeWith
          (natWord n) (natWord len) with
        pool := { s.pool with free := s.pool.free.drop n }
        gflags := { s.gflags with poollow := s.gflags.poollow ||
          (decide (s.globals.poolthr.toNat ≤ s.pool.free.length)
            && decide (s.pool.free.length - n < s.globals.poolthr.toNat)) } })

/-- R115, whole: TX_SUBMIT's tests in order; accepted, the descriptor joins the queue's tail with the next TXSEQ. -/
def Obligations.TxSubmitQueuesTheFilledPacket : Prop :=
  ∀ (s : State) (hi : Byte), s.takesCmd 0x21 →
    let p := s.win.page
    let c := s.chan p
    (c.fill = none → exec (.txSubmit hi) s = .next (s.outcome .state)) ∧
    ∀ f, c.fill = some f →
      (f.cursor < f.len → exec (.txSubmit hi) s = .next (s.outcome .short)) ∧
      (f.len ≤ f.cursor → 16 ≤ c.tq.length → exec (.txSubmit hi) s = .next (s.outcome .qfull)) ∧
      (f.len ≤ f.cursor → c.tq.length < 16 → exec (.txSubmit hi) s = .next
        ((s.setChan p { c with
            tq := c.tq ++ [{ txseq := c.nextTxseq, len := f.len, chain := f.chain }], fill := none
            nextTxseq := c.nextTxseq + 1 }).outcomeWith c.nextTxseq (natWord (c.tq.length + 1))))

/-- R116, whole: TX_CANCEL returns the fill packet's chain, with its cells and the fill cursor as results; with none open it
answers STATE. -/
def Obligations.TxCancelReturnsTheFillPacket : Prop :=
  ∀ (s : State) (hi : Byte), s.takesCmd 0x22 →
    let p := s.win.page
    let c := s.chan p
    (c.fill = none → exec (.txCancel hi) s = .next (s.outcome .state)) ∧
    (∀ f, c.fill = some f → exec (.txCancel hi) s = .next
      { (s.setChan p { c with fill := none, txHolding := c.txHolding - f.chain.length }).outcomeWith
          (natWord f.chain.length) (natWord f.cursor) with
        pool := { s.pool with free := s.pool.free ++ f.chain } })

/-- R50, whole: OH_POP removes the ring's head, with its SEQ and the count left as results; on an empty ring it answers EMPTY. -/
def Obligations.OhPopRemovesTheHeadRecord : Prop :=
  ∀ (s : State) (hi : Byte), s.takesCmd 0x30 →
    let p := s.win.page
    let c := s.chan p
    (c.mon.ring = [] → exec (.ohPop hi) s = .next (s.outcome .empty)) ∧
    (∀ r rest, c.mon.ring = r :: rest → exec (.ohPop hi) s = .next
      ((s.setChan p { c with mon := { c.mon with ring := rest } }).outcomeWith r.seq (natWord rest.length)))

/-- R155: CNT_SNAP copies the sixteen live counters of the channel into its snapshot values and sets them to 0, in one event.
R156: one that meets a line event leaves what the event and it leave in either order, but for the channel's counters: those of
each block in `first` are as with the event taken first, the others as with CNT_SNAP taken first. So of an alignment loss by
silence that aborts a packet in assembly either count may be in the snapshot without the other (9.5). That the row carries the
event it meets is the model's choice (log entry 20). -/
def Obligations.CntSnapCopiesAndClearsTheCounters : Prop :=
  (∀ (s : State) (hi : Byte), s.takesCmd 0x31 →
     let p := s.win.page
     let c := s.chan p
     ∃ zero : Counters, (∀ k, zero.get k = 0) ∧
       exec (.cntSnap ⟨hi, none⟩) s = .next ((s.setChan p { c with snap := c.live, live := zero }).outcome .ok)) ∧
  (∀ (s : State) (hi : Byte) (e : LineEvent) (first : List CountingBlock),
     let i : Instr := match e with
       | .silence ch => .silenceTimerExpiry ch
       | .rising ch level => .receivedBit ch level
     ∃ a b c d, exec i s = .next a ∧ exec (.cntSnap ⟨hi, none⟩) a = .next b ∧ exec (.cntSnap ⟨hi, none⟩) s = .next c ∧ exec i c = .next d ∧
       (¬s.takesCmd 0x31 → exec (.cntSnap ⟨hi, some ⟨e, first⟩⟩) s = .next b) ∧
       (s.takesCmd 0x31 →
         let owner (k : Ctr) : CountingBlock :=
           if k ∈ [.rxframes, .alignloss] then .aligner else if k ∈ [.fcerr, .fcjump, .ohlost] then .monitor
           else if k ∈ [.txframes, .txpkts, .txabort] then .framer else .delineator
         ∃ t, exec (.cntSnap ⟨hi, some ⟨e, first⟩⟩) s = .next t
           ∧ t = b.setChan s.win.page { b.chan s.win.page with
               snap := (t.chan s.win.page).snap, live := (t.chan s.win.page).live }
           ∧ ∀ k, let u := if owner k ∈ first then b else d
             (t.chan s.win.page).snap.get k = (u.chan s.win.page).snap.get k
               ∧ (t.chan s.win.page).live.get k = (u.chan s.win.page).live.get k)) ∧
  (∀ (s : State) (hi : Byte) (first : List CountingBlock), s.takesCmd 0x31 →
     let p := s.win.page
     let c := s.chan p
     c.al.state = .locked → c.del.state = .body → c.del.assembly.isSome →
       ∃ t, exec (.cntSnap ⟨hi, some ⟨.silence p, first⟩⟩) s = .next t ∧
         let d := t.chan p
         d.al.state = .silent
         ∧ (.aligner ∈ first → d.snap.alignloss = countUp c.live.alignloss ∧ d.live.alignloss = 0)
         ∧ (.aligner ∉ first → d.snap.alignloss = c.live.alignloss ∧ d.live.alignloss = 1)
         ∧ (.delineator ∈ first → d.snap.rxabort = countUp c.live.rxabort ∧ d.live.rxabort = 0)
         ∧ (.delineator ∉ first → d.snap.rxabort = c.live.rxabort ∧ d.live.rxabort = 1))

/-! ### Received bits and marker comparisons -/

/-- R16, R17 and R22: an edge delivers the level of RXD_n, or under LOOP 1 that of TXD_n once a bit has been presented and none
before; one that delivers no bit, or finds the aligner OFF, changes nothing; a bit that ends neither a marker
position nor a byte of a processed frame is shifted in, restarts the timer and advances the position; the bytes at offsets 3, 4
and 6 are kept for the judgement to come. -/
def Obligations.ReceivedBitIsTakenByTheAligner : Prop :=
  ∀ (s : State) (ch : ChanId) (b x : Bool),
    let c := s.chan ch
    let bits := 8 * c.cfg.flen.toNat
    let taken : Aligner := { c.al with searchReg := shiftIn c.al.searchReg x, silence := some s.globals.tsil.toNat }
    (c.al.loopSource = false → c.sourceBit b = some b) ∧
    (c.al.loopSource = true → c.fr.presented = true → c.sourceBit b = some c.fr.txd) ∧
    (c.al.loopSource = true → c.fr.presented = false → c.sourceBit b = none ∧ exec (.receivedBit ch b) s = .next s) ∧
    (c.al.state = .off → exec (.receivedBit ch b) s = .next s) ∧
    (c.sourceBit b = some x → c.al.state = .verify → c.al.bitPos + 1 ≠ 16 →
      exec (.receivedBit ch b) s = .next (s.setChan ch { c with
        al := { taken with bitPos := if c.al.bitPos + 1 = bits then 0 else c.al.bitPos + 1 } })) ∧
    (c.sourceBit b = some x → c.al.state = .locked → c.al.bitPos + 1 < 16 ∨ (c.al.bitPos + 1) % 8 ≠ 0 →
      c.al.bitPos + 1 ≠ bits →
      exec (.receivedBit ch b) s = .next (s.setChan ch { c with al := { taken with bitPos := c.al.bitPos + 1 } })) ∧
    (∀ off v, c.byteArrives b x off v → off + 1 < c.cfg.flen.toNat →
      let w := c.withByte s.globals x v
      (off = 3 → exec (.receivedBit ch b) s = .next (s.setChan ch { w with mon := { w.mon with statByte := v } })) ∧
      (off = 4 → exec (.receivedBit ch b) s = .next (s.setChan ch { w with del := { w.del with fboHigh := v } })) ∧
      (off = 6 → exec (.receivedBit ch b) s = .next (s.setChan ch { w with mon := { w.mon with labelByte := v } })))

/-- R18 and R27: in HUNT every bit ends a window compared with 0xB54E; a match enters VERIFY with the verify count at 0 and the
matched window as offsets 0 and 1 of the frame, and without a match the search goes on. The first bit in SILENT moves to HUNT,
loads the timer, and is the one bit of a cleared register, which cannot match. -/
def Obligations.MarkerMatchFixesTheFramePositionInHunt : Prop :=
  (∀ (s : State) (ch : ChanId) (b x : Bool),
     let c := s.chan ch
     let taken : Aligner := { c.al with searchReg := shiftIn c.al.searchReg x, silence := some s.globals.tsil.toNat }
     c.sourceBit b = some x → c.al.state = .hunt →
       (shiftIn c.al.searchReg x = 0xB54E →
         exec (.markerMatch ch b) s = .next (s.setChan ch { c with
           al := { taken with state := .verify, bitPos := 16, verifyCount := 0 } })) ∧
       (shiftIn c.al.searchReg x ≠ 0xB54E → exec (.markerMatch ch b) s = .next (s.setChan ch { c with al := taken }))) ∧
  (∀ (s : State) (ch : ChanId) (b x : Bool),
     let c := s.chan ch
     c.sourceBit b = some x → c.al.state = .silent → c.al.searchReg = 0 →
       exec (.silentFirstBit ch b) s = .next (s.setChan ch { c with
         al := { c.al with state := .hunt, searchReg := if x then 1 else 0, silence := some s.globals.tsil.toNat } }))

/-- R19, R20, R33, R46, R48 and R56: the comparison at an expected marker position in VERIFY. A miss returns to HUNT; a match
counts; the match that reaches VCOUNT enters LOCKED, telling monitor and delineator, and the frame it opens is processed (R22).
That both marker bytes are in the running XOR from the comparison on is the model's choice (log entry 13), and so is that the
entry record is known by its SEQ until its FCNT comes, none when it was lost (log entry 14). -/
def Obligations.VerifyComparisonCountsOrEntersLocked : Prop :=
  ∀ (s : State) (ch : ChanId) (b x : Bool),
    let c := s.chan ch
    let reg := shiftIn c.al.searchReg x
    let taken : Aligner := { c.al with
      searchReg := reg, silence := some s.globals.tsil.toNat, bitPos := if 16 = 8 * c.cfg.flen.toNat then 0 else 16 }
    c.sourceBit b = some x → c.al.state = .verify → c.al.bitPos + 1 = 16 →
      (reg ≠ 0xB54E → ∃ t, exec (.verifyMarkerComparison ch b) s = .next t
        ∧ t = s.setChan ch { c with al := (t.chan ch).al }
        ∧ (t.chan ch).al.state = .hunt ∧ (t.chan ch).al.searchReg = reg
        ∧ (t.chan ch).al.silence = some s.globals.tsil.toNat) ∧
      (reg = 0xB54E → c.al.verifyCount + 1 ≠ c.cfg.vcount.toNat →
        exec (.verifyMarkerComparison ch b) s
          = .next (s.setChan ch { c with al := { taken with verifyCount := c.al.verifyCount + 1 } })) ∧
      (reg = 0xB54E → c.al.verifyCount + 1 = c.cfg.vcount.toNat →
        ∃ d, exec (.verifyMarkerComparison ch b) s = .next (s.setChan ch d)
          ∧ d = { c with al := d.al, mon := d.mon, del := d.del, live := d.live, flags := d.flags }
          ∧ d.al = { taken with state := .locked, missCount := 0, verifyCount := 0 }
          ∧ d.mon.mode = .monitoring ∧ d.mon.firstFrame = true ∧ d.mon.runXor = 0xB5 ^^^ 0x4E
          ∧ d.mon.stat = ⟨none, 0, none⟩ ∧ d.mon.label = ⟨none, 0, none⟩ ∧ d.mon.winFrames = 0 ∧ d.mon.winMismatches = 0
          ∧ d.mon.conds = c.mon.conds ∧ d.mon.lastFcnt = c.mon.lastFcnt ∧ d.mon.frameFcnt = c.mon.frameFcnt
          ∧ d.mon.prevXor = c.mon.prevXor ∧ d.mon.entryFill = true
          ∧ d.mon.entrySeq = (if c.mon.ring.length < 16 then some c.mon.nextSeq else none)
          ∧ c.recordOutcome { c.mon.entryRecord with degraded := c.mon.conds.degraded } d
          ∧ (if c.del.state = .hold then d.del.state = .seek ∧ d.del.mismatch = 0 ∧ d.del.startPos = none
                ∧ d.del.headerByte = none ∧ d.del.remaining = 0 ∧ d.del.assembly = c.del.assembly
                ∧ d.del.latchedFbo = c.del.latchedFbo ∧ d.del.nextPktseq = c.del.nextPktseq
              else d.del = c.del)
          ∧ d.flags.align = true ∧ d.flags = { c.flags with align := true, ohrec := d.flags.ohrec }
          ∧ d.live = { c.live with rxframes := countUp c.live.rxframes, ohlost := d.live.ohlost })

/-- R21, R22 and R24: the comparison in LOCKED. A match sets the miss count to 0 and a miss below MISSLIM raises it, and either
processes the frame, marker bytes as received; the miss that reaches MISSLIM is an alignment loss, after which the state is
HUNT. That both marker bytes enter the running XOR at the comparison is the model's choice (log entry 13). -/
def Obligations.LockedComparisonFlywheelsUpToMisslim : Prop :=
  ∀ (s : State) (ch : ChanId) (b x : Bool),
    let c := s.chan ch
    let reg := shiftIn c.al.searchReg x
    let taken : Aligner := { c.al with
      searchReg := reg, silence := some s.globals.tsil.toNat, bitPos := if 16 = 8 * c.cfg.flen.toNat then 0 else 16 }
    let processed (misses : Nat) : State := s.setChan ch { c with
      al := { taken with missCount := misses }
      mon := { c.mon with runXor := c.mon.runXor ^^^ highByte reg ^^^ lowByte reg }
      live := { c.live with rxframes := countUp c.live.rxframes } }
    c.sourceBit b = some x → c.al.state = .locked → c.al.bitPos + 1 = 16 →
      (reg = 0xB54E → exec (.lockedMarkerComparison ch b) s = .next (processed 0)) ∧
      (reg ≠ 0xB54E → c.al.missCount + 1 ≠ c.cfg.misslim.toNat →
        exec (.lockedMarkerComparison ch b) s = .next (processed (c.al.missCount + 1))) ∧
      (reg ≠ 0xB54E → c.al.missCount + 1 = c.cfg.misslim.toNat →
        ∃ t, exec (.lockedMarkerComparison ch b) s = .next t ∧ s.othersKept ch t ∧ t.mem = s.mem ∧ t.gflags = s.gflags
          ∧ c.DepartsLocked true (t.chan ch) s.pool t.pool ∧ (t.chan ch).admin = c.admin ∧ (t.chan ch).fr = c.fr
          ∧ (t.chan ch).al.state = .hunt ∧ (t.chan ch).al.searchReg = reg
          ∧ (t.chan ch).al.silence = some s.globals.tsil.toNat)

/-- R26, with R24: the silence timer expires: SILENT from HUNT or VERIFY with nothing reported, from LOCKED with an alignment
loss. In OFF and SILENT no timer runs; that the row then changes nothing is the model's choice (log entry 10). -/
def Obligations.SilenceExpiryEntersSilent : Prop :=
  ∀ (s : State) (ch : ChanId),
    let c := s.chan ch
    let silent (a : Aligner) : Prop := a.state = .silent ∧ a.searchReg = 0 ∧ a.verifyCount = 0 ∧ a.missCount = 0
      ∧ a.silence = none ∧ a.bitPos = 0 ∧ a.loopSource = c.al.loopSource
    (c.al.state = .off ∨ c.al.state = .silent → exec (.silenceTimerExpiry ch) s = .next s) ∧
    (c.al.state = .hunt ∨ c.al.state = .verify →
      ∃ a, silent a ∧ exec (.silenceTimerExpiry ch) s = .next (s.setChan ch { c with al := a })) ∧
    (c.al.state = .locked →
      ∃ t, exec (.silenceTimerExpiry ch) s = .next t ∧ s.othersKept ch t ∧ t.mem = s.mem ∧ t.gflags = s.gflags
        ∧ silent (t.chan ch).al ∧ (t.chan ch).admin = c.admin ∧ (t.chan ch).fr = c.fr
        ∧ c.DepartsLocked true (t.chan ch) s.pool t.pool)

/-! ### Bytes of a processed frame -/

/-- R34 and R48: the FCNT byte is kept as the frame FCNT, and with the entry-fill flag set it fills the entry record if that is
still in the ring. That the entry record is the one whose SEQ was kept at the entry to LOCKED is the model's choice (log entry
14). -/
def Obligations.FcntByteIsKeptAndFillsTheEntryRecord : Prop :=
  ∀ (s : State) (ch : ChanId) (b x : Bool) (v : Byte),
    let c := s.chan ch
    let w := c.withByte s.globals x v
    c.byteArrives b x 2 v → 3 < c.cfg.flen.toNat →
      ∃ ring entry, exec (.fcntByte ch b) s = .next (s.setChan ch { w with mon := { w.mon with
          frameFcnt := v, entryFill := false, ring := ring, entrySeq := entry } })
        ∧ (c.mon.entryFill = false → ring = c.mon.ring)
        ∧ (c.mon.entryFill = true →
            ring = c.mon.ring.map fun r => if some r.seq = c.mon.entrySeq then { r with fcnt := v } else r)

/-- R55 and R57: the offset point latches the FBO in every state. In HOLD nothing further happens; in SEEK a position below P
enters TRACK there, 0xFFFF stays, and P to 0xFFFE counts OFFMISS. -/
def Obligations.SeekTakesTheFirstValidOffset : Prop :=
  ∀ (s : State) (ch : ChanId) (b x : Bool) (v : Byte),
    let c := s.chan ch
    let w := c.withByte s.globals x v
    let fbo : Word := c.del.fboHigh ++ v
    let latched : Delin := { w.del with latchedFbo := fbo }
    let payload := c.cfg.flen.toNat - 8
    c.byteArrives b x 5 v → 64 ≤ c.cfg.flen.toNat → c.cfg.flen.toNat ≤ 2048 →
      (c.del.state = .hold → exec (.offsetPoint ch b) s = .next (s.setChan ch { w with del := latched })) ∧
      (c.del.state = .seek → fbo.toNat < payload →
        exec (.offsetPoint ch b) s = .next (s.setChan ch { w with del := { latched with
          state := .header, startPos := some fbo.toNat, headerByte := none, remaining := 0, stored := 0, mismatch := 0 } })) ∧
      (c.del.state = .seek → fbo = 0xFFFF → exec (.offsetPoint ch b) s = .next (s.setChan ch { w with del := latched })) ∧
      (c.del.state = .seek → payload ≤ fbo.toNat → fbo ≠ 0xFFFF →
        exec (.offsetPoint ch b) s = .next (s.setChan ch { w with
          del := latched, live := { c.live with offmiss := countUp c.live.offmiss } }))

/-- R60 to R62 at the offset point: in TRACK the FBO is compared with the position the bytes remaining predict. Agreement sets
the mismatch count to 0; a first disagreement counts OFFMISS and leaves the parse; with one header byte collected the comparison
is deferred. A second disagreement ends the parse, aborting a packet in assembly (R70), and the FBO is evaluated in SEEK without
counting again. -/
def Obligations.OffsetIsCheckedAgainstThePredictedPosition : Prop :=
  (∀ (s : State) (ch : ChanId) (b x : Bool) (v : Byte),
     let c := s.chan ch
     let w := c.withByte s.globals x v
     let fbo : Word := c.del.fboHigh ++ v
     let latched : Delin := { w.del with latchedFbo := fbo }
     let payload := c.cfg.flen.toNat - 8
     let midBlock : Prop := c.del.state = .body ∨ c.del.state = .skip
     let agrees : Prop := (midBlock ∧ c.del.remaining < payload ∧ fbo.toNat = c.del.remaining)
       ∨ (midBlock ∧ payload ≤ c.del.remaining ∧ fbo = 0xFFFF) ∨ (c.del.state = .header ∧ fbo = 0)
     c.byteArrives b x 5 v → 64 ≤ c.cfg.flen.toNat → c.cfg.flen.toNat ≤ 2048 →
       (c.del.state = .header → c.del.headerByte ≠ none →
         exec (.offsetPoint ch b) s = .next (s.setChan ch { w with del := latched })) ∧
       (midBlock ∨ (c.del.state = .header ∧ c.del.headerByte = none) →
         (agrees → exec (.offsetPoint ch b) s = .next (s.setChan ch { w with del := { latched with mismatch := 0 } })) ∧
         (¬agrees → c.del.mismatch = 0 → exec (.offsetPoint ch b) s = .next (s.setChan ch { w with
           del := { latched with mismatch := 1 }, live := { c.live with offmiss := countUp c.live.offmiss } })))) ∧
  (∀ (s : State) (ch : ChanId) (b x : Bool) (v : Byte),
     let c := s.chan ch
     let w := c.withByte s.globals x v
     let fbo : Word := c.del.fboHigh ++ v
     let payload := c.cfg.flen.toNat - 8
     let midBlock : Prop := c.del.state = .body ∨ c.del.state = .skip
     let agrees : Prop := (midBlock ∧ c.del.remaining < payload ∧ fbo.toNat = c.del.remaining)
       ∨ (midBlock ∧ payload ≤ c.del.remaining ∧ fbo = 0xFFFF) ∨ (c.del.state = .header ∧ fbo = 0)
     c.byteArrives b x 5 v → 64 ≤ c.cfg.flen.toNat → c.cfg.flen.toNat ≤ 2048 →
       midBlock ∨ (c.del.state = .header ∧ c.del.headerByte = none) → ¬agrees → c.del.mismatch = 1 →
         ∃ t, exec (.offsetPoint ch b) s = .next t ∧ s.othersKept ch t ∧ t.mem = s.mem ∧ t.gflags = s.gflags
           ∧ t.chan ch = { w with
               del := (t.chan ch).del, rxHolding := (t.chan ch).rxHolding
               live := { c.live with offmiss := countUp c.live.offmiss, rxabort := (t.chan ch).live.rxabort }
               flags := { c.flags with rxdrop := (t.chan ch).flags.rxdrop } }
           ∧ c.abortOutcome (t.chan ch) s.pool t.pool
           ∧ (t.chan ch).del = (if fbo.toNat < payload
               then { { c.del with latchedFbo := fbo }.givenUp .header with startPos := some fbo.toNat }
               else { c.del with latchedFbo := fbo }.givenUp .seek))

/-- R35 to R40 and R43: the monitor's judgement at the overhead close: continuity, check, persistence, conditions, window,
record and ALARM, as one event; no other counter and no other flag changes. The delineator's part in it (RXABORT, OFFMISS,
RXDROP) is stated apart. The persistence counts are within PERSIST in every state that meets the bounds (Chan.InBounds). -/
def Obligations.OverheadCloseJudgesTheFrame : Prop :=
  ∀ (s : State) (ch : ChanId) (b x : Bool) (v : Byte),
    let c := s.chan ch
    let m := c.mon
    let g := c.cfg
    let jumped := !m.firstFrame && decide (m.frameFcnt ≠ m.lastFcnt + 1)
    let failed := !m.firstFrame && decide (v ≠ m.prevXor)
    let stat : StatVal := ⟨m.statByte.getLsbD 7, m.statByte.getLsbD 6⟩
    let run {α : Type} [DecidableEq α] (f : Persist α) (a : α) : Nat :=
      if f.cand = some a then min g.persist.toNat (f.count + 1) else 1
    let misses := m.winMismatches + failed.toNat
    let windowEnd := m.winFrames + 1 = g.dwin.toNat
    c.byteArrives b x 7 v → 8 < g.flen.toNat → m.stat.count ≤ g.persist.toNat → m.label.count ≤ g.persist.toNat →
      ∃ t, exec (.overheadClose ch b) s = .next t ∧
        let d := t.chan ch
        s.othersKept ch t ∧ t.mem = s.mem ∧ t.gflags = s.gflags
        ∧ d.al = (c.withByte s.globals x v).al ∧ d.mon.runXor = m.runXor ^^^ v
        ∧ d.live.fcjump = (if jumped then countUp c.live.fcjump else c.live.fcjump)
        ∧ d.live.fcerr = (if failed then countUp c.live.fcerr else c.live.fcerr)
        ∧ d.mon.lastFcnt = m.frameFcnt
        ∧ d.mon.stat = ⟨some stat, run m.stat stat,
            if run m.stat stat = g.persist.toNat then some stat else m.stat.accepted⟩
        ∧ d.mon.label = ⟨some m.labelByte, run m.label m.labelByte,
            if run m.label m.labelByte = g.persist.toNat then some m.labelByte else m.label.accepted⟩
        ∧ (d.mon.conds.carrier = true ↔ ∃ a, d.mon.stat.accepted = some a ∧ a.pv = false)
        ∧ (d.mon.conds.farend = true ↔ ∃ a, d.mon.stat.accepted = some a ∧ a.fe = true)
        ∧ (d.mon.conds.labelmis = true ↔ g.explabel ≠ 0 ∧ ∃ a, d.mon.label.accepted = some a ∧ a.toNat ≠ g.explabel.toNat)
        ∧ d.mon.conds.degraded = (if windowEnd ∧ g.dset.toNat ≤ misses then true
            else if windowEnd ∧ misses ≤ g.dclr.toNat then false else m.conds.degraded)
        ∧ d.mon.winFrames = (if windowEnd then 0 else m.winFrames + 1)
        ∧ d.mon.winMismatches = (if windowEnd then 0 else misses)
        ∧ d.flags.alarm = (c.flags.alarm || decide (d.mon.conds ≠ m.conds))
        ∧ (let causes : Causes := ⟨false, decide (d.mon.stat.accepted ≠ m.stat.accepted),
              decide (d.mon.label.accepted ≠ m.label.accepted), decide (d.mon.conds.degraded ≠ m.conds.degraded)⟩
           if causes = ⟨false, false, false, false⟩ then
             d.mon.ring = m.ring ∧ d.mon.nextSeq = m.nextSeq ∧ d.mon.pendingLost = m.pendingLost
               ∧ d.flags.ohrec = c.flags.ohrec ∧ d.live.ohlost = c.live.ohlost
           else c.recordOutcome { seq := m.nextSeq, causes := causes, fcnt := m.frameFcnt, locked := true
                                  statKnown := d.mon.stat.accepted.isSome
                                  pv := (d.mon.stat.accepted.map StatVal.pv).getD false
                                  fe := (d.mon.stat.accepted.map StatVal.fe).getD false
                                  labelKnown := d.mon.label.accepted.isSome, label := d.mon.label.accepted.getD 0
                                  degraded := d.mon.conds.degraded, lost := m.pendingLost } d)
        ∧ d = { c with al := d.al, mon := d.mon, del := d.del, live := d.live, flags := d.flags, rxHolding := d.rxHolding }
        ∧ (∀ k, k ≠ .fcjump → k ≠ .fcerr → k ≠ .ohlost → k ≠ .rxabort → k ≠ .offmiss → d.live.get k = c.live.get k)
        ∧ d.flags.rxq = c.flags.rxq ∧ d.flags.align = c.flags.align ∧ d.flags.txdone = c.flags.txdone
        ∧ d.mon = { m with runXor := d.mon.runXor, lastFcnt := d.mon.lastFcnt, stat := d.mon.stat, label := d.mon.label
                           conds := d.mon.conds, winFrames := d.mon.winFrames, winMismatches := d.mon.winMismatches
                           ring := d.mon.ring, nextSeq := d.mon.nextSeq, pendingLost := d.mon.pendingLost }

/-- R42, R71 and R56: what the delineator is told at an overhead close. On a CARRIER onset it goes to HOLD with a packet in
assembly aborted; on a CARRIER end it leaves HOLD for SEEK and this frame's latched FBO is evaluated at once; else it is not
touched. -/
def Obligations.CarrierOnsetHoldsAndCarrierEndSeeks : Prop :=
  ∀ (s : State) (ch : ChanId) (b x : Bool) (v : Byte),
    let c := s.chan ch
    let fbo := c.del.latchedFbo.toNat
    let payload := c.cfg.flen.toNat - 8
    c.byteArrives b x 7 v → 64 ≤ c.cfg.flen.toNat → c.cfg.flen.toNat ≤ 2048 →
      ∃ t, exec (.overheadClose ch b) s = .next t ∧
        let d := t.chan ch
        let untouched : Prop := d.del = c.del ∧ t.pool = s.pool ∧ d.rxHolding = c.rxHolding ∧ d.live.rxabort = c.live.rxabort
          ∧ d.live.offmiss = c.live.offmiss ∧ d.flags.rxdrop = c.flags.rxdrop
        (c.mon.conds.carrier = d.mon.conds.carrier → untouched) ∧
        (c.mon.conds.carrier = false → d.mon.conds.carrier = true →
          (c.del.state = .hold → untouched) ∧
          (c.del.state ≠ .hold → d.del = c.del.givenUp .hold ∧ c.abortOutcome d s.pool t.pool
            ∧ d.live.offmiss = c.live.offmiss)) ∧
        (c.mon.conds.carrier = true → d.mon.conds.carrier = false → c.del.state = .hold → c.del.assembly = none →
          t.pool = s.pool ∧ d.rxHolding = c.rxHolding ∧ d.live.rxabort = c.live.rxabort ∧ d.flags.rxdrop = c.flags.rxdrop ∧
          (fbo < payload → d.del = { c.del.givenUp .header with startPos := some fbo }
            ∧ d.live.offmiss = c.live.offmiss) ∧
          (fbo = 0xFFFF → d.del = c.del.givenUp .seek ∧ d.live.offmiss = c.live.offmiss) ∧
          (payload ≤ fbo → fbo ≠ 0xFFFF → d.del = c.del.givenUp .seek
            ∧ d.live.offmiss = countUp c.live.offmiss))

/-- R10: a header carries LEN in its upper twelve bits and in its lower four the inverse of the XOR of LEN's nibbles; it is
valid when they agree. -/
def Obligations.HeaderCarriesItsCheck : Prop :=
  (∀ h : Word, headerValid h = true ↔
    h.extractLsb' 0 4 = ~~~(h.extractLsb' 12 4 ^^^ h.extractLsb' 8 4 ^^^ h.extractLsb' 4 4)) ∧
  (∀ h : Word, headerLen h = (h.extractLsb' 4 12).toNat) ∧
  (∀ len, len ≤ 4095 → headerValid (headerOf len) = true ∧ headerLen (headerOf len) = len) ∧
  (∀ h : Word, headerValid h = true → h = headerOf (headerLen h)) ∧
  headerValid 0x0000 = false ∧ headerValid 0xFFFF = false

/-- R58, R59 and R63, away from payload position 0: bytes in HOLD and SEEK and before the start position are discarded; the
first header byte is kept with the frame FCNT; an idle header is consumed; a header that fails its check counts HDRERR and
enters SEEK; SKIP discards. The last byte of a frame does the same and ends the frame. -/
def Obligations.PayloadBytesAreDiscardedCollectedOrSkipped : Prop :=
  ∀ (s : State) (ch : ChanId) (b x : Bool) (pos : Nat) (v : Byte),
    let c := s.chan ch
    let w := c.withByte s.globals x v
    let passed : Prop := ∀ p, c.del.startPos = some p → p ≤ pos
    let leaves (d : Chan) : Prop := exec (.payloadByte ch b) s = .next (s.setChan ch (d.endedAt (pos + 8)))
    c.byteArrives b x (pos + 8) v → pos + 9 ≤ c.cfg.flen.toNat →
      (c.del.state = .hold ∨ c.del.state = .seek ∨ ¬passed → leaves w) ∧
      (passed → c.del.state = .header → c.del.headerByte = none →
        leaves { w with del := { c.del with headerByte := some v, headerFcnt := c.mon.frameFcnt } }) ∧
      (∀ h, passed → c.del.state = .header → c.del.headerByte = some h → headerValid (h ++ v) = false →
        leaves { w with
          live := { c.live with hdrerr := countUp c.live.hdrerr }
          del := { c.del with state := .seek, startPos := none, headerByte := none, remaining := 0, stored := 0
                              mismatch := 0 } }) ∧
      (∀ h, passed → c.del.state = .header → c.del.headerByte = some h → h ++ v = 0x000F#16 → pos ≠ 0 →
        leaves { w with del := { c.del with headerByte := none } }) ∧
      (passed → c.del.state = .skip → 1 < c.del.remaining →
        leaves { w with del := { c.del with remaining := c.del.remaining - 1 } }) ∧
      (passed → c.del.state = .skip → c.del.remaining = 1 →
        leaves { w with del := { c.del with remaining := 0, state := .header, headerByte := none } })

/-- R64 to R66, R85 and R88: a valid packet header takes the next PKTSEQ and makes one claim. Granted, the descriptor with the
first cells of the free list is in assembly in BODY; refused, DROPNOBUF is counted, RXDROP set and the body is skipped. One
completed at payload position 0 is so acted on after its deferred comparison (R61), when that agrees or is a first disagreement.
The last byte of a frame does the same and ends the frame. -/
def Obligations.AcceptedHeaderClaimsItsCells : Prop :=
  ∀ (s : State) (ch : ChanId) (b x : Bool) (pos : Nat) (v h : Byte),
    let c := s.chan ch
    let len := ((h ++ v : Word).extractLsb' 4 12).toNat
    let fbo := c.del.latchedFbo.toNat
    let payload := c.cfg.flen.toNat - 8
    let agrees : Prop := (1 + len < payload ∧ fbo = 1 + len) ∨ (payload ≤ 1 + len ∧ fbo = 0xFFFF)
    let compared : Chan :=
      if 0 < pos then c else if agrees then { c with del := { c.del with mismatch := 0 } }
      else { c with del := { c.del with mismatch := 1 }, live := { c.live with offmiss := countUp c.live.offmiss } }
    let w := compared.withByte s.globals x v
    let storelen := if c.cfg.slotlen.toNat = 0 then min len c.cfg.maxlen.toNat else c.cfg.slotlen.toNat
    let n := (storelen + 127) / 128
    let granted : Prop := s.pool.state = .ready ∧ n ≤ s.pool.free.length ∧ c.rxHolding + n ≤ c.cfg.rxquota.toNat
    c.byteArrives b x (pos + 8) v → pos + 9 ≤ c.cfg.flen.toNat → 0 < pos ∨ agrees ∨ c.del.mismatch = 0 →
      (∀ p, c.del.startPos = some p → p ≤ pos) →
      c.del.state = .header → c.del.headerByte = some h → headerValid (h ++ v) = true → 1 ≤ len →
        (granted → exec (.payloadByte ch b) s = .next
          { s.setChan ch (Chan.endedAt (pos + 8) { w with
              rxHolding := c.rxHolding + n
              del := { w.del with
                state := .body, headerByte := none, remaining := len, stored := 0, nextPktseq := c.del.nextPktseq + 1
                assembly := some { pktseq := c.del.nextPktseq, wirelen := len, storelen := storelen
                                   long := decide (storelen < len), padded := decide (len < storelen)
                                   fcnt := c.del.headerFcnt, chain := s.pool.free.take n } } }) with
            pool := { s.pool with free := s.pool.free.drop n }
            gflags := { s.gflags with poollow := s.gflags.poollow ||
              (decide (s.globals.poolthr.toNat ≤ s.pool.free.length)
                && decide (s.pool.free.length - n < s.globals.poolthr.toNat)) } }) ∧
        (¬granted → exec (.payloadByte ch b) s = .next (s.setChan ch (Chan.endedAt (pos + 8) { w with
          live := { w.live with dropnobuf := countUp c.live.dropnobuf }
          flags := { c.flags with rxdrop := true }
          del := { w.del with state := .skip, headerByte := none, remaining := len
                              nextPktseq := c.del.nextPktseq + 1 } })))

/-- R61 and R62, the deferred comparison: a valid header completed at payload position 0 is compared with the FBO after its
check. Agreeing or on a first disagreement it is then acted on (an idle header is consumed; a packet header's acceptance is
stated with the others'); on a second it is dropped, and the FBO is evaluated in SEEK with position 0 passed. -/
def Obligations.DeferredComparisonIsMadeAtPositionZero : Prop :=
  ∀ (s : State) (ch : ChanId) (b x : Bool) (v h : Byte),
    let c := s.chan ch
    let w := c.withByte s.globals x v
    let fbo := c.del.latchedFbo.toNat
    let payload := c.cfg.flen.toNat - 8
    let next := 1 + headerLen (h ++ v)
    let agrees : Prop := (next < payload ∧ fbo = next) ∨ (payload ≤ next ∧ fbo = 0xFFFF)
    let missed : Counters := { c.live with offmiss := countUp c.live.offmiss }
    c.byteArrives b x 8 v → 64 ≤ c.cfg.flen.toNat → c.cfg.flen.toNat ≤ 2048 → c.del.startPos = none →
      c.del.state = .header → c.del.headerByte = some h → c.del.assembly = none → headerValid (h ++ v) = true →
        (headerLen (h ++ v) = 0 → agrees → exec (.payloadByte ch b) s = .next (s.setChan ch { w with
          del := { c.del with headerByte := none, mismatch := 0 } })) ∧
        (headerLen (h ++ v) = 0 → ¬agrees → c.del.mismatch = 0 → exec (.payloadByte ch b) s = .next (s.setChan ch { w with
          live := missed, del := { c.del with headerByte := none, mismatch := 1 } })) ∧
        (¬agrees → c.del.mismatch = 1 → exec (.payloadByte ch b) s = .next (s.setChan ch { w with
          live := missed
          del := if 0 < fbo ∧ fbo < payload then { c.del.givenUp .header with startPos := some fbo }
            else c.del.givenUp .seek }))

/-- R67, R68, R94 and R95: a body byte is consumed, and written at its place in the chain while the stored count is below
STORELEN, no other byte of packet memory changing. The last one completes the packet: with fewer than 32 queued it joins the
tail, counted in RXPKTS and RXLONG or RXPADDED, with RXQ on a rise from below RQTHR to it; with 32 queued it is dropped with
DROPQFULL and RXDROP, its chain returned. The last byte of a frame does the same and ends the frame. -/
def Obligations.BodyBytesAreStoredAndTheLastCompletesThePacket : Prop :=
  (∀ (s : State) (ch : ChanId) (b x : Bool) (pos : Nat) (v : Byte) (a : RxDesc),
     let c := s.chan ch
     let w := c.withByte s.globals x v
     c.byteArrives b x (pos + 8) v → pos + 9 ≤ c.cfg.flen.toNat → (∀ p, c.del.startPos = some p → p ≤ pos) →
       c.del.state = .body → c.del.assembly = some a → 1 < c.del.remaining →
         (a.storelen ≤ c.del.stored → exec (.payloadByte ch b) s = .next (s.setChan ch (Chan.endedAt (pos + 8) { w with
           del := { c.del with remaining := c.del.remaining - 1 } }))) ∧
         (c.del.stored < a.storelen → exec (.payloadByte ch b) s = .next
           { s.setChan ch (Chan.endedAt (pos + 8) { w with del := { c.del with
               remaining := c.del.remaining - 1, stored := c.del.stored + 1 } }) with
             mem := packetWrite s.mem a.chain c.del.stored v }) ∧
         (c.del.stored < a.storelen → Memory.wf s.mem → ∀ k,
           Memory.read (packetWrite s.mem a.chain c.del.stored v) k =
             if packetAddr a.chain c.del.stored = some k then v else Memory.read s.mem k)) ∧
  (∀ (s : State) (ch : ChanId) (b x : Bool) (pos : Nat) (v : Byte) (a : RxDesc),
     let c := s.chan ch
     let w := c.withByte s.globals x v
     let mem := if c.del.stored < a.storelen then packetWrite s.mem a.chain c.del.stored v else s.mem
     let ended : Delin := { c.del with remaining := 0, state := .header, headerByte := none, stored := 0, assembly := none }
     c.byteArrives b x (pos + 8) v → pos + 9 ≤ c.cfg.flen.toNat → (∀ p, c.del.startPos = some p → p ≤ pos) →
       c.del.state = .body → c.del.assembly = some a → c.del.remaining = 1 →
         (c.rq.length < 32 → exec (.payloadByte ch b) s = .next
           { s.setChan ch (Chan.endedAt (pos + 8) { w with
               rq := c.rq ++ [a], del := ended
               live := { c.live with
                 rxpkts := countUp c.live.rxpkts
                 rxlong := if a.long then countUp c.live.rxlong else c.live.rxlong
                 rxpadded := if a.padded then countUp c.live.rxpadded else c.live.rxpadded }
               flags := { c.flags with rxq := c.flags.rxq ||
                 (decide (c.rq.length < c.cfg.rqthr.toNat) && decide (c.cfg.rqthr.toNat ≤ c.rq.length + 1)) } }) with
             mem := mem }) ∧
         (32 ≤ c.rq.length → exec (.payloadByte ch b) s = .next
           { s.setChan ch (Chan.endedAt (pos + 8) { w with
               del := ended, rxHolding := c.rxHolding - a.chain.length
               live := { c.live with dropqfull := countUp c.live.dropqfull }
               flags := { c.flags with rxdrop := true } }) with
             mem := mem, pool := { s.pool with free := s.pool.free ++ a.chain } }))

/-- R22, R34 and R55: the last byte of a processed frame ends it: the running XOR becomes the previous XOR, the first-frame flag
is cleared, the frame position and the start position are gone. In HOLD and SEEK that is all; in HEADER, BODY and SKIP the byte
itself does what the statements of payload bytes say, for the two rows name the same edge: that is the model's choice (log entry
2). -/
def Obligations.LastByteEndsTheProcessedFrame : Prop :=
  ∀ (s : State) (ch : ChanId) (b x : Bool) (off : Nat) (v : Byte),
    let c := s.chan ch
    let w := c.withByte s.globals x v
    let mon : Monitor := { c.mon with runXor := 0, prevXor := c.mon.runXor ^^^ v, firstFrame := false }
    let al : Aligner := { w.al with bitPos := 0 }
    c.byteArrives b x off v → 8 ≤ off → off + 1 = c.cfg.flen.toNat →
      (∃ t, exec (.processedFrameEnd ch b) s = .next t ∧ s.othersKept ch t ∧ (t.chan ch).mon = mon ∧ (t.chan ch).al = al
        ∧ (t.chan ch).del.startPos = none) ∧
      exec (.processedFrameEnd ch b) s = exec (.payloadByte ch b) s ∧
      (c.del.state = .hold ∨ c.del.state = .seek → exec (.processedFrameEnd ch b) s = .next (s.setChan ch { c with
        mon := mon, al := al, del := { c.del with startPos := none } }))

/-! ### Transmitted bits -/

/-- R119, R120, R124, R125, R126: a frame start: the mode rules of SENDALARM, the overhead composed as one event, the next FCNT,
and the first bit of MARK presented. -/
def Obligations.FrameStartComposesTheOverhead : Prop :=
  ∀ (s : State) (ch : ChanId),
    let c := s.chan ch
    let f := c.fr
    let enters : Prop := f.mode = .normal ∧ c.cfg.sendalarm = 1 ∧ f.inflight = none
    let leaves : Prop := f.mode = .alarm ∧ c.cfg.sendalarm = 0
    let mode : TxMode := if enters then .alarm else if leaves then .normal else f.mode
    let owed := if enters ∨ leaves then 0 else f.owed
    let fe : Bool := if c.cfg.forcefe = 1 then true else if c.cfg.autofe = 1 then
      !(decide (c.al.state = .locked) && !c.mon.conds.carrier) else false
    f.running = true → f.bitPos = none →
      exec (.frameStart ch) s = .next (s.setChan ch { c with fr := { f with
        mode := mode, owed := owed, kind := if enters ∨ leaves then .idleHeader else f.kind
        nextFcnt := f.nextFcnt + 1
        overhead := {
          fcnt := f.nextFcnt
          stat := BitVec.ofNat 8 ((if mode = .normal then 128 else 0) + if fe then 64 else 0)
          fbo := if mode = .normal ∧ owed < f.flenInUse - 8 then BitVec.ofNat 16 owed else 0xFFFF
          label := lowByte c.cfg.txlabel, fchk := f.prevXor }
        outByte := 0xB5, txd := true, presented := true, bitPos := some 1 } })

/-- R121 and R122: at a payload position of a NORMAL frame with no byte owed, the head of the queue is started if the channel is
ACTIVE and SENDALARM is 0, and else an idle block is sent; its first bit is presented. That the bytes owed count the byte being
sent, so that a packet of LEN owes LEN + 2, is the model's choice (log entry 11). -/
def Obligations.BlockBoundaryStartsAPacketOrAnIdleBlock : Prop :=
  ∀ (s : State) (ch : ChanId) (off : Nat),
    let c := s.chan ch
    let f := c.fr
    f.running = true → f.bitPos = some (8 * off) → 8 ≤ off → f.mode = .normal → f.owed = 0 →
      (∀ d rest, c.tq = d :: rest → c.admin = .active → c.cfg.sendalarm = 0 →
        exec (.blockBoundary ch) s = .next (s.setChan ch { c with tq := rest, fr := { f with
          owed := d.len + 2, kind := .packetHeader, inflight := some ⟨d, 0⟩, bitPos := some (8 * off + 1)
          outByte := highByte (headerOf d.len), txd := (highByte (headerOf d.len)).getLsbD 7, presented := true } })) ∧
      (c.tq = [] ∨ c.admin ≠ .active ∨ c.cfg.sendalarm ≠ 0 →
        exec (.blockBoundary ch) s = .next (s.setChan ch { c with fr := { f with
          owed := 2, kind := .idleHeader, bitPos := some (8 * off + 1)
          outByte := 0x00, txd := false, presented := true } }))

/-- R118, R119, R121 and R122: a falling edge while STOPPED leaves TXD_n at 1 and does nothing else; while RUNNING it presents
the next bit, most significant first. The first bit of an overhead byte takes it from the composed overhead, of a byte of an
alarm payload 0xFF, of a header byte the idle header 0x000F or the packet's header, of a body byte the byte at the send cursor.
A byte's last bit puts the byte into the running XOR; a byte of the block stream is then owed no more, and the packet's body
follows its header. That a falling edge in STOPPED is what puts TXD_n at 1 (log entry 12), and that a byte is owed until its last
bit (log entry 11), is the model's choice. -/
def Obligations.FallingEdgePresentsTheNextBit : Prop :=
  ∀ (s : State) (ch : ChanId) (pos : Nat),
    let c := s.chan ch
    let f := c.fr
    let shows (out : Byte) (t : Framer) : Prop :=
      exec (.txclkFallingEdge ch) s = .next (s.setChan ch { c with fr := { t with
        outByte := out, txd := out.getLsbD (7 - pos % 8), presented := true, bitPos := some (pos + 1) } })
    let sent : Framer := { f with runXor := f.runXor ^^^ f.outByte }
    (f.running = false → exec (.txclkFallingEdge ch) s = .next (s.setChan ch { c with fr := { f with txd := true } })) ∧
    (f.running = true → f.bitPos = some pos →
      (pos % 8 ≠ 0 → pos % 8 ≠ 7 → shows f.outByte f) ∧
      (pos % 8 = 0 → pos < 64 → shows ([0xB5, 0x4E, f.overhead.fcnt, f.overhead.stat, highByte f.overhead.fbo,
        lowByte f.overhead.fbo, f.overhead.label, f.overhead.fchk].getD (pos / 8) 0) f) ∧
      (pos % 8 = 0 → 64 ≤ pos → f.mode = .alarm → shows 0xFF f) ∧
      (pos % 8 = 0 → 64 ≤ pos → f.mode = .normal → f.kind = .idleHeader → f.owed = 1 → shows 0x0F f) ∧
      (∀ p, pos % 8 = 0 → 64 ≤ pos → f.mode = .normal → f.kind = .packetHeader → f.inflight = some p →
        f.owed = p.desc.len + 1 → shows (lowByte (headerOf p.desc.len)) f) ∧
      (∀ p, pos % 8 = 0 → 64 ≤ pos → f.mode = .normal → f.kind = .packetBody → f.owed ≠ 0 → f.inflight = some p →
        shows (packetByte s.mem p.desc.chain p.cursor) f) ∧
      (pos % 8 = 7 → pos < 64 ∨ f.mode = .alarm → pos + 1 ≠ 8 * f.flenInUse → shows f.outByte sent) ∧
      (pos % 8 = 7 → 64 ≤ pos → f.mode = .normal → f.kind = .idleHeader → pos + 1 ≠ 8 * f.flenInUse →
        shows f.outByte { sent with owed := f.owed - 1 }) ∧
      (∀ p, pos % 8 = 7 → 64 ≤ pos → f.mode = .normal → f.kind = .packetHeader → f.inflight = some p →
        pos + 1 ≠ 8 * f.flenInUse →
        (f.owed = p.desc.len + 2 → shows f.outByte { sent with owed := p.desc.len + 1 }) ∧
        (f.owed = p.desc.len + 1 → shows f.outByte { sent with owed := p.desc.len, kind := .packetBody })) ∧
      (∀ p, pos % 8 = 7 → 64 ≤ pos → f.mode = .normal → f.kind = .packetBody → 1 < f.owed → f.inflight = some p →
        pos + 1 ≠ 8 * f.flenInUse →
        shows f.outByte { sent with owed := f.owed - 1, inflight := some { p with cursor := p.cursor + 1 } }))

/-- R123: the last bit of the in-flight packet's last body byte ends the packet: its chain is returned, TXPKTS counted, TXDONE
set. R119: a frame's last bit ends it: the running XOR with the last byte becomes the previous XOR, TXFRAMES is counted, the
frame position is none. One bit may end both. Where no packet ends, pool, flags and holdings stand; so a frame that ends in a
drain with its packet still in flight goes on as one in ACTIVE (R129). -/
def Obligations.LastBitsEndThePacketAndTheFrame : Prop :=
  (∀ (s : State) (ch : ChanId) (pos : Nat) (p : InFlight),
     let c := s.chan ch
     let f := c.fr
     let frameEnds : Prop := pos + 1 = 8 * f.flenInUse
     let xor := f.runXor ^^^ f.outByte
     f.running = true → f.bitPos = some pos → pos % 8 = 7 → 64 ≤ pos → ¬frameEnds ∨ c.admin = .active → f.mode = .normal →
       f.kind = .packetBody → f.owed = 1 → f.inflight = some p →
         exec (.packetEnd ch) s = .next
           { s.setChan ch { c with
               live := { c.live with
                 txpkts := countUp c.live.txpkts
                 txframes := if frameEnds then countUp c.live.txframes else c.live.txframes }
               flags := { c.flags with txdone := true }
               txHolding := c.txHolding - p.desc.chain.length
               fr := { f with owed := 0, inflight := none, txd := f.outByte.getLsbD 0, presented := true
                              runXor := if frameEnds then 0 else xor
                              prevXor := if frameEnds then xor else f.prevXor
                              bitPos := if frameEnds then none else some (pos + 1) } } with
             pool := { s.pool with free := s.pool.free ++ p.desc.chain } }) ∧
  (∀ (s : State) (ch : ChanId) (pos : Nat),
     let c := s.chan ch
     let f := c.fr
     f.running = true → f.bitPos = some pos → pos + 1 = 8 * f.flenInUse → c.admin = .active →
       ∃ t, exec (.transmitFrameEnd ch) s = .next t ∧ s.othersKept ch t ∧ t.mem = s.mem ∧ t.gflags = s.gflags ∧
         let d := t.chan ch
         d.fr.prevXor = f.runXor ^^^ f.outByte ∧ d.fr.runXor = 0 ∧ d.fr.bitPos = none ∧ d.fr.running = true
           ∧ d.fr.txd = f.outByte.getLsbD 0 ∧ d.fr.nextFcnt = f.nextFcnt ∧ d.live.txframes = countUp c.live.txframes
           ∧ d.admin = .active ∧ d.al = c.al ∧ d.mon = c.mon ∧ d.del = c.del ∧ d.rq = c.rq ∧ d.held = c.held
           ∧ d.tq = c.tq ∧ d.fill = c.fill ∧ d.cfg = c.cfg) ∧
  (∀ (s : State) (ch : ChanId) (pos : Nat),
     let c := s.chan ch
     let f := c.fr
     let ends (t : Framer) : Prop := exec (.transmitFrameEnd ch) s = .next (s.setChan ch { c with
       live := { c.live with txframes := countUp c.live.txframes }
       fr := { t with prevXor := f.runXor ^^^ f.outByte, runXor := 0, bitPos := none
                      txd := f.outByte.getLsbD 0, presented := true } })
     f.running = true → f.bitPos = some pos → pos + 1 = 8 * f.flenInUse → 9 ≤ f.flenInUse →
       (c.admin = .active → f.mode = .alarm → ends f) ∧
       (c.admin = .active → f.mode = .normal → f.kind = .idleHeader → ends { f with owed := f.owed - 1 }) ∧
       (∀ p, f.mode = .normal → f.kind = .packetHeader → f.inflight = some p →
         (f.owed = p.desc.len + 2 → ends { f with owed := p.desc.len + 1 }) ∧
         (f.owed = p.desc.len + 1 → ends { f with owed := p.desc.len, kind := .packetBody })) ∧
       (∀ p, f.mode = .normal → f.kind = .packetBody → 1 < f.owed → f.inflight = some p →
         ends { f with owed := f.owed - 1, inflight := some { p with cursor := p.cursor + 1 } }))

/-- R129 and R143: the last bit of a drain's last frame ends the drain: the framer stops, the channel is DISABLED, the unit IDLE
with CSTAT OK, CMDDONE set, RES0 and RES1 as they were, and nothing else but TXFRAMES and the framer changes. A packet in flight
with one body byte left ends with it: its chain is returned, TXPKTS counted, TXDONE set (R123). -/
def Obligations.DrainEndsWithItsLastFrame : Prop :=
  ∀ (s : State) (ch : ChanId) (pos : Nat),
    let c := s.chan ch
    let f := c.fr
    f.running = true → f.bitPos = some pos → pos + 1 = 8 * f.flenInUse → 9 ≤ f.flenInUse → c.admin = .draining →
      f.inflight = none ∨ (f.mode = .normal ∧ f.kind = .packetBody ∧ f.owed = 1) →
        ∃ t, exec (.drainEnd ch) s = .next t ∧ (∀ k, k ≠ ch → t.chan k = s.chan k)
          ∧ t.cu = { s.cu with pending := none, cstat := .ok } ∧ t.gflags = { s.gflags with cmddone := true }
          ∧ t.gmask = s.gmask ∧ t.globals = s.globals ∧ t.win = s.win ∧ t.mem = s.mem ∧
          let d := t.chan ch
          d.admin = .disabled ∧ d.fr.running = false ∧ d.fr.bitPos = none ∧ d.fr.drainTimer = none ∧ d.fr.inflight = none
            ∧ d.live.txframes = countUp c.live.txframes ∧ d.tq = c.tq ∧ d.fill = c.fill ∧ d.nextTxseq = c.nextTxseq
            ∧ d.rq = c.rq ∧ d.held = c.held ∧ d.cfg = c.cfg
            ∧ (f.inflight = none → t.pool = s.pool
                ∧ d = { c with admin := .disabled, fr := d.fr, live := { c.live with txframes := countUp c.live.txframes } })
            ∧ ∀ p, f.inflight = some p → t.pool = { s.pool with free := s.pool.free ++ p.desc.chain }
                ∧ d = { c with
                    admin := .disabled, fr := d.fr, txHolding := c.txHolding - p.desc.chain.length
                    live := { c.live with txframes := countUp c.live.txframes, txpkts := countUp c.live.txpkts }
                    flags := { c.flags with txdone := true } }

/-- R130, R143, R177 and R178: the drain timer expires: an in-flight packet's chain is returned and TXABORT counted, the frame
is cut uncounted, the framer stops, the channel is DISABLED, CH_STOP completes with TIMEOUT and CMDDONE. Queue, fill packet and
next TXSEQ stand. That TXD_n keeps its level while TXCLK_n runs (log entry 12), and that the row says whether it has stopped (log
entry 6), is the model's choice. -/
def Obligations.DrainTimerExpiryAbandonsTheDrain : Prop :=
  ∀ (s : State) (ch : ChanId) (clockStopped : Bool) (n : Nat),
    let c := s.chan ch
    let stopped (d : Framer) : Prop := d.running = false ∧ d.bitPos = none ∧ d.inflight = none ∧ d.drainTimer = none
      ∧ d.runXor = 0 ∧ d.txd = (clockStopped || c.fr.txd)
    c.fr.drainTimer = some n →
      ∃ t, exec (.drainTimerExpiry ch clockStopped) s = .next t ∧ (∀ k, k ≠ ch → t.chan k = s.chan k)
        ∧ t.cu = { s.cu with pending := none, cstat := .timeout } ∧ t.gflags = { s.gflags with cmddone := true }
        ∧ t.gmask = s.gmask ∧ t.globals = s.globals ∧ t.win = s.win ∧ t.mem = s.mem ∧ stopped (t.chan ch).fr
        ∧ (c.fr.inflight = none → t.pool = s.pool ∧ t.chan ch = { c with admin := .disabled, fr := (t.chan ch).fr }) ∧
        (∀ p, c.fr.inflight = some p → t.pool = { s.pool with free := s.pool.free ++ p.desc.chain }
          ∧ t.chan ch = { c with
              admin := .disabled, fr := (t.chan ch).fr, txHolding := c.txHolding - p.desc.chain.length
              live := { c.live with txabort := countUp c.live.txabort } })

/-! ### What every step keeps -/

/-- R152 and R153: a counter's occurrence raises it by 1 and leaves the others; at 16,777,215 it stays. -/
def Obligations.CountersSaturate : Prop :=
  ∀ (c : Counters) (k j : Ctr),
    ((c.bump k).get k).toNat = min 16777215 ((c.get k).toNat + 1) ∧ (j ≠ k → (c.bump k).get j = c.get j)

/-- Packet memory keeps its canonical form through every step. -/
def Obligations.StepKeepsPacketMemoryCanonical : Prop :=
  ∀ s t : State, Memory.wf s.mem → step s = .next t → Memory.wf t.mem

/-- R15, R32, R54, R118, R135 and R84: every step keeps each channel's blocks in agreement with its admin state and with each
other, a channel DRAINING exactly when the Command Unit is PENDING on it, and every channel DISABLED while the pool is in INIT.
-/
def Obligations.StepKeepsTheModesInAgreement : Prop :=
  ∀ s t : State, s.ModesAgree → step s = .next t → t.ModesAgree

/-- R80 and R81: every step conserves the cells: in READY each of the 512 belongs to the free list or to exactly one packet, the
holdings count them, and each chain has the cells its packet's length needs. -/
def Obligations.StepConservesTheCells : Prop :=
  ∀ s t : State, s.ModesAgree → s.CellsConserved → step s = .next t → t.CellsConserved

/-- R38, R49, R86, R93, R97, R111, R117, R146, R149 and R150: every step keeps queues, ring, cursors, holdings and persistence
counts within their bounds and quotas, and every entry in its range with DSET above DCLR. The modes agree: else PERSIST could be
lowered below a count, which no reachable state allows. -/
def Obligations.StepKeepsTheBounds : Prop :=
  ∀ s t : State, s.ModesAgree → s.InBounds → step s = .next t → t.InBounds

/-- R81: with the cells conserved, in READY FREE plus the eight holdings is 512. -/
def Obligations.FreeAndHoldingsAddUpTo512 : Prop :=
  ∀ s : State, s.CellsConserved → s.pool.state = .ready →
    s.pool.freeCount + (((s.chan 0).rxHolding + (s.chan 0).txHolding) + ((s.chan 1).rxHolding + (s.chan 1).txHolding)
      + ((s.chan 2).rxHolding + (s.chan 2).txHolding) + ((s.chan 3).rxHolding + (s.chan 3).txHolding)) = 512

/-- The laws that every step keeps hold of the part as a reset leaves it. -/
def Obligations.ResetMeetsTheLaws : Prop :=
  Memory.wf State.reset.mem ∧ State.reset.ModesAgree ∧ State.reset.CellsConserved ∧ State.reset.InBounds
end

