-- ==== Sys2Proof/Laws/State.lean ====
section
/-! SUPPORT. One lemma per field per update of the state, so that no proof unfolds a record update. -/

namespace Sys2Proof.Machine

open Sys2Proof

/-! ### Channels by number -/

@[simp] theorem Quad.get_set_self {α : Type} (q : Quad α) (i : ChanId) (a : α) : (q.set i a).get i = a := by
  fin_cases i <;> rfl

theorem Quad.get_set_ne {α : Type} (q : Quad α) {i j : ChanId} (a : α) (h : j ≠ i) : (q.set i a).get j = q.get j := by
  fin_cases i <;> fin_cases j <;> first | rfl | exact absurd rfl h

@[simp] theorem Quad.set_get_self {α : Type} (q : Quad α) (i : ChanId) : q.set i (q.get i) = q := by
  fin_cases i <;> rfl

@[simp] theorem Quad.set_set {α : Type} (q : Quad α) (i : ChanId) (a b : α) : (q.set i a).set i b = q.set i b := by
  fin_cases i <;> rfl

@[simp] theorem Quad.get_map {α : Type} (f : α → α) (q : Quad α) (i : ChanId) : (q.map f).get i = f (q.get i) := by
  fin_cases i <;> rfl

theorem Quad.get_const {α : Type} (a : α) (i : ChanId) : (⟨a, a, a, a⟩ : Quad α).get i = a := by fin_cases i <;> rfl

@[simp] theorem State.chan_setChan_self (s : State) (ch : ChanId) (c : Chan) : (s.setChan ch c).chan ch = c :=
  Quad.get_set_self ..

theorem State.chan_setChan_ne (s : State) {ch k : ChanId} (c : Chan) (h : k ≠ ch) : (s.setChan ch c).chan k = s.chan k :=
  Quad.get_set_ne _ _ h

@[simp] theorem State.setChan_chan (s : State) (ch : ChanId) : s.setChan ch (s.chan ch) = s := by
  simp [State.setChan, State.chan]

@[simp] theorem State.setChan_setChan (s : State) (ch : ChanId) (c d : Chan) :
    (s.setChan ch c).setChan ch d = s.setChan ch d := by
  simp [State.setChan]

@[simp] theorem State.chan_setLane_self (s : State) (ch : ChanId) (l : Lane) : (s.setLane ch l).chan ch = l.c :=
  Quad.get_set_self ..

theorem State.chan_setLane_ne (s : State) {ch k : ChanId} (l : Lane) (h : k ≠ ch) : (s.setLane ch l).chan k = s.chan k :=
  Quad.get_set_ne _ _ h

/-- A lane that only its channel leaves changed is a change of the channel. -/
theorem State.setLane_chan (s : State) (ch : ChanId) (c : Chan) :
    s.setLane ch { s.lane ch with c := c } = s.setChan ch c := rfl

@[simp] theorem State.setLane_lane (s : State) (ch : ChanId) : s.setLane ch (s.lane ch) = s := by
  simp [State.setLane, State.lane, State.chan]

/-- The channels of a state whose fields other than `chans` are changed are those it had. -/
theorem State.chan_congr {s t : State} (h : t.chans = s.chans) (ch : ChanId) : t.chan ch = s.chan ch := by
  simp [State.chan, h]

/-! ### State.setChan and State.setLane -/

@[simp] theorem State.setChan_pool (s : State) (ch : ChanId) (c : Chan) : (s.setChan ch c).pool = s.pool := rfl
@[simp] theorem State.setChan_cu (s : State) (ch : ChanId) (c : Chan) : (s.setChan ch c).cu = s.cu := rfl
@[simp] theorem State.setChan_gflags (s : State) (ch : ChanId) (c : Chan) : (s.setChan ch c).gflags = s.gflags := rfl
@[simp] theorem State.setChan_gmask (s : State) (ch : ChanId) (c : Chan) : (s.setChan ch c).gmask = s.gmask := rfl
@[simp] theorem State.setChan_globals (s : State) (ch : ChanId) (c : Chan) :
    (s.setChan ch c).globals = s.globals := rfl
@[simp] theorem State.setChan_win (s : State) (ch : ChanId) (c : Chan) : (s.setChan ch c).win = s.win := rfl
@[simp] theorem State.setChan_mem (s : State) (ch : ChanId) (c : Chan) : (s.setChan ch c).mem = s.mem := rfl
@[simp] theorem State.setChan_fresh (s : State) (ch : ChanId) (c : Chan) : (s.setChan ch c).fresh = s.fresh := rfl
@[simp] theorem State.setChan_prescale (s : State) (ch : ChanId) (c : Chan) :
    (s.setChan ch c).prescale = s.prescale := rfl
@[simp] theorem State.setChan_pending (s : State) (ch : ChanId) (c : Chan) :
    (s.setChan ch c).pending = s.pending := rfl

@[simp] theorem State.setLane_pool (s : State) (ch : ChanId) (l : Lane) : (s.setLane ch l).pool = l.pool := rfl
@[simp] theorem State.setLane_cu (s : State) (ch : ChanId) (l : Lane) : (s.setLane ch l).cu = s.cu := rfl
@[simp] theorem State.setLane_gflags (s : State) (ch : ChanId) (l : Lane) : (s.setLane ch l).gflags = l.gf := rfl
@[simp] theorem State.setLane_gmask (s : State) (ch : ChanId) (l : Lane) : (s.setLane ch l).gmask = s.gmask := rfl
@[simp] theorem State.setLane_globals (s : State) (ch : ChanId) (l : Lane) :
    (s.setLane ch l).globals = s.globals := rfl
@[simp] theorem State.setLane_win (s : State) (ch : ChanId) (l : Lane) : (s.setLane ch l).win = s.win := rfl
@[simp] theorem State.setLane_mem (s : State) (ch : ChanId) (l : Lane) : (s.setLane ch l).mem = l.mem := rfl
@[simp] theorem State.setLane_fresh (s : State) (ch : ChanId) (l : Lane) : (s.setLane ch l).fresh = s.fresh := rfl
@[simp] theorem State.setLane_prescale (s : State) (ch : ChanId) (l : Lane) :
    (s.setLane ch l).prescale = s.prescale := rfl
@[simp] theorem State.setLane_pending (s : State) (ch : ChanId) (l : Lane) :
    (s.setLane ch l).pending = s.pending := rfl

@[simp] theorem State.lane_c (s : State) (ch : ChanId) : (s.lane ch).c = s.chan ch := rfl
@[simp] theorem State.lane_pool (s : State) (ch : ChanId) : (s.lane ch).pool = s.pool := rfl
@[simp] theorem State.lane_mem (s : State) (ch : ChanId) : (s.lane ch).mem = s.mem := rfl
@[simp] theorem State.lane_gf (s : State) (ch : ChanId) : (s.lane ch).gf = s.gflags := rfl

/-! ### State.onChan and State.onLane -/

@[simp] theorem State.onChan_pool (s : State) (ch : ChanId) (f : Chan → Chan) : (s.onChan ch f).pool = s.pool := rfl
@[simp] theorem State.onChan_cu (s : State) (ch : ChanId) (f : Chan → Chan) : (s.onChan ch f).cu = s.cu := rfl
@[simp] theorem State.onChan_gflags (s : State) (ch : ChanId) (f : Chan → Chan) :
    (s.onChan ch f).gflags = s.gflags := rfl
@[simp] theorem State.onChan_gmask (s : State) (ch : ChanId) (f : Chan → Chan) :
    (s.onChan ch f).gmask = s.gmask := rfl
@[simp] theorem State.onChan_globals (s : State) (ch : ChanId) (f : Chan → Chan) :
    (s.onChan ch f).globals = s.globals := rfl
@[simp] theorem State.onChan_win (s : State) (ch : ChanId) (f : Chan → Chan) : (s.onChan ch f).win = s.win := rfl
@[simp] theorem State.onChan_mem (s : State) (ch : ChanId) (f : Chan → Chan) : (s.onChan ch f).mem = s.mem := rfl
@[simp] theorem State.onChan_fresh (s : State) (ch : ChanId) (f : Chan → Chan) :
    (s.onChan ch f).fresh = s.fresh := rfl
@[simp] theorem State.onChan_prescale (s : State) (ch : ChanId) (f : Chan → Chan) :
    (s.onChan ch f).prescale = s.prescale := rfl
@[simp] theorem State.onChan_pending (s : State) (ch : ChanId) (f : Chan → Chan) :
    (s.onChan ch f).pending = s.pending := rfl

@[simp] theorem State.onLane_pool (s : State) (ch : ChanId) (f : Lane → Lane) :
    (s.onLane ch f).pool = (f (s.lane ch)).pool := rfl
@[simp] theorem State.onLane_cu (s : State) (ch : ChanId) (f : Lane → Lane) : (s.onLane ch f).cu = s.cu := rfl
@[simp] theorem State.onLane_gflags (s : State) (ch : ChanId) (f : Lane → Lane) :
    (s.onLane ch f).gflags = (f (s.lane ch)).gf := rfl
@[simp] theorem State.onLane_gmask (s : State) (ch : ChanId) (f : Lane → Lane) :
    (s.onLane ch f).gmask = s.gmask := rfl
@[simp] theorem State.onLane_globals (s : State) (ch : ChanId) (f : Lane → Lane) :
    (s.onLane ch f).globals = s.globals := rfl
@[simp] theorem State.onLane_win (s : State) (ch : ChanId) (f : Lane → Lane) : (s.onLane ch f).win = s.win := rfl
@[simp] theorem State.onLane_mem (s : State) (ch : ChanId) (f : Lane → Lane) :
    (s.onLane ch f).mem = (f (s.lane ch)).mem := rfl
@[simp] theorem State.onLane_fresh (s : State) (ch : ChanId) (f : Lane → Lane) :
    (s.onLane ch f).fresh = s.fresh := rfl
@[simp] theorem State.onLane_prescale (s : State) (ch : ChanId) (f : Lane → Lane) :
    (s.onLane ch f).prescale = s.prescale := rfl
@[simp] theorem State.onLane_pending (s : State) (ch : ChanId) (f : Lane → Lane) :
    (s.onLane ch f).pending = s.pending := rfl

@[simp] theorem State.chan_onChan_self (s : State) (ch : ChanId) (f : Chan → Chan) :
    (s.onChan ch f).chan ch = f (s.chan ch) := State.chan_setChan_self ..

theorem State.chan_onChan_ne (s : State) {ch k : ChanId} (f : Chan → Chan) (h : k ≠ ch) :
    (s.onChan ch f).chan k = s.chan k := State.chan_setChan_ne _ _ h

@[simp] theorem State.chan_onLane_self (s : State) (ch : ChanId) (f : Lane → Lane) :
    (s.onLane ch f).chan ch = (f (s.lane ch)).c := State.chan_setLane_self ..

theorem State.chan_onLane_ne (s : State) {ch k : ChanId} (f : Lane → Lane) (h : k ≠ ch) :
    (s.onLane ch f).chan k = s.chan k := State.chan_setLane_ne _ _ h

/-! ### Answers of the Command Unit and of the Bus Window -/

@[simp] theorem State.answer_chans (st : CStat) (s : State) : (s.answer st).chans = s.chans := rfl
@[simp] theorem State.answer_pool (st : CStat) (s : State) : (s.answer st).pool = s.pool := rfl
@[simp] theorem State.answer_cu (st : CStat) (s : State) : (s.answer st).cu = { s.cu with cstat := st } := rfl
@[simp] theorem State.answer_gflags (st : CStat) (s : State) : (s.answer st).gflags = s.gflags := rfl
@[simp] theorem State.answer_gmask (st : CStat) (s : State) : (s.answer st).gmask = s.gmask := rfl
@[simp] theorem State.answer_globals (st : CStat) (s : State) : (s.answer st).globals = s.globals := rfl
@[simp] theorem State.answer_win (st : CStat) (s : State) : (s.answer st).win = s.win := rfl
@[simp] theorem State.answer_mem (st : CStat) (s : State) : (s.answer st).mem = s.mem := rfl
@[simp] theorem State.answer_fresh (st : CStat) (s : State) : (s.answer st).fresh = s.fresh := rfl
@[simp] theorem State.answer_prescale (st : CStat) (s : State) : (s.answer st).prescale = s.prescale := rfl
@[simp] theorem State.answer_pending (st : CStat) (s : State) : (s.answer st).pending = s.pending := rfl
@[simp] theorem State.chan_answer (st : CStat) (s : State) (ch : ChanId) : (s.answer st).chan ch = s.chan ch := rfl

@[simp] theorem State.answerWith_chans (r0 r1 : Word) (s : State) : (s.answerWith r0 r1).chans = s.chans := rfl
@[simp] theorem State.answerWith_pool (r0 r1 : Word) (s : State) : (s.answerWith r0 r1).pool = s.pool := rfl
@[simp] theorem State.answerWith_cu (r0 r1 : Word) (s : State) :
    (s.answerWith r0 r1).cu = { s.cu with cstat := .ok, res0 := r0, res1 := r1 } := rfl
@[simp] theorem State.answerWith_gflags (r0 r1 : Word) (s : State) : (s.answerWith r0 r1).gflags = s.gflags := rfl
@[simp] theorem State.answerWith_gmask (r0 r1 : Word) (s : State) : (s.answerWith r0 r1).gmask = s.gmask := rfl
@[simp] theorem State.answerWith_globals (r0 r1 : Word) (s : State) : (s.answerWith r0 r1).globals = s.globals := rfl
@[simp] theorem State.answerWith_win (r0 r1 : Word) (s : State) : (s.answerWith r0 r1).win = s.win := rfl
@[simp] theorem State.answerWith_mem (r0 r1 : Word) (s : State) : (s.answerWith r0 r1).mem = s.mem := rfl
@[simp] theorem State.answerWith_fresh (r0 r1 : Word) (s : State) : (s.answerWith r0 r1).fresh = s.fresh := rfl
@[simp] theorem State.answerWith_prescale (r0 r1 : Word) (s : State) :
    (s.answerWith r0 r1).prescale = s.prescale := rfl
@[simp] theorem State.answerWith_pending (r0 r1 : Word) (s : State) : (s.answerWith r0 r1).pending = s.pending := rfl
@[simp] theorem State.chan_answerWith (r0 r1 : Word) (s : State) (ch : ChanId) :
    (s.answerWith r0 r1).chan ch = s.chan ch := rfl

@[simp] theorem State.stopCompleted_chans (st : CStat) (s : State) : (s.stopCompleted st).chans = s.chans := rfl
@[simp] theorem State.stopCompleted_pool (st : CStat) (s : State) : (s.stopCompleted st).pool = s.pool := rfl
@[simp] theorem State.stopCompleted_cu (st : CStat) (s : State) :
    (s.stopCompleted st).cu = { s.cu with pending := none, cstat := st } := rfl
@[simp] theorem State.stopCompleted_gflags (st : CStat) (s : State) :
    (s.stopCompleted st).gflags = s.gflags.withCmddone := rfl
@[simp] theorem State.stopCompleted_gmask (st : CStat) (s : State) : (s.stopCompleted st).gmask = s.gmask := rfl
@[simp] theorem State.stopCompleted_globals (st : CStat) (s : State) : (s.stopCompleted st).globals = s.globals := rfl
@[simp] theorem State.stopCompleted_win (st : CStat) (s : State) : (s.stopCompleted st).win = s.win := rfl
@[simp] theorem State.stopCompleted_mem (st : CStat) (s : State) : (s.stopCompleted st).mem = s.mem := rfl
@[simp] theorem State.stopCompleted_fresh (st : CStat) (s : State) : (s.stopCompleted st).fresh = s.fresh := rfl
@[simp] theorem State.stopCompleted_prescale (st : CStat) (s : State) :
    (s.stopCompleted st).prescale = s.prescale := rfl
@[simp] theorem State.stopCompleted_pending (st : CStat) (s : State) : (s.stopCompleted st).pending = s.pending := rfl
@[simp] theorem State.chan_stopCompleted (st : CStat) (s : State) (ch : ChanId) :
    (s.stopCompleted st).chan ch = s.chan ch := rfl

@[simp] theorem State.answered_chans (d : DataLines) (s : State) : (s.answered d).chans = s.chans := rfl
@[simp] theorem State.answered_pool (d : DataLines) (s : State) : (s.answered d).pool = s.pool := rfl
@[simp] theorem State.answered_cu (d : DataLines) (s : State) : (s.answered d).cu = s.cu := rfl
@[simp] theorem State.answered_gflags (d : DataLines) (s : State) : (s.answered d).gflags = s.gflags := rfl
@[simp] theorem State.answered_gmask (d : DataLines) (s : State) : (s.answered d).gmask = s.gmask := rfl
@[simp] theorem State.answered_globals (d : DataLines) (s : State) : (s.answered d).globals = s.globals := rfl
@[simp] theorem State.answered_win (d : DataLines) (s : State) :
    (s.answered d).win = { s.win with lines := d, ready := true } := rfl
@[simp] theorem State.answered_mem (d : DataLines) (s : State) : (s.answered d).mem = s.mem := rfl
@[simp] theorem State.answered_fresh (d : DataLines) (s : State) : (s.answered d).fresh = s.fresh := rfl
@[simp] theorem State.answered_prescale (d : DataLines) (s : State) : (s.answered d).prescale = s.prescale := rfl
@[simp] theorem State.answered_pending (d : DataLines) (s : State) : (s.answered d).pending = s.pending := rfl
@[simp] theorem State.chan_answered (d : DataLines) (s : State) (ch : ChanId) :
    (s.answered d).chan ch = s.chan ch := rfl

@[simp] theorem State.acked_chans (s : State) : s.acked.chans = s.chans := rfl
@[simp] theorem State.acked_pool (s : State) : s.acked.pool = s.pool := rfl
@[simp] theorem State.acked_cu (s : State) : s.acked.cu = s.cu := rfl
@[simp] theorem State.acked_gflags (s : State) : s.acked.gflags = s.gflags := rfl
@[simp] theorem State.acked_gmask (s : State) : s.acked.gmask = s.gmask := rfl
@[simp] theorem State.acked_globals (s : State) : s.acked.globals = s.globals := rfl
@[simp] theorem State.acked_win (s : State) : s.acked.win = { s.win with lines := .released, ready := true } := rfl
@[simp] theorem State.acked_mem (s : State) : s.acked.mem = s.mem := rfl
@[simp] theorem State.acked_fresh (s : State) : s.acked.fresh = s.fresh := rfl
@[simp] theorem State.acked_prescale (s : State) : s.acked.prescale = s.prescale := rfl
@[simp] theorem State.acked_pending (s : State) : s.acked.pending = s.pending := rfl
@[simp] theorem State.chan_acked (s : State) (ch : ChanId) : s.acked.chan ch = s.chan ch := rfl

@[simp] theorem State.notTaken_chans (s : State) : s.notTaken.chans = s.chans := rfl
@[simp] theorem State.notTaken_pool (s : State) : s.notTaken.pool = s.pool := rfl
@[simp] theorem State.notTaken_cu (s : State) : s.notTaken.cu = s.cu := rfl
@[simp] theorem State.notTaken_gflags (s : State) : s.notTaken.gflags = s.gflags := rfl
@[simp] theorem State.notTaken_gmask (s : State) : s.notTaken.gmask = s.gmask := rfl
@[simp] theorem State.notTaken_globals (s : State) : s.notTaken.globals = s.globals := rfl
@[simp] theorem State.notTaken_win (s : State) :
    s.notTaken.win = { s.win with lines := .released, ready := false } := rfl
@[simp] theorem State.notTaken_mem (s : State) : s.notTaken.mem = s.mem := rfl
@[simp] theorem State.notTaken_fresh (s : State) : s.notTaken.fresh = s.fresh := rfl
@[simp] theorem State.notTaken_prescale (s : State) : s.notTaken.prescale = s.prescale := rfl
@[simp] theorem State.notTaken_pending (s : State) : s.notTaken.pending = s.pending := rfl
@[simp] theorem State.chan_notTaken (s : State) (ch : ChanId) : s.notTaken.chan ch = s.chan ch := rfl

@[simp] theorem State.porterr_chans (s : State) : s.porterr.chans = s.chans := rfl
@[simp] theorem State.porterr_pool (s : State) : s.porterr.pool = s.pool := rfl
@[simp] theorem State.porterr_cu (s : State) : s.porterr.cu = s.cu := rfl
@[simp] theorem State.porterr_gflags (s : State) : s.porterr.gflags = s.gflags.withPorterr := rfl
@[simp] theorem State.porterr_gmask (s : State) : s.porterr.gmask = s.gmask := rfl
@[simp] theorem State.porterr_globals (s : State) : s.porterr.globals = s.globals := rfl
@[simp] theorem State.porterr_win (s : State) : s.porterr.win = s.win := rfl
@[simp] theorem State.porterr_mem (s : State) : s.porterr.mem = s.mem := rfl
@[simp] theorem State.porterr_fresh (s : State) : s.porterr.fresh = s.fresh := rfl
@[simp] theorem State.porterr_prescale (s : State) : s.porterr.prescale = s.prescale := rfl
@[simp] theorem State.porterr_pending (s : State) : s.porterr.pending = s.pending := rfl
@[simp] theorem State.chan_porterr (s : State) (ch : ChanId) : s.porterr.chan ch = s.chan ch := rfl

@[simp] theorem State.cfgerr_chans (s : State) : s.cfgerr.chans = s.chans := rfl
@[simp] theorem State.cfgerr_pool (s : State) : s.cfgerr.pool = s.pool := rfl
@[simp] theorem State.cfgerr_cu (s : State) : s.cfgerr.cu = s.cu := rfl
@[simp] theorem State.cfgerr_gflags (s : State) : s.cfgerr.gflags = s.gflags.withCfgerr := rfl
@[simp] theorem State.cfgerr_gmask (s : State) : s.cfgerr.gmask = s.gmask := rfl
@[simp] theorem State.cfgerr_globals (s : State) : s.cfgerr.globals = s.globals := rfl
@[simp] theorem State.cfgerr_win (s : State) : s.cfgerr.win = s.win := rfl
@[simp] theorem State.cfgerr_mem (s : State) : s.cfgerr.mem = s.mem := rfl
@[simp] theorem State.cfgerr_fresh (s : State) : s.cfgerr.fresh = s.fresh := rfl
@[simp] theorem State.cfgerr_prescale (s : State) : s.cfgerr.prescale = s.prescale := rfl
@[simp] theorem State.cfgerr_pending (s : State) : s.cfgerr.pending = s.pending := rfl
@[simp] theorem State.chan_cfgerr (s : State) (ch : ChanId) : s.cfgerr.chan ch = s.chan ch := rfl

@[simp] theorem State.nextIdx_chans (s : State) : s.nextIdx.chans = s.chans := rfl
@[simp] theorem State.nextIdx_pool (s : State) : s.nextIdx.pool = s.pool := rfl
@[simp] theorem State.nextIdx_cu (s : State) : s.nextIdx.cu = s.cu := rfl
@[simp] theorem State.nextIdx_gflags (s : State) : s.nextIdx.gflags = s.gflags := rfl
@[simp] theorem State.nextIdx_gmask (s : State) : s.nextIdx.gmask = s.gmask := rfl
@[simp] theorem State.nextIdx_globals (s : State) : s.nextIdx.globals = s.globals := rfl
@[simp] theorem State.nextIdx_win (s : State) : s.nextIdx.win = { s.win with idx := s.win.idx + 1 } := rfl
@[simp] theorem State.nextIdx_mem (s : State) : s.nextIdx.mem = s.mem := rfl
@[simp] theorem State.nextIdx_fresh (s : State) : s.nextIdx.fresh = s.fresh := rfl
@[simp] theorem State.nextIdx_prescale (s : State) : s.nextIdx.prescale = s.prescale := rfl
@[simp] theorem State.nextIdx_pending (s : State) : s.nextIdx.pending = s.pending := rfl
@[simp] theorem State.chan_nextIdx (s : State) (ch : ChanId) : s.nextIdx.chan ch = s.chan ch := rfl

/-! ### Counters and flags of a channel -/

@[simp] theorem Chan.bump_admin (k : Ctr) (c : Chan) : (c.bump k).admin = c.admin := rfl
@[simp] theorem Chan.bump_cfg (k : Ctr) (c : Chan) : (c.bump k).cfg = c.cfg := rfl
@[simp] theorem Chan.bump_al (k : Ctr) (c : Chan) : (c.bump k).al = c.al := rfl
@[simp] theorem Chan.bump_mon (k : Ctr) (c : Chan) : (c.bump k).mon = c.mon := rfl
@[simp] theorem Chan.bump_del (k : Ctr) (c : Chan) : (c.bump k).del = c.del := rfl
@[simp] theorem Chan.bump_rq (k : Ctr) (c : Chan) : (c.bump k).rq = c.rq := rfl
@[simp] theorem Chan.bump_held (k : Ctr) (c : Chan) : (c.bump k).held = c.held := rfl
@[simp] theorem Chan.bump_fill (k : Ctr) (c : Chan) : (c.bump k).fill = c.fill := rfl
@[simp] theorem Chan.bump_tq (k : Ctr) (c : Chan) : (c.bump k).tq = c.tq := rfl
@[simp] theorem Chan.bump_nextTxseq (k : Ctr) (c : Chan) : (c.bump k).nextTxseq = c.nextTxseq := rfl
@[simp] theorem Chan.bump_fr (k : Ctr) (c : Chan) : (c.bump k).fr = c.fr := rfl
@[simp] theorem Chan.bump_snap (k : Ctr) (c : Chan) : (c.bump k).snap = c.snap := rfl
@[simp] theorem Chan.bump_flags (k : Ctr) (c : Chan) : (c.bump k).flags = c.flags := rfl
@[simp] theorem Chan.bump_mask (k : Ctr) (c : Chan) : (c.bump k).mask = c.mask := rfl
@[simp] theorem Chan.bump_rxHolding (k : Ctr) (c : Chan) : (c.bump k).rxHolding = c.rxHolding := rfl
@[simp] theorem Chan.bump_txHolding (k : Ctr) (c : Chan) : (c.bump k).txHolding = c.txHolding := rfl
@[simp] theorem Chan.bump_live (k : Ctr) (c : Chan) : (c.bump k).live = c.live.bump k := rfl

@[simp] theorem Chan.flagAlign_admin (c : Chan) : c.flagAlign.admin = c.admin := rfl
@[simp] theorem Chan.flagAlign_cfg (c : Chan) : c.flagAlign.cfg = c.cfg := rfl
@[simp] theorem Chan.flagAlign_al (c : Chan) : c.flagAlign.al = c.al := rfl
@[simp] theorem Chan.flagAlign_mon (c : Chan) : c.flagAlign.mon = c.mon := rfl
@[simp] theorem Chan.flagAlign_del (c : Chan) : c.flagAlign.del = c.del := rfl
@[simp] theorem Chan.flagAlign_rq (c : Chan) : c.flagAlign.rq = c.rq := rfl
@[simp] theorem Chan.flagAlign_held (c : Chan) : c.flagAlign.held = c.held := rfl
@[simp] theorem Chan.flagAlign_fill (c : Chan) : c.flagAlign.fill = c.fill := rfl
@[simp] theorem Chan.flagAlign_tq (c : Chan) : c.flagAlign.tq = c.tq := rfl
@[simp] theorem Chan.flagAlign_nextTxseq (c : Chan) : c.flagAlign.nextTxseq = c.nextTxseq := rfl
@[simp] theorem Chan.flagAlign_fr (c : Chan) : c.flagAlign.fr = c.fr := rfl
@[simp] theorem Chan.flagAlign_live (c : Chan) : c.flagAlign.live = c.live := rfl
@[simp] theorem Chan.flagAlign_snap (c : Chan) : c.flagAlign.snap = c.snap := rfl
@[simp] theorem Chan.flagAlign_flags (c : Chan) : c.flagAlign.flags = { c.flags with align := true } := rfl
@[simp] theorem Chan.flagAlign_mask (c : Chan) : c.flagAlign.mask = c.mask := rfl
@[simp] theorem Chan.flagAlign_rxHolding (c : Chan) : c.flagAlign.rxHolding = c.rxHolding := rfl
@[simp] theorem Chan.flagAlign_txHolding (c : Chan) : c.flagAlign.txHolding = c.txHolding := rfl

@[simp] theorem Chan.flagAlarm_admin (c : Chan) : c.flagAlarm.admin = c.admin := rfl
@[simp] theorem Chan.flagAlarm_cfg (c : Chan) : c.flagAlarm.cfg = c.cfg := rfl
@[simp] theorem Chan.flagAlarm_al (c : Chan) : c.flagAlarm.al = c.al := rfl
@[simp] theorem Chan.flagAlarm_mon (c : Chan) : c.flagAlarm.mon = c.mon := rfl
@[simp] theorem Chan.flagAlarm_del (c : Chan) : c.flagAlarm.del = c.del := rfl
@[simp] theorem Chan.flagAlarm_rq (c : Chan) : c.flagAlarm.rq = c.rq := rfl
@[simp] theorem Chan.flagAlarm_held (c : Chan) : c.flagAlarm.held = c.held := rfl
@[simp] theorem Chan.flagAlarm_fill (c : Chan) : c.flagAlarm.fill = c.fill := rfl
@[simp] theorem Chan.flagAlarm_tq (c : Chan) : c.flagAlarm.tq = c.tq := rfl
@[simp] theorem Chan.flagAlarm_nextTxseq (c : Chan) : c.flagAlarm.nextTxseq = c.nextTxseq := rfl
@[simp] theorem Chan.flagAlarm_fr (c : Chan) : c.flagAlarm.fr = c.fr := rfl
@[simp] theorem Chan.flagAlarm_live (c : Chan) : c.flagAlarm.live = c.live := rfl
@[simp] theorem Chan.flagAlarm_snap (c : Chan) : c.flagAlarm.snap = c.snap := rfl
@[simp] theorem Chan.flagAlarm_flags (c : Chan) : c.flagAlarm.flags = { c.flags with alarm := true } := rfl
@[simp] theorem Chan.flagAlarm_mask (c : Chan) : c.flagAlarm.mask = c.mask := rfl
@[simp] theorem Chan.flagAlarm_rxHolding (c : Chan) : c.flagAlarm.rxHolding = c.rxHolding := rfl
@[simp] theorem Chan.flagAlarm_txHolding (c : Chan) : c.flagAlarm.txHolding = c.txHolding := rfl

@[simp] theorem Chan.flagOhrec_admin (c : Chan) : c.flagOhrec.admin = c.admin := rfl
@[simp] theorem Chan.flagOhrec_cfg (c : Chan) : c.flagOhrec.cfg = c.cfg := rfl
@[simp] theorem Chan.flagOhrec_al (c : Chan) : c.flagOhrec.al = c.al := rfl
@[simp] theorem Chan.flagOhrec_mon (c : Chan) : c.flagOhrec.mon = c.mon := rfl
@[simp] theorem Chan.flagOhrec_del (c : Chan) : c.flagOhrec.del = c.del := rfl
@[simp] theorem Chan.flagOhrec_rq (c : Chan) : c.flagOhrec.rq = c.rq := rfl
@[simp] theorem Chan.flagOhrec_held (c : Chan) : c.flagOhrec.held = c.held := rfl
@[simp] theorem Chan.flagOhrec_fill (c : Chan) : c.flagOhrec.fill = c.fill := rfl
@[simp] theorem Chan.flagOhrec_tq (c : Chan) : c.flagOhrec.tq = c.tq := rfl
@[simp] theorem Chan.flagOhrec_nextTxseq (c : Chan) : c.flagOhrec.nextTxseq = c.nextTxseq := rfl
@[simp] theorem Chan.flagOhrec_fr (c : Chan) : c.flagOhrec.fr = c.fr := rfl
@[simp] theorem Chan.flagOhrec_live (c : Chan) : c.flagOhrec.live = c.live := rfl
@[simp] theorem Chan.flagOhrec_snap (c : Chan) : c.flagOhrec.snap = c.snap := rfl
@[simp] theorem Chan.flagOhrec_flags (c : Chan) : c.flagOhrec.flags = { c.flags with ohrec := true } := rfl
@[simp] theorem Chan.flagOhrec_mask (c : Chan) : c.flagOhrec.mask = c.mask := rfl
@[simp] theorem Chan.flagOhrec_rxHolding (c : Chan) : c.flagOhrec.rxHolding = c.rxHolding := rfl
@[simp] theorem Chan.flagOhrec_txHolding (c : Chan) : c.flagOhrec.txHolding = c.txHolding := rfl

@[simp] theorem Chan.flagRxdrop_admin (c : Chan) : c.flagRxdrop.admin = c.admin := rfl
@[simp] theorem Chan.flagRxdrop_cfg (c : Chan) : c.flagRxdrop.cfg = c.cfg := rfl
@[simp] theorem Chan.flagRxdrop_al (c : Chan) : c.flagRxdrop.al = c.al := rfl
@[simp] theorem Chan.flagRxdrop_mon (c : Chan) : c.flagRxdrop.mon = c.mon := rfl
@[simp] theorem Chan.flagRxdrop_del (c : Chan) : c.flagRxdrop.del = c.del := rfl
@[simp] theorem Chan.flagRxdrop_rq (c : Chan) : c.flagRxdrop.rq = c.rq := rfl
@[simp] theorem Chan.flagRxdrop_held (c : Chan) : c.flagRxdrop.held = c.held := rfl
@[simp] theorem Chan.flagRxdrop_fill (c : Chan) : c.flagRxdrop.fill = c.fill := rfl
@[simp] theorem Chan.flagRxdrop_tq (c : Chan) : c.flagRxdrop.tq = c.tq := rfl
@[simp] theorem Chan.flagRxdrop_nextTxseq (c : Chan) : c.flagRxdrop.nextTxseq = c.nextTxseq := rfl
@[simp] theorem Chan.flagRxdrop_fr (c : Chan) : c.flagRxdrop.fr = c.fr := rfl
@[simp] theorem Chan.flagRxdrop_live (c : Chan) : c.flagRxdrop.live = c.live := rfl
@[simp] theorem Chan.flagRxdrop_snap (c : Chan) : c.flagRxdrop.snap = c.snap := rfl
@[simp] theorem Chan.flagRxdrop_flags (c : Chan) : c.flagRxdrop.flags = { c.flags with rxdrop := true } := rfl
@[simp] theorem Chan.flagRxdrop_mask (c : Chan) : c.flagRxdrop.mask = c.mask := rfl
@[simp] theorem Chan.flagRxdrop_rxHolding (c : Chan) : c.flagRxdrop.rxHolding = c.rxHolding := rfl
@[simp] theorem Chan.flagRxdrop_txHolding (c : Chan) : c.flagRxdrop.txHolding = c.txHolding := rfl

@[simp] theorem Chan.flagRxq_admin (c : Chan) : c.flagRxq.admin = c.admin := rfl
@[simp] theorem Chan.flagRxq_cfg (c : Chan) : c.flagRxq.cfg = c.cfg := rfl
@[simp] theorem Chan.flagRxq_al (c : Chan) : c.flagRxq.al = c.al := rfl
@[simp] theorem Chan.flagRxq_mon (c : Chan) : c.flagRxq.mon = c.mon := rfl
@[simp] theorem Chan.flagRxq_del (c : Chan) : c.flagRxq.del = c.del := rfl
@[simp] theorem Chan.flagRxq_rq (c : Chan) : c.flagRxq.rq = c.rq := rfl
@[simp] theorem Chan.flagRxq_held (c : Chan) : c.flagRxq.held = c.held := rfl
@[simp] theorem Chan.flagRxq_fill (c : Chan) : c.flagRxq.fill = c.fill := rfl
@[simp] theorem Chan.flagRxq_tq (c : Chan) : c.flagRxq.tq = c.tq := rfl
@[simp] theorem Chan.flagRxq_nextTxseq (c : Chan) : c.flagRxq.nextTxseq = c.nextTxseq := rfl
@[simp] theorem Chan.flagRxq_fr (c : Chan) : c.flagRxq.fr = c.fr := rfl
@[simp] theorem Chan.flagRxq_live (c : Chan) : c.flagRxq.live = c.live := rfl
@[simp] theorem Chan.flagRxq_snap (c : Chan) : c.flagRxq.snap = c.snap := rfl
@[simp] theorem Chan.flagRxq_flags (c : Chan) : c.flagRxq.flags = { c.flags with rxq := true } := rfl
@[simp] theorem Chan.flagRxq_mask (c : Chan) : c.flagRxq.mask = c.mask := rfl
@[simp] theorem Chan.flagRxq_rxHolding (c : Chan) : c.flagRxq.rxHolding = c.rxHolding := rfl
@[simp] theorem Chan.flagRxq_txHolding (c : Chan) : c.flagRxq.txHolding = c.txHolding := rfl

@[simp] theorem Chan.flagTxdone_admin (c : Chan) : c.flagTxdone.admin = c.admin := rfl
@[simp] theorem Chan.flagTxdone_cfg (c : Chan) : c.flagTxdone.cfg = c.cfg := rfl
@[simp] theorem Chan.flagTxdone_al (c : Chan) : c.flagTxdone.al = c.al := rfl
@[simp] theorem Chan.flagTxdone_mon (c : Chan) : c.flagTxdone.mon = c.mon := rfl
@[simp] theorem Chan.flagTxdone_del (c : Chan) : c.flagTxdone.del = c.del := rfl
@[simp] theorem Chan.flagTxdone_rq (c : Chan) : c.flagTxdone.rq = c.rq := rfl
@[simp] theorem Chan.flagTxdone_held (c : Chan) : c.flagTxdone.held = c.held := rfl
@[simp] theorem Chan.flagTxdone_fill (c : Chan) : c.flagTxdone.fill = c.fill := rfl
@[simp] theorem Chan.flagTxdone_tq (c : Chan) : c.flagTxdone.tq = c.tq := rfl
@[simp] theorem Chan.flagTxdone_nextTxseq (c : Chan) : c.flagTxdone.nextTxseq = c.nextTxseq := rfl
@[simp] theorem Chan.flagTxdone_fr (c : Chan) : c.flagTxdone.fr = c.fr := rfl
@[simp] theorem Chan.flagTxdone_live (c : Chan) : c.flagTxdone.live = c.live := rfl
@[simp] theorem Chan.flagTxdone_snap (c : Chan) : c.flagTxdone.snap = c.snap := rfl
@[simp] theorem Chan.flagTxdone_flags (c : Chan) : c.flagTxdone.flags = { c.flags with txdone := true } := rfl
@[simp] theorem Chan.flagTxdone_mask (c : Chan) : c.flagTxdone.mask = c.mask := rfl
@[simp] theorem Chan.flagTxdone_rxHolding (c : Chan) : c.flagTxdone.rxHolding = c.rxHolding := rfl
@[simp] theorem Chan.flagTxdone_txHolding (c : Chan) : c.flagTxdone.txHolding = c.txHolding := rfl

/-! ### Holdings -/

@[simp] theorem Chan.setHolding_admin (d : Dir) (n : Nat) (c : Chan) :
    (c.setHolding d n).admin = c.admin := by cases d <;> rfl
@[simp] theorem Chan.setHolding_cfg (d : Dir) (n : Nat) (c : Chan) :
    (c.setHolding d n).cfg = c.cfg := by cases d <;> rfl
@[simp] theorem Chan.setHolding_al (d : Dir) (n : Nat) (c : Chan) : (c.setHolding d n).al = c.al := by cases d <;> rfl
@[simp] theorem Chan.setHolding_mon (d : Dir) (n : Nat) (c : Chan) :
    (c.setHolding d n).mon = c.mon := by cases d <;> rfl
@[simp] theorem Chan.setHolding_del (d : Dir) (n : Nat) (c : Chan) :
    (c.setHolding d n).del = c.del := by cases d <;> rfl
@[simp] theorem Chan.setHolding_rq (d : Dir) (n : Nat) (c : Chan) : (c.setHolding d n).rq = c.rq := by cases d <;> rfl
@[simp] theorem Chan.setHolding_held (d : Dir) (n : Nat) (c : Chan) :
    (c.setHolding d n).held = c.held := by cases d <;> rfl
@[simp] theorem Chan.setHolding_fill (d : Dir) (n : Nat) (c : Chan) :
    (c.setHolding d n).fill = c.fill := by cases d <;> rfl
@[simp] theorem Chan.setHolding_tq (d : Dir) (n : Nat) (c : Chan) : (c.setHolding d n).tq = c.tq := by cases d <;> rfl
@[simp] theorem Chan.setHolding_nextTxseq (d : Dir) (n : Nat) (c : Chan) :
    (c.setHolding d n).nextTxseq = c.nextTxseq := by cases d <;> rfl
@[simp] theorem Chan.setHolding_fr (d : Dir) (n : Nat) (c : Chan) : (c.setHolding d n).fr = c.fr := by cases d <;> rfl
@[simp] theorem Chan.setHolding_live (d : Dir) (n : Nat) (c : Chan) :
    (c.setHolding d n).live = c.live := by cases d <;> rfl
@[simp] theorem Chan.setHolding_snap (d : Dir) (n : Nat) (c : Chan) :
    (c.setHolding d n).snap = c.snap := by cases d <;> rfl
@[simp] theorem Chan.setHolding_flags (d : Dir) (n : Nat) (c : Chan) :
    (c.setHolding d n).flags = c.flags := by cases d <;> rfl
@[simp] theorem Chan.setHolding_mask (d : Dir) (n : Nat) (c : Chan) :
    (c.setHolding d n).mask = c.mask := by cases d <;> rfl
@[simp] theorem Chan.setHolding_rx (n : Nat) (c : Chan) : c.setHolding .rx n = { c with rxHolding := n } := rfl
@[simp] theorem Chan.setHolding_tx (n : Nat) (c : Chan) : c.setHolding .tx n = { c with txHolding := n } := rfl

/-! ### Lanes -/

@[simp] theorem Lane.mapChan_c (f : Chan → Chan) (l : Lane) : (l.mapChan f).c = f l.c := rfl
@[simp] theorem Lane.mapChan_pool (f : Chan → Chan) (l : Lane) : (l.mapChan f).pool = l.pool := rfl
@[simp] theorem Lane.mapChan_mem (f : Chan → Chan) (l : Lane) : (l.mapChan f).mem = l.mem := rfl
@[simp] theorem Lane.mapChan_gf (f : Chan → Chan) (l : Lane) : (l.mapChan f).gf = l.gf := rfl
@[simp] theorem Lane.returnChain_c (d : Dir) (chain : List CellNo) (l : Lane) :
    (l.returnChain d chain).c = l.c.setHolding d (l.c.holding d - chain.length) := rfl
@[simp] theorem Lane.returnChain_mem (d : Dir) (chain : List CellNo) (l : Lane) :
    (l.returnChain d chain).mem = l.mem := rfl
@[simp] theorem Lane.returnChain_gf (d : Dir) (chain : List CellNo) (l : Lane) :
    (l.returnChain d chain).gf = l.gf := rfl
@[simp] theorem Lane.returnChain_pool (d : Dir) (chain : List CellNo) (l : Lane) :
    (l.returnChain d chain).pool = { l.pool with free := l.pool.free ++ chain } := rfl
@[simp] theorem Lane.grant_c (thr : Word) (d : Dir) (n : Nat) (l : Lane) :
    (l.grant thr d n).c = l.c.setHolding d (l.c.holding d + n) := rfl
@[simp] theorem Lane.grant_mem (thr : Word) (d : Dir) (n : Nat) (l : Lane) : (l.grant thr d n).mem = l.mem := rfl
@[simp] theorem Lane.grant_pool (thr : Word) (d : Dir) (n : Nat) (l : Lane) :
    (l.grant thr d n).pool = { l.pool with free := l.pool.free.drop n } := rfl

end Sys2Proof.Machine
end

