-- ==== Sys2Proof/Laws/Bus.lean ====
section
/-! SUPPORT. What an access of the bus window comes to once it is known to be taken, word by word and command by command. -/

namespace Sys2Proof.Machine

open Sys2Proof

/-! ### Words and bytes -/

theorem mkWord_getLsbD (hi lo : Byte) (i : Nat) :
    (mkWord hi lo).getLsbD i = if i < 8 then lo.getLsbD i else hi.getLsbD (i - 8) := by
  show (hi ++ lo : BitVec (8 + 8)).getLsbD i = _
  rw [BitVec.getLsbD_append]

@[simp] theorem lowByte_mkWord (hi lo : Byte) : lowByte (mkWord hi lo) = lo := by
  apply BitVec.eq_of_getLsbD_eq
  intro i h
  simp [lowByte, mkWord_getLsbD, h]

@[simp] theorem highByte_mkWord (hi lo : Byte) : highByte (mkWord hi lo) = hi := by
  apply BitVec.eq_of_getLsbD_eq
  intro i h
  simp [highByte, mkWord_getLsbD, h]

theorem mkWord_high_low (w : Word) : mkWord (highByte w) (lowByte w) = w := by
  apply BitVec.eq_of_getLsbD_eq
  intro i h
  rw [mkWord_getLsbD]
  by_cases h8 : i < 8
  · simp [h8, lowByte]
  · have h1 : i - 8 < 8 := by omega
    have h2 : 8 + (i - 8) = i := by omega
    simp [h8, highByte, h1, h2]

/-! ### Accesses taken -/

theorem State.acked_eq (s : State) : s.acked = s.answered .released := rfl

theorem State.committed_of_carries {s : State} {d v : Word} (hc : s.carries d v) : s.win.committed d = v := by
  unfold Window.committed
  rcases hc with ⟨hw, hv⟩ | ⟨hw, hv⟩ <;> simp [hw, hv]

/-- A committing write of any word but TXDATA writes the carried word and is answered. -/
theorem State.writeAccess_of_carries {s : State} {word : WordNo} {d v : Word} (ht : s.taking) (hw : word ≠ 13)
    (hc : s.carries d v) : s.writeAccess word d = (s.writeWord word v).acked := by
  have h0 : s.win.inReset = false := ht
  simp [State.writeAccess, h0, hw, State.committed_of_carries hc, State.acked_eq]

/-- While -RESET is asserted a write access is not taken. -/
theorem State.writeAccess_inReset {s : State} (word : WordNo) (d : Word) (h : s.win.inReset = true) :
    s.writeAccess word d = s.notTaken := by
  simp [State.writeAccess, h]

theorem State.readAccess_inReset {s : State} (word : WordNo) (odd : Bool) (h : s.win.inReset = true) :
    s.readAccess word odd = s.notTaken := by
  simp [State.readAccess, h]

theorem State.evenWriteAccess_inReset {s : State} (word : WordNo) (d : Word) (h : s.win.inReset = true) :
    s.evenWriteAccess word d = s.notTaken := by
  simp [State.evenWriteAccess, h]

/-- A 16-bit read drives the whole word read. -/
theorem State.readAccess_word {s : State} (word : WordNo) (odd : Bool) (ht : s.taking) (hw : s.win.width16 = true) :
    s.readAccess word odd = (s.readWord word).2.answered (.all (s.readWord word).1) := by
  have h0 : s.win.inReset = false := ht
  simp [State.readAccess, h0, hw]

/-! ### CMD writes -/

/-- A CMD write that carries a code writes it, whatever stands above it. -/
theorem State.cmdAccess_of_carriesCode {s : State} {code : Byte} (hi : Byte) (ht : s.taking) (hc : s.carriesCode code) :
    s.cmdAccess code hi = (s.cmdWrite code).acked := by
  have h0 : s.win.inReset = false := ht
  rcases hc with hw | hl
  · simp [State.cmdAccess, State.writeAccess, h0, hw, Window.cmdLines, Window.committed, State.writeWord, State.acked_eq]
  · by_cases hw : s.win.width16
    · simp [State.cmdAccess, State.writeAccess, h0, hw, Window.cmdLines, Window.committed, State.writeWord, State.acked_eq]
    · simp [State.cmdAccess, State.writeAccess, h0, hw, hl, Window.committed, State.writeWord, State.acked_eq]

/-- Every CMD row is a CMD write of some code. -/
theorem State.cmdAccess_cases (s : State) (code hi : Byte) (ht : s.taking) :
    ∃ code', s.cmdAccess code hi = (s.cmdWrite code').acked := by
  have h0 : s.win.inReset = false := ht
  exact ⟨lowByte (s.win.committed (s.win.cmdLines code hi)), by simp [State.cmdAccess, State.writeAccess, h0, State.writeWord, State.acked_eq]⟩

theorem State.cmdWrite_busy {s : State} (code : Byte) (h : s.pool.state = .init) : s.cmdWrite code = s.answer .busy := by
  simp [State.cmdWrite, h]

theorem State.cmdWrite_pending {s : State} (code : Byte) (hp : s.pool.state = .ready) (h : s.cu.pending ≠ none) :
    s.cmdWrite code = { s with gflags := s.gflags.withCmdlost } := by
  have : s.cu.pending.isSome := Option.isSome_iff_ne_none.mpr h
  simp [State.cmdWrite, hp, this]

/-- A known command that passes the tests is taken. -/
theorem State.cmdAccess_taken {s : State} {code : Byte} (hi : Byte) (k : Cmd) (h : s.takesCmd code) (hk : Cmd.ofCode code = some k) :
    s.cmdAccess code hi = (s.take k).acked := by
  obtain ⟨ht, hp, hu, hc⟩ := h
  rw [State.cmdAccess_of_carriesCode hi ht hc]
  simp [State.cmdWrite, hp, hu, hk]

theorem Cmd.ofCode_code (k : Cmd) : Cmd.ofCode k.code = some k := by cases k <;> rfl

/-- A code that names no command is none of Table 25's. -/
theorem Cmd.ofCode_eq_none {code : Byte} (h : commandCodes.contains code = false) : Cmd.ofCode code = none := by
  revert code
  decide

end Sys2Proof.Machine
end

