-- ==== Sys2Proof/Laws/Lanes.lean ====
section
/-! SUPPORT. What the operations shared by the blocks of a channel can do, each said once: a record due, the abort of a packet in assembly, a
departure from LOCKED. -/

namespace Sys2Proof.Machine

open Sys2Proof

/-! ### Events of a channel -/

/-- An event of a lane that touches its channel alone is a change of the channel. -/
theorem State.onLane_mapChan (s : State) (ch : ChanId) (f : Chan → Chan) :
    s.onLane ch (Lane.mapChan f) = s.setChan ch (f (s.chan ch)) := rfl

/-- What an event of one lane leaves alone. -/
theorem State.onLane_othersKept (s : State) (ch : ChanId) (f : Lane → Lane) : s.othersKept ch (s.onLane ch f) :=
  ⟨fun _ h => State.chan_setLane_ne s _ h, rfl, rfl, rfl, rfl, rfl, rfl, rfl⟩

/-! ### Counters -/

theorem countUp_toNat (n : BitVec 24) : (countUp n).toNat = min 16777215 (n.toNat + 1) := by
  unfold countUp
  split
  · rename_i h; subst h; rfl
  · rename_i h
    have : n.toNat ≠ 16777215 := fun h' => h (BitVec.eq_of_toNat_eq h')
    have := n.isLt
    rw [BitVec.toNat_add]
    simp
    omega

@[simp] theorem Counters.get_bump_self (c : Counters) (k : Ctr) : (c.bump k).get k = countUp (c.get k) := by cases k <;> rfl

theorem Counters.get_bump_ne (c : Counters) {k j : Ctr} (h : j ≠ k) : (c.bump k).get j = c.get j := by
  cases k <;> cases j <;> first | rfl | exact absurd rfl h

/-! ### Records -/

/-- A record due changes of the channel its monitor, its flags and its live counters only. -/
theorem Chan.recordDue_kept (k : Causes) (v : Byte) (l : Bool) (c : Chan) :
    c.recordDue k v l = { c with
      mon := (c.recordDue k v l).mon, flags := (c.recordDue k v l).flags, live := (c.recordDue k v l).live } := by
  unfold Chan.recordDue
  split <;> rfl

/-- Of the monitor it changes the ring, the next SEQ and the pending-lost count only. -/
theorem Chan.recordDue_mon (k : Causes) (v : Byte) (l : Bool) (c : Chan) :
    (c.recordDue k v l).mon = { c.mon with
      ring := (c.recordDue k v l).mon.ring, nextSeq := (c.recordDue k v l).mon.nextSeq
      pendingLost := (c.recordDue k v l).mon.pendingLost } := by
  unfold Chan.recordDue
  split <;> rfl

/-- Of the flags it changes OHREC only. -/
theorem Chan.recordDue_flags (k : Causes) (v : Byte) (l : Bool) (c : Chan) :
    (c.recordDue k v l).flags = { c.flags with ohrec := (c.recordDue k v l).flags.ohrec } := by
  unfold Chan.recordDue
  split <;> rfl

/-- Of the counters it changes OHLOST only. -/
theorem Chan.recordDue_live (k : Causes) (v : Byte) (l : Bool) (c : Chan) :
    (c.recordDue k v l).live = { c.live with ohlost := (c.recordDue k v l).live.ohlost } := by
  unfold Chan.recordDue
  split <;> rfl

/-- R49 of a record due: it is stored at the ring's tail, or counted as lost. -/
theorem Chan.recordDue_outcome (k : Causes) (v : Byte) (l : Bool) (c : Chan) :
    c.recordOutcome (c.mon.record k v l) (c.recordDue k v l) := by
  unfold Chan.recordOutcome Chan.recordDue
  split
  · exact ⟨rfl, rfl, rfl, rfl, rfl, rfl, rfl⟩
  · refine ⟨rfl, rfl, ?_, rfl, rfl⟩
    show (if c.mon.pendingLost = 255 then (255 : Byte) else c.mon.pendingLost + 1).toNat = _
    split
    · rename_i h; rw [h]; rfl
    · rename_i h
      have : c.mon.pendingLost.toNat ≠ 255 := fun h' => h (BitVec.eq_of_toNat_eq h')
      have := c.mon.pendingLost.isLt
      rw [BitVec.toNat_add]
      simp
      omega

/-- The outcome of a record depends only on the ring, the numbering, OHREC and OHLOST. -/
theorem Chan.recordOutcome_congr {r : OhRecord} {c c' d d' : Chan} (h : c.recordOutcome r d)
    (hc : c'.mon.ring = c.mon.ring ∧ c'.mon.nextSeq = c.mon.nextSeq ∧ c'.mon.pendingLost = c.mon.pendingLost
      ∧ c'.flags.ohrec = c.flags.ohrec ∧ c'.live.ohlost = c.live.ohlost)
    (hd : d'.mon.ring = d.mon.ring ∧ d'.mon.nextSeq = d.mon.nextSeq ∧ d'.mon.pendingLost = d.mon.pendingLost
      ∧ d'.flags.ohrec = d.flags.ohrec ∧ d'.live.ohlost = d.live.ohlost) : c'.recordOutcome r d' := by
  unfold Chan.recordOutcome at *
  obtain ⟨c1, c2, c3, c4, c5⟩ := hc
  obtain ⟨d1, d2, d3, d4, d5⟩ := hd
  rw [c1, c2, c3, c4, c5, d1, d2, d3, d4, d5]
  exact h

/-! ### Aborts -/

/-- An abort changes of the channel its assembly, RXABORT, RXDROP and the receive holding only. -/
theorem Lane.abortAssembly_kept (l : Lane) :
    l.abortAssembly = { l with
      pool := l.abortAssembly.pool
      c := { l.c with
        del := { l.c.del with assembly := none }, rxHolding := l.abortAssembly.c.rxHolding
        live := { l.c.live with rxabort := l.abortAssembly.c.live.rxabort }
        flags := { l.c.flags with rxdrop := l.abortAssembly.c.flags.rxdrop } } } := by
  unfold Lane.abortAssembly
  split
  · rename_i h
    have : ({ l.c.del with assembly := none } : Delin) = l.c.del := by rw [← h]
    rw [this]
  · rfl

/-- R70 of an abort. -/
theorem Lane.abortAssembly_outcome (l : Lane) : l.c.abortOutcome l.abortAssembly.c l.pool l.abortAssembly.pool := by
  unfold Chan.abortOutcome Lane.abortAssembly
  cases h : l.c.del.assembly with
  | none => exact ⟨rfl, rfl, rfl, rfl⟩
  | some a => exact ⟨rfl, rfl, rfl, rfl⟩

/-- The outcome of an abort depends only on the assembly, the receive holding, RXABORT and RXDROP. -/
theorem Chan.abortOutcome_congr {c c' d d' : Chan} {p q : Pool} (h : c.abortOutcome d p q)
    (hc : c'.del.assembly = c.del.assembly ∧ c'.rxHolding = c.rxHolding ∧ c'.live.rxabort = c.live.rxabort
      ∧ c'.flags.rxdrop = c.flags.rxdrop)
    (hd : d'.rxHolding = d.rxHolding ∧ d'.live.rxabort = d.live.rxabort ∧ d'.flags.rxdrop = d.flags.rxdrop) :
    c'.abortOutcome d' p q := by
  unfold Chan.abortOutcome at *
  obtain ⟨c1, c2, c3, c4⟩ := hc
  obtain ⟨d1, d2, d3⟩ := hd
  rw [c1, c2, c3, c4, d1, d2, d3]
  exact h

/-! ### The delineator put in HOLD -/

theorem Lane.delinHold_of_hold {l : Lane} (h : l.c.del.state = .hold) : l.delinHold = l := if_pos h

theorem Lane.delinHold_of_parsing {l : Lane} (h : l.c.del.state ≠ .hold) :
    l.delinHold = l.abortAssembly.mapChan fun c => { c with del := c.del.enter .hold } := if_neg h

/-- Out of HOLD the parse is given up. -/
theorem Lane.delinHold_del {l : Lane} (h : l.c.del.state ≠ .hold) : l.delinHold.c.del = l.c.del.givenUp .hold := by
  rw [Lane.delinHold_of_parsing h, Lane.abortAssembly_kept]
  rfl

/-- R71: the delineator put in HOLD changes of the lane the pool and, of the channel, the delineator, the receive holding, RXABORT and
RXDROP only. -/
theorem Lane.delinHold_kept (l : Lane) :
    l.delinHold = { l with
      pool := l.delinHold.pool
      c := { l.c with
        del := l.delinHold.c.del, rxHolding := l.delinHold.c.rxHolding
        live := { l.c.live with rxabort := l.delinHold.c.live.rxabort }
        flags := { l.c.flags with rxdrop := l.delinHold.c.flags.rxdrop } } } := by
  by_cases h : l.c.del.state = .hold
  · rw [Lane.delinHold_of_hold h]
  · rw [Lane.delinHold_of_parsing h, Lane.abortAssembly_kept]
    rfl

/-- R70 and R71: out of HOLD the packet in assembly is aborted. -/
theorem Lane.delinHold_outcome {l : Lane} (h : l.c.del.state ≠ .hold) : l.c.abortOutcome l.delinHold.c l.pool l.delinHold.pool := by
  rw [Lane.delinHold_of_parsing h]
  exact l.abortAssembly_outcome

/-! ### Departures from LOCKED -/

/-- The monitor told of a departure changes of the channel itself, its flags and its counters only. -/
theorem Chan.monitorLeave_kept (c : Chan) :
    c.monitorLeave = { c with mon := c.monitorLeave.mon, flags := c.monitorLeave.flags, live := c.monitorLeave.live } := by
  unfold Chan.monitorLeave Chan.recordDue
  dsimp only
  split <;> split <;> rfl

/-- R45: the monitor told of a departure. -/
theorem Chan.monitorLeave_mon (c : Chan) :
    c.monitorLeave.mon = { c.mon with
      mode := .waiting, runXor := 0, stat := {}, label := {}, conds := {}, winFrames := 0, winMismatches := 0
      entryFill := false, entrySeq := none
      ring := c.monitorLeave.mon.ring, nextSeq := c.monitorLeave.mon.nextSeq
      pendingLost := c.monitorLeave.mon.pendingLost } := by
  unfold Chan.monitorLeave Chan.recordDue
  dsimp only
  split <;> split <;> rfl

theorem Chan.monitorLeave_flags (c : Chan) :
    c.monitorLeave.flags = { c.flags with
      ohrec := c.monitorLeave.flags.ohrec, alarm := c.flags.alarm || c.mon.conds.any } := by
  unfold Chan.monitorLeave Chan.recordDue
  dsimp only
  split <;> rename_i h <;> split <;> simp [h, Chan.flagAlarm, Chan.flagOhrec, Chan.bump]

theorem Chan.monitorLeave_live (c : Chan) :
    c.monitorLeave.live = { c.live with ohlost := c.monitorLeave.live.ohlost } := by
  unfold Chan.monitorLeave Chan.recordDue
  dsimp only
  split <;> split <;> rfl

theorem Chan.monitorLeave_outcome (c : Chan) : c.recordOutcome c.mon.departureRecord c.monitorLeave := by
  have key (c' : Chan) : c'.recordOutcome (c'.mon.record { align := true } c'.mon.frameFcnt false)
      (c'.recordDue { align := true } c'.mon.frameFcnt false) := Chan.recordDue_outcome ..
  have h := key { c with mon := { c.mon with
    mode := .waiting, runXor := 0, stat := {}, label := {}, conds := {}
    winFrames := 0, winMismatches := 0, entryFill := false, entrySeq := none } }
  refine Chan.recordOutcome_congr h ⟨rfl, rfl, rfl, rfl, rfl⟩ ?_
  unfold Chan.monitorLeave
  dsimp only
  split <;> exact ⟨rfl, rfl, rfl, rfl, rfl⟩

/-- LOCKED left: what it does to the channel and the pool (R24, R29, R45, R71). -/
theorem Lane.leaveLocked_departs (l : Lane) : l.c.DepartsLocked false l.leaveLocked.c l.pool l.leaveLocked.pool := by
  have hk := Lane.delinHold_kept (l.mapChan fun c => c.flagAlign.monitorLeave)
  have ho := @Lane.delinHold_outcome (l.mapChan fun c => c.flagAlign.monitorLeave)
  have hd := @Lane.delinHold_del (l.mapChan fun c => c.flagAlign.monitorLeave)
  have hh := @Lane.delinHold_of_hold (l.mapChan fun c => c.flagAlign.monitorLeave)
  have mk := l.c.flagAlign.monitorLeave_kept
  have mm := l.c.flagAlign.monitorLeave_mon
  have mf := l.c.flagAlign.monitorLeave_flags
  have ml := l.c.flagAlign.monitorLeave_live
  have mo := l.c.flagAlign.monitorLeave_outcome
  change l.leaveLocked = _ at hk
  have e1 : (l.mapChan fun c => c.flagAlign.monitorLeave).c = l.c.flagAlign.monitorLeave := rfl
  have edel : l.c.flagAlign.monitorLeave.del = l.c.del := by rw [mk]; rfl
  have erx : l.c.flagAlign.monitorLeave.rxHolding = l.c.rxHolding := by rw [mk]; rfl
  have ec (k : Ctr) (h : k ≠ .ohlost) : l.c.flagAlign.monitorLeave.live.get k = l.c.live.get k := by
    rw [ml]; cases k <;> first | rfl | exact absurd rfl h
  have erxa : l.c.flagAlign.monitorLeave.live.rxabort = l.c.live.rxabort := by rw [ml]; rfl
  have erxd : l.c.flagAlign.monitorLeave.flags.rxdrop = l.c.flags.rxdrop := by rw [mf]; rfl
  constructor
  · rw [hk]; show l.c.flagAlign.monitorLeave.flags.align = true; rw [mf]; rfl
  · rw [hk]
    show l.c.flagAlign.monitorLeave.mon.mode = _ ∧ l.c.flagAlign.monitorLeave.mon.stat = _ ∧ l.c.flagAlign.monitorLeave.mon.label = _
      ∧ l.c.flagAlign.monitorLeave.mon.conds = _ ∧ l.c.flagAlign.monitorLeave.mon.winFrames = _
      ∧ l.c.flagAlign.monitorLeave.mon.winMismatches = _ ∧ l.c.flagAlign.monitorLeave.mon.runXor = _
      ∧ l.c.flagAlign.monitorLeave.mon.entryFill = _
    rw [mm]; exact ⟨rfl, rfl, rfl, rfl, rfl, rfl, rfl, rfl⟩
  · rw [hk]
    show l.c.flagAlign.monitorLeave.mon.lastFcnt = _ ∧ l.c.flagAlign.monitorLeave.mon.frameFcnt = _
      ∧ l.c.flagAlign.monitorLeave.mon.prevXor = _
    rw [mm]; exact ⟨rfl, rfl, rfl⟩
  · refine Chan.recordOutcome_congr mo ⟨rfl, rfl, rfl, rfl, rfl⟩ ?_
    rw [hk]; exact ⟨rfl, rfl, rfl, rfl, rfl⟩
  · rw [hk]; show l.c.flagAlign.monitorLeave.flags.alarm = _; rw [mf]; rfl
  · intro h
    have hs : l.leaveLocked = _ := hh (edel.symm ▸ h)
    rw [hs]
    exact ⟨edel, rfl, erx, erxa, erxd⟩
  · intro h
    have h' : (l.mapChan fun c => c.flagAlign.monitorLeave).c.del.state ≠ .hold := by rw [e1, edel]; exact h
    refine ⟨?_, ?_⟩
    · have := hd h'
      rw [e1, edel] at this
      exact this
    · refine Chan.abortOutcome_congr (ho h') ?_ ⟨rfl, rfl, rfl⟩
      rw [e1, edel]
      exact ⟨rfl, erx.symm, erxa.symm, erxd.symm⟩
  · rw [hk]; exact ec .alignloss (by decide)
  · intro k h1 h2 h3
    rw [← ec k h3, hk]
    cases k <;> first | rfl | exact absurd rfl h2
  · rw [hk]
    show l.c.flagAlign.monitorLeave.flags.rxq = _ ∧ l.c.flagAlign.monitorLeave.flags.txdone = _
    rw [mf]; exact ⟨rfl, rfl⟩
  · rw [hk]
    show l.c.flagAlign.monitorLeave.cfg = _ ∧ l.c.flagAlign.monitorLeave.rq = _ ∧ l.c.flagAlign.monitorLeave.held = _
      ∧ l.c.flagAlign.monitorLeave.fill = _ ∧ l.c.flagAlign.monitorLeave.tq = _ ∧ l.c.flagAlign.monitorLeave.nextTxseq = _
      ∧ l.c.flagAlign.monitorLeave.snap = _ ∧ l.c.flagAlign.monitorLeave.mask = _ ∧ l.c.flagAlign.monitorLeave.txHolding = _
    rw [mk]; exact ⟨rfl, rfl, rfl, rfl, rfl, rfl, rfl, rfl, rfl⟩

/-- What the departure does not touch: the aligner, the admin state, the framer, packet memory, the global flags. -/
theorem Lane.leaveLocked_kept (l : Lane) :
    l.leaveLocked.c.al = l.c.al ∧ l.leaveLocked.c.admin = l.c.admin ∧ l.leaveLocked.c.fr = l.c.fr
      ∧ l.leaveLocked.mem = l.mem ∧ l.leaveLocked.gf = l.gf := by
  have hk := Lane.delinHold_kept (l.mapChan fun c => c.flagAlign.monitorLeave)
  have mk := l.c.flagAlign.monitorLeave_kept
  change l.leaveLocked = _ at hk
  rw [hk]
  show l.c.flagAlign.monitorLeave.al = _ ∧ l.c.flagAlign.monitorLeave.admin = _ ∧ l.c.flagAlign.monitorLeave.fr = _ ∧ _
  rw [mk]
  exact ⟨rfl, rfl, rfl, rfl, rfl⟩

/-- R24: alignment loss departs from LOCKED with ALIGNLOSS counted. -/
theorem Lane.loseAlignment_departs (l : Lane) : l.c.DepartsLocked true l.loseAlignment.c l.pool l.loseAlignment.pool := by
  obtain ⟨h1, h2, h3, h4, h5, h6, h7, h8, h9, h10, h11⟩ := Lane.leaveLocked_departs (l.mapChan (Chan.bump .alignloss))
  exact ⟨h1, h2, h3, h4, h5, h6, fun h => ⟨(h7 h).1, Chan.abortOutcome_congr (h7 h).2 ⟨rfl, rfl, rfl, rfl⟩ ⟨rfl, rfl, rfl⟩⟩, h8,
    fun k a b c => (h9 k a b c).trans (Counters.get_bump_ne _ a), h10, h11⟩

end Sys2Proof.Machine
end

