-- ==== Sys2Proof/Laws/Delineator.lean ====
section
/-! SUPPORT. What the delineator's operations come to: an FBO evaluated in SEEK, an FBO compared with a prediction, a claim for an accepted
header. -/

namespace Sys2Proof.Machine

open Sys2Proof

/-! ### An FBO in SEEK (R57) -/

theorem Chan.seekEvaluate_taken {c : Chan} {counting pos0Passed : Bool} (h : c.del.latchedFbo.toNat < c.payloadLen)
    (h0 : pos0Passed = false ∨ c.del.latchedFbo.toNat ≠ 0) :
    c.seekEvaluate counting pos0Passed =
      { c with del := { c.del.enter .header with startPos := some c.del.latchedFbo.toNat } } := by
  unfold Chan.seekEvaluate
  dsimp only
  rw [if_pos h, if_neg]
  rcases h0 with h0 | h0 <;> simp [h0]

theorem Chan.seekEvaluate_passed {c : Chan} {counting : Bool} (h : c.del.latchedFbo.toNat < c.payloadLen)
    (h0 : c.del.latchedFbo.toNat = 0) : c.seekEvaluate counting true = c := by
  unfold Chan.seekEvaluate
  dsimp only
  rw [if_pos h, if_pos (by simp [h0])]

theorem Chan.seekEvaluate_none {c : Chan} {counting pos0Passed : Bool} (h : c.payloadLen ≤ c.del.latchedFbo.toNat)
    (h0 : c.del.latchedFbo = 0xFFFF) : c.seekEvaluate counting pos0Passed = c := by
  unfold Chan.seekEvaluate
  dsimp only
  rw [if_neg (by omega), if_pos (by rw [h0]; rfl)]

theorem Chan.seekEvaluate_miss {c : Chan} {counting pos0Passed : Bool} (h : c.payloadLen ≤ c.del.latchedFbo.toNat)
    (h0 : c.del.latchedFbo ≠ 0xFFFF) :
    c.seekEvaluate counting pos0Passed = if counting then c.bump .offmiss else c := by
  unfold Chan.seekEvaluate
  dsimp only
  have hw : ¬c.del.latchedFbo.toNat = 0xFFFF := fun h => h0 (BitVec.eq_of_toNat_eq h)
  rw [if_neg (by omega), if_neg hw]

/-- Without counting, SEEK stays or enters HEADER, and nothing else of the channel changes. -/
theorem Chan.seekEvaluate_uncounted (c : Chan) (pos0Passed : Bool) :
    c.seekEvaluate false pos0Passed = { c with del := (c.seekEvaluate false pos0Passed).del } := by
  unfold Chan.seekEvaluate
  dsimp only
  split_ifs <;> first | rfl | contradiction

/-! ### An FBO against a prediction (R60 to R62) -/

theorem fboAgrees_predictAfter {fbo : Word} {p : Nat} (r : Nat) :
    fboAgrees fbo.toNat (predictAfter p r) = true ↔ (r < p ∧ fbo.toNat = r) ∨ (p ≤ r ∧ fbo = 0xFFFF) := by
  unfold predictAfter fboAgrees
  have hw : fbo.toNat = 0xFFFF ↔ fbo = 0xFFFF := ⟨fun h => BitVec.eq_of_toNat_eq h, fun h => by rw [h]; rfl⟩
  by_cases h : r < p
  · rw [if_pos h]
    simp only [beq_iff_eq]
    constructor
    · exact fun e => Or.inl ⟨h, e⟩
    · rintro (⟨-, e⟩ | ⟨e, -⟩)
      · exact e
      · omega
  · rw [if_neg h]
    simp only [beq_iff_eq]
    rw [hw]
    constructor
    · exact fun e => Or.inr ⟨by omega, e⟩
    · rintro (⟨e, -⟩ | ⟨-, e⟩)
      · omega
      · exact e

theorem Lane.offsetCompare_agrees {l : Lane} {p : Option Nat} {q : Bool} (h : fboAgrees l.c.del.latchedFbo.toNat p = true) :
    l.offsetCompare p q = (l.mapChan fun c => { c with del := { c.del with mismatch := 0 } }, true) := by
  unfold Lane.offsetCompare
  rw [if_pos h]

theorem Lane.offsetCompare_first {l : Lane} {p : Option Nat} {q : Bool} (h : ¬fboAgrees l.c.del.latchedFbo.toNat p = true)
    (hm : l.c.del.mismatch + 1 < 2) :
    l.offsetCompare p q = ((l.mapChan (Chan.bump .offmiss)).mapChan fun c =>
      { c with del := { c.del with mismatch := c.del.mismatch + 1 } }, true) := by
  unfold Lane.offsetCompare
  rw [if_neg h]
  dsimp only
  rw [if_pos hm]

theorem Lane.offsetCompare_second {l : Lane} {p : Option Nat} {q : Bool} (h : ¬fboAgrees l.c.del.latchedFbo.toNat p = true)
    (hm : ¬l.c.del.mismatch + 1 < 2) :
    l.offsetCompare p q = ((l.mapChan (Chan.bump .offmiss)).abortAssembly.mapChan fun c =>
      { c with del := c.del.enter .seek }.seekEvaluate false q, false) := by
  unfold Lane.offsetCompare
  rw [if_neg h]
  dsimp only
  rw [if_neg hm]

/-- The check at the offset point in mid-block. -/
theorem Lane.offsetCheck_midBlock {l : Lane} (h : l.c.del.state = .body ∨ l.c.del.state = .skip) :
    l.offsetCheck = (l.offsetCompare (predictAfter l.c.payloadLen l.c.del.remaining) false).1 := by
  unfold Lane.offsetCheck
  rcases h with h | h <;> rw [h]

/-- The check at the offset point with no header byte collected. -/
theorem Lane.offsetCheck_header {l : Lane} (h : l.c.del.state = .header) (hb : l.c.del.headerByte = none) :
    l.offsetCheck = (l.offsetCompare (some 0) false).1 := by
  unfold Lane.offsetCheck
  rw [h]
  dsimp only
  rw [hb]

/-- With one header byte collected the check is deferred. -/
theorem Lane.offsetCheck_deferred {l : Lane} (h : l.c.del.state = .header) (hb : l.c.del.headerByte ≠ none) : l.offsetCheck = l := by
  obtain ⟨y, hy⟩ := Option.ne_none_iff_exists'.mp hb
  unfold Lane.offsetCheck
  rw [h]
  dsimp only
  rw [hy]

/-! ### Claims -/

/-- R85, the test of a claim. -/
theorem Lane.canClaim_iff (d : Dir) (n : Nat) (l : Lane) :
    l.canClaim d n = true ↔ l.pool.state = .ready ∧ n ≤ l.pool.free.length ∧ l.c.holding d + n ≤ l.c.quota d := by
  unfold Lane.canClaim Pool.freeCount
  rw [Bool.and_eq_true, Bool.and_eq_true, decide_eq_true_eq, decide_eq_true_eq, beq_iff_eq]
  exact and_assoc

/-! ### What a payload byte leaves alone -/

/-- The parts of a lane that the delineator never touches. -/
structure Lane.DelinKept (l m : Lane) : Prop where
  admin : m.c.admin = l.c.admin
  cfg : m.c.cfg = l.c.cfg
  al : m.c.al = l.c.al
  mon : m.c.mon = l.c.mon
  held : m.c.held = l.c.held
  fill : m.c.fill = l.c.fill
  tq : m.c.tq = l.c.tq
  nextTxseq : m.c.nextTxseq = l.c.nextTxseq
  fr : m.c.fr = l.c.fr
  snap : m.c.snap = l.c.snap
  mask : m.c.mask = l.c.mask
  txHolding : m.c.txHolding = l.c.txHolding
  poolState : m.pool.state = l.pool.state

theorem Lane.DelinKept.refl (l : Lane) : l.DelinKept l :=
  ⟨rfl, rfl, rfl, rfl, rfl, rfl, rfl, rfl, rfl, rfl, rfl, rfl, rfl⟩

theorem Lane.DelinKept.trans {l m n : Lane} (h : l.DelinKept m) (k : m.DelinKept n) : l.DelinKept n :=
  ⟨k.1.trans h.1, k.2.trans h.2, k.3.trans h.3, k.4.trans h.4, k.5.trans h.5, k.6.trans h.6, k.7.trans h.7, k.8.trans h.8,
    k.9.trans h.9, k.10.trans h.10, k.11.trans h.11, k.12.trans h.12, k.13.trans h.13⟩

theorem Lane.abortAssembly_delinKept (l : Lane) : l.DelinKept l.abortAssembly := by
  unfold Lane.abortAssembly
  split
  · exact .refl l
  · simp only [Lane.mapChan, Lane.returnChain, Chan.setHolding, Chan.bump, Chan.flagRxdrop]
    exact ⟨rfl, rfl, rfl, rfl, rfl, rfl, rfl, rfl, rfl, rfl, rfl, rfl, rfl⟩

theorem Chan.seekEvaluate_delinKept (l : Lane) (a b : Bool) : l.DelinKept (l.mapChan (Chan.seekEvaluate a b)) := by
  unfold Lane.mapChan Chan.seekEvaluate
  dsimp only
  split_ifs <;> exact ⟨rfl, rfl, rfl, rfl, rfl, rfl, rfl, rfl, rfl, rfl, rfl, rfl, rfl⟩

theorem Lane.delinHold_delinKept (l : Lane) : l.DelinKept l.delinHold := by
  unfold Lane.delinHold
  split
  · exact .refl l
  · exact l.abortAssembly_delinKept.trans ⟨rfl, rfl, rfl, rfl, rfl, rfl, rfl, rfl, rfl, rfl, rfl, rfl, rfl⟩

theorem Lane.offsetCompare_delinKept (p : Option Nat) (q : Bool) (l : Lane) : l.DelinKept (l.offsetCompare p q).1 := by
  unfold Lane.offsetCompare
  dsimp only
  split_ifs
  · exact ⟨rfl, rfl, rfl, rfl, rfl, rfl, rfl, rfl, rfl, rfl, rfl, rfl, rfl⟩
  · exact ⟨rfl, rfl, rfl, rfl, rfl, rfl, rfl, rfl, rfl, rfl, rfl, rfl, rfl⟩
  · have h1 : l.DelinKept (l.mapChan (Chan.bump .offmiss)).abortAssembly :=
      Lane.DelinKept.trans (m := l.mapChan (Chan.bump .offmiss)) ⟨rfl, rfl, rfl, rfl, rfl, rfl, rfl, rfl, rfl, rfl, rfl, rfl, rfl⟩
        (Lane.abortAssembly_delinKept _)
    have h2 (m : Lane) : m.DelinKept (m.mapChan fun c => { c with del := c.del.enter .seek }) :=
      ⟨rfl, rfl, rfl, rfl, rfl, rfl, rfl, rfl, rfl, rfl, rfl, rfl, rfl⟩
    exact (h1.trans (h2 _)).trans (Chan.seekEvaluate_delinKept _ false q)

theorem Lane.acceptHeader_delinKept (thr : Word) (len : Nat) (l : Lane) : l.DelinKept (l.acceptHeader thr len) := by
  unfold Lane.acceptHeader
  dsimp only
  split_ifs <;> exact ⟨rfl, rfl, rfl, rfl, rfl, rfl, rfl, rfl, rfl, rfl, rfl, rfl, rfl⟩

theorem Lane.actOnHeader_delinKept (thr : Word) (len : Nat) (l : Lane) : l.DelinKept (l.actOnHeader thr len) := by
  unfold Lane.actOnHeader
  split
  · exact ⟨rfl, rfl, rfl, rfl, rfl, rfl, rfl, rfl, rfl, rfl, rfl, rfl, rfl⟩
  · exact l.acceptHeader_delinKept thr len

theorem Lane.headerCompleted_delinKept (thr : Word) (pos : Nat) (h : Word) (l : Lane) :
    l.DelinKept (l.headerCompleted thr pos h) := by
  unfold Lane.headerCompleted
  split_ifs
  · have h1 := Lane.offsetCompare_delinKept (predictAfter l.c.payloadLen (1 + headerLen h)) true l
    dsimp only
    split
    · exact h1.trans (Lane.actOnHeader_delinKept ..)
    · exact h1
  · exact l.actOnHeader_delinKept ..
  · exact ⟨rfl, rfl, rfl, rfl, rfl, rfl, rfl, rfl, rfl, rfl, rfl, rfl, rfl⟩

/-- R94 and R95: what the append of a descriptor leaves. -/
theorem Chan.appendRx_eq (d : RxDesc) (c : Chan) :
    c.appendRx d = { c with
      rq := c.rq ++ [d]
      live := { c.live with
        rxpkts := countUp c.live.rxpkts
        rxlong := if d.long then countUp c.live.rxlong else c.live.rxlong
        rxpadded := if d.padded then countUp c.live.rxpadded else c.live.rxpadded }
      flags := { c.flags with
        rxq := c.flags.rxq || (decide (c.rq.length < c.cfg.rqthr.toNat) && decide (c.cfg.rqthr.toNat ≤ c.rq.length + 1)) } } := by
  have cond : (c.rq.length < c.cfg.rqthr.toNat ∧ c.cfg.rqthr.toNat ≤ c.rq.length + 1) ↔
      (decide (c.rq.length < c.cfg.rqthr.toNat) && decide (c.cfg.rqthr.toNat ≤ c.rq.length + 1)) = true := by
    rw [Bool.and_eq_true, decide_eq_true_eq, decide_eq_true_eq]
  unfold Chan.appendRx
  generalize (decide (c.rq.length < c.cfg.rqthr.toNat) && decide (c.cfg.rqthr.toNat ≤ c.rq.length + 1)) = t at cond
  cases d.long <;> cases d.padded <;> cases t <;>
    simp only [cond, if_true, if_false, Bool.false_eq_true, Bool.or_true, Bool.or_false] <;> rfl

theorem Lane.completePacket_delinKept (l : Lane) : l.DelinKept l.completePacket := by
  unfold Lane.completePacket
  split
  · exact ⟨rfl, rfl, rfl, rfl, rfl, rfl, rfl, rfl, rfl, rfl, rfl, rfl, rfl⟩
  · dsimp only
    split
    · unfold Lane.mapChan
      rw [Chan.appendRx_eq]
      exact ⟨rfl, rfl, rfl, rfl, rfl, rfl, rfl, rfl, rfl, rfl, rfl, rfl, rfl⟩
    · simp only [Lane.mapChan, Lane.returnChain, Chan.setHolding, Chan.bump, Chan.flagRxdrop]
      exact ⟨rfl, rfl, rfl, rfl, rfl, rfl, rfl, rfl, rfl, rfl, rfl, rfl, rfl⟩

theorem Lane.storeBody_delinKept (v : Byte) (l : Lane) : l.DelinKept (l.storeBody v) := by
  unfold Lane.storeBody
  split
  · exact .refl l
  · split <;> exact ⟨rfl, rfl, rfl, rfl, rfl, rfl, rfl, rfl, rfl, rfl, rfl, rfl, rfl⟩

theorem Lane.bodyByte_delinKept (v : Byte) (l : Lane) : l.DelinKept (l.bodyByte v) := by
  have h1 : l.DelinKept (l.storeBody v).consume :=
    (l.storeBody_delinKept v).trans ⟨rfl, rfl, rfl, rfl, rfl, rfl, rfl, rfl, rfl, rfl, rfl, rfl, rfl⟩
  unfold Lane.bodyByte
  dsimp only
  split
  · exact h1.trans (Lane.completePacket_delinKept _)
  · exact h1

/-- A payload byte touches the delineator, the receive queue, the pool, packet memory, counters and flags, and nothing else. -/
theorem Lane.payloadByte_delinKept (thr : Word) (pos : Nat) (v : Byte) (l : Lane) : l.DelinKept (l.payloadByte thr pos v) := by
  unfold Lane.payloadByte
  split
  · exact .refl l
  · exact .refl l
  · split
    · exact .refl l
    · unfold Lane.headerByteIn
      split
      · exact ⟨rfl, rfl, rfl, rfl, rfl, rfl, rfl, rfl, rfl, rfl, rfl, rfl, rfl⟩
      · exact l.headerCompleted_delinKept ..
  · split
    · exact .refl l
    · exact l.bodyByte_delinKept v
  · split
    · exact .refl l
    · unfold Lane.skipByte
      dsimp only
      split <;> exact ⟨rfl, rfl, rfl, rfl, rfl, rfl, rfl, rfl, rfl, rfl, rfl, rfl, rfl⟩

/-- Nor does the offset point touch more. -/
theorem Lane.offsetPoint_delinKept (low : Byte) (l : Lane) : l.DelinKept (l.offsetPoint low) := by
  have h0 : l.DelinKept (l.mapChan fun c => { c with del := { c.del with latchedFbo := mkWord c.del.fboHigh low } }) :=
    ⟨rfl, rfl, rfl, rfl, rfl, rfl, rfl, rfl, rfl, rfl, rfl, rfl, rfl⟩
  have hc (m : Lane) : m.DelinKept m.offsetCheck := by
    unfold Lane.offsetCheck
    split
    · exact m.offsetCompare_delinKept ..
    · exact m.offsetCompare_delinKept ..
    · split
      · exact m.offsetCompare_delinKept ..
      · exact .refl m
    · exact .refl m
    · exact .refl m
  unfold Lane.offsetPoint
  dsimp only
  split
  · exact h0
  · exact h0.trans (Chan.seekEvaluate_delinKept _ true false)
  · exact h0.trans (hc _)
  · exact h0.trans (hc _)
  · exact h0.trans (hc _)

end Sys2Proof.Machine
end

