-- ==== Sys2Proof/Laws/Framer.lean ====
section
/-! SUPPORT. What a falling edge of a transmit clock comes to, once it is known which bit it presents. -/

namespace Sys2Proof.Machine

open Sys2Proof

/-- An edge that does not end a drain is the framer's own event. -/
theorem State.txEdge_of_running {s : State} {ch : ChanId} (h : ((s.lane ch).fallingEdge).c.drainOver = false) :
    s.txEdge ch = s.setLane ch (s.lane ch).fallingEdge := by
  unfold State.txEdge
  dsimp only
  rw [if_neg]
  · rfl
  · rintro ⟨-, h'⟩
    have : ((s.onLane ch Lane.fallingEdge).chan ch).drainOver = false := by
      unfold State.onLane
      rw [State.chan_setLane_self]
      exact h
    rw [this] at h'
    cases h'

/-- While STOPPED no drain ends. -/
theorem State.txEdge_of_stopped {s : State} {ch : ChanId} (h : (s.chan ch).fr.running = false) :
    s.txEdge ch = s.setLane ch (s.lane ch).fallingEdge := by
  unfold State.txEdge
  dsimp only
  rw [if_neg]
  · rfl
  · rintro ⟨h', -⟩
    rw [h] at h'
    cases h'

/-- The edge that ends a drain. -/
theorem State.txEdge_of_drainOver {s : State} {ch : ChanId} (hr : (s.chan ch).fr.running = true)
    (h : ((s.lane ch).fallingEdge).c.drainOver = true) :
    s.txEdge ch = (s.setLane ch (s.lane ch).fallingEdge).drainEnded ch := by
  unfold State.txEdge
  dsimp only
  rw [if_pos]
  · rfl
  · refine ⟨hr, ?_⟩
    unfold State.onLane
    rw [State.chan_setLane_self]
    exact h

theorem Lane.fallingEdge_next {l : Lane} {pos : Nat} (hr : l.c.fr.running = true) (hp : l.c.fr.bitPos = some pos) :
    l.fallingEdge = l.presentNext pos := by
  unfold Lane.fallingEdge
  rw [if_pos hr, hp]

theorem Lane.fallingEdge_start {l : Lane} (hr : l.c.fr.running = true) (hp : l.c.fr.bitPos = none) :
    l.fallingEdge = (l.mapChan Chan.frameStart).presentNext 0 := by
  unfold Lane.fallingEdge
  rw [if_pos hr, hp]

/-- A bit that is not a byte's last. -/
theorem Lane.presentNext_inner {l : Lane} {pos : Nat} (h : pos % 8 ≠ 7) :
    l.presentNext pos = (if pos % 8 = 0 then l.loadByte (pos / 8) else l).mapChan fun c =>
      { c with fr := { c.fr.presentBit (pos % 8) with bitPos := some (pos + 1) } } := by
  unfold Lane.presentNext
  dsimp only
  rw [if_neg h]

/-- A byte's last bit. -/
theorem Lane.presentNext_last {l : Lane} {pos : Nat} (h : pos % 8 = 7) :
    l.presentNext pos =
      (fun sent : Lane => if pos + 1 = 8 * l.c.fr.flenInUse then sent.mapChan Chan.transmitFrameEnd else sent)
        ((l.mapChan fun c => { c with fr := { c.fr.presentBit 7 with bitPos := some (pos + 1) } }).byteSent (pos / 8)) := by
  unfold Lane.presentNext
  dsimp only
  have h0 : ¬pos % 8 = 0 := by omega
  rw [if_pos h, if_neg h0, h]

/-- The last bit of a byte short of the frame's last. -/
theorem Lane.presentNext_lastOfByte {l : Lane} {pos : Nat} (h : pos % 8 = 7) (hn : pos + 1 ≠ 8 * l.c.fr.flenInUse) :
    l.presentNext pos =
      (l.mapChan fun c => { c with fr := { c.fr.presentBit 7 with bitPos := some (pos + 1) } }).byteSent (pos / 8) := by
  rw [Lane.presentNext_last h]
  dsimp only
  rw [if_neg hn]

/-- The frame's last bit. -/
theorem Lane.presentNext_lastOfFrame {l : Lane} {pos : Nat} (hn : pos + 1 = 8 * l.c.fr.flenInUse) :
    l.presentNext pos =
      ((l.mapChan fun c => { c with fr := { c.fr.presentBit 7 with bitPos := some (pos + 1) } }).byteSent (pos / 8)).mapChan
        Chan.transmitFrameEnd := by
  rw [Lane.presentNext_last (by omega)]
  dsimp only
  rw [if_pos hn]

/-- A byte of the overhead or of an alarm frame has been sent. -/
theorem Lane.byteSent_plain {l : Lane} {off : Nat} (h : off < 8 ∨ l.c.fr.mode = .alarm) :
    l.byteSent off = l.mapChan fun c => { c with fr := { c.fr with runXor := c.fr.runXor ^^^ c.fr.outByte } } := by
  unfold Lane.byteSent
  dsimp only
  rw [if_neg]
  rintro ⟨h1, h2⟩
  rcases h with h | h
  · omega
  · rw [h] at h2
    cases h2

/-- A payload byte of a NORMAL frame has been sent. -/
theorem Lane.byteSent_stream {l : Lane} {off : Nat} (h : 8 ≤ off) (hm : l.c.fr.mode = .normal) :
    l.byteSent off =
      (l.mapChan fun c => { c with fr := { c.fr with runXor := c.fr.runXor ^^^ c.fr.outByte } }).streamByteSent := by
  unfold Lane.byteSent
  dsimp only
  rw [if_pos ⟨h, hm⟩]

/-- A byte of an idle header has been sent. -/
theorem Lane.streamByteSent_idle {l : Lane} (hk : l.c.fr.kind = .idleHeader) :
    l.streamByteSent = l.mapChan fun c => { c with fr := { c.fr with owed := l.c.fr.owed - 1 } } := by
  unfold Lane.streamByteSent
  rw [hk]

/-- A byte of a packet's header has been sent; the second is followed by the body. -/
theorem Lane.streamByteSent_header {l : Lane} {p : InFlight} (hk : l.c.fr.kind = .packetHeader) (hp : l.c.fr.inflight = some p) :
    l.streamByteSent = l.mapChan fun c => { c with fr := { c.fr with
      owed := l.c.fr.owed - 1, kind := if l.c.fr.owed - 1 = p.desc.len then .packetBody else .packetHeader } } := by
  unfold Lane.streamByteSent Lane.mapChan
  simp only [hk, hp]

/-- A body byte short of the packet's last has been sent. -/
theorem Lane.streamByteSent_body {l : Lane} (hk : l.c.fr.kind = .packetBody) (ho : l.c.fr.owed - 1 ≠ 0) :
    l.streamByteSent = l.mapChan fun c => { c with fr := { c.fr with
      owed := l.c.fr.owed - 1, inflight := c.fr.inflight.map fun p => { p with cursor := p.cursor + 1 } } } := by
  unfold Lane.streamByteSent
  dsimp only
  rw [hk]
  dsimp only
  rw [if_neg ho]

/-- The packet's last body byte has been sent. -/
theorem Lane.streamByteSent_last {l : Lane} (hk : l.c.fr.kind = .packetBody) (ho : l.c.fr.owed - 1 = 0) :
    l.streamByteSent = (l.mapChan fun c => { c with fr := { c.fr with
      owed := l.c.fr.owed - 1, inflight := c.fr.inflight.map fun p => { p with cursor := p.cursor + 1 } } }).packetEnd := by
  unfold Lane.streamByteSent
  dsimp only
  rw [hk]
  dsimp only
  rw [if_pos ho]

theorem Lane.packetEnd_of_none {l : Lane} (h : l.c.fr.inflight = none) : l.packetEnd = l := by
  unfold Lane.packetEnd
  rw [h]

/-- R123, whole. -/
theorem Lane.packetEnd_of_some {l : Lane} {p : InFlight} (h : l.c.fr.inflight = some p) :
    l.packetEnd = { l with
      c := { l.c with
        txHolding := l.c.txHolding - p.desc.chain.length
        live := { l.c.live with txpkts := countUp l.c.live.txpkts }
        flags := { l.c.flags with txdone := true }
        fr := { l.c.fr with inflight := none } }
      pool := { l.pool with free := l.pool.free ++ p.desc.chain } } := by
  unfold Lane.packetEnd
  rw [h]
  rfl

/-- What the end of a sent byte leaves alone, from lane `l` to lane `m`. -/
structure Lane.SendKept (l m : Lane) : Prop where
  admin : m.c.admin = l.c.admin
  cfg : m.c.cfg = l.c.cfg
  al : m.c.al = l.c.al
  mon : m.c.mon = l.c.mon
  del : m.c.del = l.c.del
  rq : m.c.rq = l.c.rq
  held : m.c.held = l.c.held
  fill : m.c.fill = l.c.fill
  tq : m.c.tq = l.c.tq
  nextTxseq : m.c.nextTxseq = l.c.nextTxseq
  running : m.c.fr.running = l.c.fr.running
  bitPos : m.c.fr.bitPos = l.c.fr.bitPos
  mode : m.c.fr.mode = l.c.fr.mode
  runXor : m.c.fr.runXor = l.c.fr.runXor
  txd : m.c.fr.txd = l.c.fr.txd
  nextFcnt : m.c.fr.nextFcnt = l.c.fr.nextFcnt
  drainTimer : m.c.fr.drainTimer = l.c.fr.drainTimer
  flenInUse : m.c.fr.flenInUse = l.c.fr.flenInUse
  txframes : m.c.live.txframes = l.c.live.txframes
  rxHolding : m.c.rxHolding = l.c.rxHolding
  mem : m.mem = l.mem
  gf : m.gf = l.gf

theorem Lane.SendKept.refl (l : Lane) : l.SendKept l :=
  ⟨rfl, rfl, rfl, rfl, rfl, rfl, rfl, rfl, rfl, rfl, rfl, rfl, rfl, rfl, rfl, rfl, rfl, rfl, rfl, rfl, rfl, rfl⟩

theorem Lane.SendKept.trans {l m n : Lane} (h : l.SendKept m) (k : m.SendKept n) : l.SendKept n :=
  ⟨k.1.trans h.1, k.2.trans h.2, k.3.trans h.3, k.4.trans h.4, k.5.trans h.5, k.6.trans h.6, k.7.trans h.7, k.8.trans h.8,
    k.9.trans h.9, k.10.trans h.10, k.11.trans h.11, k.12.trans h.12, k.13.trans h.13, k.14.trans h.14, k.15.trans h.15,
    k.16.trans h.16, k.17.trans h.17, k.18.trans h.18, k.19.trans h.19, k.20.trans h.20, k.21.trans h.21, k.22.trans h.22⟩

/-- A change of the bytes owed, their kind and the flight is one. -/
theorem Lane.sendKept_of_fr (l : Lane) (o : Nat) (k : BlockKind) (p : Option InFlight) :
    l.SendKept { l with c := { l.c with fr := { l.c.fr with owed := o, kind := k, inflight := p } } } :=
  ⟨rfl, rfl, rfl, rfl, rfl, rfl, rfl, rfl, rfl, rfl, rfl, rfl, rfl, rfl, rfl, rfl, rfl, rfl, rfl, rfl, rfl, rfl⟩

theorem Lane.packetEnd_kept (l : Lane) : l.SendKept l.packetEnd := by
  cases h : l.c.fr.inflight with
  | none =>
    rw [Lane.packetEnd_of_none h]
    exact .refl l
  | some p =>
    rw [Lane.packetEnd_of_some h]
    exact ⟨rfl, rfl, rfl, rfl, rfl, rfl, rfl, rfl, rfl, rfl, rfl, rfl, rfl, rfl, rfl, rfl, rfl, rfl, rfl, rfl, rfl, rfl⟩

theorem Lane.streamByteSent_kept (l : Lane) : l.SendKept l.streamByteSent := by
  cases h : l.c.fr.kind with
  | packetBody =>
    have hs := l.sendKept_of_fr (l.c.fr.owed - 1) l.c.fr.kind (l.c.fr.inflight.map fun p => { p with cursor := p.cursor + 1 })
    by_cases ho : l.c.fr.owed - 1 = 0
    · rw [Lane.streamByteSent_last h ho]
      exact hs.trans (Lane.packetEnd_kept _)
    · rw [Lane.streamByteSent_body h ho]
      exact hs
  | idleHeader =>
    unfold Lane.streamByteSent
    rw [h]
    exact l.sendKept_of_fr _ _ _
  | packetHeader =>
    unfold Lane.streamByteSent
    rw [h]
    exact l.sendKept_of_fr _ _ _

/-- The end of a byte XORs it into the running XOR and changes the stream, the flight, the pool, TXPKTS and TXDONE, and nothing else. -/
theorem Lane.byteSent_kept (off : Nat) (l : Lane) :
    (l.mapChan fun c => { c with fr := { c.fr with runXor := c.fr.runXor ^^^ c.fr.outByte } }).SendKept (l.byteSent off) := by
  unfold Lane.byteSent
  generalize l.mapChan (fun c => { c with fr := { c.fr with runXor := c.fr.runXor ^^^ c.fr.outByte } }) = m
  dsimp only
  split
  · exact m.streamByteSent_kept
  · exact .refl m

/-- With no packet in flight none is after it. -/
theorem Lane.byteSent_noFlight {off : Nat} {l : Lane} (h : l.c.fr.inflight = none) : (l.byteSent off).c.fr.inflight = none := by
  unfold Lane.byteSent Lane.streamByteSent
  dsimp only
  split
  · split
    · exact h
    · exact h
    · have h' : (l.c.fr.inflight.map fun p => { p with cursor := p.cursor + 1 }) = none := by rw [h]; rfl
      split
      · rw [Lane.packetEnd_of_none h']
        exact h'
      · exact h'
  · exact h

/-- With no packet in flight only the framer is changed. -/
theorem Lane.byteSent_noFlight_framer {off : Nat} {l : Lane} (h : l.c.fr.inflight = none) :
    l.byteSent off = l.mapChan fun c => { c with fr := (l.byteSent off).c.fr } := by
  unfold Lane.byteSent Lane.streamByteSent
  dsimp only
  split
  · split
    · rfl
    · rfl
    · have h' : (l.c.fr.inflight.map fun p => { p with cursor := p.cursor + 1 }) = none := by rw [h]; rfl
      split
      · rw [Lane.packetEnd_of_none h']
        rfl
      · rfl
  · rfl

theorem Lane.loadByte_overhead {l : Lane} {off : Nat} (h : off < 8) :
    l.loadByte off = l.mapChan fun c => { c with fr := { c.fr with outByte := c.fr.overhead.byteAt off } } := if_pos h

theorem Lane.loadByte_alarm {l : Lane} {off : Nat} (h : 8 ≤ off) (hm : l.c.fr.mode = .alarm) :
    l.loadByte off = l.mapChan fun c => { c with fr := { c.fr with outByte := 0xFF } } := by
  unfold Lane.loadByte
  rw [if_neg (by omega), hm]

theorem Lane.loadByte_stream {l : Lane} {off : Nat} (h : 8 ≤ off) (hm : l.c.fr.mode = .normal) (ho : l.c.fr.owed ≠ 0) :
    l.loadByte off = l.mapChan fun c => { c with fr := { c.fr with outByte := l.streamByte } } := by
  unfold Lane.loadByte
  rw [if_neg (by omega), hm]
  dsimp only
  rw [if_neg ho]

theorem Lane.loadByte_boundary {l : Lane} {off : Nat} (h : 8 ≤ off) (hm : l.c.fr.mode = .normal) (ho : l.c.fr.owed = 0) :
    l.loadByte off = (l.mapChan Chan.blockBoundary).mapChan fun c =>
      { c with fr := { c.fr with outByte := (l.mapChan Chan.blockBoundary).streamByte } } := by
  unfold Lane.loadByte
  rw [if_neg (by omega), hm]
  dsimp only
  rw [if_pos ho]

/-- With a frame in progress no drain is over. -/
theorem Chan.drainOver_of_bitPos {c : Chan} {pos : Nat} (h : c.fr.bitPos = some pos) : c.drainOver = false := by
  simp [Chan.drainOver, h]

theorem Chan.drainOver_of_admin {c : Chan} (h : c.admin ≠ .draining) : c.drainOver = false := by
  have : (c.admin == .draining) = false := by simpa using h
  simp [Chan.drainOver, this]

end Sys2Proof.Machine
end

