-- ==== Sys2Proof/Laws/Memory.lean ====
section
/-! SUPPORT. Packet memory: what a write leaves to be read, that every operation over it keeps the canonical form, and that a canonical
form is known by what it reads. -/

namespace Sys2Proof.Machine

open Sys2Proof

namespace Memory

theorem wf_nil : wf [] := ⟨List.Pairwise.nil, by simp⟩

theorem wf_tail {k : Nat} {b : Byte} {m : List Host.Cell} (h : wf ((k, b) :: m)) : wf m :=
  ⟨(List.pairwise_cons.mp h.1).2, fun c hc => h.2 c (List.mem_cons_of_mem _ hc)⟩

/-- Below the least listed address of a canonical form every address reads 0. -/
theorem read_of_lt {m : List Host.Cell} {a : Nat} (h : ∀ c ∈ m, a < c.1) : read m a = 0 := by
  induction m with
  | nil => rfl
  | cons c m ih =>
    have hc : a < c.1 := h c List.mem_cons_self
    show (if a = c.1 then c.2 else read m a) = 0
    rw [if_neg (by omega)]
    exact ih fun x hx => h x (List.mem_cons_of_mem _ hx)

/-- A written address lists, beside what was listed, at most itself. -/
theorem mem_write {m : List Host.Cell} {a : Nat} {v : Byte} {c : Host.Cell} (h : c ∈ write m a v) : c ∈ m ∨ (c = (a, v) ∧ v ≠ 0) := by
  induction m with
  | nil =>
    unfold write at h
    split at h <;> simp_all
  | cons d m ih =>
    unfold write at h
    split_ifs at h <;> simp only [List.mem_cons] at h ⊢ <;> tauto

/-- A write keeps the canonical form. -/
theorem write_wf {m : List Host.Cell} (a : Nat) (v : Byte) (h : wf m) : wf (write m a v) := by
  induction m with
  | nil =>
    unfold write
    split
    · exact wf_nil
    · rename_i hv
      exact ⟨List.pairwise_singleton .., by simpa using hv⟩
  | cons d m ih =>
    obtain ⟨k, b⟩ := d
    have ht := wf_tail h
    have hk : ∀ c ∈ m, k < c.1 := fun c hc => (List.pairwise_cons.mp h.1).1 c hc
    have hb : b ≠ 0 := h.2 (k, b) List.mem_cons_self
    unfold write
    split_ifs with h1 h2 h3 h4
    · exact h
    · refine ⟨List.pairwise_cons.mpr ⟨?_, h.1⟩, ?_⟩
      · intro c hc
        rcases List.mem_cons.mp hc with rfl | hc
        · exact h1
        · exact h1.trans (hk c hc)
      · intro c hc
        rcases List.mem_cons.mp hc with rfl | hc
        · exact h2
        · exact h.2 c hc
    · exact ht
    · refine ⟨List.pairwise_cons.mpr ⟨?_, ht.1⟩, ?_⟩
      · intro c hc
        have := hk c hc
        show a < c.1
        omega
      · intro c hc
        rcases List.mem_cons.mp hc with rfl | hc
        · exact h4
        · exact ht.2 c hc
    · refine ⟨List.pairwise_cons.mpr ⟨?_, (ih ht).1⟩, ?_⟩
      · intro c hc
        rcases mem_write hc with hc | ⟨rfl, -⟩
        · exact hk c hc
        · show k < a
          omega
      · intro c hc
        rcases List.mem_cons.mp hc with rfl | hc
        · exact hb
        · exact (ih ht).2 c hc

/-- What a write leaves to be read: the value at its address, elsewhere what was there. -/
theorem read_write {m : List Host.Cell} (a k : Nat) (v : Byte) (h : wf m) :
    read (write m a v) k = if k = a then v else read m k := by
  induction m with
  | nil =>
    unfold write
    split_ifs <;> simp_all [read]
  | cons d m ih =>
    obtain ⟨j, b⟩ := d
    have ht := wf_tail h
    have hj : ∀ c ∈ m, j < c.1 := fun c hc => (List.pairwise_cons.mp h.1).1 c hc
    have low (i : Nat) (hi : i ≤ j) : read m i = 0 := read_of_lt fun c hc => lt_of_le_of_lt hi (hj c hc)
    have cons (i : Nat) (w : Byte) (n : List Host.Cell) (x : Nat) : read ((i, w) :: n) x = if x = i then w else read n x := rfl
    rcases eq_or_ne k a with rfl | hk
    · rw [if_pos rfl]
      unfold write
      split_ifs with h1 h2 h3 h4
      · rw [cons, if_neg (by omega), low k (by omega), h2]
      · rw [cons, if_pos rfl]
      · rw [low k (by omega), h4]
      · rw [cons, if_pos rfl]
      · rw [cons, if_neg h3, ih ht, if_pos rfl]
    · rw [if_neg hk]
      unfold write
      split_ifs with h1 h2 h3 h4
      · rfl
      · rw [cons, if_neg hk]
      · rw [cons, if_neg (by omega)]
      · rw [cons, cons, if_neg hk, if_neg (by omega)]
      · rw [cons, cons, ih ht, if_neg hk]

/-- Two canonical forms that read alike are the same data. -/
theorem ext_of_read {m n : List Host.Cell} (hm : wf m) (hn : wf n) (h : ∀ a, read m a = read n a) : m = n := by
  induction m generalizing n with
  | nil =>
    cases n with
    | nil => rfl
    | cons d n =>
      have := h d.1
      simp only [read, if_true] at this
      exact absurd this.symm (hn.2 d List.mem_cons_self)
  | cons c m ih =>
    obtain ⟨i, b⟩ := c
    cases n with
    | nil =>
      have := h i
      simp only [read, if_true] at this
      exact absurd this (hm.2 (i, b) List.mem_cons_self)
    | cons d n =>
      obtain ⟨j, e⟩ := d
      have hi : ∀ c ∈ m, i < c.1 := fun c hc => (List.pairwise_cons.mp hm.1).1 c hc
      have hj : ∀ c ∈ n, j < c.1 := fun c hc => (List.pairwise_cons.mp hn.1).1 c hc
      have lm (a : Nat) (ha : a ≤ i) : read m a = 0 := read_of_lt fun c hc => lt_of_le_of_lt ha (hi c hc)
      have ln (a : Nat) (ha : a ≤ j) : read n a = 0 := read_of_lt fun c hc => lt_of_le_of_lt ha (hj c hc)
      have hb : b ≠ 0 := hm.2 (i, b) List.mem_cons_self
      have he : e ≠ 0 := hn.2 (j, e) List.mem_cons_self
      have hij : i = j := by
        rcases Nat.lt_trichotomy i j with hlt | heq | hgt
        · have := h i
          simp only [read, if_true] at this
          rw [if_neg (by omega), ln i (by omega)] at this
          exact absurd this hb
        · exact heq
        · have := h j
          simp only [read, if_true] at this
          rw [if_neg (by omega), lm j (by omega)] at this
          exact absurd this.symm he
      subst hij
      have hbe : b = e := by simpa [read] using h i
      subst hbe
      rw [ih (wf_tail hm) (wf_tail hn)]
      intro a
      by_cases ha : a = i
      · rw [ha, lm i (by omega), ln i (by omega)]
      · simpa [read, ha] using h a

end Memory

/-! ### Bytes of packets -/

/-- A byte written into a packet keeps the canonical form. -/
theorem packetWrite_wf {m : List Host.Cell} (chain : List CellNo) (i : Nat) (v : Byte) (h : Memory.wf m) :
    Memory.wf (packetWrite m chain i v) := by
  unfold packetWrite
  split
  · exact Memory.write_wf _ _ h
  · exact h

/-- What a byte written into a packet leaves to be read at every address. -/
theorem read_packetWrite {m : List Host.Cell} (chain : List CellNo) (i : Nat) (v : Byte) (k : Nat) (h : Memory.wf m) :
    Memory.read (packetWrite m chain i v) k = if packetAddr chain i = some k then v else Memory.read m k := by
  unfold packetWrite
  split
  · rename_i a ha
    rw [Memory.read_write a k v h, ha]
    simp [eq_comm]
  · rename_i ha
    rw [ha]
    simp

/-- Every position below 128 times the chain's length has an address. -/
theorem packetAddr_isSome {chain : List CellNo} {i : Nat} (h : i < 128 * chain.length) : (packetAddr chain i).isSome := by
  have : i / 128 < chain.length := by omega
  simp [packetAddr, this]

/-- An address determines its cell and its place in it. -/
theorem packetAddr_eq_some {chain : List CellNo} {i a : Nat} :
    packetAddr chain i = some a ↔ ∃ c, chain[i / 128]? = some c ∧ a = 128 * c.val + i % 128 := by
  simp [packetAddr, eq_comm]

/-- Positions of a chain of distinct cells have distinct addresses. -/
theorem packetAddr_injective {chain : List CellNo} (hn : chain.Nodup) {i j a : Nat} (hi : packetAddr chain i = some a)
    (hj : packetAddr chain j = some a) : i = j := by
  obtain ⟨c, hc, ha⟩ := packetAddr_eq_some.mp hi
  obtain ⟨d, hd, hb⟩ := packetAddr_eq_some.mp hj
  have hcd : c = d := Fin.ext (by omega)
  subst hcd
  have hlt : i / 128 < chain.length := (List.getElem?_eq_some_iff.mp hc).1
  have : i / 128 = j / 128 := (List.getElem?_inj hlt hn).mp (hc.trans hd.symm)
  omega

/-- Chains with no cell in common have no address in common. -/
theorem packetAddr_disjoint {chain other : List CellNo} (hd : ∀ x ∈ chain, x ∉ other) {i j a : Nat} (hi : packetAddr chain i = some a)
    (hj : packetAddr other j = some a) : False := by
  obtain ⟨c, hc, ha⟩ := packetAddr_eq_some.mp hi
  obtain ⟨d, hd', hb⟩ := packetAddr_eq_some.mp hj
  have hcd : c = d := Fin.ext (by omega)
  subst hcd
  exact hd c (List.mem_of_getElem? hc) (List.mem_of_getElem? hd')

end Sys2Proof.Machine
end

