-- ==== Sys2Proof/Laws/Monitor.lean ====
section
/-! SUPPORT. What the overhead close comes to: the monitor's judgement field by field, and what the delineator is told beside it. -/

namespace Sys2Proof.Machine

open Sys2Proof

/-! ### The judgement -/

/-- The channel as judged, before a record falls due and ALARM is tested. -/
def Chan.judgedBare (fchk : Byte) (c : Chan) : Chan :=
  { c with
    mon := { c.mon with
      lastFcnt := c.mon.frameFcnt
      stat := c.statAfter
      label := c.labelAfter
      conds := c.condsAfter fchk
      winFrames := if c.windowEnds then 0 else c.mon.windowFrames
      winMismatches := if c.windowEnds then 0 else c.mon.windowMismatches fchk }
    live := { c.live with
      fcjump := if c.mon.fcntJumped then countUp c.live.fcjump else c.live.fcjump
      fcerr := if c.mon.checkFailed fchk then countUp c.live.fcerr else c.live.fcerr } }

/-- The judgement: a record due if a cause is in the set, and ALARM set if a condition changed (R35, R40, R46). -/
theorem Chan.overheadJudge_eq (fchk : Byte) (c : Chan) :
    c.overheadJudge fchk =
      (fun d : Chan => if c.condsAfter fchk = c.mon.conds then d else d.flagAlarm)
        (if (c.closeCauses fchk).any then (c.judgedBare fchk).recordDue (c.closeCauses fchk) c.mon.frameFcnt true
         else c.judgedBare fchk) := by
  have h : ({ (if c.mon.checkFailed fchk then (if c.mon.fcntJumped then c.bump .fcjump else c).bump .fcerr
      else if c.mon.fcntJumped then c.bump .fcjump else c) with mon := (c.judgedBare fchk).mon } : Chan) = c.judgedBare fchk := by
    unfold Chan.judgedBare
    cases c.mon.fcntJumped <;> cases c.mon.checkFailed fchk <;> rfl
  unfold Chan.overheadJudge
  dsimp only
  rw [← h]
  rfl

/-- The judgement changes of the channel the monitor, the live counters and the flags only. -/
theorem Chan.overheadJudge_kept (fchk : Byte) (c : Chan) :
    c.overheadJudge fchk = { c with
      mon := (c.overheadJudge fchk).mon, live := (c.overheadJudge fchk).live, flags := (c.overheadJudge fchk).flags } := by
  rw [Chan.overheadJudge_eq]
  dsimp only
  have rk := Chan.recordDue_kept (c.closeCauses fchk) c.mon.frameFcnt true (c.judgedBare fchk)
  generalize (c.judgedBare fchk).recordDue (c.closeCauses fchk) c.mon.frameFcnt true = r at rk
  split <;> split <;> first | (rw [rk]; rfl) | rfl

/-- The monitor after the judgement, but for the ring, the numbering and the pending-lost count. -/
theorem Chan.overheadJudge_mon (fchk : Byte) (c : Chan) :
    (c.overheadJudge fchk).mon = { (c.judgedBare fchk).mon with
      ring := (c.overheadJudge fchk).mon.ring, nextSeq := (c.overheadJudge fchk).mon.nextSeq
      pendingLost := (c.overheadJudge fchk).mon.pendingLost } := by
  rw [Chan.overheadJudge_eq]
  dsimp only
  have rm := Chan.recordDue_mon (c.closeCauses fchk) c.mon.frameFcnt true (c.judgedBare fchk)
  generalize (c.judgedBare fchk).recordDue (c.closeCauses fchk) c.mon.frameFcnt true = r at rm
  split <;> split <;> first | exact rm | rfl

/-- The counters after the judgement, but for OHLOST. -/
theorem Chan.overheadJudge_live (fchk : Byte) (c : Chan) :
    (c.overheadJudge fchk).live = { (c.judgedBare fchk).live with ohlost := (c.overheadJudge fchk).live.ohlost } := by
  rw [Chan.overheadJudge_eq]
  dsimp only
  have rm := Chan.recordDue_live (c.closeCauses fchk) c.mon.frameFcnt true (c.judgedBare fchk)
  generalize (c.judgedBare fchk).recordDue (c.closeCauses fchk) c.mon.frameFcnt true = r at rm
  split <;> split <;> first | exact rm | rfl

/-- The flags after the judgement, but for OHREC. -/
theorem Chan.overheadJudge_flags (fchk : Byte) (c : Chan) :
    (c.overheadJudge fchk).flags = { c.flags with
      ohrec := (c.overheadJudge fchk).flags.ohrec
      alarm := c.flags.alarm || decide (c.condsAfter fchk ≠ c.mon.conds) } := by
  rw [Chan.overheadJudge_eq]
  dsimp only
  have rm := Chan.recordDue_flags (c.closeCauses fchk) c.mon.frameFcnt true (c.judgedBare fchk)
  generalize (c.judgedBare fchk).recordDue (c.closeCauses fchk) c.mon.frameFcnt true = r at rm
  by_cases h : c.condsAfter fchk = c.mon.conds
  · rw [if_pos h, decide_eq_false (by simpa using h), Bool.or_false]
    split
    · exact rm
    · rfl
  · rw [if_neg h, decide_eq_true h, Bool.or_true]
    split
    · show ({ r.flags with alarm := true } : CFlags) = _
      rw [rm]
      rfl
    · rfl

/-- R46 and R49: with a cause in the set a record is due, that of the state as judged. -/
theorem Chan.overheadJudge_record {fchk : Byte} {c : Chan} (h : (c.closeCauses fchk).any = true) :
    c.recordOutcome ((c.judgedBare fchk).mon.record (c.closeCauses fchk) c.mon.frameFcnt true) (c.overheadJudge fchk) := by
  have ro := Chan.recordDue_outcome (c.closeCauses fchk) c.mon.frameFcnt true (c.judgedBare fchk)
  refine Chan.recordOutcome_congr ro ⟨rfl, rfl, rfl, rfl, rfl⟩ ?_
  rw [Chan.overheadJudge_eq]
  dsimp only
  rw [if_pos h]
  split <;> exact ⟨rfl, rfl, rfl, rfl, rfl⟩

/-- R46: with no cause in the set none is. -/
theorem Chan.overheadJudge_noRecord {fchk : Byte} {c : Chan} (h : (c.closeCauses fchk).any = false) :
    (c.overheadJudge fchk).mon.ring = c.mon.ring ∧ (c.overheadJudge fchk).mon.nextSeq = c.mon.nextSeq
      ∧ (c.overheadJudge fchk).mon.pendingLost = c.mon.pendingLost ∧ (c.overheadJudge fchk).flags.ohrec = c.flags.ohrec
      ∧ (c.overheadJudge fchk).live.ohlost = c.live.ohlost := by
  rw [Chan.overheadJudge_eq]
  dsimp only
  rw [h]
  split <;> exact ⟨rfl, rfl, rfl, rfl, rfl⟩

/-- A set of causes is empty when none is in it. -/
theorem Causes.any_eq_false_iff (k : Causes) : k.any = false ↔ k = ⟨false, false, false, false⟩ := by
  obtain ⟨a, b, c, d⟩ := k
  revert a b c d
  decide

/-! ### The delineator told -/

/-- CARRIER begins. -/
theorem Lane.overheadClose_onset {fchk : Byte} {l : Lane} (h : l.c.mon.conds.carrier = false)
    (h' : (l.c.condsAfter fchk).carrier = true) :
    l.overheadClose fchk = (l.mapChan (Chan.overheadJudge fchk)).delinHold := by
  unfold Lane.overheadClose
  dsimp only
  rw [if_pos (by simp [h, h'])]

/-- CARRIER ends. -/
theorem Lane.overheadClose_end {fchk : Byte} {l : Lane} (h : l.c.mon.conds.carrier = true)
    (h' : (l.c.condsAfter fchk).carrier = false) :
    l.overheadClose fchk = (l.mapChan (Chan.overheadJudge fchk)).mapChan Chan.delinCarrierEnd := by
  unfold Lane.overheadClose
  dsimp only
  rw [if_neg (by simp [h]), if_pos (by simp [h, h'])]

/-- CARRIER stays as it was. -/
theorem Lane.overheadClose_same {fchk : Byte} {l : Lane} (h : l.c.mon.conds.carrier = (l.c.condsAfter fchk).carrier) :
    l.overheadClose fchk = l.mapChan (Chan.overheadJudge fchk) := by
  unfold Lane.overheadClose
  dsimp only
  rw [← h, if_neg (by simp), if_neg (by simp)]

/-- A CARRIER end changes of the channel the delineator and OFFMISS only. -/
theorem Chan.delinCarrierEnd_kept (c : Chan) :
    c.delinCarrierEnd = { c with
      del := c.delinCarrierEnd.del, live := { c.live with offmiss := c.delinCarrierEnd.live.offmiss } } := by
  unfold Chan.delinCarrierEnd Chan.seekEvaluate
  dsimp only
  split_ifs <;> rfl

/-- What the delineator's part of the overhead close can touch beside the judgement. -/
theorem Lane.overheadClose_kept (fchk : Byte) (l : Lane) :
    l.overheadClose fchk = { l with
      pool := (l.overheadClose fchk).pool
      c := { l.c.overheadJudge fchk with
        del := (l.overheadClose fchk).c.del, rxHolding := (l.overheadClose fchk).c.rxHolding
        live := { (l.c.overheadJudge fchk).live with
          rxabort := (l.overheadClose fchk).c.live.rxabort, offmiss := (l.overheadClose fchk).c.live.offmiss }
        flags := { (l.c.overheadJudge fchk).flags with rxdrop := (l.overheadClose fchk).c.flags.rxdrop } } } := by
  cases h : l.c.mon.conds.carrier <;> cases h' : (l.c.condsAfter fchk).carrier
  · rw [Lane.overheadClose_same (by rw [h, h'])]
    rfl
  · rw [Lane.overheadClose_onset h h', Lane.delinHold_kept]
    rfl
  · rw [Lane.overheadClose_end h h']
    unfold Lane.mapChan
    dsimp only
    rw [Chan.delinCarrierEnd_kept]
  · rw [Lane.overheadClose_same (by rw [h, h'])]
    rfl

end Sys2Proof.Machine
end

