-- ==== Sys2Proof/Laws/Cells.lean ====
section
/-! SUPPORT. What each operation on a lane conserves: the channel's account of its cells and its bounds, the cells of free list and packets
together (R80, R81), and packet memory's canonical form. -/

namespace Sys2Proof.Machine

open Sys2Proof

/-- From lane `l` to lane `m` cells are moved and none is gained or lost, nothing is moved while the pool is in INIT, and every bound is kept. -/
structure Lane.Conserves (l m : Lane) : Prop where
  state : m.pool.state = l.pool.state
  agree : l.c.CellsAgree → m.c.CellsAgree
  perm : l.c.CellsAgree → (m.pool.free ++ m.c.cells).Perm (l.pool.free ++ l.c.cells)
  init : l.c.CellsAgree → l.pool.state = .init → l.c.cells = [] → m.pool.free = l.pool.free
  bounds : l.c.InBounds → m.c.InBounds
  mem : Memory.wf l.mem → Memory.wf m.mem

theorem Lane.Conserves.refl (l : Lane) : l.Conserves l := ⟨rfl, id, fun _ => .refl _, fun _ _ _ => rfl, id, id⟩

/-- In INIT a lane that holds no cell still holds none. -/
theorem Lane.Conserves.cells_init {l m : Lane} (h : l.Conserves m) (a : l.c.CellsAgree) (i : l.pool.state = .init)
    (c : l.c.cells = []) : m.c.cells = [] := by
  have := (h.perm a).length_eq
  rw [h.init a i c, c] at this
  simp only [List.length_append, List.length_nil] at this
  exact List.length_eq_zero_iff.mp (by omega)

theorem Lane.Conserves.trans {l m n : Lane} (h : l.Conserves m) (k : m.Conserves n) : l.Conserves n where
  state := k.state.trans h.state
  agree a := k.agree (h.agree a)
  perm a := (k.perm (h.agree a)).trans (h.perm a)
  init a i c := (k.init (h.agree a) (h.state.trans i) (h.cells_init a i c)).trans (h.init a i c)
  bounds b := k.bounds (h.bounds b)
  mem w := k.mem (h.mem w)

/-- The record ring and the two persistence counts are within their bounds, and PERSIST is at least 1. -/
def Chan.MonitorFits (c : Chan) : Prop :=
  c.mon.ring.length ≤ 16 ∧ 1 ≤ c.cfg.persist.toNat ∧ c.mon.stat.count ≤ c.cfg.persist.toNat
    ∧ c.mon.label.count ≤ c.cfg.persist.toNat

theorem Chan.InBounds.monitorFits {c : Chan} (b : c.InBounds) : c.MonitorFits := by
  refine ⟨b.ring, ?_, b.persist⟩
  have := b.cfg.ranges .persist
  simp only [Entry.inRange, Bool.and_eq_true, decide_eq_true_eq] at this
  exact Nat.le_trans (by decide) this.1.1

/-- The two channels hold the same packets in the same places, under the same configuration. -/
structure Chan.SameStores (c d : Chan) : Prop where
  cfg : d.cfg = c.cfg
  assembly : d.del.assembly = c.del.assembly
  body : (c.del.assembly.isSome ↔ c.del.state = .body) → (d.del.assembly.isSome ↔ d.del.state = .body)
  rq : d.rq = c.rq
  held : d.held = c.held
  fill : d.fill = c.fill
  tq : d.tq = c.tq
  flight : d.fr.inflight = c.fr.inflight ∧ (c.fr.FlightAgrees → d.fr.FlightAgrees)
  rxHolding : d.rxHolding = c.rxHolding
  txHolding : d.txHolding = c.txHolding
  monitor : c.MonitorFits → d.MonitorFits

theorem Chan.SameStores.rxChains {c d : Chan} (h : c.SameStores d) : d.rxChains = c.rxChains := by
  unfold Chan.rxChains
  rw [h.assembly, h.held, h.rq]

theorem Chan.SameStores.txChains {c d : Chan} (h : c.SameStores d) : d.txChains = c.txChains := by
  unfold Chan.txChains
  rw [h.flight.1, h.tq, h.fill]

theorem Chan.SameStores.cells {c d : Chan} (h : c.SameStores d) : d.cells = c.cells := by
  unfold Chan.cells
  rw [h.rxChains, h.txChains]

theorem Chan.SameStores.agree {c d : Chan} (h : c.SameStores d) (a : c.CellsAgree) : d.CellsAgree where
  rx_holding := by rw [h.rxHolding, h.rxChains, a.rx_holding]
  tx_holding := by rw [h.txHolding, h.txChains, a.tx_holding]
  assembly_iff := h.body a.assembly_iff
  flight := h.flight.2 a.flight
  assembly_cells := by rw [h.assembly]; exact a.assembly_cells
  held_cells := by rw [h.held]; exact a.held_cells
  rq_cells := by rw [h.rq]; exact a.rq_cells
  tq_cells := by rw [h.tq]; exact a.tq_cells
  fill_cells := by rw [h.fill]; exact a.fill_cells
  flight_cells := by rw [h.flight.1]; exact a.flight_cells

theorem Chan.SameStores.bounds {c d : Chan} (h : c.SameStores d) (b : c.InBounds) : d.InBounds where
  cfg := by rw [h.cfg]; exact b.cfg
  rq := by rw [h.rq]; exact b.rq
  tq := by rw [h.tq]; exact b.tq
  ring := (h.monitor b.monitorFits).1
  held := by rw [h.held]; exact b.held
  fill := by rw [h.fill]; exact b.fill
  rxQuota := by rw [h.rxHolding, h.cfg]; exact b.rxQuota
  txQuota := by rw [h.txHolding, h.cfg]; exact b.txQuota
  persist := (h.monitor b.monitorFits).2.2

/-- An operation that leaves every packet in its place conserves. -/
theorem Lane.Conserves.of_same {l : Lane} {c : Chan} (gf : GFlags) (h : l.c.SameStores c) : l.Conserves { l with c := c, gf := gf } where
  state := rfl
  agree := h.agree
  perm _ := by
    show (l.pool.free ++ c.cells).Perm _
    rw [h.cells]
  init _ _ _ := rfl
  bounds := h.bounds
  mem := id

/-- A change of the monitor that keeps its bounds, of the aligner, counters and flags conserves. -/
theorem Chan.SameStores.of_monitor {c d : Chan}
    (h : d = { c with al := d.al, mon := d.mon, live := d.live, flags := d.flags, admin := d.admin })
    (hr : c.MonitorFits → d.MonitorFits) : c.SameStores d := by
  rw [h] at hr ⊢
  exact ⟨rfl, rfl, id, rfl, rfl, rfl, rfl, ⟨rfl, id⟩, rfl, rfl, hr⟩

/-- A change of the delineator that neither takes a packet into assembly nor leaves BODY. -/
theorem Chan.SameStores.of_delin {c d : Chan} (h : d = { c with del := d.del, live := d.live, flags := d.flags })
    (ha : d.del.assembly = c.del.assembly) (hb : d.del.state = .body ↔ c.del.state = .body) : c.SameStores d := by
  have hb' : (c.del.assembly.isSome ↔ c.del.state = .body) → (d.del.assembly.isSome ↔ d.del.state = .body) := by
    rw [ha, hb]
    exact id
  rw [h] at ha hb' ⊢
  exact ⟨rfl, ha, hb', rfl, rfl, rfl, rfl, ⟨rfl, id⟩, rfl, rfl, id⟩

/-! ### The receive side -/

theorem Chan.recordDue_fits (k : Causes) (v : Byte) (b : Bool) (c : Chan) (h : c.MonitorFits) : (c.recordDue k v b).MonitorFits := by
  unfold Chan.recordDue
  split
  · refine ⟨?_, h.2⟩
    show (c.mon.ring ++ _).length ≤ 16
    rw [List.length_append, List.length_singleton]
    omega
  · exact h

/-- A filter's count stays within its length (R38). -/
theorem Persist.step_count {α : Type} [DecidableEq α] {lim : Nat} (v : α) {p : Persist α} (h : 1 ≤ lim) (hp : p.count ≤ lim) :
    (p.step lim v).count ≤ lim := by
  unfold Persist.step
  dsimp only
  split_ifs <;> omega

/-- The packet in assembly gone back to the free list, with its delineator out of BODY. -/
theorem Lane.conserves_givenUp {l m : Lane} {d : RxDesc} (ha : l.c.del.assembly = some d) (hs : m.c.del.state ≠ .body)
    (hc : m.c = { l.c with
      del := m.c.del, rxHolding := l.c.rxHolding - d.chain.length, live := m.c.live, flags := m.c.flags })
    (hn : m.c.del.assembly = none) (hp : m.pool = { l.pool with free := l.pool.free ++ d.chain }) (hm : m.mem = l.mem) :
    l.Conserves m := by
  have rx : l.c.rxChains = d.chain ++ m.c.rxChains := by
    unfold Chan.rxChains
    rw [hc, ha]
    show _ = _ ++ ((m.c.del.assembly.map RxDesc.chain).getD [] ++ _ ++ _)
    rw [hn]
    simp
  have tx : m.c.txChains = l.c.txChains := by
    rw [hc]
    rfl
  have hh : m.c.rxHolding = l.c.rxHolding - d.chain.length := by rw [hc]
  refine ⟨by rw [hp], fun a => ?_, fun _ => ?_, fun _ _ c => ?_, fun b => ?_, by rw [hm]; exact id⟩
  · obtain ⟨a1, a2, a3, a4, a5, a6, a7, a8, a9, a10⟩ := a
    refine ⟨?_, ?_, ?_, ?_, ?_, ?_, ?_, ?_, ?_, ?_⟩
    · rw [hh, a1, rx, List.length_append]
      omega
    · rw [tx, ← a2, hc]
    · rw [hn]
      simp [hs]
    · rw [hc]
      exact a4
    · rw [hn]
      exact nofun
    · rw [hc]
      exact a6
    · rw [hc]
      exact a7
    · rw [hc]
      exact a8
    · rw [hc]
      exact a9
    · rw [hc]
      exact a10
  · rw [hp]
    unfold Chan.cells
    rw [rx, tx]
    simp
  · have hc : d.chain = [] := by
      unfold Chan.cells at c
      rw [rx] at c
      simp only [List.append_assoc, List.append_eq_nil_iff] at c
      exact c.1
    rw [hp, hc]
    simp
  · obtain ⟨b1, b2, b3, b4, b5, b6, b7, b8, b9⟩ := b
    rw [hc]
    exact ⟨b1, b2, b3, b4, b5, b6, (Nat.sub_le _ _).trans b7, b8, b9⟩

/-- The parse given up: a packet in assembly, if there is one, goes back to the free list. -/
theorem Lane.conserves_outcome {l m : Lane} (ho : l.c.abortOutcome m.c l.pool m.pool) (hs : m.c.del.state ≠ .body)
    (hn : m.c.del.assembly = none)
    (hc : m = { l with
      c := { l.c with del := m.c.del, rxHolding := m.c.rxHolding, live := m.c.live, flags := m.c.flags }, pool := m.pool }) :
    l.Conserves m := by
  unfold Chan.abortOutcome at ho
  cases ha : l.c.del.assembly with
  | none =>
    rw [ha] at ho
    obtain ⟨o1, o2, -, -⟩ := ho
    rw [hc, o1, o2]
    exact .of_same l.gf ⟨rfl, hn.trans ha.symm, fun _ => ⟨fun h => absurd (hn ▸ h) nofun, fun h => absurd h hs⟩, rfl, rfl, rfl, rfl, ⟨rfl, id⟩,
      rfl, rfl, id⟩
  | some d =>
    rw [ha] at ho
    obtain ⟨o1, o2, -, -⟩ := ho
    refine Lane.conserves_givenUp ha hs ?_ hn o1 (by rw [hc])
    rw [← o2]
    exact congrArg Lane.c hc

theorem Lane.delinHold_conserves (l : Lane) : l.Conserves l.delinHold := by
  by_cases h : l.c.del.state = .hold
  · rw [Lane.delinHold_of_hold h]
    exact .refl l
  · have hd := Lane.delinHold_del h
    refine Lane.conserves_outcome (Lane.delinHold_outcome h) (by rw [hd]; exact nofun) (by rw [hd]; rfl) ?_
    have hk := l.delinHold_kept
    generalize l.delinHold = m at hk
    rw [hk]

/-- An evaluation in SEEK keeps the packet in assembly where it is. -/
theorem Chan.seekEvaluate_same {c : Chan} (a b : Bool) (h : c.del.state ≠ .body) :
    c.SameStores (c.seekEvaluate a b) ∧ (c.seekEvaluate a b).del.state ≠ .body
      ∧ (c.seekEvaluate a b).del.assembly = c.del.assembly := by
  unfold Chan.seekEvaluate
  dsimp only
  split_ifs
  · exact ⟨.of_delin rfl rfl Iff.rfl, h, rfl⟩
  · exact ⟨.of_delin rfl rfl ⟨nofun, fun e => absurd e h⟩, nofun, rfl⟩
  · exact ⟨.of_delin rfl rfl Iff.rfl, h, rfl⟩
  · exact ⟨.of_delin rfl rfl Iff.rfl, h, rfl⟩
  · exact ⟨.of_delin rfl rfl Iff.rfl, h, rfl⟩

theorem Lane.offsetCompare_conserves (p : Option Nat) (q : Bool) (l : Lane) : l.Conserves (l.offsetCompare p q).1 := by
  by_cases h : fboAgrees l.c.del.latchedFbo.toNat p = true
  · rw [Lane.offsetCompare_agrees h]
    exact .of_same l.gf (.of_delin rfl rfl Iff.rfl)
  by_cases hm : l.c.del.mismatch + 1 < 2
  · rw [Lane.offsetCompare_first h hm]
    exact .of_same l.gf (.of_delin rfl rfl Iff.rfl)
  · rw [Lane.offsetCompare_second h hm]
    have h1 : l.Conserves (l.mapChan (Chan.bump .offmiss)) := .of_same l.gf (.of_delin rfl rfl Iff.rfl)
    refine h1.trans ?_
    generalize l.mapChan (Chan.bump .offmiss) = m
    have ho := m.abortAssembly_outcome
    have hk := m.abortAssembly_kept
    have h2 : m.Conserves (m.abortAssembly.mapChan fun c => { c with del := c.del.enter .seek }) := by
      generalize m.abortAssembly = n at ho hk
      refine Lane.conserves_outcome (Chan.abortOutcome_congr ho ⟨rfl, rfl, rfl, rfl⟩ ⟨rfl, rfl, rfl⟩) nofun ?_ ?_
      · rw [hk]
        rfl
      · rw [hk]
        rfl
    exact h2.trans (.of_same _ (Chan.seekEvaluate_same (c := { m.abortAssembly.c with del := m.abortAssembly.c.del.enter .seek }) false q nofun).1)

/-- A comparison after which the delineator stays with its parse leaves its state. -/
theorem Lane.offsetCompare_stays {p : Option Nat} {q : Bool} {l : Lane} (h : (l.offsetCompare p q).2 = true) :
    (l.offsetCompare p q).1.c.del.state = l.c.del.state := by
  by_cases ha : fboAgrees l.c.del.latchedFbo.toNat p = true
  · rw [Lane.offsetCompare_agrees ha]
    rfl
  by_cases hm : l.c.del.mismatch + 1 < 2
  · rw [Lane.offsetCompare_first ha hm]
    rfl
  · rw [Lane.offsetCompare_second ha hm] at h
    cases h

/-- R85: a granted claim takes the free list's head into the packet in assembly. -/
theorem Lane.acceptHeader_conserves (thr : Word) (len : Nat) {l : Lane} (hs : l.c.del.state = .header) :
    l.Conserves (l.acceptHeader thr len) := by
  unfold Lane.acceptHeader
  dsimp only
  split
  · rename_i hc
    obtain ⟨h1, h2, h3⟩ := (Lane.canClaim_iff ..).mp hc
    have asm (a : l.c.CellsAgree) : l.c.del.assembly = none := by
      rw [← Option.not_isSome_iff_eq_none, a.assembly_iff, hs]
      exact nofun
    have htake : (l.pool.free.take (cellsFor (l.c.cfg.storeLen len))).length = cellsFor (l.c.cfg.storeLen len) := by
      rw [List.length_take]
      omega
    refine ⟨rfl, fun a => ?_, fun a => ?_, fun _ i _ => ?_, fun b => ?_, id⟩
    · have hn := asm a
      obtain ⟨a1, a2, a3, a4, a5, a6, a7, a8, a9, a10⟩ := a
      refine ⟨?_, a2, by simp [Lane.mapChan], a4, ?_, a6, a7, a8, a9, a10⟩
      · show l.c.rxHolding + cellsFor _ = (l.pool.free.take _ ++ (l.c.held.map fun h => h.desc.chain).getD []
          ++ l.c.rq.flatMap RxDesc.chain).length
        rw [a1]
        unfold Chan.rxChains
        rw [hn]
        simp only [List.length_append, htake, Option.map_none, Option.getD_none, List.length_nil]
        omega
      · intro d hd
        obtain rfl := Option.some.inj hd
        exact htake
    · show (l.pool.free.drop _ ++ ((l.pool.free.take _ ++ (l.c.held.map fun h => h.desc.chain).getD []
        ++ l.c.rq.flatMap RxDesc.chain) ++ l.c.txChains)).Perm _
      unfold Chan.cells Chan.rxChains
      rw [asm a]
      simp only [Option.map_none, Option.getD_none, List.nil_append, List.append_assoc]
      rw [← List.append_assoc (l.pool.free.drop _)]
      refine List.Perm.trans (List.Perm.append_right _ List.perm_append_comm) ?_
      rw [List.take_append_drop]
    · rw [h1] at i
      cases i
    · obtain ⟨b1, b2, b3, b4, b5, b6, b7, b8, b9⟩ := b
      exact ⟨b1, b2, b3, b4, b5, b6, h3, b8, b9⟩
  · exact .of_same l.gf (.of_delin rfl rfl ⟨nofun, fun e => absurd (hs ▸ e) nofun⟩)

theorem Lane.actOnHeader_conserves (thr : Word) (len : Nat) {l : Lane} (hs : l.c.del.state = .header) :
    l.Conserves (l.actOnHeader thr len) := by
  unfold Lane.actOnHeader
  split
  · exact .of_same l.gf (.of_delin rfl rfl Iff.rfl)
  · exact Lane.acceptHeader_conserves thr len hs

theorem Lane.headerCompleted_conserves (thr : Word) (pos : Nat) (h : Word) {l : Lane} (hs : l.c.del.state = .header) :
    l.Conserves (l.headerCompleted thr pos h) := by
  unfold Lane.headerCompleted
  split_ifs
  · have hm := l.offsetCompare_conserves (predictAfter l.c.payloadLen (1 + headerLen h)) true
    dsimp only
    split
    · rename_i hy
      exact hm.trans (Lane.actOnHeader_conserves _ _ ((Lane.offsetCompare_stays hy).trans hs))
    · exact hm
  · exact Lane.actOnHeader_conserves _ _ hs
  · exact .of_same l.gf (.of_delin rfl rfl ⟨nofun, fun e => absurd (hs ▸ e) nofun⟩)

/-- R68: the completed packet's cells go to the receive queue or back to the free list. -/
theorem Lane.completePacket_conserves (l : Lane) : l.Conserves l.completePacket := by
  unfold Lane.completePacket
  cases ha : l.c.del.assembly with
  | none =>
    dsimp only
    exact .of_same l.gf ⟨rfl, rfl, fun _ => by
      show l.c.del.assembly.isSome ↔ DelState.header = .body
      rw [ha]
      exact ⟨nofun, nofun⟩, rfl, rfl, rfl, rfl, ⟨rfl, id⟩, rfl, rfl, id⟩
  | some d =>
    dsimp only
    split
    · rename_i hq
      unfold Lane.mapChan
      dsimp only
      rw [Chan.appendRx_eq]
      have rx : l.c.rxChains = d.chain ++ ((l.c.held.map fun h => h.desc.chain).getD [] ++ l.c.rq.flatMap RxDesc.chain) := by
        unfold Chan.rxChains
        rw [ha]
        simp
      refine ⟨rfl, fun a => ?_, fun _ => ?_, fun _ _ _ => rfl, fun b => ?_, id⟩
      · obtain ⟨a1, a2, a3, a4, a5, a6, a7, a8, a9, a10⟩ := a
        refine ⟨?_, a2, ⟨nofun, nofun⟩, a4, nofun, a6, ?_, a8, a9, a10⟩
        · show l.c.rxHolding = ([] ++ _ ++ (l.c.rq ++ [d]).flatMap RxDesc.chain).length
          rw [a1, rx]
          simp only [List.flatMap_append, List.flatMap_cons, List.flatMap_nil, List.length_append, List.length_nil]
          omega
        · intro x hx
          rcases List.mem_append.mp hx with hx | hx
          · exact a7 x hx
          · obtain rfl := List.mem_singleton.mp hx
            exact a5 x ha
      · show (l.pool.free ++ (([] ++ _ ++ (l.c.rq ++ [d]).flatMap RxDesc.chain) ++ l.c.txChains)).Perm _
        unfold Chan.cells
        rw [rx]
        refine List.Perm.append_left _ (List.Perm.append_right _ ?_)
        simp only [List.flatMap_append, List.flatMap_cons, List.flatMap_nil, List.nil_append, List.append_nil]
        rw [← List.append_assoc]
        exact List.perm_append_comm
      · obtain ⟨b1, b2, b3, b4, b5, b6, b7, b8, b9⟩ := b
        refine ⟨b1, ?_, b3, b4, b5, b6, b7, b8, b9⟩
        show (l.c.rq ++ [d]).length ≤ 32
        rw [List.length_append, List.length_singleton]
        omega
    · exact Lane.conserves_givenUp ha nofun rfl rfl rfl rfl

theorem Lane.storeBody_conserves (v : Byte) (l : Lane) : l.Conserves (l.storeBody v) := by
  unfold Lane.storeBody
  split
  · exact .refl l
  · split
    · have h : l.c.SameStores { l.c with del := { l.c.del with stored := l.c.del.stored + 1 } } := .of_delin rfl rfl Iff.rfl
      exact ⟨rfl, h.agree, fun _ => by rw [h.cells], fun _ _ _ => rfl, h.bounds, packetWrite_wf _ _ _⟩
    · exact .refl l

theorem Lane.bodyByte_conserves (v : Byte) (l : Lane) : l.Conserves (l.bodyByte v) := by
  have h1 : l.Conserves (l.storeBody v).consume := (l.storeBody_conserves v).trans (.of_same _ (.of_delin rfl rfl Iff.rfl))
  unfold Lane.bodyByte
  dsimp only
  split
  · exact h1.trans (Lane.completePacket_conserves _)
  · exact h1

theorem Lane.payloadByte_conserves (thr : Word) (pos : Nat) (v : Byte) (l : Lane) : l.Conserves (l.payloadByte thr pos v) := by
  unfold Lane.payloadByte
  split
  · exact .refl l
  · exact .refl l
  · rename_i hs
    split
    · exact .refl l
    · unfold Lane.headerByteIn
      split
      · exact .of_same l.gf (.of_delin rfl rfl Iff.rfl)
      · exact Lane.headerCompleted_conserves thr pos _ hs
  · split
    · exact .refl l
    · exact l.bodyByte_conserves v
  · rename_i hs
    split
    · exact .refl l
    · unfold Lane.skipByte
      dsimp only
      split
      · exact .of_same l.gf (.of_delin rfl rfl ⟨nofun, fun e => absurd (hs ▸ e) nofun⟩)
      · exact .of_same l.gf (.of_delin rfl rfl Iff.rfl)

theorem Lane.offsetPoint_conserves (low : Byte) (l : Lane) : l.Conserves (l.offsetPoint low) := by
  have h0 : l.Conserves (l.mapChan fun c => { c with del := { c.del with latchedFbo := mkWord c.del.fboHigh low } }) :=
    .of_same l.gf (.of_delin rfl rfl Iff.rfl)
  have hc (m : Lane) : m.Conserves m.offsetCheck := by
    unfold Lane.offsetCheck
    split
    · exact m.offsetCompare_conserves ..
    · exact m.offsetCompare_conserves ..
    · split
      · exact m.offsetCompare_conserves ..
      · exact .refl m
    · exact .refl m
    · exact .refl m
  unfold Lane.offsetPoint
  dsimp only
  split
  · exact h0
  · rename_i hs
    exact h0.trans (.of_same _ (Chan.seekEvaluate_same
      (c := { l.c with del := { l.c.del with latchedFbo := mkWord l.c.del.fboHigh low } }) true false (by
        show l.c.del.state ≠ .body
        rw [hs]
        exact nofun)).1)
  · exact h0.trans (hc _)
  · exact h0.trans (hc _)
  · exact h0.trans (hc _)

theorem Chan.overheadJudge_same (fchk : Byte) (c : Chan) : c.SameStores (c.overheadJudge fchk) := by
  refine .of_monitor ?_ ?_
  · have h := c.overheadJudge_kept fchk
    generalize c.overheadJudge fchk = d at h
    rw [h]
  · intro h
    have hj (d : Chan) (hc : d.cfg = c.cfg) (hm : d.mon.ring = c.mon.ring ∧ d.mon.stat = c.statAfter ∧ d.mon.label = c.labelAfter) :
        d.MonitorFits := by
      obtain ⟨h1, h2, h3, h4⟩ := h
      unfold Chan.MonitorFits
      rw [hc, hm.1, hm.2.1, hm.2.2]
      exact ⟨h1, h2, Persist.step_count _ h2 h3, Persist.step_count _ h2 h4⟩
    rw [Chan.overheadJudge_eq]
    dsimp only
    split <;> split
    · exact Chan.recordDue_fits _ _ _ _ (hj _ rfl ⟨rfl, rfl, rfl⟩)
    · exact hj _ rfl ⟨rfl, rfl, rfl⟩
    · exact Chan.recordDue_fits _ _ _ _ (hj _ rfl ⟨rfl, rfl, rfl⟩)
    · exact hj _ rfl ⟨rfl, rfl, rfl⟩

theorem Lane.overheadClose_conserves (fchk : Byte) (l : Lane) : l.Conserves (l.overheadClose fchk) := by
  have h1 : l.Conserves (l.mapChan (Chan.overheadJudge fchk)) := .of_same l.gf (l.c.overheadJudge_same fchk)
  unfold Lane.overheadClose
  dsimp only
  split_ifs
  · exact h1.trans (Lane.delinHold_conserves _)
  · refine h1.trans ?_
    generalize l.mapChan (Chan.overheadJudge fchk) = m
    unfold Lane.mapChan Chan.delinCarrierEnd
    split
    · rename_i hh
      have h2 : m.c.SameStores { m.c with del := m.c.del.enter .seek } := .of_delin rfl rfl ⟨nofun, fun e => absurd (hh ▸ e) nofun⟩
      exact Lane.Conserves.trans (.of_same m.gf h2) (.of_same m.gf (Chan.seekEvaluate_same (c := { m.c with del := m.c.del.enter .seek })
        true false nofun).1)
    · exact .refl m
  · exact h1

theorem Lane.actOnByte_conserves (thr : Word) (off : Nat) (v : Byte) (l : Lane) : l.Conserves (l.actOnByte thr off v) := by
  unfold Lane.actOnByte
  split
  · exact .refl l
  · exact .refl l
  · refine .of_same l.gf (.of_monitor rfl fun h => ?_)
    refine ⟨?_, h.2⟩
    show (if l.c.mon.entryFill then fillEntry l.c.mon.entrySeq v l.c.mon.ring else l.c.mon.ring).length ≤ 16
    split
    · unfold fillEntry
      rw [List.length_map]
      exact h.1
    · exact h.1
  · exact .of_same l.gf (.of_monitor rfl id)
  · exact .of_same l.gf (.of_delin rfl rfl Iff.rfl)
  · exact l.offsetPoint_conserves v
  · exact .of_same l.gf (.of_monitor rfl id)
  · exact l.overheadClose_conserves v
  · exact l.payloadByte_conserves ..

theorem Lane.deliverByte_conserves (thr : Word) (off : Nat) (v : Byte) (l : Lane) : l.Conserves (l.deliverByte thr off v) := by
  have h : l.Conserves ((l.mapChan (Chan.monitorXor v)).actOnByte thr off v) :=
    Lane.Conserves.trans (.of_same l.gf (.of_monitor (d := l.c.monitorXor v) rfl id)) (Lane.actOnByte_conserves thr off v _)
  unfold Lane.deliverByte
  dsimp only
  split
  · exact h.trans (.of_same _ ⟨rfl, rfl, id, rfl, rfl, rfl, rfl, ⟨rfl, id⟩, rfl, rfl, id⟩)
  · exact h

theorem Chan.monitorLeave_same (c : Chan) : c.SameStores c.flagAlign.monitorLeave := by
  refine .of_monitor ?_ ?_
  · have h := c.flagAlign.monitorLeave_kept
    generalize c.flagAlign.monitorLeave = d at h
    rw [h]
    rfl
  · intro h
    unfold Chan.monitorLeave
    dsimp only
    split <;> exact Chan.recordDue_fits _ _ _ _ ⟨h.1, h.2.1, Nat.zero_le _, Nat.zero_le _⟩

theorem Lane.leaveLocked_conserves (l : Lane) : l.Conserves l.leaveLocked :=
  Lane.Conserves.trans (.of_same l.gf l.c.monitorLeave_same) (Lane.delinHold_conserves _)

theorem Lane.loseAlignment_conserves (l : Lane) : l.Conserves l.loseAlignment :=
  Lane.Conserves.trans (.of_same l.gf (.of_monitor (d := l.c.bump .alignloss) rfl id)) (Lane.leaveLocked_conserves _)

/-- A change of the aligner alone conserves. -/
theorem Lane.conserves_al (l : Lane) (a : Aligner) : l.Conserves { l with c := { l.c with al := a } } :=
  .of_same l.gf (.of_monitor rfl id)

theorem Chan.enterLocked_same (c : Chan) : c.SameStores c.enterLocked := by
  unfold Chan.enterLocked
  dsimp only
  have h1 : c.SameStores { c with al := { c.al with state := .locked, missCount := 0, verifyCount := 0 } }.flagAlign.monitorEnter := by
    refine .of_monitor ?_ ?_
    · unfold Chan.monitorEnter Chan.recordDue
      dsimp only
      split <;> rfl
    · intro h
      exact Chan.recordDue_fits _ _ _ _ ⟨h.1, h.2.1, Nat.zero_le _, Nat.zero_le _⟩
  generalize { c with al := { c.al with state := .locked, missCount := 0, verifyCount := 0 } }.flagAlign.monitorEnter = d at h1
  unfold Chan.delinLockedEntered
  obtain ⟨a1, a2, a3, a4, a5, a6, a7, a8, a9, a10, a11⟩ := h1
  split
  · rename_i hh
    refine ⟨a1, a2, fun e => ?_, a4, a5, a6, a7, a8, a9, a10, a11⟩
    have := a3 e
    rw [hh] at this
    exact ⟨fun e => absurd (this.mp e) nofun, nofun⟩
  · exact ⟨a1, a2, a3, a4, a5, a6, a7, a8, a9, a10, a11⟩

theorem Lane.verifyComparison_conserves (l : Lane) : l.Conserves (l.mapChan Chan.verifyComparison) := by
  refine .of_same l.gf ?_
  unfold Chan.verifyComparison
  split_ifs
  · exact l.c.enterLocked_same
  · exact .of_monitor rfl id
  · exact .of_monitor rfl id

theorem Lane.lockedComparison_conserves (l : Lane) : l.Conserves l.lockedComparison := by
  unfold Lane.lockedComparison
  split_ifs
  · exact .of_same l.gf (.of_monitor rfl id)
  · exact l.loseAlignment_conserves.trans (Lane.conserves_al _ _)
  · exact .of_same l.gf (.of_monitor rfl id)

/-- A rising edge of the aligner's clock conserves. -/
theorem Lane.risingEdge_conserves (g : Globals) (b : Bool) (l : Lane) : l.Conserves (l.risingEdge g b) := by
  have ht (x : Bool) : l.Conserves (l.trackBit g x) := by
    unfold Lane.trackBit
    dsimp only
    have h0 := l.conserves_al { l.c.al.takeBit g.tsil x with
      bitPos := if l.c.al.bitPos + 1 = 8 * l.c.cfg.flen.toNat then 0 else l.c.al.bitPos + 1 }
    split_ifs
    · exact h0.trans (Lane.lockedComparison_conserves _)
    · exact h0.trans (Lane.verifyComparison_conserves _)
    · exact h0.trans (Lane.deliverByte_conserves _ _ _ _)
    · exact h0
  unfold Lane.risingEdge
  split
  · unfold Lane.receiveBit
    split
    · exact .refl l
    · exact l.conserves_al _
    · exact l.conserves_al _
    · exact ht _
    · exact ht _
  · exact .refl l

theorem Lane.silenceExpiry_conserves (l : Lane) : l.Conserves l.silenceExpiry := by
  unfold Lane.silenceExpiry
  split
  · exact .refl l
  · exact .refl l
  · exact l.conserves_al _
  · exact l.conserves_al _
  · exact l.loseAlignment_conserves.trans (Lane.conserves_al _ _)

theorem Lane.silenceTick_conserves (l : Lane) : l.Conserves l.silenceTick := by
  unfold Lane.silenceTick
  split
  · exact .refl l
  · split
    · exact l.silenceExpiry_conserves
    · exact l.conserves_al _

theorem Lane.alignerStop_conserves (l : Lane) : l.Conserves l.alignerStop := by
  unfold Lane.alignerStop
  split
  · exact l.leaveLocked_conserves.trans (Lane.conserves_al _ _)
  · exact l.conserves_al _

end Sys2Proof.Machine
end

