-- ==== Sys2Proof/Laws/CellsSent.lean ====
section
/-! SUPPORT. What each operation of the transmit side conserves. -/

namespace Sys2Proof.Machine

open Sys2Proof

/-- With no packet in flight only an idle header is owed. -/
theorem Framer.flightAgrees_none {f : Framer} (h : f.inflight = none) : f.FlightAgrees ↔ f.owed = 0 ∨ f.kind = .idleHeader := by
  unfold Framer.FlightAgrees
  rw [h]

/-- A packet in flight is within its header or its body. -/
theorem Framer.flightAgrees_some {f : Framer} {p : InFlight} (h : f.inflight = some p) : f.FlightAgrees ↔
    f.mode = .normal ∧ 1 ≤ p.desc.len ∧
      ((f.kind = .packetHeader ∧ p.cursor = 0 ∧ (f.owed = p.desc.len + 2 ∨ f.owed = p.desc.len + 1))
        ∨ (f.kind = .packetBody ∧ 1 ≤ f.owed ∧ p.cursor + f.owed = p.desc.len)) := by
  unfold Framer.FlightAgrees
  rw [h]

/-- A change of the framer that keeps the flight in agreement, with the counters and flags. -/
theorem Chan.SameStores.of_framer {c d : Chan} (h : d = { c with fr := d.fr, live := d.live, flags := d.flags, admin := d.admin })
    (hi : d.fr.inflight = c.fr.inflight) (hf : c.fr.FlightAgrees → d.fr.FlightAgrees) : c.SameStores d := by
  rw [h] at hi hf ⊢
  exact ⟨rfl, rfl, id, rfl, rfl, rfl, rfl, ⟨hi, hf⟩, rfl, rfl, id⟩

/-- Bits, bytes, checks and timers of the framer are no part of the flight's agreement. -/
theorem Framer.FlightAgrees.congr {f g : Framer} (h : f.FlightAgrees) (hi : g.inflight = f.inflight) (ho : g.owed = f.owed)
    (hk : g.kind = f.kind) (hm : g.mode = f.mode) : g.FlightAgrees := by
  unfold Framer.FlightAgrees at h ⊢
  rw [hi, ho, hk, hm]
  exact h

theorem Chan.SameStores.of_framer_congr {c d : Chan} (h : d = { c with fr := d.fr, live := d.live, flags := d.flags, admin := d.admin })
    (hi : d.fr.inflight = c.fr.inflight) (ho : d.fr.owed = c.fr.owed) (hk : d.fr.kind = c.fr.kind) (hm : d.fr.mode = c.fr.mode) :
    c.SameStores d := .of_framer h hi fun a => a.congr hi ho hk hm

theorem Chan.frameStart_same (c : Chan) : c.SameStores c.frameStart := by
  have h1 : c.SameStores c.applyModeRules := by
    unfold Chan.applyModeRules
    split
    · split
      · rename_i hc
        refine .of_framer rfl rfl fun _ => ?_
        show Framer.FlightAgrees { c.fr with mode := .alarm, owed := 0, kind := .idleHeader }
        unfold Framer.FlightAgrees
        rw [hc.2]
        exact .inl rfl
      · exact .of_framer rfl rfl id
    · rename_i hm
      split
      · refine .of_framer rfl rfl fun a => ?_
        show Framer.FlightAgrees { c.fr with mode := .normal, owed := 0, kind := .idleHeader }
        unfold Framer.FlightAgrees at a ⊢
        cases hi : c.fr.inflight with
        | none => exact .inl rfl
        | some p =>
          rw [hi] at a
          exact absurd (hm ▸ a.1) nofun
      · exact .of_framer rfl rfl id
  unfold Chan.frameStart
  dsimp only
  generalize c.applyModeRules = m at h1
  obtain ⟨a1, a2, a3, a4, a5, a6, a7, a8, a9, a10, a11⟩ := h1
  exact ⟨a1, a2, a3, a4, a5, a6, a7, ⟨a8.1, fun f => (a8.2 f).congr rfl rfl rfl rfl⟩, a9, a10, a11⟩

/-- R121: with no byte owed, the head of the queue goes into flight or an idle block is owed. -/
theorem Lane.blockBoundary_conserves {l : Lane} (ho : l.c.fr.owed = 0) (hm : l.c.fr.mode = .normal) : l.Conserves (l.mapChan Chan.blockBoundary) := by
  have free (a : l.c.fr.FlightAgrees) : l.c.fr.inflight = none := by
    unfold Framer.FlightAgrees at a
    cases hi : l.c.fr.inflight with
    | none => rfl
    | some p =>
      rw [hi] at a
      obtain ⟨-, a1, ⟨-, -, a2⟩ | ⟨-, a2, -⟩⟩ := a <;> omega
  have idle : l.Conserves { l with c := { l.c with fr := { l.c.fr with owed := 2, kind := .idleHeader } } } := by
    refine .of_same l.gf (.of_framer rfl rfl fun a => ?_)
    have hn := free a
    unfold Framer.FlightAgrees
    show match l.c.fr.inflight with | none => _ | some p => _
    rw [hn]
    exact .inr rfl
  unfold Lane.mapChan Chan.blockBoundary
  split
  · exact idle
  · rename_i d rest hq
    split
    · have chains (hn : l.c.fr.inflight = none) :
          l.c.txChains = d.chain ++ (rest.flatMap TxDesc.chain ++ (l.c.fill.map FillPkt.chain).getD []) := by
        unfold Chan.txChains
        rw [hq, hn]
        simp
      refine ⟨rfl, fun a => ?_, fun a => ?_, fun _ _ _ => rfl, fun b => ?_, id⟩
      · have hn := free a.flight
        obtain ⟨a1, a2, a3, a4, a5, a6, a7, a8, a9, a10⟩ := a
        obtain ⟨d1, d2⟩ := a8 d (by rw [hq]; exact List.mem_cons_self)
        refine ⟨a1, ?_, a3, ?_, a5, a6, a7, fun x hx => a8 x (by rw [hq]; exact List.mem_cons_of_mem _ hx), a9, ?_⟩
        · rw [a2, chains hn]
          show _ = (d.chain ++ rest.flatMap TxDesc.chain ++ _).length
          rw [List.append_assoc]
        · exact ⟨hm, d1, .inl ⟨rfl, rfl, .inl rfl⟩⟩
        · rintro p ⟨⟩
          exact d2
      · unfold Chan.cells
        rw [chains (free a.flight)]
        show (_ ++ (_ ++ (d.chain ++ rest.flatMap TxDesc.chain ++ _))).Perm _
        rw [List.append_assoc d.chain]
        exact .refl _
      · obtain ⟨b1, b2, b3, b4, b5, b6, b7, b8, b9⟩ := b
        refine ⟨b1, b2, ?_, b4, b5, b6, b7, b8, b9⟩
        have : l.c.tq.length = rest.length + 1 := by rw [hq]; rfl
        show rest.length ≤ 16
        omega
    · exact idle

theorem Lane.loadByte_conserves (off : Nat) (l : Lane) : l.Conserves (l.loadByte off) := by
  have out (m : Lane) (v : Byte) : m.Conserves (m.mapChan fun c => { c with fr := { c.fr with outByte := v } }) :=
    .of_same m.gf (.of_framer_congr rfl rfl rfl rfl rfl)
  unfold Lane.loadByte
  split
  · exact .of_same l.gf (.of_framer_congr rfl rfl rfl rfl rfl)
  · split
    · exact out l _
    · rename_i hm
      dsimp only
      split
      · rename_i ho
        exact (Lane.blockBoundary_conserves ho hm).trans (out _ _)
      · exact out l _

/-- R123: the in-flight packet's chain goes back to the free list. -/
theorem Lane.endFlight_conserves {l m : Lane} {p : InFlight} (hi : l.c.fr.inflight = some p)
    (hc : m.c = { l.c with
      fr := m.c.fr, txHolding := l.c.txHolding - p.desc.chain.length, live := m.c.live, flags := m.c.flags, admin := m.c.admin })
    (hn : m.c.fr.inflight = none) (ho : m.c.fr.owed = 0)
    (hp : m.pool = { l.pool with free := l.pool.free ++ p.desc.chain }) (hm : m.mem = l.mem) : l.Conserves m := by
  have tx : l.c.txChains = p.desc.chain ++ m.c.txChains := by
    unfold Chan.txChains
    rw [hc, hi]
    show _ = _ ++ ((m.c.fr.inflight.map _).getD [] ++ _ ++ _)
    rw [hn]
    simp
  have rx : m.c.rxChains = l.c.rxChains := by
    rw [hc]
    rfl
  have hh : m.c.txHolding = l.c.txHolding - p.desc.chain.length := by rw [hc]
  refine ⟨by rw [hp], fun a => ?_, fun _ => ?_, fun _ _ c => ?_, fun b => ?_, by rw [hm]; exact id⟩
  · obtain ⟨a1, a2, a3, a4, a5, a6, a7, a8, a9, a10⟩ := a
    refine ⟨?_, ?_, ?_, ?_, ?_, ?_, ?_, ?_, ?_, ?_⟩
    · rw [rx, ← a1, hc]
    · rw [hh, a2, tx, List.length_append]
      omega
    · rw [hc]
      exact a3
    · unfold Framer.FlightAgrees
      rw [hn]
      exact .inl ho
    · rw [hc]
      exact a5
    · rw [hc]
      exact a6
    · rw [hc]
      exact a7
    · rw [hc]
      exact a8
    · rw [hc]
      exact a9
    · rw [hn]
      exact nofun
  · rw [hp]
    unfold Chan.cells
    rw [rx, tx]
    show (l.pool.free ++ p.desc.chain ++ (l.c.rxChains ++ m.c.txChains)).Perm (l.pool.free ++ (l.c.rxChains ++ (p.desc.chain ++ m.c.txChains)))
    rw [List.append_assoc]
    refine List.Perm.append_left _ ?_
    rw [← List.append_assoc, ← List.append_assoc]
    exact List.perm_append_comm.append_right _
  · have hc : p.desc.chain = [] := by
      unfold Chan.cells at c
      rw [tx] at c
      simp only [List.append_eq_nil_iff] at c
      exact c.2.1
    rw [hp, hc]
    simp
  · obtain ⟨b1, b2, b3, b4, b5, b6, b7, b8, b9⟩ := b
    rw [hc]
    exact ⟨b1, b2, b3, b4, b5, b6, b7, (Nat.sub_le _ _).trans b8, b9⟩

theorem Lane.streamByteSent_conserves (l : Lane) : l.Conserves l.streamByteSent := by
  cases hk : l.c.fr.kind with
  | idleHeader =>
    unfold Lane.streamByteSent
    rw [hk]
    refine .of_same l.gf (.of_framer rfl rfl fun a => ?_)
    cases hi : l.c.fr.inflight with
    | none => exact (Framer.flightAgrees_none (f := { l.c.fr with owed := l.c.fr.owed - 1 }) hi).mpr (.inr hk)
    | some p =>
      obtain ⟨-, -, ⟨a1, -⟩ | ⟨a1, -⟩⟩ := (Framer.flightAgrees_some hi).mp a <;> exact absurd (hk ▸ a1) nofun
  | packetHeader =>
    unfold Lane.streamByteSent
    rw [hk]
    refine .of_same l.gf (.of_framer rfl rfl fun a => ?_)
    cases hi : l.c.fr.inflight with
    | none =>
      unfold Framer.FlightAgrees
      dsimp only
      rw [hi]
      dsimp only
      rcases (Framer.flightAgrees_none hi).mp a with a | a
      · exact .inl (by show l.c.fr.owed - 1 = 0; omega)
      · exact absurd (hk ▸ a) nofun
    | some p =>
      obtain ⟨a1, a2, ⟨-, a4, a5⟩ | ⟨a3, -⟩⟩ := (Framer.flightAgrees_some hi).mp a
      · unfold Framer.FlightAgrees
        dsimp only
        rw [hi]
        refine ⟨a1, a2, ?_⟩
        dsimp only
        by_cases h : l.c.fr.owed - 1 = p.desc.len
        · rw [if_pos h]
          exact .inr ⟨rfl, by omega, by omega⟩
        · rw [if_neg h]
          exact .inl ⟨rfl, a4, by omega⟩
      · exact absurd (hk ▸ a3) nofun
  | packetBody =>
    by_cases ho : l.c.fr.owed - 1 = 0
    · rw [Lane.streamByteSent_last hk ho]
      cases hi : l.c.fr.inflight with
      | none =>
        have hn : l.c.fr.inflight.map (fun p : InFlight => ({ p with cursor := p.cursor + 1 } : InFlight)) = none := by rw [hi]; rfl
        rw [Lane.packetEnd_of_none hn]
        exact .of_same l.gf (.of_framer rfl (hn.trans hi.symm) fun _ => (Framer.flightAgrees_none hn).mpr (.inl ho))
      | some p =>
        have hn : l.c.fr.inflight.map (fun p : InFlight => ({ p with cursor := p.cursor + 1 } : InFlight)) = some ⟨p.desc, p.cursor + 1⟩ := by
          rw [hi]; rfl
        rw [Lane.packetEnd_of_some (p := ⟨p.desc, p.cursor + 1⟩) hn]
        exact Lane.endFlight_conserves hi rfl rfl ho rfl rfl
    · rw [Lane.streamByteSent_body hk ho]
      cases hi : l.c.fr.inflight with
      | none =>
        have hn : l.c.fr.inflight.map (fun p : InFlight => ({ p with cursor := p.cursor + 1 } : InFlight)) = none := by rw [hi]; rfl
        refine .of_same l.gf (.of_framer rfl (hn.trans hi.symm) fun a => ?_)
        rcases (Framer.flightAgrees_none hi).mp a with a | a
        · omega
        · exact absurd (hk ▸ a) nofun
      | some p =>
        have hn : l.c.fr.inflight.map (fun p : InFlight => ({ p with cursor := p.cursor + 1 } : InFlight)) = some ⟨p.desc, p.cursor + 1⟩ := by
          rw [hi]; rfl
        have tx : ({ l.c with fr := { l.c.fr with
            owed := l.c.fr.owed - 1, inflight := some ⟨p.desc, p.cursor + 1⟩ } } : Chan).txChains = l.c.txChains := by
          unfold Chan.txChains
          rw [hi]
          rfl
        unfold Lane.mapChan
        dsimp only
        rw [hn]
        refine ⟨rfl, fun a => ?_, fun _ => ?_, fun _ _ _ => rfl, fun b => ?_, id⟩
        · obtain ⟨a1, a2, a3, a4, a5, a6, a7, a8, a9, a10⟩ := a
          refine ⟨a1, by rw [tx]; exact a2, a3, ?_, a5, a6, a7, a8, a9, ?_⟩
          · obtain ⟨b1, b2, ⟨b3, -⟩ | ⟨b3, b4, b5⟩⟩ := (Framer.flightAgrees_some hi).mp a4
            · exact absurd (hk ▸ b3) nofun
            · refine (Framer.flightAgrees_some (p := ⟨p.desc, p.cursor + 1⟩) rfl).mpr ⟨b1, b2, .inr ⟨hk, ?_, ?_⟩⟩
              · show 1 ≤ l.c.fr.owed - 1
                omega
              · show p.cursor + 1 + (l.c.fr.owed - 1) = p.desc.len
                omega
          · rintro q ⟨⟩
            exact a10 p hi
        · unfold Chan.cells
          rw [tx]
          exact .refl _
        · obtain ⟨b1, b2, b3, b4, b5, b6, b7, b8, b9⟩ := b
          exact ⟨b1, b2, b3, b4, b5, b6, b7, b8, b9⟩

theorem Lane.byteSent_conserves (off : Nat) (l : Lane) : l.Conserves (l.byteSent off) := by
  have h0 : l.Conserves (l.mapChan fun c => { c with fr := { c.fr with runXor := c.fr.runXor ^^^ c.fr.outByte } }) :=
    .of_same l.gf (.of_framer_congr rfl rfl rfl rfl rfl)
  unfold Lane.byteSent
  dsimp only
  split
  · rename_i h
    exact h0.trans (Lane.streamByteSent_conserves _)
  · exact h0

theorem Lane.presentNext_conserves (pos : Nat) (l : Lane) : l.Conserves (l.presentNext pos) := by
  have h0 : l.Conserves (if pos % 8 = 0 then l.loadByte (pos / 8) else l) := by
    split
    · exact l.loadByte_conserves _
    · exact .refl l
  unfold Lane.presentNext
  dsimp only
  generalize (if pos % 8 = 0 then l.loadByte (pos / 8) else l) = m at h0
  have h1 : l.Conserves (m.mapChan fun c => { c with fr := { c.fr.presentBit (pos % 8) with bitPos := some (pos + 1) } }) :=
    h0.trans (.of_same m.gf (.of_framer_congr rfl rfl rfl rfl rfl))
  generalize (m.mapChan fun c => { c with fr := { c.fr.presentBit (pos % 8) with bitPos := some (pos + 1) } }) = n at h1
  split
  · split
    · exact (h1.trans (n.byteSent_conserves _)).trans (.of_same _ (.of_framer_congr rfl rfl rfl rfl rfl))
    · exact h1.trans (n.byteSent_conserves _)
  · exact h1

/-- A falling edge of the transmit clock conserves. -/
theorem Lane.fallingEdge_conserves (l : Lane) : l.Conserves l.fallingEdge := by
  unfold Lane.fallingEdge
  split
  · split
    · exact Lane.Conserves.trans (.of_same l.gf l.c.frameStart_same) (Lane.presentNext_conserves _ _)
    · exact l.presentNext_conserves _
  · exact .of_same l.gf (.of_framer_congr rfl rfl rfl rfl rfl)

/-- The end of a drain conserves. -/
theorem Chan.stopped_same (c : Chan) (a : Admin) : c.SameStores { c with admin := a, fr := c.fr.stop } :=
  .of_framer_congr rfl rfl rfl rfl rfl

theorem Lane.abandonDrain_conserves (b : Bool) (l : Lane) : l.Conserves (l.abandonDrain b) := by
  unfold Lane.abandonDrain
  cases hi : l.c.fr.inflight with
  | none =>
    exact .of_same l.gf (.of_framer rfl (by rw [hi]) fun _ => .inl rfl)
  | some p => exact Lane.endFlight_conserves hi rfl rfl rfl rfl rfl

end Sys2Proof.Machine
end

