-- ==== Sys2Proof/Laws/CellsCommands.lean ====
section
/-! SUPPORT. What each command and each port access conserves, and the laws of the whole part kept by a change of one
lane that conserves. -/

namespace Sys2Proof.Machine

open Sys2Proof

/-- Packets given back: what they held goes to the free list's tail. -/
theorem Lane.conserves_back {l m : Lane} {chain : List CellNo} (rx : l.c.CellsAgree → l.c.cells.Perm (chain ++ m.c.cells))
    (agree : l.c.CellsAgree → m.c.CellsAgree) (bounds : l.c.InBounds → m.c.InBounds)
    (hp : m.pool = { l.pool with free := l.pool.free ++ chain }) (hm : m.mem = l.mem) : l.Conserves m := by
  refine ⟨by rw [hp], agree, fun a => ?_, fun a _ c => ?_, bounds, by rw [hm]; exact id⟩
  · rw [hp]
    show (l.pool.free ++ chain ++ m.c.cells).Perm _
    rw [List.append_assoc]
    exact (rx a).symm.append_left _
  · have := rx a
    rw [c] at this
    have h := this.symm.eq_nil
    rw [hp, (List.append_eq_nil_iff.mp h).1]
    simp

/-- RX_RELEASE (R99). -/
theorem Lane.rxRelease_conserves {l : Lane} {h : Held} (hh : l.c.held = some h) :
    l.Conserves ((l.returnChain .rx h.desc.chain).mapChan fun c => { c with held := none }) := by
  refine Lane.conserves_back (chain := h.desc.chain) (fun a => ?_) (fun a => ?_) (fun b => ?_) rfl rfl
  · refine List.perm_iff_count.mpr fun x => ?_
    simp [Chan.cells, Chan.rxChains, Chan.txChains, hh, List.count_append]
    omega
  · obtain ⟨a1, a2, a3, a4, a5, a6, a7, a8, a9, a10⟩ := a
    refine ⟨?_, a2, a3, a4, a5, nofun, a7, a8, a9, a10⟩
    show l.c.rxHolding - h.desc.chain.length = _
    rw [a1]
    simp [Chan.rxChains, hh]
    omega
  · obtain ⟨b1, b2, b3, b4, b5, b6, b7, b8, b9⟩ := b
    exact ⟨b1, b2, b3, b4, nofun, b6, (Nat.sub_le _ _).trans b7, b8, b9⟩

/-- RX_SKIP (R100). -/
theorem Lane.rxSkip_conserves {l : Lane} {d : RxDesc} {rest : List RxDesc} (hh : l.c.rq = d :: rest) :
    l.Conserves ((l.returnChain .rx d.chain).mapChan fun c => { c with rq := rest }) := by
  refine Lane.conserves_back (chain := d.chain) (fun a => ?_) (fun a => ?_) (fun b => ?_) rfl rfl
  · refine List.perm_iff_count.mpr fun x => ?_
    simp [Chan.cells, Chan.rxChains, Chan.txChains, hh, List.count_append]
    omega
  · obtain ⟨a1, a2, a3, a4, a5, a6, a7, a8, a9, a10⟩ := a
    refine ⟨?_, a2, a3, a4, a5, a6, fun x hx => a7 x (by rw [hh]; exact List.mem_cons_of_mem _ hx), a8, a9, a10⟩
    show l.c.rxHolding - d.chain.length = _
    rw [a1]
    simp [Chan.rxChains, hh]
    omega
  · obtain ⟨b1, b2, b3, b4, b5, b6, b7, b8, b9⟩ := b
    refine ⟨b1, ?_, b3, b4, b5, b6, (Nat.sub_le _ _).trans b7, b8, b9⟩
    rw [hh] at b2
    exact (Nat.le_succ _).trans b2

/-- RX_OPEN (R98). -/
theorem Lane.rxOpen_conserves {l : Lane} {d : RxDesc} {rest : List RxDesc} (hn : l.c.held = none) (hh : l.c.rq = d :: rest) :
    l.Conserves { l with c := { l.c with rq := rest, held := some ⟨d, 0⟩ } } := by
  refine Lane.conserves_back (chain := []) (fun a => ?_) (fun a => ?_) (fun b => ?_) (by simp) rfl
  · refine List.perm_iff_count.mpr fun x => ?_
    simp [Chan.cells, Chan.rxChains, Chan.txChains, hh, hn, List.count_append]
  · obtain ⟨a1, a2, a3, a4, a5, a6, a7, a8, a9, a10⟩ := a
    refine ⟨?_, a2, a3, a4, a5, ?_, fun x hx => a7 x (by rw [hh]; exact List.mem_cons_of_mem _ hx), a8, a9, a10⟩
    · show l.c.rxHolding = _
      rw [a1]
      simp [Chan.rxChains, hh, hn]
    · rintro x ⟨⟩
      exact a7 d (by rw [hh]; exact List.mem_cons_self)
  · obtain ⟨b1, b2, b3, b4, b5, b6, b7, b8, b9⟩ := b
    refine ⟨b1, ?_, b3, b4, ?_, b6, b7, b8, b9⟩
    · rw [hh] at b2
      exact (Nat.le_succ _).trans b2
    · rintro x ⟨⟩
      exact Nat.zero_le _

/-- TX_ALLOC's claim (R112). -/
theorem Lane.txAlloc_conserves (thr : Word) {l : Lane} {len : Nat} (hl : 1 ≤ len ∧ len ≤ 4095) (hf : l.c.fill = none)
    (hc : l.canClaim .tx (cellsFor len) = true) :
    l.Conserves ((l.grant thr .tx (cellsFor len)).mapChan fun c => { c with fill := some ⟨len, 0, l.claimed (cellsFor len)⟩ }) := by
  obtain ⟨h1, h2, h3⟩ := (Lane.canClaim_iff ..).mp hc
  have htake : (l.pool.free.take (cellsFor len)).length = cellsFor len := by
    rw [List.length_take]
    omega
  refine ⟨rfl, fun a => ?_, fun a => ?_, fun _ i => ?_, fun b => ?_, id⟩
  · obtain ⟨a1, a2, a3, a4, a5, a6, a7, a8, a9, a10⟩ := a
    refine ⟨a1, ?_, a3, a4, a5, a6, a7, a8, ?_, a10⟩
    · show l.c.txHolding + _ = _
      rw [a2]
      simp only [Chan.txChains, hf, Lane.mapChan, Lane.grant, Lane.claimed, Chan.setHolding, List.length_append, Option.map_none,
        Option.map_some, Option.getD_some, Option.getD_none, List.length_nil, htake]
      omega
    · rintro x ⟨⟩
      exact ⟨hl.1, htake⟩
  · refine List.perm_iff_count.mpr fun x => ?_
    have := congrArg (List.count x) (List.take_append_drop (cellsFor len) l.pool.free)
    rw [List.count_append] at this
    simp [Chan.cells, Chan.rxChains, Chan.txChains, Lane.claimed, hf, List.count_append]
    omega
  · rw [h1] at i
    cases i
  · obtain ⟨b1, b2, b3, b4, b5, b6, b7, b8, b9⟩ := b
    refine ⟨b1, b2, b3, b4, b5, ?_, b7, h3, b9⟩
    rintro x ⟨⟩
    exact ⟨hl.1, hl.2, Nat.zero_le _⟩

/-- TX_SUBMIT (R115). -/
theorem Lane.txSubmit_conserves {l : Lane} {f : FillPkt} (w : Word) (hf : l.c.fill = some f) (hq : l.c.tq.length < 16) :
    l.Conserves { l with c := { l.c with tq := l.c.tq ++ [⟨l.c.nextTxseq, f.len, f.chain⟩], fill := none, nextTxseq := w } } := by
  refine Lane.conserves_back (chain := []) (fun a => ?_) (fun a => ?_) (fun b => ?_) (by simp) rfl
  · refine List.perm_iff_count.mpr fun x => ?_
    simp [Chan.cells, Chan.rxChains, Chan.txChains, hf, List.count_append]
  · obtain ⟨a1, a2, a3, a4, a5, a6, a7, a8, a9, a10⟩ := a
    refine ⟨a1, ?_, a3, a4, a5, a6, a7, ?_, nofun, a10⟩
    · show l.c.txHolding = _
      rw [a2]
      simp [Chan.txChains, hf]
    · intro x hx
      rcases List.mem_append.mp hx with hx | hx
      · exact a8 x hx
      · obtain rfl := List.mem_singleton.mp hx
        exact a9 f hf
  · obtain ⟨b1, b2, b3, b4, b5, b6, b7, b8, b9⟩ := b
    refine ⟨b1, b2, ?_, b4, b5, nofun, b7, b8, b9⟩
    show (l.c.tq ++ [_]).length ≤ 16
    rw [List.length_append]
    exact hq

/-- TX_CANCEL (R116). -/
theorem Lane.txCancel_conserves {l : Lane} {f : FillPkt} (hf : l.c.fill = some f) :
    l.Conserves ((l.returnChain .tx f.chain).mapChan fun c => { c with fill := none }) := by
  refine Lane.conserves_back (chain := f.chain) (fun a => ?_) (fun a => ?_) (fun b => ?_) rfl rfl
  · refine List.perm_iff_count.mpr fun x => ?_
    simp [Chan.cells, Chan.rxChains, Chan.txChains, hf, List.count_append]
    omega
  · obtain ⟨a1, a2, a3, a4, a5, a6, a7, a8, a9, a10⟩ := a
    refine ⟨a1, ?_, a3, a4, a5, a6, a7, a8, nofun, a10⟩
    show l.c.txHolding - f.chain.length = _
    rw [a2]
    simp [Chan.txChains, hf]
    omega
  · obtain ⟨b1, b2, b3, b4, b5, b6, b7, b8, b9⟩ := b
    exact ⟨b1, b2, b3, b4, b5, nofun, b7, (Nat.sub_le _ _).trans b8, b9⟩

/-- CH_FLUSH (R144). -/
theorem Lane.chFlush_conserves (l : Lane) :
    l.Conserves (((l.returnChain .rx l.c.queuedRxChains).returnChain .tx l.c.queuedTxChains).mapChan fun d =>
        { d.emptied with mon := { d.mon with ring := [] } }) := by
  refine Lane.conserves_back (chain := l.c.queuedRxChains ++ l.c.queuedTxChains) (fun a => ?_) (fun a => ?_) (fun b => ?_)
    (by simp [Lane.mapChan, Lane.returnChain]) rfl
  · refine List.perm_iff_count.mpr fun x => ?_
    simp [Chan.cells, Chan.rxChains, Chan.txChains, Chan.queuedRxChains, Chan.queuedTxChains, Chan.emptied, List.count_append]
    omega
  · obtain ⟨a1, a2, a3, a4, a5, a6, a7, a8, a9, a10⟩ := a
    refine ⟨?_, ?_, a3, a4, a5, nofun, nofun, nofun, nofun, a10⟩
    · show l.c.rxHolding - _ = _
      rw [a1]
      simp [Chan.rxChains, Chan.queuedRxChains, Chan.emptied]
    · show l.c.txHolding - _ = _
      rw [a2]
      simp [Chan.txChains, Chan.queuedTxChains, Chan.emptied]
  · obtain ⟨b1, b2, b3, b4, b5, b6, b7, b8, b9⟩ := b
    exact ⟨b1, Nat.zero_le _, Nat.zero_le _, Nat.zero_le _, nofun, nofun, (Nat.sub_le _ _).trans b7, (Nat.sub_le _ _).trans b8,
      b9⟩

/-- CH_RESET (R145). -/
theorem Lane.channelReset_conserves (l : Lane) : l.Conserves l.channelReset := by
  refine l.alignerStop_conserves.trans ?_
  unfold Lane.channelReset
  generalize l.alignerStop = l
  have hf : l.c.framerReset.fr.inflight = none := rfl
  have hcfg : l.c.framerReset.cfg = l.c.cfg := by unfold Chan.framerReset; dsimp only; split <;> rfl
  have hrx : l.c.framerReset.rxHolding = l.c.rxHolding := by unfold Chan.framerReset; dsimp only; split <;> rfl
  have htx : l.c.framerReset.txHolding = l.c.txHolding := by unfold Chan.framerReset; dsimp only; split <;> rfl
  dsimp only
  refine Lane.conserves_back (chain := l.c.rxChains ++ l.c.txChains) (fun a => ?_) (fun a => ?_) (fun b => ?_)
    (by simp [Lane.mapChan, Lane.returnChain]) rfl
  · simp [Chan.cells, Chan.rxChains, Chan.txChains, Chan.emptied, hf]
  · obtain ⟨a1, a2, a3, a4, a5, a6, a7, a8, a9, a10⟩ := a
    refine ⟨?_, ?_, ⟨nofun, nofun⟩, .inl rfl, nofun, nofun, nofun, nofun, nofun, nofun⟩
    · show l.c.framerReset.rxHolding - l.c.rxChains.length = 0
      rw [hrx, a1]
      omega
    · show l.c.framerReset.txHolding - l.c.txChains.length = 0
      rw [htx, a2]
      omega
  · obtain ⟨b1, b2, b3, b4, b5, b6, b7, b8, b9⟩ := b
    refine ⟨?_, Nat.zero_le _, Nat.zero_le _, Nat.zero_le _, nofun, nofun, ?_, ?_, Nat.zero_le _, Nat.zero_le _⟩
    · show l.c.framerReset.cfg.InRange
      rw [hcfg]; exact b1
    · show l.c.framerReset.rxHolding - _ ≤ l.c.framerReset.cfg.rxquota.toNat
      rw [hcfg, hrx]; exact (Nat.sub_le _ _).trans b7
    · show l.c.framerReset.txHolding - _ ≤ l.c.framerReset.cfg.txquota.toNat
      rw [hcfg, htx]; exact (Nat.sub_le _ _).trans b8

/-- OH_POP (R50). -/
theorem Lane.ohPop_conserves {l : Lane} {r} {rest : List OhRecord} (h : l.c.mon.ring = r :: rest) :
    l.Conserves { l with c := { l.c with mon := { l.c.mon with ring := rest } } } :=
  .of_same l.gf (.of_monitor rfl fun hr => ⟨by have := hr.1; rw [h] at this; exact (Nat.le_succ _).trans this, hr.2⟩)

/-- CH_START (R141), with no packet in flight. -/
theorem Lane.chStart_conserves (g : Globals) {l : Lane} (h : l.c.fr.inflight = none) :
    l.Conserves { l with c := { (l.c.alignerStart g).framerStart with
      admin := .active, del := { (l.c.alignerStart g).framerStart.del with nextPktseq := 0 } } } := by
  refine .of_same l.gf ⟨rfl, rfl, id, rfl, rfl, rfl, rfl, ⟨h.symm, fun _ => .inl rfl⟩, rfl, rfl, id⟩

/-- A read of RXDATA within the held packet (R101, R102). -/
theorem Lane.heldMoved_conserves {l : Lane} {h : Held} (n : Nat) (hh : l.c.held = some h) (hn : h.cursor + n ≤ h.desc.storelen) :
    l.Conserves { l with c := { l.c with held := l.c.held.map fun h => { h with cursor := h.cursor + n } } } := by
  refine Lane.conserves_back (chain := []) (fun a => ?_) (fun a => ?_) (fun b => ?_) (by simp) rfl
  · simp [Chan.cells, Chan.rxChains, Chan.txChains, hh]
  · obtain ⟨a1, a2, a3, a4, a5, a6, a7, a8, a9, a10⟩ := a
    refine ⟨?_, a2, a3, a4, a5, ?_, a7, a8, a9, a10⟩
    · rw [a1]; simp [Chan.rxChains, hh]
    · rw [hh]
      rintro x ⟨⟩
      exact a6 h hh
  · obtain ⟨b1, b2, b3, b4, b5, b6, b7, b8, b9⟩ := b
    refine ⟨b1, b2, b3, b4, ?_, b6, b7, b8, b9⟩
    rw [hh]
    rintro x ⟨⟩
    exact hn

/-- A byte written through TXDATA (R113, R114). -/
theorem Lane.filled_conserves {l : Lane} {f : FillPkt} (v : Byte) (hf : l.c.fill = some f) (hn : f.cursor < f.len) :
    l.Conserves { l with
      c := { l.c with fill := some { f with cursor := f.cursor + 1 } }, mem := packetWrite l.mem f.chain f.cursor v } := by
  have cells : ({ l.c with fill := some { f with cursor := f.cursor + 1 } } : Chan).cells = l.c.cells := by
    simp [Chan.cells, Chan.rxChains, Chan.txChains, hf]
  refine ⟨rfl, fun a => ?_, fun a => ?_, fun _ _ _ => rfl, fun b => ?_, packetWrite_wf _ _ _⟩
  · obtain ⟨a1, a2, a3, a4, a5, a6, a7, a8, a9, a10⟩ := a
    refine ⟨a1, ?_, a3, a4, a5, a6, a7, a8, ?_, a10⟩
    · rw [a2]; simp [Chan.txChains, hf]
    · rintro x ⟨⟩
      exact a9 f hf
  · show (l.pool.free ++ _).Perm _
    rw [cells]
  · obtain ⟨b1, b2, b3, b4, b5, b6, b7, b8, b9⟩ := b
    refine ⟨b1, b2, b3, b4, b5, ?_, b7, b8, b9⟩
    rintro x ⟨⟩
    obtain ⟨c1, c2, c3⟩ := b6 f hf
    exact ⟨c1, c2, hn⟩

/-! ### The whole part -/

/-- The account of the cells rests on the channels and the pool alone. -/
theorem State.CellsConserved.congr {s t : State} (h : s.CellsConserved) (hc : t.chans = s.chans) (hp : t.pool = s.pool) :
    t.CellsConserved := by
  have hk := State.chan_congr hc
  refine ⟨fun ch => by rw [hk]; exact h.chans ch, fun r => ?_, fun i => ?_⟩
  · have := h.ready (by rw [← hp]; exact r)
    unfold State.cells at this ⊢
    rw [hp, hk, hk, hk, hk]; exact this
  · obtain ⟨i1, i2, i3⟩ := h.init (by rw [← hp]; exact i)
    exact ⟨fun ch => by rw [hk]; exact i1 ch, by rw [hp]; exact i2, by rw [hp]; exact i3⟩

/-- A conserving change of one lane keeps the whole account. -/
theorem State.CellsConserved.lane {s : State} (h : s.CellsConserved) (ch : ChanId) {l : Lane} (k : (s.lane ch).Conserves l) :
    (s.setLane ch l).CellsConserved := by
  have a := h.chans ch
  refine ⟨fun j => ?_, fun r => ?_, fun i => ?_⟩
  · by_cases hj : j = ch
    · subst hj
      rw [State.chan_setLane_self]
      exact k.agree a
    · rw [State.chan_setLane_ne _ _ hj]
      exact h.chans j
  · have r' : s.pool.state = .ready := by rw [← r]; exact k.state.symm
    have hp := k.perm a
    have hr := h.ready r'
    refine List.Perm.trans ?_ hr
    refine List.perm_iff_count.mpr fun x => ?_
    have := List.perm_iff_count.mp hp x
    unfold State.cells
    rw [State.setLane_pool]
    simp only [List.count_append] at this ⊢
    have e (j : ChanId) : List.count x ((s.setLane ch l).chan j).cells
        = if j = ch then List.count x l.c.cells else List.count x (s.chan j).cells := by
      by_cases hj : j = ch
      · subst hj; rw [State.chan_setLane_self, if_pos rfl]
      · rw [State.chan_setLane_ne _ _ hj, if_neg hj]
    rw [e, e, e, e]
    change List.count x l.pool.free + _ = List.count x s.pool.free + List.count x (s.chan ch).cells at this
    fin_cases ch <;> simp at this ⊢ <;> omega
  · have i' : s.pool.state = .init := by rw [← i]; exact k.state.symm
    obtain ⟨i1, i2, i3⟩ := h.init i'
    have hf := k.init a i' (i1 ch)
    refine ⟨fun j => ?_, ?_, ?_⟩
    · by_cases hj : j = ch
      · subst hj
        rw [State.chan_setLane_self]
        exact k.cells_init a i' (i1 j)
      · rw [State.chan_setLane_ne _ _ hj]
        exact i1 j
    · show l.pool.free.length ≤ 511
      rw [hf]; exact i2
    · show l.pool.free = cellsUpTo l.pool.free.length
      rw [hf]; exact i3

/-- A conserving change of one lane keeps the bounds. -/
theorem State.InBounds.lane {s : State} (h : s.InBounds) (ch : ChanId) {l : Lane} (k : (s.lane ch).Conserves l) :
    (s.setLane ch l).InBounds := by
  refine ⟨fun j => ?_, h.globals⟩
  by_cases hj : j = ch
  · subst hj
    rw [State.chan_setLane_self]
    exact k.bounds (h.chans j)
  · rw [State.chan_setLane_ne _ _ hj]
    exact h.chans j

/-- The bounds rest on the channels and the global entries alone. -/
theorem State.InBounds.congr {s t : State} (h : s.InBounds) (hc : t.chans = s.chans) (hg : t.globals = s.globals) : t.InBounds :=
  ⟨fun ch => by rw [State.chan_congr hc]; exact h.chans ch, by rw [hg]; exact h.globals⟩

end Sys2Proof.Machine
end

