-- ==== Sys2Proof/Laws/Links.lean ====
section
/-! SUPPORT. What an edge of a receive clock comes to, once it is known which occurrence of the link it is. -/

namespace Sys2Proof.Machine

open Sys2Proof

/-- An edge that delivers no bit changes nothing. -/
theorem State.rxEdge_of_none {s : State} {ch : ChanId} {b : Bool} (h : (s.chan ch).sourceBit b = none) : s.rxEdge ch b = s := by
  unfold State.rxEdge State.onLane Lane.risingEdge
  rw [State.lane_c, h]
  exact State.setLane_lane ..

/-- An edge in OFF changes nothing (R17). -/
theorem State.rxEdge_of_off {s : State} {ch : ChanId} (b : Bool) (h : (s.chan ch).al.state = .off) : s.rxEdge ch b = s := by
  cases hb : (s.chan ch).sourceBit b with
  | none => exact State.rxEdge_of_none hb
  | some x =>
    unfold State.rxEdge State.onLane Lane.risingEdge
    rw [State.lane_c, hb]
    show s.setLane ch ((s.lane ch).receiveBit s.globals x) = s
    unfold Lane.receiveBit
    rw [State.lane_c, h]
    exact State.setLane_lane ..

/-- An edge that delivers a bit is the bit's own event. -/
theorem State.rxEdge_of_bit {s : State} {ch : ChanId} {b x : Bool} (h : (s.chan ch).sourceBit b = some x) :
    s.rxEdge ch b = s.onLane ch (Lane.receiveBit s.globals x) := by
  unfold State.rxEdge State.onLane Lane.risingEdge
  rw [State.lane_c, h]

/-- In VERIFY and LOCKED a bit is tracked. -/
theorem State.rxEdge_tracked {s : State} {ch : ChanId} {b x : Bool} (h : (s.chan ch).sourceBit b = some x)
    (hs : (s.chan ch).al.state = .verify ∨ (s.chan ch).al.state = .locked) :
    s.rxEdge ch b = s.onLane ch (Lane.trackBit s.globals x) := by
  rw [State.rxEdge_of_bit h]
  unfold State.onLane Lane.receiveBit
  rw [State.lane_c]
  rcases hs with hs | hs <;> rw [hs]

/-- The channel with the bit `x` taken by a tracking aligner. -/
def Chan.tracked (g : Globals) (x : Bool) (c : Chan) : Chan :=
  { c with al := { c.al with
    searchReg := shiftIn c.al.searchReg x, silence := some g.tsil.toNat
    bitPos := if c.al.bitPos + 1 = 8 * c.cfg.flen.toNat then 0 else c.al.bitPos + 1 } }

/-- A tracked bit that ends neither a marker position nor a byte of a processed frame. -/
theorem Lane.trackBit_plain {g : Globals} {x : Bool} {l : Lane} (h16 : l.c.al.bitPos + 1 ≠ 16)
    (h : l.c.al.state = .verify ∨ l.c.al.bitPos + 1 < 16 ∨ (l.c.al.bitPos + 1) % 8 ≠ 0) :
    l.trackBit g x = l.mapChan (Chan.tracked g x) := by
  unfold Lane.trackBit
  rw [if_neg h16, if_neg]
  · rfl
  · rintro ⟨h1, h2, h3⟩
    rcases h with h | h | h
    · rw [h] at h1; cases h1
    · omega
    · exact h h3

/-- A tracked bit that ends a marker position is the comparison. -/
theorem Lane.trackBit_marker {g : Globals} {x : Bool} {l : Lane} (h16 : l.c.al.bitPos + 1 = 16) :
    l.trackBit g x = if l.c.al.state = .locked then (l.mapChan (Chan.tracked g x)).lockedComparison
      else (l.mapChan (Chan.tracked g x)).mapChan Chan.verifyComparison := by
  unfold Lane.trackBit
  rw [if_pos h16]
  rfl

/-- A tracked bit that completes a byte of a processed frame delivers it. -/
theorem Lane.trackBit_delivers {g : Globals} {b x : Bool} {l : Lane} {off : Nat} {v : Byte} (h : l.c.byteArrives b x off v) :
    l.trackBit g x = (l.mapChan (Chan.tracked g x)).deliverByte g.poolthr off v := by
  obtain ⟨-, hl, h2, hn, hv⟩ := h
  have ho : (l.c.al.bitPos + 1) / 8 - 1 = off := by omega
  unfold Lane.trackBit
  rw [if_neg (by omega), if_pos ⟨hl, by omega, by omega⟩, ho]
  show Lane.deliverByte _ _ (lowByte (shiftIn l.c.al.searchReg x)) _ = _
  rw [← hv]
  rfl

/-- A tracked bit that completes a byte of a processed frame short of its last. -/
theorem Lane.trackBit_byte {g : Globals} {b x : Bool} {l : Lane} {off : Nat} {v : Byte} (h : l.c.byteArrives b x off v)
    (hf : off + 1 < l.c.cfg.flen.toNat) :
    l.trackBit g x = (l.mapChan (Chan.withByte g x v)).actOnByte g.poolthr off v := by
  have hn := h.2.2.2.1
  have hne : l.c.al.bitPos + 1 ≠ 8 * l.c.cfg.flen.toNat := by omega
  have ht : (l.c.tracked g x).monitorXor v = l.c.withByte g x v := by
    unfold Chan.tracked
    rw [if_neg hne]
    rfl
  rw [Lane.trackBit_delivers h]
  unfold Lane.deliverByte
  dsimp only
  rw [if_neg (show off + 1 ≠ (l.mapChan (Chan.tracked g x)).c.cfg.flen.toNat from Nat.ne_of_lt hf)]
  exact congrArg (fun c => Lane.actOnByte g.poolthr off v { l with c := c }) ht

/-- A tracked bit that completes the last byte of a processed frame. -/
theorem Lane.trackBit_lastByte {g : Globals} {b x : Bool} {l : Lane} {off : Nat} {v : Byte} (h : l.c.byteArrives b x off v)
    (hf : off + 1 = l.c.cfg.flen.toNat) :
    l.trackBit g x = (((l.mapChan (Chan.withByte g x v)).mapChan fun c => { c with al := { c.al with bitPos := 0 } }).actOnByte
        g.poolthr off v).mapChan fun c => c.monitorFrameEnd.delinFrameEnd := by
  have hn := h.2.2.2.1
  have hne : l.c.al.bitPos + 1 = 8 * l.c.cfg.flen.toNat := by omega
  have ht : (l.c.tracked g x).monitorXor v =
      { l.c.withByte g x v with al := { (l.c.withByte g x v).al with bitPos := 0 } } := by
    unfold Chan.tracked
    rw [if_pos hne]
    rfl
  rw [Lane.trackBit_delivers h]
  unfold Lane.deliverByte
  dsimp only
  rw [if_pos (show off + 1 = (l.mapChan (Chan.tracked g x)).c.cfg.flen.toNat from hf)]
  exact congrArg (fun c => (Lane.actOnByte g.poolthr off v { l with c := c }).mapChan
    fun c => c.monitorFrameEnd.delinFrameEnd) ht

/-- The edge that completes a byte of a processed frame short of its last. -/
theorem State.rxEdge_byte {s : State} {ch : ChanId} {b x : Bool} {off : Nat} {v : Byte} (h : (s.chan ch).byteArrives b x off v)
    (hf : off + 1 < (s.chan ch).cfg.flen.toNat) :
    s.rxEdge ch b = s.onLane ch fun l => (l.mapChan (Chan.withByte s.globals x v)).actOnByte s.globals.poolthr off v := by
  rw [State.rxEdge_tracked h.1 (Or.inr h.2.1)]
  exact congrArg (s.setLane ch) (Lane.trackBit_byte (l := s.lane ch) h hf)

/-- The edge that completes the last byte of a processed frame. -/
theorem State.rxEdge_lastByte {s : State} {ch : ChanId} {b x : Bool} {off : Nat} {v : Byte}
    (h : (s.chan ch).byteArrives b x off v) (hf : off + 1 = (s.chan ch).cfg.flen.toNat) :
    s.rxEdge ch b = s.onLane ch fun l =>
      (((l.mapChan (Chan.withByte s.globals x v)).mapChan fun c => { c with al := { c.al with bitPos := 0 } }).actOnByte
        s.globals.poolthr off v).mapChan fun c => c.monitorFrameEnd.delinFrameEnd := by
  rw [State.rxEdge_tracked h.1 (Or.inr h.2.1)]
  exact congrArg (s.setLane ch) (Lane.trackBit_lastByte (l := s.lane ch) h hf)

end Sys2Proof.Machine
end

