-- ==== Sys2Proof/Laws/Meetings.lean ====
section
/-! SUPPORT. What a CNT_SNAP that meets a line event leaves: by R156 each block's counts as in one of the two orders, all else as in both. -/

namespace Sys2Proof.Machine

open Sys2Proof

theorem Counters.merge_get (first : List CountingBlock) (early late : Counters) (k : Ctr) :
    (Counters.merge first early late).get k = (if k.block ∈ first then early else late).get k := by
  by_cases h : k.block ∈ first <;> simp only [h, if_true, if_false] <;> cases k <;>
    simp only [Counters.merge, Counters.get] <;> simp only [Ctr.block] at h <;> simp only [Ctr.block, h, if_true, if_false]

/-- The two tests of a CNT_SNAP's CMD write say the same. -/
theorem State.takesSnap_iff (s : State) : s.takesSnap = true ↔ s.takesCmd 0x31 := by
  unfold State.takesSnap State.takesCmd State.taking State.carriesCode
  simp only [Bool.and_eq_true, Bool.or_eq_true, Bool.not_eq_true', beq_iff_eq, Option.isNone_iff_eq_none, and_assoc]

/-- With no snapshot taken, the write comes after the event. -/
theorem State.snapMeets_not_taken {s : State} (m : Meeting) (hi : Byte) (h : ¬s.takesCmd 0x31) :
    s.snapMeets m hi = (s.lineEvent m.event).cmdAccess 0x31 hi := by
  unfold State.snapMeets
  exact if_neg fun h' => h (s.takesSnap_iff.mp h')

/-- With a snapshot taken, only the paged channel's counters differ from the event taken first: a block in `m.first` has its counts of
that order, another block those of the CNT_SNAP taken first. -/
theorem State.snapMeets_taken {s : State} (m : Meeting) (hi : Byte) (h : s.takesCmd 0x31) :
    let early := (s.lineEvent m.event).cmdAccess 0x31 hi
    let late := (s.cmdAccess 0x31 hi).lineEvent m.event
    let t := s.snapMeets m hi
    let p := s.win.page
    t = early.setChan p { early.chan p with snap := (t.chan p).snap, live := (t.chan p).live }
      ∧ ∀ k, let u := if k.block ∈ m.first then early else late
        (t.chan p).snap.get k = (u.chan p).snap.get k ∧ (t.chan p).live.get k = (u.chan p).live.get k := by
  intro early late t p
  have e : t = early.onChan p fun c =>
      { c with snap := Counters.merge m.first c.snap (late.chan p).snap, live := Counters.merge m.first c.live (late.chan p).live } :=
    if_pos (s.takesSnap_iff.mpr h)
  have ec : t.chan p = { early.chan p with
      snap := Counters.merge m.first (early.chan p).snap (late.chan p).snap
      live := Counters.merge m.first (early.chan p).live (late.chan p).live } := by
    rw [e]
    exact State.chan_setChan_self _ _ _
  refine ⟨by rw [ec]; exact e, fun k => ?_⟩
  rw [ec]
  dsimp only
  rw [Counters.merge_get, Counters.merge_get]
  split <;> exact ⟨rfl, rfl⟩

end Sys2Proof.Machine
end

