-- ==== Sys2Proof/Laws/Modes.lean ====
section
/-! SUPPORT. What an event of a channel does to the agreement of its blocks' modes (Chan.ModesAgree). -/

namespace Sys2Proof.Machine

open Sys2Proof

/-! ### Out of HOLD the delineator's own events do not enter it, and in HOLD they do not leave it -/

theorem Chan.seekEvaluate_parsing {c : Chan} (a b : Bool) (h : c.del.state ≠ .hold) : (c.seekEvaluate a b).del.state ≠ .hold := by
  unfold Chan.seekEvaluate
  dsimp only
  split_ifs <;> first | exact h | exact nofun

theorem Lane.offsetCompare_parsing {l : Lane} (p : Option Nat) (q : Bool) (h : l.c.del.state ≠ .hold) :
    (l.offsetCompare p q).1.c.del.state ≠ .hold := by
  unfold Lane.offsetCompare
  dsimp only
  split_ifs
  · exact h
  · exact h
  · exact Chan.seekEvaluate_parsing _ _ (c := { (l.mapChan (Chan.bump .offmiss)).abortAssembly.c with del := _ }) nofun

theorem Lane.actOnHeader_parsing {l : Lane} (thr : Word) (len : Nat) (h : l.c.del.state ≠ .hold) :
    (l.actOnHeader thr len).c.del.state ≠ .hold := by
  unfold Lane.actOnHeader Lane.acceptHeader
  dsimp only
  split_ifs <;> first | exact h | exact nofun

theorem Lane.headerCompleted_parsing {l : Lane} (thr : Word) (pos : Nat) (h : Word) (hh : l.c.del.state ≠ .hold) :
    (l.headerCompleted thr pos h).c.del.state ≠ .hold := by
  unfold Lane.headerCompleted
  split_ifs
  · have := Lane.offsetCompare_parsing (predictAfter l.c.payloadLen (1 + headerLen h)) true hh
    dsimp only
    split
    · exact Lane.actOnHeader_parsing _ _ this
    · exact this
  · exact Lane.actOnHeader_parsing _ _ hh
  · exact nofun

theorem Lane.completePacket_parsing (l : Lane) : l.completePacket.c.del.state ≠ .hold := by
  unfold Lane.completePacket
  split
  · exact nofun
  · exact nofun

/-- A payload byte neither enters HOLD nor leaves it. -/
theorem Lane.payloadByte_hold (thr : Word) (pos : Nat) (v : Byte) (l : Lane) :
    (l.payloadByte thr pos v).c.del.state = .hold ↔ l.c.del.state = .hold := by
  have stays {m : Lane} {st : DelState} (hm : m.c.del.state = st) (h : st ≠ .hold) : m.c.del.state ≠ .hold := by
    rw [hm]
    exact h
  unfold Lane.payloadByte
  split
  · exact Iff.rfl
  · exact Iff.rfl
  all_goals rename_i hs; rw [hs]
  all_goals split
  all_goals try (rw [hs])
  all_goals (refine ⟨fun e => absurd e ?_, nofun⟩)
  · unfold Lane.headerByteIn
    split
    · exact stays (m := l) hs nofun
    · exact Lane.headerCompleted_parsing _ _ _ (stays hs nofun)
  · unfold Lane.bodyByte
    dsimp only
    split
    · exact Lane.completePacket_parsing _
    · show (l.storeBody v).c.del.state ≠ _
      unfold Lane.storeBody
      split
      · exact stays hs nofun
      · split
        · exact stays (m := l) hs nofun
        · exact stays hs nofun
  · unfold Lane.skipByte
    dsimp only
    split
    · exact nofun
    · exact stays (m := l) hs nofun

/-- The offset point neither enters HOLD nor leaves it. -/
theorem Lane.offsetPoint_hold (v : Byte) (l : Lane) : (l.offsetPoint v).c.del.state = .hold ↔ l.c.del.state = .hold := by
  have stays {st : DelState} (hm : l.c.del.state = st) (h : st ≠ .hold) : l.c.del.state ≠ .hold := by
    rw [hm]
    exact h
  unfold Lane.offsetPoint
  dsimp only
  split
  · exact Iff.rfl
  · rename_i hs
    rw [hs]
    refine ⟨fun e => absurd e ?_, nofun⟩
    exact Chan.seekEvaluate_parsing _ _ (c := { l.c with del := { l.c.del with latchedFbo := _ } }) (stays hs nofun)
  all_goals
    rename_i hs
    rw [hs]
    refine ⟨fun e => absurd e ?_, nofun⟩
    unfold Lane.offsetCheck
    dsimp only [Lane.mapChan_c]
    rw [hs]
    dsimp only
  · split
    · exact Lane.offsetCompare_parsing _ _ (stays hs nofun)
    · exact stays hs nofun
  · exact Lane.offsetCompare_parsing _ _ (stays hs nofun)
  · exact Lane.offsetCompare_parsing _ _ (stays hs nofun)

/-! ### Changes that leave every mode as it is -/

/-- The two channels are in the same modes. -/
structure Chan.SameModes (c d : Chan) : Prop where
  admin : d.admin = c.admin
  al : d.al.state = c.al.state
  silence : d.al.silence.isSome = c.al.silence.isSome
  search : c.al.state = .silent → d.al.searchReg = c.al.searchReg
  mode : d.mon.mode = c.mon.mode
  carrier : d.mon.conds.carrier = c.mon.conds.carrier
  waiting : c.mon.mode = .waiting → d.mon.conds = c.mon.conds ∧ d.mon.stat = c.mon.stat ∧ d.mon.label = c.mon.label
  hold : d.del.state = .hold ↔ c.del.state = .hold
  running : d.fr.running = c.fr.running
  drain : d.fr.drainTimer.isSome = c.fr.drainTimer.isSome
  stopped : c.fr.running = false → d.fr.bitPos = c.fr.bitPos ∧ d.fr.inflight = c.fr.inflight

theorem Chan.SameModes.refl (c : Chan) : c.SameModes c :=
  ⟨rfl, rfl, rfl, fun _ => rfl, rfl, rfl, fun _ => ⟨rfl, rfl, rfl⟩, Iff.rfl, rfl, rfl, fun _ => ⟨rfl, rfl⟩⟩

theorem Chan.SameModes.trans {c d e : Chan} (h : c.SameModes d) (k : d.SameModes e) : c.SameModes e where
  admin := k.admin.trans h.admin
  al := k.al.trans h.al
  silence := k.silence.trans h.silence
  search s := (k.search (h.al.trans s)).trans (h.search s)
  mode := k.mode.trans h.mode
  carrier := k.carrier.trans h.carrier
  waiting w := by
    obtain ⟨a, b, c⟩ := h.waiting w
    obtain ⟨a', b', c'⟩ := k.waiting (h.mode.trans w)
    exact ⟨a'.trans a, b'.trans b, c'.trans c⟩
  hold := k.hold.trans h.hold
  running := k.running.trans h.running
  drain := k.drain.trans h.drain
  stopped r := by
    obtain ⟨a, b⟩ := h.stopped r
    obtain ⟨a', b'⟩ := k.stopped (h.running.trans r)
    exact ⟨a'.trans a, b'.trans b⟩

theorem Chan.SameModes.agree {c d : Chan} (h : c.SameModes d) (a : c.ModesAgree) : d.ModesAgree where
  off_iff := by rw [h.al, h.admin]; exact a.off_iff
  silence_iff := by rw [h.al, h.silence]; exact a.silence_iff
  silent_clear s := by
    rw [h.al] at s
    rw [h.search s]
    exact a.silent_clear s
  monitoring_iff := by rw [h.al, h.mode]; exact a.monitoring_iff
  waiting_clear w := by
    rw [h.mode] at w
    obtain ⟨x, y, z⟩ := h.waiting w
    rw [x, y, z]
    exact a.waiting_clear w
  parsing_iff := by rw [h.al, h.carrier, Ne, h.hold]; exact a.parsing_iff
  running_iff := by rw [h.running, h.admin]; exact a.running_iff
  draining_iff := by rw [h.drain, h.admin]; exact a.draining_iff
  stopped_none r := by
    rw [h.running] at r
    obtain ⟨x, y⟩ := h.stopped r
    rw [x, y]
    exact a.stopped_none r

/-- A change of configuration, queues, numbers, counters, flags, masks and holdings changes no mode. -/
theorem Chan.SameModes.of_rest {c d : Chan} (h : d = { c with
      cfg := d.cfg, rq := d.rq, held := d.held, fill := d.fill, tq := d.tq, nextTxseq := d.nextTxseq, live := d.live, snap := d.snap
      flags := d.flags, mask := d.mask, rxHolding := d.rxHolding, txHolding := d.txHolding }) : c.SameModes d := by
  rw [h]
  exact ⟨rfl, rfl, rfl, fun _ => rfl, rfl, rfl, fun _ => ⟨rfl, rfl, rfl⟩, Iff.rfl, rfl, rfl, fun _ => ⟨rfl, rfl⟩⟩

theorem Lane.DelinKept.sameModes {l m : Lane} (h : l.DelinKept m) (k : m.c.del.state = .hold ↔ l.c.del.state = .hold) :
    l.c.SameModes m.c :=
  ⟨h.admin, by rw [h.al], by rw [h.al], fun _ => by rw [h.al], by rw [h.mon], by rw [h.mon], fun _ => by rw [h.mon]; exact ⟨rfl, rfl, rfl⟩,
    k, by rw [h.fr], by rw [h.fr], fun _ => by rw [h.fr]; exact ⟨rfl, rfl⟩⟩

/-! ### The overhead close and the other bytes of a frame -/

theorem Lane.overheadClose_modes (fchk : Byte) {l : Lane} (a : l.c.ModesAgree) (hl : l.c.al.state = .locked) :
    (l.overheadClose fchk).c.ModesAgree := by
  have hk := l.overheadClose_kept fchk
  have jk := l.c.overheadJudge_kept fchk
  have jm := l.c.overheadJudge_mon fchk
  have hmode : (l.c.overheadJudge fchk).mon.mode = .monitoring := by rw [jm]; exact a.monitoring_iff.mpr hl
  have hcar : (l.c.overheadJudge fchk).mon.conds = l.c.condsAfter fchk := by rw [jm]; rfl
  have hfr : (l.c.overheadJudge fchk).fr = l.c.fr := by rw [jk]
  have hal : (l.c.overheadJudge fchk).al = l.c.al := by rw [jk]
  have had : (l.c.overheadJudge fchk).admin = l.c.admin := by rw [jk]
  have hjd : (l.c.overheadJudge fchk).del = l.c.del := by rw [jk]
  have hd : (l.overheadClose fchk).c.del.state ≠ .hold ↔ (l.c.condsAfter fchk).carrier = false := by
    have hp := a.parsing_iff
    cases h : l.c.mon.conds.carrier <;> cases h' : (l.c.condsAfter fchk).carrier
    · rw [Lane.overheadClose_same (by rw [h, h'])]
      show (l.c.overheadJudge fchk).del.state ≠ _ ↔ _
      rw [hjd, hp, h, hl]
      simp
    · rw [Lane.overheadClose_onset h h']
      have : (l.mapChan (Chan.overheadJudge fchk)).c.del.state ≠ .hold := by
        show (l.c.overheadJudge fchk).del.state ≠ _
        rw [hjd, hp, h, hl]
        simp
      rw [Lane.delinHold_del this]
      simp [Delin.givenUp]
    · rw [Lane.overheadClose_end h h']
      show ((l.c.overheadJudge fchk).delinCarrierEnd).del.state ≠ _ ↔ _
      have hh : (l.c.overheadJudge fchk).del.state = .hold := by
        rw [hjd]
        by_contra e
        have := (hp.mp e).2
        rw [h] at this
        cases this
      unfold Chan.delinCarrierEnd
      rw [if_pos hh]
      simp only [iff_true]
      exact Chan.seekEvaluate_parsing _ _ nofun
    · rw [Lane.overheadClose_same (by rw [h, h'])]
      show (l.c.overheadJudge fchk).del.state ≠ _ ↔ _
      rw [hjd, hp, h]
      simp
  rw [hk]
  refine ⟨?_, ?_, ?_, ?_, ?_, ?_, ?_, ?_, ?_⟩ <;> dsimp only
  · rw [hal, had]; exact a.off_iff
  · rw [hal]; exact a.silence_iff
  · rw [hal]; exact a.silent_clear
  · rw [hal, hmode, hl]; simp
  · rw [hmode]; exact nofun
  · rw [hd, hal, hcar, hl]; simp
  · rw [hfr, had]; exact a.running_iff
  · rw [hfr, had]; exact a.draining_iff
  · rw [hfr]; exact a.stopped_none

/-- What a byte of a processed frame does keeps the modes in agreement. -/
theorem Lane.deliverByte_modes (thr : Word) (off : Nat) (v : Byte) {l : Lane} (a : l.c.ModesAgree) (hl : l.c.al.state = .locked) :
    (l.deliverByte thr off v).c.ModesAgree ∧ (l.deliverByte thr off v).c.admin = l.c.admin := by
  have act (m : Lane) (a : m.c.ModesAgree) (hl : m.c.al.state = .locked) :
      (m.actOnByte thr off v).c.ModesAgree ∧ (m.actOnByte thr off v).c.admin = m.c.admin := by
    have mk {d : Chan} (h : m.c.SameModes d) : d.ModesAgree ∧ d.admin = m.c.admin := ⟨h.agree a, h.admin⟩
    unfold Lane.actOnByte
    split
    · exact mk (.refl _)
    · exact mk (.refl _)
    · exact mk ⟨rfl, rfl, rfl, fun _ => rfl, rfl, rfl, fun _ => ⟨rfl, rfl, rfl⟩, Iff.rfl, rfl, rfl, fun _ => ⟨rfl, rfl⟩⟩
    · exact mk ⟨rfl, rfl, rfl, fun _ => rfl, rfl, rfl, fun _ => ⟨rfl, rfl, rfl⟩, Iff.rfl, rfl, rfl, fun _ => ⟨rfl, rfl⟩⟩
    · exact mk ⟨rfl, rfl, rfl, fun _ => rfl, rfl, rfl, fun _ => ⟨rfl, rfl, rfl⟩, Iff.rfl, rfl, rfl, fun _ => ⟨rfl, rfl⟩⟩
    · exact mk ((m.offsetPoint_delinKept v).sameModes (m.offsetPoint_hold v))
    · exact mk ⟨rfl, rfl, rfl, fun _ => rfl, rfl, rfl, fun _ => ⟨rfl, rfl, rfl⟩, Iff.rfl, rfl, rfl, fun _ => ⟨rfl, rfl⟩⟩
    · refine ⟨Lane.overheadClose_modes v a hl, ?_⟩
      rw [m.overheadClose_kept v, m.c.overheadJudge_kept v]
    · exact mk ((m.payloadByte_delinKept _ _ v).sameModes (m.payloadByte_hold _ _ v))
  have h0 : l.c.SameModes (l.c.monitorXor v) :=
    ⟨rfl, rfl, rfl, fun _ => rfl, rfl, rfl, fun _ => ⟨rfl, rfl, rfl⟩, Iff.rfl, rfl, rfl, fun _ => ⟨rfl, rfl⟩⟩
  have h1 := act (l.mapChan (Chan.monitorXor v)) (h0.agree a) hl
  unfold Lane.deliverByte
  dsimp only
  split
  · have h2 (c : Chan) : c.SameModes c.monitorFrameEnd.delinFrameEnd :=
      ⟨rfl, rfl, rfl, fun _ => rfl, rfl, rfl, fun _ => ⟨rfl, rfl, rfl⟩, Iff.rfl, rfl, rfl, fun _ => ⟨rfl, rfl⟩⟩
    exact ⟨(h2 _).agree h1.1, h1.2⟩
  · exact h1

/-! ### Aligner states and the admin state -/

/-- An admin state, an aligner and a framer that agree with each other. -/
structure LinkAgrees (adm : Admin) (x : Aligner) (f : Framer) : Prop where
  off_iff : x.state = .off ↔ adm ≠ .active
  silence_iff : x.silence.isSome ↔ x.state ≠ .off ∧ x.state ≠ .silent
  silent_clear : x.state = .silent → x.searchReg = 0
  running_iff : f.running = true ↔ adm ≠ .disabled
  draining_iff : f.drainTimer.isSome ↔ adm = .draining
  stopped_none : f.running = false → f.bitPos = none ∧ f.inflight = none

/-- With the aligner out of LOCKED, monitor and delineator are where a departure leaves them. -/
theorem Chan.ModesAgree.idle {c : Chan} (a : c.ModesAgree) (h : c.al.state ≠ .locked) : c.mon.mode = .waiting ∧ c.del.state = .hold := by
  constructor
  · cases e : c.mon.mode
    · rfl
    · exact absurd (a.monitoring_iff.mp e) h
  · by_contra e
    exact h (a.parsing_iff.mp e).1

theorem Chan.ModesAgree.active {c : Chan} (a : c.ModesAgree) (h : c.al.state ≠ .off) : c.admin = .active := by
  by_contra e
  exact h (a.off_iff.mpr e)

/-- The aligner, admin state and framer of a channel out of LOCKED replaced. -/
theorem Chan.ModesAgree.unlocked {c : Chan} (a : c.ModesAgree) (h : c.al.state ≠ .locked) {x : Aligner} {adm : Admin} {f : Framer}
    (hx : x.state ≠ .locked) (k : LinkAgrees adm x f) : ({ c with al := x, admin := adm, fr := f } : Chan).ModesAgree := by
  obtain ⟨m, hh⟩ := a.idle h
  refine ⟨k.off_iff, k.silence_iff, k.silent_clear, ?_, ?_, ?_, k.running_iff, k.draining_iff, k.stopped_none⟩ <;> dsimp only
  · rw [m]
    exact ⟨nofun, fun e => absurd e hx⟩
  · exact fun _ => a.waiting_clear m
  · rw [hh]
    exact ⟨fun e => absurd rfl e, fun e => absurd e.1 hx⟩

/-- The aligner, admin state and framer of a channel that has departed from LOCKED replaced. -/
theorem Chan.DepartsLocked.modes {b : Bool} {c d : Chan} {p q : Pool} (h : c.DepartsLocked b d p q) {x : Aligner} {adm : Admin} {f : Framer}
    (hx : x.state ≠ .locked) (k : LinkAgrees adm x f) : ({ d with al := x, admin := adm, fr := f } : Chan).ModesAgree := by
  obtain ⟨w1, w2, w3, w4, -⟩ := h.waiting
  have hh : d.del.state = .hold := by
    by_cases e : c.del.state = .hold
    · rw [(h.hold e).1]
      exact e
    · rw [(h.parsing e).1]
      rfl
  refine ⟨k.off_iff, k.silence_iff, k.silent_clear, ?_, ?_, ?_, k.running_iff, k.draining_iff, k.stopped_none⟩ <;> dsimp only
  · rw [w1]
    exact ⟨nofun, fun e => absurd e hx⟩
  · intro _
    rw [w2, w3, w4]
    exact ⟨rfl, rfl, rfl⟩
  · rw [hh]
    exact ⟨fun e => absurd rfl e, fun e => absurd e.1 hx⟩

/-- What alignment loss does not touch. -/
theorem Lane.loseAlignment_kept (l : Lane) :
    l.loseAlignment.c.al = l.c.al ∧ l.loseAlignment.c.admin = l.c.admin ∧ l.loseAlignment.c.fr = l.c.fr := by
  obtain ⟨a, b, c, -⟩ := Lane.leaveLocked_kept (l.mapChan (Chan.bump .alignloss))
  exact ⟨a, b, c⟩

/-- With an ACTIVE channel's framer, an aligner in HUNT or VERIFY agrees. -/
theorem Chan.ModesAgree.link {c : Chan} (a : c.ModesAgree) (h : c.al.state ≠ .off) {x : Aligner} (hx : x.state ≠ .off)
    (hs : x.silence.isSome ↔ x.state ≠ .silent) (hc : x.state = .silent → x.searchReg = 0) : LinkAgrees c.admin x c.fr where
  off_iff := by
    rw [a.active h]
    exact ⟨fun e => absurd e hx, fun e => absurd rfl e⟩
  silence_iff := hs.trans ⟨fun e => ⟨hx, e⟩, fun e => e.2⟩
  silent_clear := hc
  running_iff := a.running_iff
  draining_iff := a.draining_iff
  stopped_none := a.stopped_none

theorem Chan.enterLocked_modes {c : Chan} (a : c.ModesAgree) (h : c.al.state = .verify) :
    c.enterLocked.ModesAgree ∧ c.enterLocked.admin = c.admin := by
  obtain ⟨m, hh⟩ := a.idle (by rw [h]; exact nofun)
  obtain ⟨wc, -⟩ := a.waiting_clear m
  have hsil : c.al.silence.isSome := a.silence_iff.mpr (by rw [h]; exact ⟨nofun, nofun⟩)
  have hact : c.admin = .active := a.active (by rw [h]; exact nofun)
  have key : ∃ mon live flags, c.enterLocked = { c with
      al := { c.al with state := .locked, missCount := 0, verifyCount := 0 }, mon := mon, live := live, flags := flags
      del := c.del.enter .seek } ∧ mon.mode = .monitoring ∧ mon.conds = c.mon.conds := by
    unfold Chan.enterLocked Chan.monitorEnter Chan.recordDue
    dsimp only
    split
    · unfold Chan.delinLockedEntered
      rw [if_pos (by exact hh)]
      exact ⟨_, _, _, rfl, rfl, rfl⟩
    · unfold Chan.delinLockedEntered
      rw [if_pos (by exact hh)]
      exact ⟨_, _, _, rfl, rfl, rfl⟩
  obtain ⟨mon, live, flags, e, e1, e2⟩ := key
  rw [e]
  refine ⟨⟨?_, ?_, nofun, ?_, ?_, ?_, a.running_iff, a.draining_iff, a.stopped_none⟩, rfl⟩ <;> dsimp only
  · rw [hact]
    exact ⟨nofun, fun e => absurd rfl e⟩
  · exact ⟨fun _ => ⟨nofun, nofun⟩, fun _ => hsil⟩
  · rw [e1]
    exact ⟨fun _ => rfl, fun _ => rfl⟩
  · rw [e1]
    exact nofun
  · rw [e2, wc]
    exact ⟨fun _ => ⟨rfl, rfl⟩, fun _ => nofun⟩

/-! ### Received bits and silence -/

theorem Lane.trackBit_modes (g : Globals) (b : Bool) {l : Lane} (a : l.c.ModesAgree)
    (hl : l.c.al.state = .verify ∨ l.c.al.state = .locked) :
    (l.trackBit g b).c.ModesAgree ∧ (l.trackBit g b).c.admin = l.c.admin := by
  have hne : l.c.al.state ≠ .off ∧ l.c.al.state ≠ .silent := by rcases hl with h | h <;> rw [h] <;> exact ⟨nofun, nofun⟩
  unfold Lane.trackBit
  dsimp only
  have h0 : l.c.SameModes (l.mapChan fun c => { c with al := { c.al.takeBit g.tsil b with
      bitPos := if l.c.al.bitPos + 1 = 8 * c.cfg.flen.toNat then 0 else l.c.al.bitPos + 1 } }).c :=
    ⟨rfl, rfl, (a.silence_iff.mpr hne).symm, fun e => absurd e hne.2, rfl, rfl, fun _ => ⟨rfl, rfl, rfl⟩, Iff.rfl, rfl, rfl,
      fun _ => ⟨rfl, rfl⟩⟩
  generalize (l.mapChan fun c => { c with al := { c.al.takeBit g.tsil b with
    bitPos := if l.c.al.bitPos + 1 = 8 * c.cfg.flen.toNat then 0 else l.c.al.bitPos + 1 } }) = m at h0
  have am := h0.agree a
  have hoff : m.c.al.state ≠ .off := by rw [h0.al]; exact hne.1
  have msil : m.c.al.silence.isSome := am.silence_iff.mpr (by rw [h0.al]; exact hne)
  have hunt : LinkAgrees m.c.admin m.c.al.toHunt m.c.fr := am.link hoff nofun ⟨fun _ => nofun, fun _ => msil⟩ nofun
  rw [← h0.admin]
  have same (k : Nat) : m.c.SameModes { m.c with al := { m.c.al with missCount := k } }.startProcessed :=
    ⟨rfl, rfl, rfl, fun _ => rfl, rfl, rfl, fun _ => ⟨rfl, rfl, rfl⟩, Iff.rfl, rfl, rfl, fun _ => ⟨rfl, rfl⟩⟩
  split_ifs with c1 c2 c3
  · unfold Lane.lockedComparison
    split_ifs
    · exact ⟨(same _).agree am, rfl⟩
    · obtain ⟨k1, k2, k3⟩ := m.loseAlignment_kept
      refine ⟨?_, k2⟩
      have := m.loseAlignment_departs.modes (x := m.loseAlignment.c.al.toHunt) (adm := m.loseAlignment.c.admin) (f := m.loseAlignment.c.fr)
        nofun (by rw [k1, k2, k3]; exact hunt)
      exact this
    · exact ⟨(same _).agree am, rfl⟩
  · have hv : m.c.al.state = .verify := by
      rw [h0.al]
      rcases hl with h | h
      · exact h
      · exact absurd h c2
    show (m.c.verifyComparison).ModesAgree ∧ (m.c.verifyComparison).admin = _
    unfold Chan.verifyComparison
    split_ifs
    · exact Chan.enterLocked_modes am hv
    · exact ⟨Chan.SameModes.agree (c := m.c)
        ⟨rfl, rfl, rfl, fun _ => rfl, rfl, rfl, fun _ => ⟨rfl, rfl, rfl⟩, Iff.rfl, rfl, rfl, fun _ => ⟨rfl, rfl⟩⟩ am, rfl⟩
    · exact ⟨am.unlocked (by rw [hv]; exact nofun) nofun hunt, rfl⟩
  · exact Lane.deliverByte_modes _ _ _ am (h0.al.trans c3.1)
  · exact ⟨am, rfl⟩

/-- A rising edge keeps the modes in agreement, and the admin state. -/
theorem Lane.risingEdge_modes (g : Globals) (b : Bool) {l : Lane} (a : l.c.ModesAgree) :
    (l.risingEdge g b).c.ModesAgree ∧ (l.risingEdge g b).c.admin = l.c.admin := by
  have window {y : Aligner} (hy : y.state = .hunt) : y.testWindow.state ≠ .locked ∧ y.testWindow.state ≠ .off
      ∧ y.testWindow.state ≠ .silent ∧ y.testWindow.silence = y.silence := by
    unfold Aligner.testWindow
    split
    · exact ⟨nofun, nofun, nofun, rfl⟩
    · rw [hy]
      exact ⟨nofun, nofun, nofun, rfl⟩
  unfold Lane.risingEdge
  split
  · rename_i x _
    unfold Lane.receiveBit
    have hunt (y : Aligner) (hy : y.state = .hunt) (hs : l.c.al.state ≠ .off ∧ l.c.al.state ≠ .locked) :
        ({ l.c with al := (y.takeBit g.tsil x).testWindow } : Chan).ModesAgree ∧ l.c.admin = l.c.admin := by
      obtain ⟨t1, t2, t3, t4⟩ := window (y := y.takeBit g.tsil x) hy
      refine ⟨a.unlocked hs.2 t1 (a.link hs.1 t2 ?_ fun e => absurd e t3), rfl⟩
      rw [t4]
      exact ⟨fun _ => t3, fun _ => rfl⟩
    split
    · exact ⟨a, rfl⟩
    · rename_i hs
      exact hunt _ rfl (by rw [hs]; exact ⟨nofun, nofun⟩)
    · rename_i hs
      exact hunt _ hs (by rw [hs]; exact ⟨nofun, nofun⟩)
    · rename_i hs
      exact Lane.trackBit_modes g x a (.inl hs)
    · rename_i hs
      exact Lane.trackBit_modes g x a (.inr hs)
  · exact ⟨a, rfl⟩

theorem Lane.silenceExpiry_modes {l : Lane} (a : l.c.ModesAgree) :
    l.silenceExpiry.c.ModesAgree ∧ l.silenceExpiry.c.admin = l.c.admin := by
  have silent (h : l.c.al.state ≠ .off) (x : Aligner) : LinkAgrees l.c.admin x.toSilent l.c.fr :=
    a.link h nofun ⟨nofun, fun e => absurd rfl e⟩ fun _ => rfl
  unfold Lane.silenceExpiry
  split
  · exact ⟨a, rfl⟩
  · exact ⟨a, rfl⟩
  · rename_i hs
    exact ⟨a.unlocked (by rw [hs]; exact nofun) nofun (silent (by rw [hs]; exact nofun) l.c.al), rfl⟩
  · rename_i hs
    exact ⟨a.unlocked (by rw [hs]; exact nofun) nofun (silent (by rw [hs]; exact nofun) l.c.al), rfl⟩
  · rename_i hs
    obtain ⟨k1, k2, k3⟩ := l.loseAlignment_kept
    have := l.loseAlignment_departs.modes (x := l.loseAlignment.c.al.toSilent) (adm := l.loseAlignment.c.admin) (f := l.loseAlignment.c.fr)
      nofun (by rw [k2, k3]; exact silent (by rw [hs]; exact nofun) _)
    exact ⟨this, k2⟩

theorem Lane.silenceTick_modes {l : Lane} (a : l.c.ModesAgree) : l.silenceTick.c.ModesAgree ∧ l.silenceTick.c.admin = l.c.admin := by
  unfold Lane.silenceTick
  split
  · exact ⟨a, rfl⟩
  · rename_i hs
    split
    · exact Lane.silenceExpiry_modes a
    · exact ⟨Chan.SameModes.agree (c := l.c) ⟨rfl, rfl, by rw [hs]; rfl, fun _ => rfl, rfl, rfl, fun _ => ⟨rfl, rfl, rfl⟩, Iff.rfl, rfl, rfl,
        fun _ => ⟨rfl, rfl⟩⟩ a, rfl⟩

/-- The receive side stopped (R29): the modes agree under any admin state and framer that agree with an aligner in OFF. -/
theorem Lane.alignerStop_modes {l : Lane} (a : l.c.ModesAgree) {adm : Admin} {f : Framer} (k : LinkAgrees adm {} f) :
    ({ l.alignerStop.c with admin := adm, fr := f } : Chan).ModesAgree := by
  unfold Lane.alignerStop
  split
  · exact l.leaveLocked_departs.modes nofun k
  · rename_i hs
    exact a.unlocked hs nofun k

theorem Lane.alignerStop_fr (l : Lane) : l.alignerStop.c.fr = l.c.fr := by
  unfold Lane.alignerStop
  split
  · exact l.leaveLocked_kept.2.2.1
  · rfl

/-! ### The transmit side -/

/-- The parts of a channel that decide its modes and that a falling edge never touches. -/
structure Lane.EdgeKept (l m : Lane) : Prop where
  admin : m.c.admin = l.c.admin
  al : m.c.al = l.c.al
  mon : m.c.mon = l.c.mon
  del : m.c.del = l.c.del
  running : m.c.fr.running = l.c.fr.running
  drain : m.c.fr.drainTimer = l.c.fr.drainTimer

theorem Lane.EdgeKept.trans {l m n : Lane} (h : l.EdgeKept m) (k : m.EdgeKept n) : l.EdgeKept n :=
  ⟨k.1.trans h.1, k.2.trans h.2, k.3.trans h.3, k.4.trans h.4, k.5.trans h.5, k.6.trans h.6⟩

theorem Lane.EdgeKept.sameModes {l m : Lane} (h : l.EdgeKept m) (r : l.c.fr.running = true) : l.c.SameModes m.c :=
  ⟨h.admin, by rw [h.al], by rw [h.al], fun _ => by rw [h.al], by rw [h.mon], by rw [h.mon], fun _ => by rw [h.mon]; exact ⟨rfl, rfl, rfl⟩,
    by rw [h.del], h.running, by rw [h.drain], fun e => by rw [r] at e; cases e⟩

theorem Lane.loadByte_edgeKept (off : Nat) (l : Lane) : l.EdgeKept (l.loadByte off) := by
  unfold Lane.loadByte
  split
  · exact ⟨rfl, rfl, rfl, rfl, rfl, rfl⟩
  · split
    · exact ⟨rfl, rfl, rfl, rfl, rfl, rfl⟩
    · dsimp only
      split
      · unfold Lane.mapChan Chan.blockBoundary
        dsimp only
        split
        · exact ⟨rfl, rfl, rfl, rfl, rfl, rfl⟩
        · split_ifs <;> exact ⟨rfl, rfl, rfl, rfl, rfl, rfl⟩
      · exact ⟨rfl, rfl, rfl, rfl, rfl, rfl⟩

theorem Lane.presentNext_edgeKept (pos : Nat) (l : Lane) : l.EdgeKept (l.presentNext pos) := by
  have sent (off : Nat) (m : Lane) : m.EdgeKept (m.byteSent off) := by
    have h := m.byteSent_kept off
    exact ⟨h.admin, h.al, h.mon, h.del, h.running, h.drainTimer⟩
  have h0 : l.EdgeKept (if pos % 8 = 0 then l.loadByte (pos / 8) else l) := by
    split
    · exact l.loadByte_edgeKept _
    · exact ⟨rfl, rfl, rfl, rfl, rfl, rfl⟩
  unfold Lane.presentNext
  dsimp only
  generalize (if pos % 8 = 0 then l.loadByte (pos / 8) else l) = m at h0
  have h1 : l.EdgeKept (m.mapChan fun c => { c with fr := { c.fr.presentBit (pos % 8) with bitPos := some (pos + 1) } }) :=
    h0.trans ⟨rfl, rfl, rfl, rfl, rfl, rfl⟩
  generalize (m.mapChan fun c => { c with fr := { c.fr.presentBit (pos % 8) with bitPos := some (pos + 1) } }) = n at h1
  split
  · split
    · exact (h1.trans (sent _ n)).trans ⟨rfl, rfl, rfl, rfl, rfl, rfl⟩
    · exact h1.trans (sent _ n)
  · exact h1

/-- A falling edge changes no mode. -/
theorem Lane.fallingEdge_sameModes (l : Lane) : l.c.SameModes l.fallingEdge.c := by
  have start : l.EdgeKept (l.mapChan Chan.frameStart) := by
    unfold Lane.mapChan Chan.frameStart Chan.applyModeRules
    dsimp only
    split <;> split_ifs <;> exact ⟨rfl, rfl, rfl, rfl, rfl, rfl⟩
  unfold Lane.fallingEdge
  split
  · rename_i hr
    split
    · exact (start.trans (Lane.presentNext_edgeKept _ _)).sameModes hr
    · exact (l.presentNext_edgeKept _).sameModes hr
  · exact ⟨rfl, rfl, rfl, fun _ => rfl, rfl, rfl, fun _ => ⟨rfl, rfl, rfl⟩, Iff.rfl, rfl, rfl, fun _ => ⟨rfl, rfl⟩⟩

end Sys2Proof.Machine
end

