-- ==== Sys2Proof/Laws/PayloadBytes.lean ====
section
/-! SUPPORT. The edge that completes a payload byte of a processed frame, the frame's last byte among them: what the delineator does with the
byte does not depend on the aligner, so the frame's end is one change on top of it. -/

namespace Sys2Proof.Machine

open Sys2Proof

/-- The lane with its channel's aligner replaced; the lemmas below say that an operation of the delineator commutes with it. -/
def Lane.setAl (a : Aligner) (l : Lane) : Lane := l.mapChan fun c => { c with al := a }

theorem Lane.abortAssembly_setAl (a : Aligner) (l : Lane) : (l.setAl a).abortAssembly = l.abortAssembly.setAl a := by
  unfold Lane.abortAssembly
  rw [show (l.setAl a).c.del = l.c.del from rfl]
  cases l.c.del.assembly <;> rfl

theorem Chan.seekEvaluate_setAl (a : Aligner) (p q : Bool) (c : Chan) :
    ({ c with al := a } : Chan).seekEvaluate p q = { c.seekEvaluate p q with al := a } := by
  unfold Chan.seekEvaluate Chan.payloadLen
  dsimp only
  split_ifs <;> rfl

theorem Lane.offsetCompare_setAl (a : Aligner) (p : Option Nat) (q : Bool) (l : Lane) :
    (l.setAl a).offsetCompare p q = ((l.offsetCompare p q).1.setAl a, (l.offsetCompare p q).2) := by
  have hd : (l.setAl a).c.del = l.c.del := rfl
  by_cases ha : fboAgrees l.c.del.latchedFbo.toNat p = true
  · rw [Lane.offsetCompare_agrees ha, Lane.offsetCompare_agrees (l := l.setAl a) ha]
    rfl
  by_cases hm : l.c.del.mismatch + 1 < 2
  · rw [Lane.offsetCompare_first ha hm, Lane.offsetCompare_first (l := l.setAl a) ha hm]
    rfl
  · rw [Lane.offsetCompare_second ha hm, Lane.offsetCompare_second (l := l.setAl a) ha hm]
    have h : ((l.setAl a).mapChan (Chan.bump .offmiss)).abortAssembly = (l.mapChan (Chan.bump .offmiss)).abortAssembly.setAl a :=
      Lane.abortAssembly_setAl a (l.mapChan (Chan.bump .offmiss))
    rw [h]
    generalize (l.mapChan (Chan.bump .offmiss)).abortAssembly = m
    unfold Lane.setAl Lane.mapChan
    dsimp only
    rw [← Chan.seekEvaluate_setAl]

theorem Lane.acceptHeader_setAl (a : Aligner) (thr : Word) (n : Nat) (l : Lane) :
    (l.setAl a).acceptHeader thr n = (l.acceptHeader thr n).setAl a := by
  unfold Lane.acceptHeader
  have : (l.setAl a).canClaim .rx (cellsFor ((l.setAl a).c.cfg.storeLen n)) = l.canClaim .rx (cellsFor (l.c.cfg.storeLen n)) := rfl
  dsimp only
  rw [this]
  split_ifs <;> rfl

theorem Lane.actOnHeader_setAl (a : Aligner) (thr : Word) (n : Nat) (l : Lane) :
    (l.setAl a).actOnHeader thr n = (l.actOnHeader thr n).setAl a := by
  unfold Lane.actOnHeader
  rw [Lane.acceptHeader_setAl]
  split_ifs <;> rfl

theorem Lane.headerCompleted_setAl (a : Aligner) (thr : Word) (pos : Nat) (h : Word) (l : Lane) :
    (l.setAl a).headerCompleted thr pos h = (l.headerCompleted thr pos h).setAl a := by
  unfold Lane.headerCompleted
  rw [Lane.offsetCompare_setAl, Lane.actOnHeader_setAl]
  dsimp only
  rw [Lane.actOnHeader_setAl]
  have : predictAfter (l.setAl a).c.payloadLen (1 + headerLen h) = predictAfter l.c.payloadLen (1 + headerLen h) := rfl
  rw [this]
  split_ifs <;> rfl

theorem Lane.completePacket_setAl (a : Aligner) (l : Lane) : (l.setAl a).completePacket = l.completePacket.setAl a := by
  have hd : (l.setAl a).c.del.assembly = l.c.del.assembly := rfl
  have hq : (l.setAl a).c.rq.length = l.c.rq.length := rfl
  unfold Lane.completePacket
  rw [hd]
  cases l.c.del.assembly with
  | none => rfl
  | some d =>
    dsimp only
    rw [hq]
    split_ifs
    · unfold Lane.setAl Lane.mapChan
      dsimp only
      rw [Chan.appendRx_eq, Chan.appendRx_eq]
    · rfl

theorem Lane.storeBody_setAl (a : Aligner) (v : Byte) (l : Lane) : (l.setAl a).storeBody v = (l.storeBody v).setAl a := by
  unfold Lane.storeBody
  cases h : l.c.del.assembly with
  | none => simp only [Lane.setAl, Lane.mapChan, h]
  | some d =>
    simp only [Lane.setAl, Lane.mapChan, h]
    split_ifs <;> rfl

theorem Lane.bodyByte_setAl (a : Aligner) (v : Byte) (l : Lane) : (l.setAl a).bodyByte v = (l.bodyByte v).setAl a := by
  unfold Lane.bodyByte
  rw [Lane.storeBody_setAl]
  have : ((l.storeBody v).setAl a).consume = (l.storeBody v).consume.setAl a := rfl
  dsimp only
  rw [this, Lane.completePacket_setAl]
  split_ifs <;> first | rfl | contradiction

theorem Lane.payloadByte_setAl (a : Aligner) (thr : Word) (pos : Nat) (v : Byte) (l : Lane) :
    (l.setAl a).payloadByte thr pos v = (l.payloadByte thr pos v).setAl a := by
  unfold Lane.payloadByte
  rw [Lane.bodyByte_setAl]
  have : (l.setAl a).c.del = l.c.del := rfl
  rw [this]
  cases l.c.del.state <;> dsimp only
  · split_ifs
    · rfl
    · unfold Lane.headerByteIn
      rw [this]
      cases l.c.del.headerByte with
      | none => rfl
      | some h => exact Lane.headerCompleted_setAl ..
  · split_ifs <;> rfl
  · split_ifs
    · rfl
    · unfold Lane.skipByte
      dsimp only
      split_ifs <;> first | rfl | contradiction

/-- The edge that completes a payload byte of a processed frame, its last byte among them (R22, R58). -/
theorem State.rxEdge_payload {s : State} {ch : ChanId} {b x : Bool} {pos : Nat} {v : Byte}
    (h : (s.chan ch).byteArrives b x (pos + 8) v) (hf : pos + 9 ≤ (s.chan ch).cfg.flen.toNat) :
    s.rxEdge ch b = s.onLane ch fun l =>
      ((l.mapChan (Chan.withByte s.globals x v)).payloadByte s.globals.poolthr pos v).mapChan (Chan.endedAt (pos + 8)) := by
  have k := Lane.payloadByte_delinKept s.globals.poolthr pos v ((s.lane ch).mapChan (Chan.withByte s.globals x v))
  have hcfg : (((s.lane ch).mapChan (Chan.withByte s.globals x v)).payloadByte s.globals.poolthr pos v).c.cfg = (s.chan ch).cfg := k.cfg
  rcases Nat.lt_or_eq_of_le hf with hl | hl
  · rw [State.rxEdge_byte h (by omega)]
    refine congrArg (s.setLane ch) ?_
    show Lane.payloadByte s.globals.poolthr pos v ((s.lane ch).mapChan (Chan.withByte s.globals x v)) = Lane.mapChan _ _
    generalize (((s.lane ch).mapChan (Chan.withByte s.globals x v)).payloadByte s.globals.poolthr pos v) = m at hcfg ⊢
    unfold Lane.mapChan Chan.endedAt
    rw [hcfg, if_neg (by omega)]
  · rw [State.rxEdge_lastByte h (by omega)]
    refine congrArg (s.setLane ch) ?_
    refine (congrArg (Lane.mapChan fun c => c.monitorFrameEnd.delinFrameEnd)
      (Lane.payloadByte_setAl { ((s.chan ch).withByte s.globals x v).al with bitPos := 0 } s.globals.poolthr pos v
        ((s.lane ch).mapChan (Chan.withByte s.globals x v)))).trans ?_
    have hal : (((s.lane ch).mapChan (Chan.withByte s.globals x v)).payloadByte s.globals.poolthr pos v).c.al
      = ((s.chan ch).withByte s.globals x v).al := k.al
    dsimp only
    generalize (((s.lane ch).mapChan (Chan.withByte s.globals x v)).payloadByte s.globals.poolthr pos v) = m at hcfg hal ⊢
    unfold Lane.setAl Lane.mapChan Chan.endedAt
    dsimp only
    rw [hcfg, if_pos (by omega), hal]
    rfl

end Sys2Proof.Machine
end

