-- ==== Sys2Proof/Laws/PerInstr.lean ====
section
/-! SUPPORT. Which terms of Instr spell the row they are named after, one lemma for each row: every term of a row whose access or code is fixed
does, and four rows ask for what the table asks of them. -/

namespace Sys2Proof.Laws.SpellsItsRow

open Sys2Proof

/-- When the term spells its row: its word or code has no row of its own. -/
def condition : Instr → Prop
  | .idataRead word _ => word ≠ 12
  | .registerWrite word _ => word ∈ plainWriteWords
  | .evenByteWrite word _ => word ≠ 13
  | .unknownCommand d => d.setWidth 8 ∉ commandCodes
  | _ => True

/-- A term is well formed exactly when it spells its row. -/
def Statement (i : Instr) : Prop := i.wellFormed = true ↔ condition i

theorem powerOnReset : Statement .powerOnReset := ⟨fun _ => trivial, fun _ => rfl⟩

theorem resetRelease (width : Bool) : Statement (.resetRelease width) := ⟨fun _ => trivial, fun _ => rfl⟩

theorem poolBuildComplete : Statement .poolBuildComplete := ⟨fun _ => trivial, fun _ => rfl⟩

theorem softReset (d : Word) : Statement (.softReset d) := ⟨fun _ => trivial, fun _ => rfl⟩

theorem pageWrite (d : Word) : Statement (.pageWrite d) := ⟨fun _ => trivial, fun _ => rfl⟩

theorem idxWrite (d : Word) : Statement (.idxWrite d) := ⟨fun _ => trivial, fun _ => rfl⟩

theorem idataRead (word : WordNo) (odd : Bool) : Statement (.idataRead word odd) := by
  simp [Statement, condition, Instr.wellFormed, Instr.readWordOk, Instr.registerWordOk, Instr.evenByteWordOk, Instr.unknownCodeOk]

theorem configurationWrite (d : Word) : Statement (.configurationWrite d) := ⟨fun _ => trivial, fun _ => rfl⟩

theorem globalEntryWrite (d : Word) : Statement (.globalEntryWrite d) := ⟨fun _ => trivial, fun _ => rfl⟩

theorem ignoredIndirectWrite (d : Word) : Statement (.ignoredIndirectWrite d) := ⟨fun _ => trivial, fun _ => rfl⟩

theorem eventFlagClear (scope : EventScope) (d : Word) : Statement (.eventFlagClear scope d) := ⟨fun _ => trivial, fun _ => rfl⟩

theorem eventMaskWrite (scope : EventScope) (d : Word) : Statement (.eventMaskWrite scope d) := ⟨fun _ => trivial, fun _ => rfl⟩

theorem registerWrite (word : WordNo) (d : Word) : Statement (.registerWrite word d) := by
  simp [Statement, condition, Instr.wellFormed, Instr.readWordOk, Instr.registerWordOk, Instr.evenByteWordOk, Instr.unknownCodeOk]

theorem evenByteWrite (word : WordNo) (d : Word) : Statement (.evenByteWrite word d) := by
  simp [Statement, condition, Instr.wellFormed, Instr.readWordOk, Instr.registerWordOk, Instr.evenByteWordOk, Instr.unknownCodeOk]

theorem conflictingStrobes (word : WordNo) (d : Word) : Statement (.conflictingStrobes word d) := ⟨fun _ => trivial, fun _ => rfl⟩

theorem rxdataRead : Statement .rxdataRead := ⟨fun _ => trivial, fun _ => rfl⟩

theorem txdataWrite (d : Word) : Statement (.txdataWrite d) := ⟨fun _ => trivial, fun _ => rfl⟩

theorem chStart (hi : Byte) : Statement (.chStart hi) := ⟨fun _ => trivial, fun _ => rfl⟩

theorem chStop (hi : Byte) : Statement (.chStop hi) := ⟨fun _ => trivial, fun _ => rfl⟩

theorem chReset (hi : Byte) : Statement (.chReset hi) := ⟨fun _ => trivial, fun _ => rfl⟩

theorem chFlush (hi : Byte) : Statement (.chFlush hi) := ⟨fun _ => trivial, fun _ => rfl⟩

theorem rxOpen (hi : Byte) : Statement (.rxOpen hi) := ⟨fun _ => trivial, fun _ => rfl⟩

theorem rxRelease (hi : Byte) : Statement (.rxRelease hi) := ⟨fun _ => trivial, fun _ => rfl⟩

theorem rxSkip (hi : Byte) : Statement (.rxSkip hi) := ⟨fun _ => trivial, fun _ => rfl⟩

theorem txAlloc (hi : Byte) : Statement (.txAlloc hi) := ⟨fun _ => trivial, fun _ => rfl⟩

theorem txSubmit (hi : Byte) : Statement (.txSubmit hi) := ⟨fun _ => trivial, fun _ => rfl⟩

theorem txCancel (hi : Byte) : Statement (.txCancel hi) := ⟨fun _ => trivial, fun _ => rfl⟩

theorem ohPop (hi : Byte) : Statement (.ohPop hi) := ⟨fun _ => trivial, fun _ => rfl⟩

theorem cntSnap (w : SnapWrite) : Statement (.cntSnap w) := ⟨fun _ => trivial, fun _ => rfl⟩

theorem unknownCommand (d : Word) : Statement (.unknownCommand d) := by
  simp [Statement, condition, Instr.wellFormed, Instr.readWordOk, Instr.registerWordOk, Instr.evenByteWordOk, Instr.unknownCodeOk]

theorem drainEnd (ch : ChanId) : Statement (.drainEnd ch) := ⟨fun _ => trivial, fun _ => rfl⟩

theorem drainTimerExpiry (ch : ChanId) (clockStopped : Bool) : Statement (.drainTimerExpiry ch clockStopped) := ⟨fun _ => trivial, fun _ => rfl⟩

theorem markerMatch (ch : ChanId) (b : Bool) : Statement (.markerMatch ch b) := ⟨fun _ => trivial, fun _ => rfl⟩

theorem verifyMarkerComparison (ch : ChanId) (b : Bool) : Statement (.verifyMarkerComparison ch b) := ⟨fun _ => trivial, fun _ => rfl⟩

theorem lockedMarkerComparison (ch : ChanId) (b : Bool) : Statement (.lockedMarkerComparison ch b) := ⟨fun _ => trivial, fun _ => rfl⟩

theorem silenceTimerExpiry (ch : ChanId) : Statement (.silenceTimerExpiry ch) := ⟨fun _ => trivial, fun _ => rfl⟩

theorem silentFirstBit (ch : ChanId) (b : Bool) : Statement (.silentFirstBit ch b) := ⟨fun _ => trivial, fun _ => rfl⟩

theorem fcntByte (ch : ChanId) (b : Bool) : Statement (.fcntByte ch b) := ⟨fun _ => trivial, fun _ => rfl⟩

theorem offsetPoint (ch : ChanId) (b : Bool) : Statement (.offsetPoint ch b) := ⟨fun _ => trivial, fun _ => rfl⟩

theorem overheadClose (ch : ChanId) (b : Bool) : Statement (.overheadClose ch b) := ⟨fun _ => trivial, fun _ => rfl⟩

theorem payloadByte (ch : ChanId) (b : Bool) : Statement (.payloadByte ch b) := ⟨fun _ => trivial, fun _ => rfl⟩

theorem processedFrameEnd (ch : ChanId) (b : Bool) : Statement (.processedFrameEnd ch b) := ⟨fun _ => trivial, fun _ => rfl⟩

theorem frameStart (ch : ChanId) : Statement (.frameStart ch) := ⟨fun _ => trivial, fun _ => rfl⟩

theorem blockBoundary (ch : ChanId) : Statement (.blockBoundary ch) := ⟨fun _ => trivial, fun _ => rfl⟩

theorem packetEnd (ch : ChanId) : Statement (.packetEnd ch) := ⟨fun _ => trivial, fun _ => rfl⟩

theorem transmitFrameEnd (ch : ChanId) : Statement (.transmitFrameEnd ch) := ⟨fun _ => trivial, fun _ => rfl⟩

theorem receivedBit (ch : ChanId) (b : Bool) : Statement (.receivedBit ch b) := ⟨fun _ => trivial, fun _ => rfl⟩

theorem txclkFallingEdge (ch : ChanId) : Statement (.txclkFallingEdge ch) := ⟨fun _ => trivial, fun _ => rfl⟩

end Sys2Proof.Laws.SpellsItsRow
end

