-- ==== Sys2Proof/Laws/Steps.lean ====
section
/-! SUPPORT. Once for all what a step can do: a property of states that the window's own changes do not touch is kept by every step when each
of the operations below keeps it. -/

namespace Sys2Proof.Machine

open Sys2Proof

/-- What a property must be kept by for every step to keep it. -/
structure KeptByOperations (P : State → Prop) : Prop where
  window : ∀ (s : State) (w : Window), P s → P { s with win := w }
  powerOn : ∀ s : State, P s → P s.powerOnReset
  build : ∀ s : State, P s → P s.buildComplete
  writes : ∀ (s : State) (word : WordNo) (v : Word), P s → P (s.writeWord word v)
  writesByte : ∀ (s : State) (v : Byte), P s → P (s.txdataByte v)
  reads : ∀ (s : State) (word : WordNo), P s → P (s.readWord word).2
  readsByte : ∀ s : State, P s → P s.rxdataByte.2
  rising : ∀ (s : State) (ch : ChanId) (b : Bool), P s → P (s.rxEdge ch b)
  falling : ∀ (s : State) (ch : ChanId), P s → P (s.txEdge ch)
  silence : ∀ (s : State) (ch : ChanId), P s → P (s.silenceExpiry ch)
  counts : ∀ (s : State) (ch : ChanId) (snap live : Counters), P s → P (s.onChan ch fun c => { c with snap := snap, live := live })
  drain : ∀ (s : State) (ch : ChanId) (stopped : Bool), P s → P (s.drainExpiry ch stopped)

namespace KeptByOperations

theorem writeAccess {P : State → Prop} (k : KeptByOperations P) (word : WordNo) (d : Word) {s : State} (h : P s) :
    P (s.writeAccess word d) := by
  unfold State.writeAccess
  split
  · exact k.window _ _ h
  · split
    · exact k.window _ _ (k.writesByte _ _ h)
    · exact k.window _ _ (k.writes _ _ _ h)

theorem evenWriteAccess {P : State → Prop} (k : KeptByOperations P) (word : WordNo) (d : Word) {s : State} (h : P s) :
    P (s.evenWriteAccess word d) := by
  unfold State.evenWriteAccess
  split
  · exact k.window _ _ h
  · split
    · exact k.writeAccess word d h
    · exact k.window s _ h

theorem readAccess {P : State → Prop} (k : KeptByOperations P) (word : WordNo) (odd : Bool) {s : State} (h : P s) :
    P (s.readAccess word odd) := by
  unfold State.readAccess
  split
  · exact k.window _ _ h
  split
  · exact k.window _ _ (k.reads _ _ h)
  split
  · exact k.window _ _ (k.readsByte _ h)
  split
  · exact k.window _ _ h
  · exact k.window (s.readWord word).2 _ (k.reads _ _ h)

theorem snapMeets {P : State → Prop} (k : KeptByOperations P) (m : Meeting) (hi : Byte) {s : State} (h : P s) :
    P (s.snapMeets m hi) := by
  have event : P (s.lineEvent m.event) := by
    unfold State.lineEvent
    split
    · exact k.silence _ _ h
    · exact k.rising _ _ _ h
  unfold State.snapMeets
  dsimp only
  split
  · exact k.counts _ _ _ _ (k.writeAccess 6 _ event)
  · exact k.writeAccess 6 _ event

/-- Every command's execution keeps the property. -/
theorem exec {P : State → Prop} (k : KeptByOperations P) {i : Instr} {s t : State} (h : P s)
    (e : Sys2Proof.Machine.exec i s = .next t) : P t := by
  have key : ∀ u : State, P u → Sys2Proof.Machine.exec i s = .next u → P t := by
    intro u hu hs
    rw [hs] at e
    cases e
    exact hu
  cases i with
  | powerOnReset => exact key _ (k.powerOn _ h) rfl
  | resetRelease w =>
    refine key (s.resetRelease w) ?_ rfl
    unfold State.resetRelease
    split
    · exact k.window _ _ h
    · exact h
  | poolBuildComplete => exact key _ (k.build _ h) rfl
  | softReset d => exact key _ (k.writeAccess 1 d h) rfl
  | pageWrite d => exact key _ (k.writeAccess 5 d h) rfl
  | idxWrite d => exact key _ (k.writeAccess 10 d h) rfl
  | idataRead word odd => exact key _ (k.readAccess word odd h) rfl
  | configurationWrite d => exact key _ (k.writeAccess 11 d h) rfl
  | globalEntryWrite d => exact key _ (k.writeAccess 11 d h) rfl
  | ignoredIndirectWrite d => exact key _ (k.writeAccess 11 d h) rfl
  | eventFlagClear scope d =>
    cases scope with
    | global => exact key _ (k.writeAccess 3 d h) rfl
    | channel => exact key _ (k.writeAccess 14 d h) rfl
  | eventMaskWrite scope d =>
    cases scope with
    | global => exact key _ (k.writeAccess 4 d h) rfl
    | channel => exact key _ (k.writeAccess 15 d h) rfl
  | registerWrite word d => exact key _ (k.writeAccess word d h) rfl
  | evenByteWrite word d => exact key _ (k.evenWriteAccess word d h) rfl
  | conflictingStrobes word d =>
    refine key s.strobesConflict ?_ rfl
    unfold State.strobesConflict
    split <;> exact k.window _ _ h
  | rxdataRead => exact key _ (k.readAccess 12 false h) rfl
  | txdataWrite d => exact key _ (k.writeAccess 13 d h) rfl
  | chStart hi => exact key _ (k.writeAccess 6 _ h) rfl
  | chStop hi => exact key _ (k.writeAccess 6 _ h) rfl
  | chReset hi => exact key _ (k.writeAccess 6 _ h) rfl
  | chFlush hi => exact key _ (k.writeAccess 6 _ h) rfl
  | rxOpen hi => exact key _ (k.writeAccess 6 _ h) rfl
  | rxRelease hi => exact key _ (k.writeAccess 6 _ h) rfl
  | rxSkip hi => exact key _ (k.writeAccess 6 _ h) rfl
  | txAlloc hi => exact key _ (k.writeAccess 6 _ h) rfl
  | txSubmit hi => exact key _ (k.writeAccess 6 _ h) rfl
  | txCancel hi => exact key _ (k.writeAccess 6 _ h) rfl
  | ohPop hi => exact key _ (k.writeAccess 6 _ h) rfl
  | cntSnap w =>
    obtain ⟨hi, _ | m⟩ := w
    · exact key _ (k.writeAccess 6 _ h) rfl
    · exact key _ (k.snapMeets m hi h) rfl
  | unknownCommand d => exact key _ (k.writeAccess 6 d h) rfl
  | drainEnd ch => exact key _ (k.falling _ ch h) rfl
  | drainTimerExpiry ch stopped => exact key _ (k.drain _ ch stopped h) rfl
  | markerMatch ch b => exact key _ (k.rising _ ch b h) rfl
  | verifyMarkerComparison ch b => exact key _ (k.rising _ ch b h) rfl
  | lockedMarkerComparison ch b => exact key _ (k.rising _ ch b h) rfl
  | silenceTimerExpiry ch => exact key _ (k.silence _ ch h) rfl
  | silentFirstBit ch b => exact key _ (k.rising _ ch b h) rfl
  | fcntByte ch b => exact key _ (k.rising _ ch b h) rfl
  | offsetPoint ch b => exact key _ (k.rising _ ch b h) rfl
  | overheadClose ch b => exact key _ (k.rising _ ch b h) rfl
  | payloadByte ch b => exact key _ (k.rising _ ch b h) rfl
  | processedFrameEnd ch b => exact key _ (k.rising _ ch b h) rfl
  | frameStart ch => exact key _ (k.falling _ ch h) rfl
  | blockBoundary ch => exact key _ (k.falling _ ch h) rfl
  | packetEnd ch => exact key _ (k.falling _ ch h) rfl
  | transmitFrameEnd ch => exact key _ (k.falling _ ch h) rfl
  | receivedBit ch b => exact key _ (k.rising _ ch b h) rfl
  | txclkFallingEdge ch => exact key _ (k.falling _ ch h) rfl

/-- Every step keeps the property, when the queue does not matter to it and an idle tick keeps it too. -/
theorem step {P : State → Prop} (k : KeptByOperations P) (queue : ∀ (s : State) (q : List Instr), P s → P { s with pending := q })
    (tick : ∀ s : State, P s → P s.tick) {s t : State} (h : P s) (e : Sys2Proof.Machine.step s = .next t) : P t := by
  unfold Sys2Proof.Machine.step at e
  split at e
  · cases e
    exact tick s h
  · exact k.exec (queue s _ h) e

end KeptByOperations

/-- An idle tick is made of ticks of single timers: a property that each of them keeps, with the model's own counters not mattering to it, is
kept by the tick. -/
theorem State.tick_kept {P : State → Prop} (silence : ∀ (s : State) (ch : ChanId), P s → P (s.silenceTick ch))
    (drain : ∀ (s : State) (ch : ChanId), P s → P (s.drainTick ch)) (build : ∀ s : State, P s → P s.buildTick)
    (prescale : ∀ (s : State) (n : Nat), P s → P { s with prescale := n }) {s : State} (h : P s) : P s.tick := by
  unfold State.tick
  split
  · exact h
  · refine build _ ?_
    unfold State.drainTicks
    split
    · exact prescale _ _ (drain _ _ (drain _ _ (drain _ _ (drain _ _ (silence _ _ (silence _ _ (silence _ _ (silence _ _ h))))))))
    · exact prescale _ _ (silence _ _ (silence _ _ (silence _ _ (silence _ _ h))))

end Sys2Proof.Machine
end

