-- ==== Sys2Proof/Tests/Slice0.lean ====
section
/-! SUPPORT. Checks of the model on small states: ill-formed terms refused, the data sheet's worked examples, one step of every row, and
for every statement with hypotheses a state and operands that meet them, at the ends of their ranges. -/

namespace Sys2Proof.Tests

open Sys2Proof Sys2Proof.Machine

/-! ### States -/

/-- The part out of reset, 16-bit mode, page 0, the pool READY with eight cells on its free list. -/
def ready : State :=
  { State.reset with win := { inReset := false }, pool := { state := .ready, free := [0, 1, 2, 3, 4, 5, 6, 7] } }

/-- The same in 8-bit mode, `hold` in the holding latch. -/
def ready8 (hold : Byte) : State := { ready with win := { ready.win with width16 := false, holdLatch := hold } }

/-- `ready` with channel 0 replaced. -/
def part (c : Chan) : State := ready.setChan 0 c

/-- `ready` with IDX at `i`. -/
def indexed (i : BitVec 8) : State := { ready with win := { ready.win with idx := i } }

/-- `s` with the argument ARG0. -/
def withArg (n : Nat) (s : State) : State := { s with cu := { s.cu with arg0 := natWord n } }

/-- The state a step of `i` leads to. -/
def after (i : Instr) (s : State) : State :=
  match step { s with pending := [i] } with
  | .next t => t
  | _ => s

/-- A receive descriptor of one cell, and a channel's transmit descriptor of one cell. -/
def rx (cell : CellNo) (len : Nat) : RxDesc := ⟨5, len, len, false, false, 37, [cell]⟩
def tx (cell : CellNo) (len : Nat) : TxDesc := ⟨9, len, [cell]⟩

/-- A LOCKED aligner one bit short of the byte `v` at offset `off`; the missing bit is `v.getLsbD 0`. -/
def before (off : Nat) (v : Byte) : Aligner :=
  { state := .locked, searchReg := v.setWidth 16 >>> 1, bitPos := 8 * off + 7, silence := some 10 }

/-- An ACTIVE channel about to take the byte `v` at offset `off`. -/
def taking (off : Nat) (v : Byte) (d : Delin) : Chan :=
  { admin := .active, al := before off v, mon := { mode := .monitoring, frameFcnt := 37 }, del := d }

/-- An aligner in state `st` one bit short of the comparison with `window`; the missing bit is 0 for the marker 0xB54E. -/
def comparing (st : AlState) (window : Word) : Chan :=
  { admin := .active, al := { state := st, searchReg := window >>> 1, bitPos := 15, silence := some 10 } }

/-- An ACTIVE channel whose framer is RUNNING with `pos` bits of a frame presented. -/
def sending (pos : Option Nat) (f : Framer) : Chan := { admin := .active, fr := { f with running := true, bitPos := pos } }

/-- A packet in flight with its last body byte going out. -/
def lastBody : Framer := { owed := 1, kind := .packetBody, inflight := some ⟨tx 8 10, 9⟩, outByte := 0x5A }

/-- A packet in flight with the second byte of its header going out. -/
def header : Framer := { owed := 11, kind := .packetHeader, inflight := some ⟨tx 8 10, 0⟩, outByte := 0xA9 }

/-! ### Ill-formed terms are refused -/

theorem test_illformed_idataRead : (Instr.idataRead 12 false).wellFormed = false := by decide
theorem test_illformed_registerWrite : (Instr.registerWrite 6 0).wellFormed = false := by decide
theorem test_illformed_evenByteWrite : (Instr.evenByteWrite 13 0).wellFormed = false := by decide
theorem test_illformed_unknownCommand : (Instr.unknownCommand 0xFF31).wellFormed = false := by decide
theorem test_wellformed : (Instr.idataRead 11 true).wellFormed && (Instr.registerWrite 8 7).wellFormed
    && (Instr.evenByteWrite 6 1).wellFormed && (Instr.unknownCommand 0x0132).wellFormed = true := by decide

/-- No row has bits, so no word spells a command. -/
theorem test_decodeTableWord : decodeTableWord 16 0xB54E = none := by decide

/-! ### Worked examples of the data sheet -/

/-- Section 12.7: the header of LEN 300 is 0x12C0; R121: the idle header is 0x000F. -/
theorem test_headers : headerOf 300 = 0x12C0 ∧ headerOf 0 = 0x000F ∧ headerLen 0x12C0 = 300 := by decide

/-- Section 12.7: LEN 300 takes 3 cells; section 12.8: LEN 4000 takes 32, LEN 1500 takes 12. -/
theorem test_cells : cellsFor 300 = 3 ∧ cellsFor 4000 = 32 ∧ cellsFor 1500 = 12 := by decide

/-- Section 12.8: a grant from 64 to 32 does not cross POOLTHR 32, one from 32 to 29 does, one from 29 to 17 does not. -/
theorem test_poollow : crossesDown 32 64 32 = false ∧ crossesDown 32 32 29 = true ∧ crossesDown 32 29 17 = false := by decide

/-- Section 12.7: with 54 bytes remaining and P 248 the prediction is position 54; with 300 none. -/
theorem test_predictions : predictAfter 248 54 = some 54 ∧ predictAfter 248 300 = none := by decide

/-! ### One step of every row -/

theorem test_powerOnReset : (after .powerOnReset ready).win.inReset = true ∧ (after .powerOnReset ready).pool.state = .init := by decide
theorem test_resetRelease : (after (.resetRelease false) State.reset).win = { inReset := false, width16 := false } := by decide
theorem test_poolBuildComplete :
    (after .poolBuildComplete { ready with pool := {} }).gflags = { initdone := true } := by decide
theorem test_softReset : (after (.softReset 1) ready).pool = {} ∧ (after (.softReset 0) ready).pool = ready.pool := by decide
theorem test_pageWrite : (after (.pageWrite 3) ready).win.page = 3 ∧ (after (.pageWrite 4) ready).gflags = { cfgerr := true } := by
  decide
theorem test_idxWrite : (after (.idxWrite 0x1F3) ready).win.idx = 0xF3 := by decide
theorem test_idataRead : (after (.idataRead 11 false) ready).win.lines = .all 256
    ∧ (after (.idataRead 11 false) ready).win.idx = 1 := by decide
theorem test_idataRead_id8 : (after (.idataRead 0 true) (after (.idataRead 0 false) (ready8 0))).win.lines = .low 0x4A := by decide
theorem test_configurationWrite : ((after (.configurationWrite 64) ready).chan 0).cfg.flen = 64
    ∧ (after (.configurationWrite 68) ready).gflags = { cfgerr := true } := by decide
theorem test_globalEntryWrite : (after (.globalEntryWrite 255) (indexed 0xF0)).globals.tsil = 255 := by decide
theorem test_ignoredIndirectWrite : after (.ignoredIndirectWrite 9) (indexed 0xFF) = (indexed 0).acked := by decide
theorem test_eventFlagClear : (after (.eventFlagClear .global 2) { ready with gflags := ⟨true, true, true, true, true, true⟩ }).gflags
    = ⟨true, false, true, true, true, true⟩ := by decide
theorem test_eventMaskWrite : ((after (.eventMaskWrite .channel 0xFFE1) ready).chan 0).mask = { rxq := true, txdone := true } := by decide
theorem test_registerWrite : (after (.registerWrite 9 0x1234) ready).cu = { arg1 := 0x1234 } := by decide
theorem test_evenByteWrite : (after (.evenByteWrite 6 0x31) (ready8 0)).win.holdLatch = 0x31 := by decide
theorem test_conflictingStrobes : after (.conflictingStrobes 13 7) ready = ready.acked := by decide
theorem test_rxdataRead : (after .rxdataRead { part { held := some ⟨rx 8 3, 1⟩ } with mem := [(1025, 0x11), (1026, 0x22)] }).win.lines
    = .all 0x2211 := by decide
theorem test_txdataWrite : (after (.txdataWrite 0x2211) (part { fill := some ⟨130, 127, [8, 9]⟩ })).mem
    = [(1151, 0x11), (1152, 0x22)] := by decide
theorem test_chStart : ((after (.chStart 0) ready).chan 0).admin = .active ∧ (after (.chStart 0) ready).cu.cstat = .ok := by decide
theorem test_chStop : ((after (.chStop 0) (part (sending (some 100) {}))).chan 0).admin = .draining
    ∧ (after (.chStop 0) (part (sending none {}))).gflags.cmddone = true := by decide
theorem test_chReset : (after (.chReset 0) (part { rq := [rx 8 3], rxHolding := 1 })).pool.free = [0, 1, 2, 3, 4, 5, 6, 7, 8] := by decide
theorem test_chFlush : (after (.chFlush 0) (part { fill := some ⟨5, 0, [9]⟩, txHolding := 1 })).cu = { cstat := .ok, res1 := 1 } := by decide
theorem test_rxOpen : (after (.rxOpen 0) (part { rq := [rx 8 3] })).cu = { cstat := .ok, res0 := 3, res1 := 5 } := by decide
theorem test_rxRelease : (after (.rxRelease 0) (part { held := some ⟨rx 8 3, 2⟩, rxHolding := 1 })).cu
    = { cstat := .ok, res0 := 5, res1 := 2 } := by decide
theorem test_rxSkip : (after (.rxSkip 0) (part { rq := [rx 8 3, rx 9 3], rxHolding := 2 })).cu
    = { cstat := .ok, res0 := 5, res1 := 1 } := by decide
theorem test_txAlloc : ((after (.txAlloc 0) (withArg 300 ready)).chan 0).fill = some ⟨300, 0, [0, 1, 2]⟩ := by decide
theorem test_txSubmit : ((after (.txSubmit 0) (part { fill := some ⟨5, 5, [8]⟩, nextTxseq := 9 })).chan 0).tq = [tx 8 5] := by decide
theorem test_txCancel : (after (.txCancel 0) (part { fill := some ⟨5, 2, [8]⟩, txHolding := 1 })).cu
    = { cstat := .ok, res0 := 1, res1 := 2 } := by decide
theorem test_ohPop : (after (.ohPop 0) ready).cu.cstat = .empty := by decide
theorem test_cntSnap : ((after (.cntSnap ⟨0, none⟩) (part { live := { hdrerr := 3 } })).chan 0).snap = { hdrerr := 3 }
    ∧ ((after (.cntSnap ⟨0, none⟩) (part { live := { hdrerr := 3 } })).chan 0).live = {} := by decide
/-- Section 9.5: a CNT_SNAP between the aligner's part of an alignment loss by silence and the delineator's. -/
theorem test_cntSnap_meets :
    let d := (after (.cntSnap ⟨0, some ⟨.silence 0, [.aligner]⟩⟩)
      (part { taking 9 0 { state := .body, assembly := some (rx 8 3) } with live := { rxframes := 1000 } })).chan 0
    d.snap = { rxframes := 1000, alignloss := 1 } ∧ d.live = { rxabort := 1 } := by decide
theorem test_unknownCommand : (after (.unknownCommand 0x05) ready).cu.cstat = .badcmd := by decide
theorem test_unknownCommand_busy : (after (.unknownCommand 0x05) { ready with pool := {} }).cu.cstat = .busy := by decide
theorem test_drainEnd :
    (after (.drainEnd 0) { part { sending (some 2047) {} with admin := .draining } with cu := { pending := some 0 } }).cu.cstat = .ok := by
  decide
theorem test_drainTimerExpiry :
    (after (.drainTimerExpiry 0 true)
      { part { sending (some 9) { lastBody with drainTimer := some 1 } with admin := .draining, txHolding := 1 } with
        cu := { pending := some 0 } }).cu.cstat = .timeout := by decide
theorem test_markerMatch : ((after (.markerMatch 0 false) (part (comparing .hunt 0xB54E))).chan 0).al.state = .verify := by decide
theorem test_verifyMarkerComparison :
    ((after (.verifyMarkerComparison 0 false) (part (comparing .verify 0xB54E))).chan 0).al.verifyCount = 1 := by decide
theorem test_lockedMarkerComparison :
    ((after (.lockedMarkerComparison 0 false) (part (comparing .locked 0xB54E))).chan 0).live = { rxframes := 1 } := by decide
theorem test_silenceTimerExpiry :
    ((after (.silenceTimerExpiry 0) (part (comparing .locked 0))).chan 0).live = { alignloss := 1 } := by decide
theorem test_silentFirstBit :
    ((after (.silentFirstBit 0 true) (part { admin := .active, al := { state := .silent } })).chan 0).al
      = { state := .hunt, searchReg := 1, silence := some 10 } := by decide
theorem test_fcntByte : ((after (.fcntByte 0 true) (part (taking 2 0x25 {}))).chan 0).mon.frameFcnt = 0x25 := by decide
theorem test_offsetPoint : ((after (.offsetPoint 0 false) (part (taking 5 54 { state := .seek }))).chan 0).del
    = { state := .header, latchedFbo := 54, startPos := some 54 } := by decide
theorem test_overheadClose : ((after (.overheadClose 0 true) (part (taking 7 1 {}))).chan 0).live = { fcerr := 1, fcjump := 1 } := by decide
theorem test_payloadByte :
    (after (.payloadByte 0 false)
      (part (taking 9 0xC0 { state := .header, headerByte := some 0x12, nextPktseq := 4 }))).pool.free = [3, 4, 5, 6, 7] := by decide
theorem test_payloadByte_body :
    (after (.payloadByte 0 true)
      (part (taking 20 0x5B { state := .body, remaining := 2, stored := 2, assembly := some (rx 8 4) }))).mem = [(1026, 0x5B)] := by decide
theorem test_processedFrameEnd :
    ((after (.processedFrameEnd 0 true) (part (taking 255 1 {}))).chan 0).mon.prevXor = 1 := by decide
theorem test_frameStart : ((after (.frameStart 0) (part (sending none {}))).chan 0).fr.overhead = { stat := 0xC0, fbo := 0 } := by decide
theorem test_blockBoundary :
    ((after (.blockBoundary 0) (part { sending (some 64) {} with tq := [tx 8 300] })).chan 0).fr.outByte = 0x12 := by decide
theorem test_packetEnd : (after (.packetEnd 0) (part { sending (some 207) lastBody with txHolding := 1 })).pool.free
    = [0, 1, 2, 3, 4, 5, 6, 7, 8] := by decide
theorem test_transmitFrameEnd :
    ((after (.transmitFrameEnd 0) (part (sending (some 2047) { runXor := 1, outByte := 3 }))).chan 0).fr.prevXor = 2 := by decide
theorem test_receivedBit : ((after (.receivedBit 0 true) (part (comparing .hunt 0))).chan 0).al.searchReg = 1 := by decide
theorem test_txclkFallingEdge : ((after (.txclkFallingEdge 0) (part (sending (some 7) { outByte := 0xB5 }))).chan 0).fr.txd = true := by
  decide
/-- A step on an empty queue: the silence timer counts one tick. -/
theorem test_idleTick : (match step (part (comparing .hunt 0)) with
    | .next t => (t.chan 0).al.silence
    | _ => none) = some 9 := by decide

/-! ### Hypotheses that are met, statement by statement

The premises that many statements share are shown met by families of states; each statement's own then name a member of one. -/

/-- Commands: every channel `c` on page 0 with any code, in both widths. -/
theorem test_part_takesCmd (c : Chan) (code : Byte) : (part c).takesCmd code ∧ (part c).chan (part c).win.page = c
    ∧ (ready8 code).takesCmd code := ⟨⟨rfl, rfl, rfl, .inl rfl⟩, rfl, rfl, rfl, rfl, .inr rfl⟩

/-- Writes: every word in 16-bit mode, and in 8-bit mode a byte over the latch. -/
theorem test_part_carries (c : Chan) (d : Word) : (part c).taking ∧ (part c).win.width16 = true ∧ (part c).carries d d
    ∧ (indexed 0).taking ∧ (indexed 0).win.width16 = true ∧ (indexed 0).carries d d
    ∧ (ready8 0x01).taking ∧ (ready8 0x01).win.width16 = false ∧ (ready8 0x01).carries 0x1280 0x8001 :=
  ⟨rfl, rfl, .inl ⟨rfl, rfl⟩, rfl, rfl, .inl ⟨rfl, rfl⟩, rfl, rfl, .inr ⟨rfl, by decide⟩⟩

/-- Bytes of a processed frame: every byte at every offset from 2, whatever the delineator. -/
theorem test_taking_byteArrives (off : Nat) (v : Byte) (d : Delin) (h : 2 ≤ off) :
    (part (taking off v d)).chan 0 = taking off v d ∧ (taking off v d).cfg.flen.toNat = 256
      ∧ (taking off v d).byteArrives (v.getLsbD 0) (v.getLsbD 0) off v := by
  refine ⟨rfl, rfl, rfl, rfl, h, ?_, ?_⟩
  · show 8 * off + 7 + 1 = _
    omega
  · show v = lowByte (shiftIn (v.setWidth 16 >>> 1) (v.getLsbD 0))
    revert v
    decide

/-- A silence timer and a drain timer at their least counts, the prescale at 9, the build one tick from its bound; the same with both
timers due, on a tick that counts the drain timers and on one that does not. -/
theorem test_witness_EmptyQueueStepIsOneTick :
    let s : State := { part { al := { silence := some 2 }, fr := { drainTimer := some 2 } } with prescale := 9, pool := { ticks := 3 } }
    s.pending = [] ∧ s.taking ∧ (∀ ch n, (s.chan ch).al.silence = some n → 2 ≤ n)
      ∧ (∀ ch n, (s.chan ch).fr.drainTimer = some n → 2 ≤ n) ∧ s.pool.state = .init ∧ 3 ≤ s.pool.ticks
      ∧ State.reset.pending = [] ∧ State.reset.win.inReset = true
      ∧ (let due : State := part { al := { state := .locked, silence := some 1 }, fr := { drainTimer := some 1 } }
         due.taking ∧ (due.chan 0).al.silence = some 1 ∧ (due.chan 0).fr.drainTimer = some 1 ∧ due.prescale ≠ 9
          ∧ ({ due with prescale := 9 } : State).prescale = 9) := by
  refine ⟨rfl, rfl, ?_, ?_, rfl, by decide, rfl, rfl, rfl, rfl, rfl, by decide, rfl⟩ <;> intro ch n h <;> fin_cases ch <;>
    simp [part, State.setChan, State.chan, Quad.set, Quad.get, ready, State.reset] at h <;> omega

theorem test_witness_ResetEndsAndThePoolIsBuilt : State.reset.win.inReset = true ∧ ready.taking ∧ ready.pool.state = .ready
    ∧ ({ ready with pool := {} } : State).taking ∧ ({ ready with pool := {} } : State).pool.state = .init := by
  unfold State.taking
  decide

theorem test_witness_SoftResetActsOnEveryBlock : ready.taking ∧ ready.carries 0x8001 0x8001 ∧ (0x8001 : Word).getLsbD 0 = true
    ∧ ready.carries 0x8000 0x8000 ∧ (0x8000 : Word).getLsbD 0 = false := by
  unfold State.taking State.carries
  decide

theorem test_witness_AccessesInResetAndWithBothStrobesTouchNothing : isAccess (.txdataWrite 0) = true ∧ State.reset.win.inReset = true
    ∧ ready.win.inReset = false := by decide

theorem test_witness_PageTakesAWholeValueOfZeroToThree : ready.taking ∧ ready.carries 3 3 ∧ (3 : Word).toNat = (3 : ChanId).val
    ∧ ready.carries 4 4 ∧ 4 ≤ (4 : Word).toNat ∧ ready.takesCmd 0x03 ∧ (∃ t, exec (.chReset 0) ready = .next t)
    ∧ (∃ t, exec (.softReset 1) ready = .next t) ∧ (∃ t, exec .powerOnReset ready = .next t) :=
  ⟨rfl, .inl ⟨rfl, rfl⟩, rfl, .inl ⟨rfl, rfl⟩, by decide, ⟨rfl, rfl, rfl, .inl rfl⟩, ⟨_, rfl⟩, ⟨_, rfl⟩, ⟨_, rfl⟩⟩

theorem test_witness_IdxIsWrittenAndCountsIgnoredWrites : (indexed 0x12).taking ∧ (indexed 0x12).carries 7 7
    ∧ 0x12 ≤ (indexed 0x12).win.idx.toNat ∧ (indexed 0xEF).win.idx.toNat < 0xF0 ∧ 0xF3 ≤ (indexed 0xF3).win.idx.toNat := by
  unfold State.taking State.carries
  decide

theorem test_witness_DirectWordsReadTheirFields : ready.taking ∧ ready.win.width16 = true := ⟨rfl, rfl⟩

/-- The ends of each range of indices, and FREE in READY and in INIT (test_part_carries for the width). -/
theorem test_witness_EntriesAndFreeReadAtTheirIndices : (indexed 0x11).win.idx.toNat < 0x12
    ∧ (indexed 0xF2).win.idx.toNat = 0xF2 ∧ (indexed 0xF3).win.idx.toNat = 0xF3 ∧ (indexed 0xF3).pool.state = .ready
    ∧ 0x12 ≤ (indexed 0x12).win.idx.toNat ∧ (indexed 0x1F).win.idx.toNat < 0x20 ∧ 0x60 ≤ (indexed 0x60).win.idx.toNat
    ∧ 0xF4 ≤ (indexed 0xF4).win.idx.toNat ∧ ({ indexed 0xF3 with pool := {} } : State).pool.freeCount ≤ 511 := by decide

theorem test_witness_ViewsReadTheirFields : (indexed 0x20).win.idx.toNat = 0x20 + 2 * 0 ∧ (indexed 0x3F).win.idx.toNat = 0x21 + 2 * 15
    ∧ 0x40 ≤ (indexed 0x40).win.idx.toNat ∧ (indexed 0x47).win.idx.toNat ≤ 0x47 ∧ ready.paged.rq = []
    ∧ (part { rq := [rx 8 3] }).paged.rq = [rx 8 3] ∧ (indexed 0x4F).win.idx.toNat ≤ 0x4F ∧ ready.paged.mon.ring = []
    ∧ (part { mon := { ring := [Monitor.entryRecord {}] } }).paged.mon.ring = [Monitor.entryRecord {}]
    ∧ (part { held := some ⟨rx 8 3, 1⟩ }).paged.held = some ⟨rx 8 3, 1⟩ ∧ (indexed 0x5F).win.idx.toNat ≤ 0x5F := by decide

theorem test_witness_EvenBytesFillTheByteLaneLatches : (ready8 0).taking ∧ (ready8 0).win.width16 = false ∧ (11 : WordNo) ≠ 12
    ∧ (12 : WordNo) ≠ 13 ∧ ready.taking ∧ ready.win.width16 = true := by
  unfold State.taking
  decide

theorem test_witness_RegisterWritesStoreArgumentsAndIgnoreReadOnlyWords : (ready8 2).taking ∧ (ready8 2).carries 1 0x0102
    ∧ (0x0102 : Word).getLsbD 0 = false := by
  unfold State.taking State.carries
  decide

/-- The first and the last entry, and EXPLABEL; FLEN's least value passes, one above its greatest does not. -/
theorem test_witness_ConfigurationWriteIsTestedAndTaken : (indexed 0).taking ∧ (indexed 0).carries 64 64
    ∧ (indexed 0).win.idx.toNat = 0 ∧ (indexed 0x11).win.idx.toNat = 0x11 ∧ (indexed 0x0A).win.idx.toNat = 0x0A
    ∧ 64 ≤ (64 : Word).toNat ∧ (64 : Word).toNat % 8 = 0 ∧ ((indexed 0).chan 0).admin = .disabled
    ∧ ¬ (2056 : Word).toNat ≤ 2048 ∧ ((indexed 0x0C).chan 0).cfg.dclr.toNat < (3 : Word).toNat
    ∧ ((indexed 0).chan 0).rxHolding ≤ (0 : Word).toNat := by
  unfold State.taking State.carries
  decide

theorem test_witness_GlobalEntryWriteIsTestedAndTaken : (indexed 0xF0).taking ∧ (indexed 0xF0).carries 2 2
    ∧ (indexed 0xF0).win.idx.toNat = 0xF0 ∧ (indexed 0xF1).win.idx.toNat = 0xF1 ∧ (indexed 0xF2).win.idx.toNat = 0xF2
    ∧ (indexed 0xF3).win.idx.toNat = 0xF3 := by
  unfold State.taking State.carries
  decide

theorem test_witness_FlagsClearMasksAreWrittenAndIntFollows : ready.taking ∧ ready.carries 0x003F 0x003F := by
  unfold State.taking State.carries
  decide

/-- RXDATA with no packet, at the end, one byte short, two bytes short; test_part_carries for both widths. -/
theorem test_witness_RxdataReadReturnsHeldBytes : (part {}).taking ∧ (part {}).win.width16 = true ∧ (part {}).paged.held = none
    ∧ ∀ k ∈ [1, 2, 3], (part { held := some ⟨rx 8 3, k⟩ }).taking ∧ (part { held := some ⟨rx 8 3, k⟩ }).paged.held = some ⟨rx 8 3, k⟩
      ∧ (k = 3 ∧ k = (rx 8 3).storelen ∨ k = 2 ∧ k + 1 = (rx 8 3).storelen ∨ k = 1 ∧ k + 2 ≤ (rx 8 3).storelen) := by
  unfold State.taking
  decide

/-- TXDATA with no packet, full, with room for one byte and for two; test_part_carries for both widths. -/
theorem test_witness_TxdataWriteFillsTheFillPacket : (part {}).taking ∧ (part {}).win.width16 = true ∧ (part {}).paged.fill = none
    ∧ ∀ k ∈ [1, 2, 3], (part { fill := some ⟨3, k, [8]⟩ }).taking ∧ (part { fill := some ⟨3, k, [8]⟩ }).paged.fill = some ⟨3, k, [8]⟩
      ∧ (k = 3 ∨ k + 1 = 3 ∨ k + 2 ≤ 3) := by
  unfold State.taking
  decide

/-- The last byte of a chain of two cells, and another chain. -/
theorem test_witness_PacketBytesAreKeptApart : Memory.wf [(1025, 0x11)] ∧ ([8, 9] : List CellNo).Nodup
    ∧ 255 < 128 * ([8, 9] : List CellNo).length ∧ (254 : Nat) ≠ 255 ∧ ∀ x ∈ ([8, 9] : List CellNo), x ∉ ([7] : List CellNo) :=
  ⟨by decide, by decide, by norm_num, by omega, by simp⟩

theorem test_witness_CmdWritesAreRefusedInInitAndWhilePending :
    Instr.chStart 0 ∈ Instr.unknownCommand 5 :: (cmdRows 0).map Prod.fst ∧ ready.taking
    ∧ ({ ready with pool := {} } : State).pool.state = .init ∧ ready.pool.state = .ready ∧ ready.cu.pending = none
    ∧ ({ ready with cu := { pending := some 3 } } : State).cu.pending ≠ none
    ∧ ready.carries 5 5 ∧ commandCodes.contains ((5 : Word).setWidth 8) = false := by
  unfold State.taking State.carries
  decide

theorem test_witness_ChStartStartsADisabledChannel : ready.takesCmd 0x01 ∧ (ready.chan 0).admin = .disabled
    ∧ (part (sending none {})).takesCmd 0x01 ∧ ((part (sending none {})).chan 0).admin = .active :=
  ⟨⟨rfl, rfl, rfl, .inl rfl⟩, rfl, ⟨rfl, rfl, rfl, .inl rfl⟩, rfl⟩

/-- CH_STOP with the aligner LOCKED or not, with the drain over at once or not (test_part_takesCmd). -/
theorem test_witness_ChStopStopsReceivingAndStartsTheDrain : (comparing .locked 0).admin = .active ∧ ({} : Chan).admin = .disabled
    ∧ (comparing .locked 0).al.state = .locked ∧ (comparing .hunt 0).al.state ≠ .locked ∧ (comparing .locked 0).fr.inflight = none
    ∧ (comparing .locked 0).fr.bitPos = none ∧ (sending (some 100) {}).admin = .active ∧ (sending (some 100) {}).fr.bitPos ≠ none := by
  decide

/-- A DISABLED channel that holds four cells, which its holdings count. -/
def holder : Chan :=
  { held := some ⟨rx 0 3, 1⟩, rq := [rx 1 3], fill := some ⟨5, 2, [2]⟩, tq := [tx 3 7], rxHolding := 2, txHolding := 2 }

/-- The premises of CH_RESET and of CH_FLUSH together. -/
theorem test_holder : (part holder).takesCmd 0x03 ∧ (part holder).takesCmd 0x04 ∧ (part holder).chan (part holder).win.page = holder
    ∧ holder.CellsAgree ∧ holder.ModesAgree ∧ holder.admin = .disabled := by
  refine ⟨⟨rfl, rfl, rfl, .inl rfl⟩, ⟨rfl, rfl, rfl, .inl rfl⟩, rfl, ⟨by decide, by decide, by decide, .inl rfl, nofun, ?_, by decide,
    by decide, ?_, nofun⟩, ⟨by decide, by decide, by decide, by decide, by decide, by decide, by decide, by decide, by decide⟩, rfl⟩
  all_goals rintro _ ⟨⟩
  all_goals decide

theorem test_witness_ChResetReturnsTheChannelToItsResetState :
    (part holder).takesCmd 0x03 ∧ ((part holder).chan 0).CellsAgree ∧ ((part holder).chan 0).ModesAgree :=
  ⟨test_holder.1, test_holder.2.2.2.1, test_holder.2.2.2.2.1⟩

theorem test_witness_ChFlushEmptiesADisabledChannel : (part holder).takesCmd 0x04 ∧ ((part holder).chan 0).admin = .disabled
    ∧ ((part holder).chan 0).CellsAgree ∧ ((part holder).chan 0).ModesAgree ∧ (comparing .hunt 0).admin = .active :=
  ⟨test_holder.2.1, rfl, test_holder.2.2.2.1, test_holder.2.2.2.2.1, rfl⟩

theorem test_witness_RxOpenTakesTheHeadOfTheQueue : (part { rq := [rx 8 3] }).takesCmd 0x10 ∧ (part { rq := [rx 8 3] }).paged.held = none
    ∧ (part { rq := [rx 8 3] }).paged.rq = rx 8 3 :: [] ∧ ready.takesCmd 0x10 ∧ ready.paged.held = none ∧ ready.paged.rq = []
    ∧ (part holder).takesCmd 0x10 ∧ (part holder).paged.held ≠ none :=
  ⟨⟨rfl, rfl, rfl, .inl rfl⟩, rfl, rfl, ⟨rfl, rfl, rfl, .inl rfl⟩, rfl, rfl, ⟨rfl, rfl, rfl, .inl rfl⟩, nofun⟩

theorem test_witness_RxReleaseAndRxSkipReturnTheirChains : (part holder).takesCmd 0x11 ∧ (part holder).paged.held = some ⟨rx 0 3, 1⟩
    ∧ (part holder).takesCmd 0x12 ∧ (part holder).paged.rq = rx 1 3 :: [] ∧ ready.paged.held = none ∧ ready.paged.rq = [] :=
  ⟨⟨rfl, rfl, rfl, .inl rfl⟩, rfl, ⟨rfl, rfl, rfl, .inl rfl⟩, rfl, rfl, rfl⟩

/-- TX_ALLOC at the ends of its tests: lengths 0, 1, 4095 and 4096; a claim of all eight cells of the free list, and of one more. -/
theorem test_witness_TxAllocClaimsTheWholePacket : (withArg 0 ready).takesCmd 0x20 ∧ (withArg 0 ready).cu.arg0.toNat = 0
    ∧ 4095 < (withArg 4096 ready).cu.arg0.toNat ∧ 1 ≤ (withArg 1 ready).cu.arg0.toNat ∧ (withArg 4095 ready).cu.arg0.toNat ≤ 4095
    ∧ (withArg 1024 ready).takesCmd 0x20 ∧ ((withArg 1024 ready).cu.arg0.toNat + 127) / 128 ≤ ready.pool.free.length
    ∧ ready.paged.txHolding + 8 ≤ ready.paged.cfg.txquota.toNat ∧ ready.paged.fill = none
    ∧ ¬ ((withArg 1025 ready).cu.arg0.toNat + 127) / 128 ≤ ready.pool.free.length ∧ (part holder).paged.fill ≠ none := by
  unfold State.takesCmd State.taking State.carriesCode
  decide

/-- A fill packet one byte short, and one filled, before a queue of 15 and of 16 (test_part_takesCmd). -/
theorem test_witness_TxSubmitQueuesTheFilledPacket : (part { fill := some ⟨5, 4, [8]⟩ }).paged.fill = some ⟨5, 4, [8]⟩ ∧ 4 < 5
    ∧ (part { fill := some ⟨5, 5, [8]⟩, tq := List.replicate 16 (tx 8 5) }).paged.fill = some ⟨5, 5, [8]⟩
    ∧ 16 ≤ (part { fill := some ⟨5, 5, [8]⟩, tq := List.replicate 16 (tx 8 5) }).paged.tq.length
    ∧ (part { fill := some ⟨5, 5, [8]⟩, tq := List.replicate 15 (tx 8 5) }).paged.tq.length < 16 ∧ ready.paged.fill = none := by decide

theorem test_witness_TxCancelReturnsTheFillPacket : (part holder).takesCmd 0x22 ∧ (part holder).paged.fill = some ⟨5, 2, [2]⟩
    ∧ ready.takesCmd 0x22 ∧ ready.paged.fill = none := ⟨⟨rfl, rfl, rfl, .inl rfl⟩, rfl, ⟨rfl, rfl, rfl, .inl rfl⟩, rfl⟩

theorem test_witness_OhPopRemovesTheHeadRecord : ready.takesCmd 0x30 ∧ ready.paged.mon.ring = []
    ∧ (part { mon := { ring := [Monitor.entryRecord {}] } }).takesCmd 0x30
    ∧ (part { mon := { ring := [Monitor.entryRecord {}] } }).paged.mon.ring = Monitor.entryRecord {} :: [] :=
  ⟨⟨rfl, rfl, rfl, .inl rfl⟩, rfl, ⟨rfl, rfl, rfl, .inl rfl⟩, rfl⟩

/-- CNT_SNAP taken and not taken, the LOCKED channel with a packet in assembly, blocks on either side (test_cntSnap_meets). -/
theorem test_witness_CntSnapCopiesAndClearsTheCounters : ready.takesCmd 0x31 ∧ ¬State.reset.takesCmd 0x31
    ∧ (let c := taking 9 0 { state := .body, assembly := some (rx 8 3) }
       (part c).takesCmd 0x31 ∧ c.al.state = .locked ∧ c.del.state = .body ∧ c.del.assembly.isSome)
    ∧ CountingBlock.aligner ∈ [CountingBlock.aligner] ∧ CountingBlock.delineator ∉ [CountingBlock.aligner] :=
  ⟨⟨rfl, rfl, rfl, .inl rfl⟩, fun h : State.reset.takesCmd 0x31 => Bool.noConfusion h.1, ⟨⟨rfl, rfl, rfl, .inl rfl⟩, rfl, rfl, rfl⟩, by decide, by decide⟩

/-- An edge that delivers none, one from the line, one from the framer, one in OFF, the last bit of a frame in VERIFY, the fifteenth and a seventeenth bit in LOCKED; the bytes are
those of test_taking_byteArrives. -/
theorem test_witness_ReceivedBitIsTakenByTheAligner :
    (({ al := { loopSource := true } } : Chan).al.loopSource = true ∧ ({ al := { loopSource := true } } : Chan).fr.presented = false)
    ∧ ({} : Chan).al.loopSource = false
    ∧ (let c : Chan := { al := { loopSource := true }, fr := { presented := true } }
       c.al.loopSource = true ∧ c.fr.presented = true)
    ∧ ({} : Chan).al.state = .off
    ∧ (let c : Chan := { al := { state := .verify, bitPos := 2047 } }
       c.sourceBit true = some true ∧ c.al.bitPos + 1 ≠ 16 ∧ c.al.bitPos + 1 = 8 * c.cfg.flen.toNat)
    ∧ (let c : Chan := { al := { state := .locked, bitPos := 14 } }
       c.sourceBit true = some true ∧ c.al.bitPos + 1 < 16 ∧ c.al.bitPos + 1 ≠ 8 * c.cfg.flen.toNat)
    ∧ (let c : Chan := { al := { state := .locked, bitPos := 16 } }
       c.sourceBit true = some true ∧ (c.al.bitPos + 1) % 8 ≠ 0 ∧ c.al.bitPos + 1 ≠ 8 * c.cfg.flen.toNat) := by decide

theorem test_witness_MarkerMatchFixesTheFramePositionInHunt :
    ((comparing .hunt 0xB54E).sourceBit false = some false ∧ (comparing .hunt 0xB54E).al.state = .hunt
      ∧ shiftIn (comparing .hunt 0xB54E).al.searchReg false = 0xB54E ∧ shiftIn (comparing .hunt 0xB54E).al.searchReg true ≠ 0xB54E)
    ∧ (let c : Chan := { al := { state := .silent } }
       c.sourceBit true = some true ∧ c.al.state = .silent ∧ c.al.searchReg = 0) := by decide

/-- A match below VCOUNT, the match that reaches it, and a miss. -/
theorem test_witness_VerifyComparisonCountsOrEntersLocked :
    let c := comparing .verify 0xB54E
    let last : Chan := { c with al := { c.al with verifyCount := 1 } }
    c.sourceBit false = some false ∧ c.al.state = .verify ∧ c.al.bitPos + 1 = 16 ∧ shiftIn c.al.searchReg false = 0xB54E
      ∧ c.al.verifyCount + 1 ≠ c.cfg.vcount.toNat ∧ last.al.verifyCount + 1 = last.cfg.vcount.toNat
      ∧ shiftIn last.al.searchReg false = 0xB54E ∧ shiftIn c.al.searchReg true ≠ 0xB54E := by decide

/-- A match, a miss below MISSLIM, and the miss that reaches it. -/
theorem test_witness_LockedComparisonFlywheelsUpToMisslim :
    let c := comparing .locked 0xB54E
    let last : Chan := { c with al := { c.al with missCount := 3 } }
    c.sourceBit false = some false ∧ c.al.state = .locked ∧ c.al.bitPos + 1 = 16 ∧ shiftIn c.al.searchReg false = 0xB54E
      ∧ shiftIn c.al.searchReg true ≠ 0xB54E ∧ c.al.missCount + 1 ≠ c.cfg.misslim.toNat
      ∧ shiftIn last.al.searchReg true ≠ 0xB54E ∧ last.al.missCount + 1 = last.cfg.misslim.toNat := by decide

theorem test_witness_SilenceExpiryEntersSilent : ({} : Chan).al.state = .off ∧ (comparing .hunt 0).al.state = .hunt
    ∧ (comparing .locked 0).al.state = .locked := by decide

theorem test_witness_FcntByteIsKeptAndFillsTheEntryRecord : (taking 2 0x25 {}).byteArrives true true 2 0x25
    ∧ 3 < (taking 2 0x25 {}).cfg.flen.toNat ∧ (taking 2 0x25 {}).mon.entryFill = false
    ∧ (let c : Chan := { taking 2 0x25 {} with mon := { entryFill := true, entrySeq := some 0, ring := [Monitor.entryRecord {}] } }
       c.byteArrives true true 2 0x25 ∧ 3 < c.cfg.flen.toNat ∧ c.mon.entryFill = true) :=
  ⟨(test_taking_byteArrives 2 0x25 {} (by decide)).2.2, by decide, rfl,
    (test_taking_byteArrives 2 0x25 {} (by decide)).2.2, by decide, rfl⟩

/-- An offset of 0, P − 1, P, 0xFFFE and 0xFFFF in SEEK, with FLEN 256 (test_taking_byteArrives 5). -/
theorem test_witness_SeekTakesTheFirstValidOffset :
    let c (hi v : Byte) := taking 5 v { state := .seek, fboHigh := hi }
    let fbo (hi v : Byte) : Word := (c hi v).del.fboHigh ++ v
    64 ≤ (c 0 0).cfg.flen.toNat ∧ (c 0 0).cfg.flen.toNat ≤ 2048 ∧ (c 0 0).del.state = .seek
    ∧ (fbo 0 0).toNat < (c 0 0).cfg.flen.toNat - 8 ∧ (fbo 0 247).toNat < (c 0 0).cfg.flen.toNat - 8
    ∧ (c 0 0).cfg.flen.toNat - 8 ≤ (fbo 0 248).toNat ∧ (c 0 0).cfg.flen.toNat - 8 ≤ (fbo 0xFF 0xFE).toNat
    ∧ fbo 0xFF 0xFE ≠ 0xFFFF ∧ fbo 0xFF 0xFF = 0xFFFF := by decide

/-- In BODY with 247 bytes remaining position 247 is predicted, with 248 none; in HEADER position 0; a first and a second disagreement. -/
theorem test_witness_OffsetIsCheckedAgainstThePredictedPosition :
    (let c := taking 5 247 { state := .body, remaining := 247, mismatch := 1 }
     c.del.remaining < c.cfg.flen.toNat - 8 ∧ (c.del.fboHigh ++ (247 : Byte) : Word).toNat = c.del.remaining)
    ∧ (let c := taking 5 0xFF { state := .skip, remaining := 248, fboHigh := 0xFF }
       c.cfg.flen.toNat - 8 ≤ c.del.remaining ∧ (c.del.fboHigh ++ (0xFF : Byte) : Word) = 0xFFFF)
    ∧ (let c := taking 5 1 { state := .header, mismatch := 1 }
       c.del.headerByte = none ∧ (c.del.fboHigh ++ (1 : Byte) : Word) ≠ 0 ∧ c.del.state ≠ .body ∧ c.del.state ≠ .skip)
    ∧ (taking 5 0 { state := .header, headerByte := some 0 }).del.headerByte ≠ none
    ∧ 64 ≤ (taking 5 0 {}).cfg.flen.toNat ∧ (taking 5 0 {}).cfg.flen.toNat ≤ 2048 := by decide

theorem test_witness_OverheadCloseJudgesTheFrame : (taking 7 0 {}).byteArrives false false 7 0 ∧ 8 < (taking 7 0 {}).cfg.flen.toNat
    ∧ (taking 7 0 {}).mon.stat.count ≤ (taking 7 0 {}).cfg.persist.toNat ∧ (taking 7 0 {}).mon.label.count ≤ (taking 7 0 {}).cfg.persist.toNat :=
  ⟨(test_taking_byteArrives 7 0 {} (by decide)).2.2, by decide, by decide, by decide⟩

/-- A carrier onset and a carrier end at an overhead close with PERSIST 3. -/
theorem test_witness_CarrierOnsetHoldsAndCarrierEndSeeks :
    let onset : Chan := { taking 7 0 { state := .seek } with
      mon := { mode := .monitoring, stat := ⟨some ⟨false, false⟩, 2, some ⟨true, false⟩⟩ } }
    let ends : Chan := { taking 7 0 {} with
      mon := { mode := .monitoring, statByte := 0x80, conds := { carrier := true }
               stat := ⟨some ⟨true, false⟩, 2, some ⟨false, false⟩⟩ } }
    ((after (.overheadClose 0 false) (part onset)).chan 0).mon.conds.carrier = true ∧ onset.del.state ≠ .hold
      ∧ ((after (.overheadClose 0 false) (part ends)).chan 0).mon.conds.carrier = false
      ∧ ends.del.state = .hold ∧ ends.del.assembly = none := by decide

/-- Payload bytes one before and at the start position, a header that fails, an idle header, the last but one and the last byte of a SKIP
(test_taking_byteArrives at the offset 8 above the position). -/
theorem test_witness_PayloadBytesAreDiscardedCollectedOrSkipped :
    9 + 9 < (taking (9 + 8) 0x0F {}).cfg.flen.toNat ∧ 247 + 9 = (taking (247 + 8) 0x0F {}).cfg.flen.toNat
    ∧ ({ state := .header, startPos := some 10 } : Delin).startPos = some 10 ∧ ¬ 10 ≤ 9 ∧ 9 ≤ 9
    ∧ headerValid ((0 : Byte) ++ (0 : Byte)) = false ∧ ((0 : Byte) ++ (0x0F : Byte) : Word) = 0x000F
    ∧ ({ state := .skip, remaining := 2 } : Delin).remaining > 1 := by decide

/-- A header of LEN 300 completed at payload position 1, granted with eight cells free and refused with two; one completed at position 0
that agrees with FBO 0xFFFF, one that disagrees for the first time, and one completed at the last position. -/
theorem test_witness_AcceptedHeaderClaimsItsCells :
    let c := taking (1 + 8) 0xC0 { state := .header, headerByte := some 0x12 }
    c.byteArrives false false 9 0xC0 ∧ 1 + 9 < c.cfg.flen.toNat ∧ (∀ p, c.del.startPos = some p → p ≤ 1) ∧ c.del.state = .header
    ∧ c.del.headerByte = some 0x12 ∧ headerValid ((0x12 : Byte) ++ (0xC0 : Byte)) = true
    ∧ (((0x12 : Byte) ++ (0xC0 : Byte) : Word).extractLsb' 4 12).toNat = 300
    ∧ (part c).pool.state = .ready ∧ (300 + 127) / 128 ≤ (part c).pool.free.length ∧ ¬ (300 + 127) / 128 ≤ 2
    ∧ c.rxHolding + 3 ≤ c.cfg.rxquota.toNat
    ∧ (let first : Chan := taking (0 + 8) 0xC0 { state := .header, headerByte := some 0x12, latchedFbo := 0xFFFF, mismatch := 1 }
       first.byteArrives false false 8 0xC0 ∧ first.cfg.flen.toNat - 8 ≤ 1 + 300 ∧ first.del.latchedFbo.toNat = 0xFFFF
        ∧ (taking 8 0xC0 {}).del.latchedFbo.toNat ≠ 0xFFFF ∧ (taking 8 0xC0 {}).del.mismatch = 0)
    ∧ (taking (247 + 8) 0xC0 {}).byteArrives false false 255 0xC0 ∧ 247 + 9 = (taking (247 + 8) 0xC0 {}).cfg.flen.toNat :=
  ⟨(test_taking_byteArrives 9 0xC0 _ (by decide)).2.2, by decide, nofun, rfl, rfl, by decide, by decide, rfl, by decide, by decide, by decide,
    ⟨(test_taking_byteArrives 8 0xC0 _ (by decide)).2.2, by decide, by decide, by decide, by decide⟩,
    (test_taking_byteArrives 255 0xC0 _ (by decide)).2.2, by decide⟩

/-- An idle header completed at payload position 0 agrees with FBO 1 and not with FBO 2. -/
theorem test_witness_DeferredComparisonIsMadeAtPositionZero :
    let c := taking 8 0x0F { state := .header, headerByte := some 0, latchedFbo := 1 }
    c.byteArrives true true 8 0x0F ∧ 64 ≤ c.cfg.flen.toNat ∧ c.cfg.flen.toNat ≤ 2048 ∧ c.del.startPos = none ∧ c.del.assembly = none
    ∧ headerValid ((0 : Byte) ++ (0x0F : Byte)) = true ∧ headerLen ((0 : Byte) ++ (0x0F : Byte)) = 0
    ∧ 1 + 0 < c.cfg.flen.toNat - 8 ∧ c.del.latchedFbo.toNat = 1 + 0 ∧ (2 : Word).toNat ≠ 1 + 0 ∧ c.del.mismatch = 0 :=
  ⟨(test_taking_byteArrives 8 0x0F _ (by decide)).2.2, by decide, by decide, rfl, rfl, by decide, by decide, by decide, by decide, by decide, rfl⟩

/-- Body bytes at the end of the stored length and beyond it; the last byte with 31 and with 32 packets queued; a body byte that is its
frame's last. -/
theorem test_witness_BodyBytesAreStoredAndTheLastCompletesThePacket :
    let c := taking (12 + 8) 1 { state := .body, remaining := 2, stored := 2, assembly := some (rx 8 3) }
    c.byteArrives true true 20 1 ∧ 12 + 9 < c.cfg.flen.toNat ∧ (∀ p, c.del.startPos = some p → p ≤ 12) ∧ c.del.state = .body
    ∧ c.del.assembly = some (rx 8 3) ∧ 1 < c.del.remaining ∧ c.del.stored < (rx 8 3).storelen ∧ (rx 8 3).storelen ≤ 3
    ∧ Memory.wf (part c).mem ∧ (List.replicate 31 (rx 8 3)).length < 32 ∧ 32 ≤ (List.replicate 32 (rx 8 3)).length
    ∧ (taking (247 + 8) 1 c.del).byteArrives true true 255 1 ∧ 247 + 9 = (taking (247 + 8) 1 c.del).cfg.flen.toNat :=
  ⟨(test_taking_byteArrives 20 1 _ (by decide)).2.2, by decide, nofun, rfl, rfl, by decide, by decide, by decide, by decide, by decide, by decide,
    (test_taking_byteArrives 255 1 _ (by decide)).2.2, by decide⟩

theorem test_witness_LastByteEndsTheProcessedFrame :
    let c := taking 255 0 { state := .seek }
    c.byteArrives false false 255 0 ∧ 8 ≤ 255 ∧ 255 + 1 = c.cfg.flen.toNat ∧ c.del.state = .seek :=
  ⟨(test_taking_byteArrives 255 0 _ (by decide)).2.2, by decide, by decide, rfl⟩

theorem test_witness_FrameStartComposesTheOverhead : (sending none {}).fr.running = true ∧ (sending none {}).fr.bitPos = none := by decide

/-- The first and the last payload position, with a packet to start and without. -/
theorem test_witness_BlockBoundaryStartsAPacketOrAnIdleBlock :
    let c : Chan := { sending (some (8 * 8)) {} with tq := [tx 8 5] }
    c.fr.running = true ∧ c.fr.bitPos = some (8 * 8) ∧ 8 ≤ 8 ∧ c.fr.mode = .normal ∧ c.fr.owed = 0 ∧ c.tq = tx 8 5 :: []
    ∧ c.admin = .active ∧ c.cfg.sendalarm = 0 ∧ (sending (some (8 * 255)) {}).fr.bitPos = some (8 * 255)
    ∧ (sending (some (8 * 255)) {}).tq = [] := by decide

/-- A middle bit, the first bits of FCHK, of an alarm payload, of a body byte and of second header bytes, the last bits of FCHK, of a body
byte and of header bytes. -/
theorem test_witness_FallingEdgePresentsTheNextBit : ({} : Chan).fr.running = false
    ∧ ((sending (some 3) {}).fr.running = true ∧ (sending (some 3) {}).fr.bitPos = some 3 ∧ 3 % 8 ≠ 0 ∧ 3 % 8 ≠ 7)
    ∧ (56 % 8 = 0 ∧ 56 < 64) ∧ (64 % 8 = 0 ∧ 64 ≤ 64 ∧ (sending (some 64) { mode := .alarm }).fr.mode = .alarm)
    ∧ (let f := (sending (some 200) lastBody).fr
       200 % 8 = 0 ∧ f.mode = .normal ∧ f.kind = .packetBody ∧ f.owed ≠ 0 ∧ f.inflight = some ⟨tx 8 10, 9⟩)
    ∧ (63 % 8 = 7 ∧ 63 < 64 ∧ 63 + 1 ≠ 8 * (sending (some 63) {}).fr.flenInUse)
    ∧ (let f := (sending (some 207) { lastBody with owed := 2 }).fr
       207 % 8 = 7 ∧ 64 ≤ 207 ∧ f.mode = .normal ∧ f.kind = .packetBody ∧ 1 < f.owed ∧ 207 + 1 ≠ 8 * f.flenInUse)
    ∧ (let f := (sending (some 200) { owed := 1 }).fr
       f.mode = .normal ∧ f.kind = .idleHeader ∧ f.owed = 1 ∧ 207 + 1 ≠ 8 * f.flenInUse)
    ∧ (let f := (sending (some 200) header).fr
       f.mode = .normal ∧ f.kind = .packetHeader ∧ f.inflight = some ⟨tx 8 10, 0⟩ ∧ f.owed = (tx 8 10).len + 1
        ∧ { f with owed := 12 }.owed = (tx 8 10).len + 2) := by decide

/-- A packet's last bit within a frame and at its end (the FLEN in use is 256); frame ends with no packet in flight, within a header, and
within a body in a drain. -/
theorem test_witness_LastBitsEndThePacketAndTheFrame :
    (let f := (sending (some 207) lastBody).fr
     f.running = true ∧ f.bitPos = some 207 ∧ 207 % 8 = 7 ∧ 64 ≤ 207 ∧ 207 + 1 ≠ 8 * f.flenInUse ∧ f.mode = .normal
      ∧ f.kind = .packetBody ∧ f.owed = 1 ∧ f.inflight = some ⟨tx 8 10, 9⟩)
    ∧ (let c := sending (some 2047) {}
       c.fr.running = true ∧ c.fr.bitPos = some 2047 ∧ 2047 + 1 = 8 * c.fr.flenInUse ∧ c.admin = .active ∧ 9 ≤ c.fr.flenInUse
        ∧ 2047 % 8 = 7 ∧ 64 ≤ 2047 ∧ c.fr.kind = .idleHeader ∧ (sending (some 2047) lastBody).fr.owed = 1
        ∧ (sending (some 2047) { mode := .alarm }).fr.mode = .alarm)
    ∧ (let f := (sending (some 2047) header).fr
       f.mode = .normal ∧ f.kind = .packetHeader ∧ f.inflight = some ⟨tx 8 10, 0⟩ ∧ f.owed = (tx 8 10).len + 1)
    ∧ (let c : Chan := { sending (some 2047) { lastBody with owed := 2 } with admin := .draining }
       c.fr.running = true ∧ c.fr.bitPos = some 2047 ∧ c.fr.kind = .packetBody ∧ 1 < c.fr.owed
        ∧ c.fr.inflight = some ⟨tx 8 10, 9⟩) := by decide

theorem test_witness_DrainEndsWithItsLastFrame :
    let c : Chan := { sending (some 2047) lastBody with admin := .draining }
    c.fr.running = true ∧ c.fr.bitPos = some 2047 ∧ 2047 + 1 = 8 * c.fr.flenInUse ∧ 9 ≤ c.fr.flenInUse ∧ c.admin = .draining
      ∧ c.fr.mode = .normal ∧ c.fr.kind = .packetBody ∧ c.fr.owed = 1 ∧ c.fr.inflight = some ⟨tx 8 10, 9⟩
      ∧ (sending (some 2047) {}).fr.inflight = none := by decide

theorem test_witness_DrainTimerExpiryAbandonsTheDrain :
    let c := sending (some 9) { lastBody with drainTimer := some 50 }
    c.fr.drainTimer = some 50 ∧ c.fr.inflight = some ⟨tx 8 10, 9⟩ ∧ ({ drainTimer := some 1 } : Framer).inflight = none := by decide

/-- A count at its greatest value stays, and another count is left. -/
theorem test_witness_CountersSaturate : (Ctr.fcerr ≠ Ctr.rxframes) ∧ countUp 0xFFFFFF = 0xFFFFFF := by decide

/-! ### The laws, met by the part that holds a packet -/

/-- The part building its pool, two cells appended. -/
def building : State := { ready with pool := { free := [0, 1] } }

/-- The part just built. -/
def built : State := { ready with pool := { state := .ready, free := cellsUpTo 512 } }

/-- A channel at its reset values keeps every law. -/
theorem test_idle_channel : ({} : Chan).ModesAgree ∧ ({} : Chan).CellsAgree ∧ ({} : Chan).InBounds := by
  refine ⟨⟨by decide, by decide, by decide, by decide, by decide, by decide, by decide, by decide, by decide⟩,
    ⟨rfl, rfl, by decide, .inl rfl, nofun, nofun, nofun, nofun, nofun, nofun⟩, ⟨⟨?_, by decide⟩, by decide, by decide, by decide, nofun, nofun,
    by decide, by decide, by decide⟩⟩
  intro e
  cases e <;> decide

theorem test_building_chan (ch : ChanId) : building.chan ch = {} ∧ built.chan ch = {} := by fin_cases ch <;> exact ⟨rfl, rfl⟩

theorem test_witness_StepKeepsPacketMemoryCanonical :
    let s : State := { part { fill := some ⟨3, 2, [8]⟩ } with mem := [(1025, 0x11)], pending := [.txdataWrite 0] }
    Memory.wf s.mem ∧ ∃ t, step s = .next t := ⟨by decide, _, rfl⟩

theorem test_witness_StepKeepsTheModesInAgreement : building.ModesAgree ∧ built.ModesAgree ∧ ∃ t, step built = .next t := by
  refine ⟨⟨fun ch => ?_, fun ch => ?_, fun _ ch => ?_⟩, ⟨fun ch => ?_, fun ch => ?_, nofun⟩, _, rfl⟩
  · exact (test_building_chan ch).1 ▸ test_idle_channel.1
  · rw [(test_building_chan ch).1]
    exact ⟨nofun, nofun⟩
  · rw [(test_building_chan ch).1]
  · exact (test_building_chan ch).2 ▸ test_idle_channel.1
  · rw [(test_building_chan ch).2]
    exact ⟨nofun, nofun⟩

theorem test_witness_StepConservesTheCells : building.CellsConserved ∧ built.CellsConserved ∧ ∃ t, step building = .next t := by
  refine ⟨⟨fun ch => ?_, nofun, fun _ => ⟨fun ch => ?_, by decide, by decide⟩⟩, ⟨fun ch => ?_, fun _ => ?_, nofun⟩, _, rfl⟩
  · exact (test_building_chan ch).1 ▸ test_idle_channel.2.1
  · rw [(test_building_chan ch).1]
    rfl
  · exact (test_building_chan ch).2 ▸ test_idle_channel.2.1
  · unfold State.cells
    simp only [(test_building_chan _).2]
    rw [show ({} : Chan).cells = [] from rfl]
    simp only [built, List.append_nil, List.Perm.refl]

theorem test_witness_StepKeepsTheBounds : built.ModesAgree ∧ built.InBounds ∧ ∃ t, step { built with pending := [.chStart 0] } = .next t := by
  refine ⟨test_witness_StepKeepsTheModesInAgreement.2.1, ⟨fun ch => (test_building_chan ch).2 ▸ test_idle_channel.2.2, fun e => ?_⟩, _, rfl⟩
  cases e <;> decide

theorem test_witness_FreeAndHoldingsAddUpTo512 : built.pool.state = .ready := rfl

end Sys2Proof.Tests
end

section
/-! PROOFS. Block headers (R10): LEN and HCHK as bits of the header, and the round trip between a LEN and its header. -/
namespace Sys2Proof.Machine

open Sys2Proof

theorem hchkOf_le (len : Nat) : hchkOf len ≤ 15 := Nat.sub_le ..

theorem headerValid_iff (h : Word) : headerValid h = true ↔ h.toNat % 16 = hchkOf (headerLen h) := beq_iff_eq

/-- LEN is the upper twelve bits. -/
theorem headerLen_eq_extractLsb' (h : Word) : headerLen h = (h.extractLsb' 4 12).toNat := by
  have hlt : h.toNat / 16 < 4096 := by omega
  simp only [headerLen, BitVec.extractLsb'_toNat, Nat.shiftRight_eq_div_pow]
  exact (Nat.mod_eq_of_lt hlt).symm

/-- HCHK is the inverse of the XOR of the three nibbles of LEN, which are the upper three nibbles of the header. -/
theorem hchkOf_headerLen (h : Word) :
    hchkOf (headerLen h) = (~~~(h.extractLsb' 12 4 ^^^ h.extractLsb' 8 4 ^^^ h.extractLsb' 4 4)).toNat := by
  simp only [hchkOf, headerLen, BitVec.toNat_not, BitVec.toNat_xor, BitVec.extractLsb'_toNat,
    Nat.shiftRight_eq_div_pow, Nat.div_div_eq_div_mul]

theorem headerValid_iff_extractLsb' (h : Word) :
    headerValid h = true ↔
      h.extractLsb' 0 4 = ~~~(h.extractLsb' 12 4 ^^^ h.extractLsb' 8 4 ^^^ h.extractLsb' 4 4) := by
  have low : (h.extractLsb' 0 4).toNat = h.toNat % 16 := BitVec.extractLsb'_toNat ..
  rw [headerValid_iff, hchkOf_headerLen, ← low, BitVec.toNat_inj]

/-- A LEN of twelve bits and its HCHK fill the word exactly. -/
theorem toNat_headerOf {len : Nat} (hlen : len ≤ 4095) : (headerOf len).toNat = len * 16 + hchkOf len := by
  have hchk := hchkOf_le len
  exact Nat.mod_eq_of_lt (by omega)

theorem headerLen_headerOf {len : Nat} (hlen : len ≤ 4095) : headerLen (headerOf len) = len := by
  have hchk := hchkOf_le len
  rw [headerLen, toNat_headerOf hlen]
  omega

theorem headerValid_headerOf {len : Nat} (hlen : len ≤ 4095) : headerValid (headerOf len) = true := by
  have hchk := hchkOf_le len
  rw [headerValid_iff, headerLen_headerOf hlen, toNat_headerOf hlen]
  omega

/-- A valid header is the only one of its LEN: the quotient and the remainder by 16 determine the word. -/
theorem headerOf_headerLen {h : Word} (hv : headerValid h = true) : headerOf (headerLen h) = h := by
  have hlen : headerLen h ≤ 4095 := by unfold headerLen; omega
  apply BitVec.eq_of_toNat_eq
  calc (headerOf (headerLen h)).toNat
      = h.toNat / 16 * 16 + h.toNat % 16 := by rw [toNat_headerOf hlen, ← (headerValid_iff h).mp hv]; rfl
    _ = h.toNat := Nat.div_add_mod' ..

/-- Settles O42: the check read as bits, and the round trip of a LEN through its header in both directions. -/
theorem headerCarriesItsCheck : Obligations.HeaderCarriesItsCheck :=
  ⟨headerValid_iff_extractLsb', headerLen_eq_extractLsb',
    fun _ hlen => ⟨headerValid_headerOf hlen, headerLen_headerOf hlen⟩,
    fun _ hv => (headerOf_headerLen hv).symm, by decide, by decide⟩

end Sys2Proof.Machine
end

section
/-! PROOFS. The agreement of the modes (State.ModesAgree) as an invariant of the whole part: first the rules by which a change of one channel or of
the Command Unit keeps it, then every operation of a step, then the step. -/
namespace Sys2Proof.Machine

open Sys2Proof

/-! ### Rules for changes of the state -/

/-- The agreement rests on the channels, the pending channel and the pool's state alone. -/
theorem State.ModesAgree.congr {s t : State} (h : s.ModesAgree) (hc : t.chans = s.chans)
    (hu : t.cu.pending = s.cu.pending) (hp : t.pool.state = s.pool.state) : t.ModesAgree := by
  have hk := State.chan_congr hc
  refine ⟨fun ch => ?_, fun ch => ?_, fun i ch => ?_⟩
  · rw [hk]; exact h.chans ch
  · rw [hk, hu]; exact h.draining_iff ch
  · rw [hk]; exact h.init_disabled (hp ▸ i) ch

theorem State.ModesAgree.answer {s : State} (h : s.ModesAgree) (st : CStat) : (s.answer st).ModesAgree := h.congr rfl rfl rfl

theorem State.ModesAgree.answerWith {s : State} (h : s.ModesAgree) (r0 r1 : Word) : (s.answerWith r0 r1).ModesAgree :=
  h.congr rfl rfl rfl

/-- In READY one channel is replaced together with the Command Unit's pending channel. -/
theorem State.ModesAgree.settled {s t : State} (h : s.ModesAgree) {ch : ChanId} {d : Chan} (chans : t.chans = s.chans.set ch d)
    (modes : d.ModesAgree) (unit : d.admin = .draining ↔ t.cu.pending = some ch)
    (unitOthers : ∀ k, k ≠ ch → (t.cu.pending = some k ↔ s.cu.pending = some k)) (ready : t.pool.state = .ready) :
    t.ModesAgree := by
  have self : t.chan ch = d := (State.chan_congr (s := s.setChan ch d) chans ch).trans (State.chan_setChan_self ..)
  have others (k : ChanId) (hk : k ≠ ch) : t.chan k = s.chan k :=
    (State.chan_congr (s := s.setChan ch d) chans k).trans (State.chan_setChan_ne _ _ hk)
  refine ⟨fun k => ?_, fun k => ?_, fun i => absurd (i.symm.trans ready) nofun⟩ <;> by_cases hk : k = ch
  · rw [hk, self]; exact modes
  · rw [others k hk]; exact h.chans k
  · rw [hk, self]; exact unit
  · rw [others k hk, unitOthers k hk]; exact h.draining_iff k

/-- An event of one channel that keeps its modes in agreement, and its admin state. -/
theorem State.ModesAgree.lane {s : State} (h : s.ModesAgree) (ch : ChanId) {l : Lane} (modes : l.c.ModesAgree)
    (admin : l.c.admin = (s.chan ch).admin) (pool : l.pool.state = s.pool.state) : (s.setLane ch l).ModesAgree := by
  have self : (s.setLane ch l).chan ch = l.c := State.chan_setLane_self ..
  refine ⟨fun k => ?_, fun k => ?_, fun i k => ?_⟩ <;> by_cases hk : k = ch
  · rw [hk, self]; exact modes
  · rw [State.chan_setLane_ne s l hk]; exact h.chans k
  · rw [hk, self, admin]; exact h.draining_iff ch
  · rw [State.chan_setLane_ne s l hk]; exact h.draining_iff k
  · rw [hk, self, admin]; exact h.init_disabled (pool ▸ i) ch
  · rw [State.chan_setLane_ne s l hk]; exact h.init_disabled (pool ▸ i) k

theorem State.ModesAgree.lane_same {s : State} (h : s.ModesAgree) (ch : ChanId) {l : Lane} (same : (s.chan ch).SameModes l.c)
    (pool : l.pool.state = s.pool.state) : (s.setLane ch l).ModesAgree :=
  h.lane ch (same.agree (h.chans ch)) same.admin pool

theorem State.ModesAgree.setChan_same {s : State} (h : s.ModesAgree) {ch : ChanId} {c : Chan} (same : (s.chan ch).SameModes c) :
    (s.setChan ch c).ModesAgree :=
  h.lane_same ch (l := { s.lane ch with c := c }) same rfl

/-! ### Resets and the pool's build -/

theorem Chan.modesAgree_reset : ({} : Chan).ModesAgree := by
  constructor <;> simp

theorem State.powerOnReset_modes (s : State) : s.powerOnReset.ModesAgree := by
  have hc (ch : ChanId) : s.powerOnReset.chan ch = {} := Quad.get_const ..
  refine ⟨fun ch => ?_, fun ch => ?_, fun _ ch => ?_⟩
  · rw [hc]; exact Chan.modesAgree_reset
  · rw [hc]; exact ⟨nofun, nofun⟩
  · rw [hc]

theorem State.softReset_modes (s : State) : s.softReset.ModesAgree := by
  have hc (ch : ChanId) : s.softReset.chan ch = (s.chan ch).softReset := Quad.get_map ..
  refine ⟨fun ch => ?_, fun ch => ?_, fun _ ch => ?_⟩
  · rw [hc]; exact Chan.SameModes.agree (.of_rest rfl) Chan.modesAgree_reset
  · rw [hc]; exact ⟨nofun, nofun⟩
  · rw [hc]; rfl

/-- The build's end leaves INIT, and the channels as they are. -/
theorem State.buildComplete_modes {s : State} (h : s.ModesAgree) : s.buildComplete.ModesAgree := by
  unfold State.buildComplete
  split
  · exact ⟨h.chans, h.draining_iff, nofun⟩
  · exact h

/-! ### The data ports and the indirect space -/

theorem State.advanceHeld_modes {s : State} (h : s.ModesAgree) (n : Nat) : (s.advanceHeld n).ModesAgree :=
  h.setChan_same (.of_rest rfl)

theorem State.rxdataWord_modes {s : State} (h : s.ModesAgree) : s.rxdataWord.2.ModesAgree := by
  unfold State.rxdataWord
  split
  · exact h.congr rfl rfl rfl
  · split_ifs
    · exact State.advanceHeld_modes h 2
    · exact State.advanceHeld_modes h 1
    · exact h.congr rfl rfl rfl

theorem State.rxdataByte_modes {s : State} (h : s.ModesAgree) : s.rxdataByte.2.ModesAgree := by
  unfold State.rxdataByte
  split
  · exact h.congr rfl rfl rfl
  · split_ifs
    · exact State.advanceHeld_modes h 1
    · exact h.congr rfl rfl rfl

theorem State.fillByte_modes {s : State} (h : s.ModesAgree) (v : Byte) : (s.fillByte v).ModesAgree := by
  unfold State.fillByte
  split
  · exact h
  · split_ifs
    · exact State.ModesAgree.congr (s := s.setChan s.win.page _) (h.setChan_same (.of_rest rfl)) rfl rfl rfl
    · exact h

theorem State.txdataWord_modes {s : State} (h : s.ModesAgree) (v : Word) : (s.txdataWord v).ModesAgree := by
  unfold State.txdataWord
  split_ifs
  · exact State.fillByte_modes (State.fillByte_modes h _) _
  · exact (State.fillByte_modes h _).congr rfl rfl rfl
  · exact h.congr rfl rfl rfl

theorem State.txdataByte_modes {s : State} (h : s.ModesAgree) (v : Byte) : (s.txdataByte v).ModesAgree := by
  unfold State.txdataByte
  split_ifs
  · exact State.fillByte_modes h _
  · exact h.congr rfl rfl rfl

theorem State.idataRead_modes {s : State} (h : s.ModesAgree) : s.idataRead.2.ModesAgree := by
  have seen : s.buildSeen.ModesAgree := by
    unfold State.buildSeen
    split
    · exact h.congr rfl rfl rfl
    · exact h
  exact seen.congr rfl rfl rfl

/-- R41 in WAITING: the accepted LABEL is unknown there, so LABELMIS stays clear. -/
theorem Chan.labelmisReevaluated_same {c : Chan} (a : c.ModesAgree) : c.SameModes c.labelmisReevaluated := by
  have key (flags : CFlags) : c.SameModes { c with
      flags := flags
      mon := { c.mon with conds := { c.mon.conds with labelmis := labelMismatch c.cfg.explabel c.mon.label.accepted } } } := by
    refine ⟨rfl, rfl, rfl, fun _ => rfl, rfl, rfl, fun w => ⟨?_, rfl, rfl⟩, Iff.rfl, rfl, rfl, fun _ => ⟨rfl, rfl⟩⟩
    obtain ⟨hconds, -, hlabel⟩ := a.waiting_clear w
    show ({ c.mon.conds with labelmis := labelMismatch c.cfg.explabel c.mon.label.accepted } : Conds) = c.mon.conds
    rw [hconds, hlabel]
    rfl
  unfold Chan.labelmisReevaluated
  dsimp only
  split
  · exact key _
  · exact key _

theorem State.configWrite_modes {s : State} (h : s.ModesAgree) (e : Entry) (v : Word) : (s.configWrite e v).ModesAgree := by
  have put : s.paged.SameModes { s.paged with cfg := s.paged.cfg.put e v } := .of_rest rfl
  unfold State.configWrite
  split
  · refine h.setChan_same ?_
    dsimp only
    split
    · exact put.trans (Chan.labelmisReevaluated_same (put.agree (h.chans _)))
    · exact put
  · exact h.congr rfl rfl rfl

theorem State.globalWrite_modes {s : State} (h : s.ModesAgree) (e : GEntry) (v : Word) : (s.globalWrite e v).ModesAgree := by
  unfold State.globalWrite
  split <;> exact h.congr rfl rfl rfl

theorem State.idataWrite_modes {s : State} (h : s.ModesAgree) (v : Word) : (s.idataWrite v).ModesAgree := by
  have next {t : State} (ht : t.ModesAgree) : t.nextIdx.ModesAgree := ht.congr rfl rfl rfl
  unfold State.idataWrite
  split
  · exact next (State.configWrite_modes h _ v)
  · split
    · exact next (State.globalWrite_modes h _ v)
    · exact next h

/-! ### Commands -/

/-- An event of a lane followed by a change of its channel is one event of the lane. -/
theorem State.onLane_onChan (s : State) (ch : ChanId) (f : Lane → Lane) (g : Chan → Chan) :
    (s.onLane ch f).onChan ch g = s.onLane ch fun l => (f l).mapChan g := by
  simp [State.onChan, State.onLane, State.setChan, State.setLane, State.chan]

/-- CH_START: the aligner in HUNT and the framer running agree with ACTIVE. -/
theorem State.takeChStart_modes {s : State} (h : s.ModesAgree) (hr : s.pool.state = .ready) (hu : s.cu.pending = none) (p : ChanId) :
    (s.takeChStart p).ModesAgree := by
  have a := h.chans p
  unfold State.takeChStart
  split
  · rename_i hd
    have hoff : (s.chan p).al.state = .off := a.off_iff.mpr (by rw [hd]; nofun)
    have link : LinkAgrees .active ((s.chan p).alignerStart s.globals).al ((s.chan p).alignerStart s.globals).framerStart.fr := by
      constructor <;> simp [Chan.alignerStart, Chan.framerStart]
    have started := a.unlocked (by rw [hoff]; nofun) (show AlState.hunt ≠ .locked from nofun) link
    refine h.settled (ch := p) rfl (Chan.SameModes.agree ?_ started) ?_ (fun _ _ => Iff.rfl) hr
    · exact ⟨rfl, rfl, rfl, fun _ => rfl, rfl, rfl, fun _ => ⟨rfl, rfl, rfl⟩, Iff.rfl, rfl, rfl, fun _ => ⟨rfl, rfl⟩⟩
    · rw [State.answer_cu, State.onChan_cu, hu]
      exact ⟨nofun, nofun⟩
  · exact h.answer _

/-- CH_STOP: the receive side stops; the framer stops with it, or drains with the unit PENDING. -/
theorem State.takeChStop_modes {s : State} (h : s.ModesAgree) (hr : s.pool.state = .ready) (hu : s.cu.pending = none) (p : ChanId) :
    (s.takeChStop p).ModesAgree := by
  have a := h.chans p
  have pool : (s.lane p).alignerStop.pool.state = .ready := (Lane.alignerStop_conserves _).state.trans hr
  have hfr : (s.lane p).alignerStop.c.fr = (s.chan p).fr := Lane.alignerStop_fr _
  unfold State.takeChStop
  split
  · rename_i ha
    dsimp only
    split
    · rename_i hd
      have hnone : (s.chan p).fr.inflight = none := by
        simpa using (Bool.and_eq_true_iff.mp hd).1
      rw [State.onLane_onChan]
      refine h.settled (ch := p) rfl (Lane.alignerStop_modes a ?_) ?_ (fun k _ => ?_) pool
      · constructor <;> simp [Framer.stop, hfr, hnone]
      · show Admin.disabled = .draining ↔ none = some p
        exact ⟨nofun, nofun⟩
      · rw [State.stopCompleted_cu, hu]
    · have running : (s.chan p).fr.running = true := a.running_iff.mpr (by rw [ha]; nofun)
      rw [State.onLane_onChan]
      refine h.settled (ch := p) rfl (Lane.alignerStop_modes a ?_) ⟨fun _ => rfl, fun _ => rfl⟩ (fun k hk => ?_) pool
      · constructor <;> simp [hfr, running]
      · rw [hu]
        exact ⟨fun e => absurd (Option.some.inj e).symm hk, nofun⟩
  · exact h.answer _

theorem Chan.framerReset_al (c : Chan) : c.framerReset.al = c.al := by
  unfold Chan.framerReset
  dsimp only
  split <;> rfl

/-- CH_RESET leaves the aligner OFF (R29), whatever state it stopped in. -/
theorem Lane.channelReset_al (l : Lane) : l.channelReset.c.al = {} := by
  simp only [Lane.channelReset, Lane.mapChan_c, Chan.emptied, Lane.returnChain_c, Chan.setHolding_al, Chan.framerReset_al]
  rfl

/-- CH_RESET: everything of the channel but its configuration, counters, masks and TXD_n at its reset value. -/
theorem State.takeChReset_modes {s : State} (h : s.ModesAgree) (hr : s.pool.state = .ready) (hu : s.cu.pending = none) (p : ChanId) :
    (s.takeChReset p).ModesAgree := by
  have pool : (s.lane p).channelReset.pool.state = .ready := (Lane.channelReset_conserves _).state.trans hr
  have al : (s.lane p).channelReset.c.al = {} := Lane.channelReset_al _
  have same : ({} : Chan).SameModes (s.lane p).channelReset.c :=
    ⟨rfl, by rw [al], by rw [al], fun _ => by rw [al], rfl, rfl, fun _ => ⟨rfl, rfl, rfl⟩, Iff.rfl, rfl, rfl, fun _ => ⟨rfl, rfl⟩⟩
  refine h.settled (ch := p) rfl (same.agree Chan.modesAgree_reset) ?_ (fun _ _ => Iff.rfl) pool
  show Admin.disabled = .draining ↔ s.cu.pending = some p
  rw [hu]
  exact ⟨nofun, nofun⟩

theorem Lane.returnChain_same (d : Dir) (chain : List CellNo) (l : Lane) : l.c.SameModes (l.returnChain d chain).c := by
  cases d <;> exact .of_rest rfl

theorem Chan.SameModes.of_ring (c : Chan) (ring : List OhRecord) : c.SameModes { c with mon := { c.mon with ring := ring } } :=
  ⟨rfl, rfl, rfl, fun _ => rfl, rfl, rfl, fun _ => ⟨rfl, rfl, rfl⟩, Iff.rfl, rfl, rfl, fun _ => ⟨rfl, rfl⟩⟩

theorem State.takeChFlush_modes {s : State} (h : s.ModesAgree) (p : ChanId) : (s.takeChFlush p).ModesAgree := by
  unfold State.takeChFlush
  dsimp only
  split
  · have returned := (Lane.returnChain_same .rx (s.chan p).queuedRxChains (s.lane p)).trans
      (Lane.returnChain_same .tx (s.chan p).queuedTxChains _)
    have emptied := returned.trans (.of_rest (d := Chan.emptied _) rfl)
    exact (h.lane_same p (emptied.trans (.of_ring _ [])) rfl).answerWith _ _
  · exact h.answer _

theorem State.takeRxOpen_modes {s : State} (h : s.ModesAgree) (p : ChanId) : (s.takeRxOpen p).ModesAgree := by
  unfold State.takeRxOpen
  dsimp only
  split
  · exact h.answer _
  · split
    · exact h.answer _
    · exact State.ModesAgree.answerWith (h.setChan_same (.of_rest rfl)) _ _

theorem State.takeRxRelease_modes {s : State} (h : s.ModesAgree) (p : ChanId) : (s.takeRxRelease p).ModesAgree := by
  unfold State.takeRxRelease
  split
  · exact h.answer _
  · exact State.ModesAgree.answerWith (h.lane_same p (.of_rest rfl) rfl) _ _

theorem State.takeRxSkip_modes {s : State} (h : s.ModesAgree) (p : ChanId) : (s.takeRxSkip p).ModesAgree := by
  unfold State.takeRxSkip
  split
  · exact h.answer _
  · exact State.ModesAgree.answerWith (h.lane_same p (.of_rest rfl) rfl) _ _

theorem State.takeTxAlloc_modes {s : State} (h : s.ModesAgree) (p : ChanId) : (s.takeTxAlloc p).ModesAgree := by
  unfold State.takeTxAlloc
  dsimp only
  split_ifs
  · exact h.answer _
  · exact h.answer _
  · exact State.ModesAgree.answerWith (h.lane_same p (.of_rest rfl) rfl) _ _
  · exact h.answer _

theorem State.takeTxSubmit_modes {s : State} (h : s.ModesAgree) (p : ChanId) : (s.takeTxSubmit p).ModesAgree := by
  unfold State.takeTxSubmit
  dsimp only
  split
  · exact h.answer _
  · split_ifs
    · exact h.answer _
    · exact h.answer _
    · exact State.ModesAgree.answerWith (h.setChan_same (.of_rest rfl)) _ _

theorem State.takeTxCancel_modes {s : State} (h : s.ModesAgree) (p : ChanId) : (s.takeTxCancel p).ModesAgree := by
  unfold State.takeTxCancel
  split
  · exact h.answer _
  · exact State.ModesAgree.answerWith (h.lane_same p (.of_rest rfl) rfl) _ _

theorem State.takeOhPop_modes {s : State} (h : s.ModesAgree) (p : ChanId) : (s.takeOhPop p).ModesAgree := by
  unfold State.takeOhPop
  dsimp only
  split
  · exact h.answer _
  · exact State.ModesAgree.answerWith (h.setChan_same (.of_ring ..)) _ _

theorem State.takeCntSnap_modes {s : State} (h : s.ModesAgree) (p : ChanId) : (s.takeCntSnap p).ModesAgree :=
  State.ModesAgree.answer (h.setChan_same (.of_rest rfl)) _

/-- A command is taken in READY with the unit IDLE (R137 to R139). -/
theorem State.take_modes {s : State} (h : s.ModesAgree) (hr : s.pool.state = .ready) (hu : s.cu.pending = none) (k : Cmd) :
    (s.take k).ModesAgree := by
  cases k with
  | chStart => exact State.takeChStart_modes h hr hu _
  | chStop => exact State.takeChStop_modes h hr hu _
  | chReset => exact State.takeChReset_modes h hr hu _
  | chFlush => exact State.takeChFlush_modes h _
  | rxOpen => exact State.takeRxOpen_modes h _
  | rxRelease => exact State.takeRxRelease_modes h _
  | rxSkip => exact State.takeRxSkip_modes h _
  | txAlloc => exact State.takeTxAlloc_modes h _
  | txSubmit => exact State.takeTxSubmit_modes h _
  | txCancel => exact State.takeTxCancel_modes h _
  | ohPop => exact State.takeOhPop_modes h _
  | cntSnap => exact State.takeCntSnap_modes h _

theorem State.cmdWrite_modes {s : State} (h : s.ModesAgree) (code : Byte) : (s.cmdWrite code).ModesAgree := by
  by_cases hi : s.pool.state = .init
  · rw [State.cmdWrite_busy code hi]
    exact h.answer _
  have hr : s.pool.state = .ready := by
    cases e : s.pool.state
    · exact absurd e hi
    · rfl
  by_cases hu : s.cu.pending = none
  · unfold State.cmdWrite
    rw [if_neg hi, if_neg (by simp [hu])]
    split
    · exact h.answer _
    · exact State.take_modes h hr hu _
  · rw [State.cmdWrite_pending code hr hu]
    exact h.congr rfl rfl rfl

/-! ### Words of the bus window -/

theorem State.pageWrite_modes {s : State} (h : s.ModesAgree) (v : Word) : (s.pageWrite v).ModesAgree := by
  unfold State.pageWrite
  split <;> exact h.congr rfl rfl rfl

theorem State.gctlWrite_modes {s : State} (h : s.ModesAgree) (v : Word) : (s.gctlWrite v).ModesAgree := by
  unfold State.gctlWrite
  split
  · exact s.softReset_modes
  · exact h

theorem State.writeWord_modes {s : State} (h : s.ModesAgree) (word : WordNo) (v : Word) : (s.writeWord word v).ModesAgree := by
  unfold State.writeWord
  split
  · exact State.gctlWrite_modes h v
  · exact h.congr rfl rfl rfl
  · exact h.congr rfl rfl rfl
  · exact State.pageWrite_modes h v
  · exact State.cmdWrite_modes h _
  · exact h.congr rfl rfl rfl
  · exact h.congr rfl rfl rfl
  · exact h.congr rfl rfl rfl
  · exact State.idataWrite_modes h v
  · exact State.txdataWord_modes h v
  · exact h.setChan_same (.of_rest rfl)
  · exact h.setChan_same (.of_rest rfl)
  · exact h

/-- Of the direct words only IDATA and RXDATA have a side effect when read. -/
theorem State.readWord_modes {s : State} (h : s.ModesAgree) (word : WordNo) : (s.readWord word).2.ModesAgree := by
  unfold State.readWord
  split
  case h_10 => exact State.idataRead_modes h
  case h_11 => exact State.rxdataWord_modes h
  all_goals exact h

/-! ### Links and timers -/

theorem State.rxEdge_modes {s : State} (h : s.ModesAgree) (ch : ChanId) (b : Bool) : (s.rxEdge ch b).ModesAgree := by
  obtain ⟨modes, admin⟩ := Lane.risingEdge_modes s.globals b (l := s.lane ch) (h.chans ch)
  exact h.lane ch modes admin (Lane.risingEdge_conserves ..).state

theorem State.silenceExpiry_modes {s : State} (h : s.ModesAgree) (ch : ChanId) : (s.silenceExpiry ch).ModesAgree := by
  obtain ⟨modes, admin⟩ := Lane.silenceExpiry_modes (l := s.lane ch) (h.chans ch)
  exact h.lane ch modes admin (Lane.silenceExpiry_conserves _).state

theorem State.silenceTick_modes {s : State} (h : s.ModesAgree) (ch : ChanId) : (s.silenceTick ch).ModesAgree := by
  obtain ⟨modes, admin⟩ := Lane.silenceTick_modes (l := s.lane ch) (h.chans ch)
  exact h.lane ch modes admin (Lane.silenceTick_conserves _).state

/-- A DRAINING channel completes: it becomes DISABLED with its framer stopped and the unit IDLE (R129, R130, R143). -/
theorem State.ModesAgree.drained {s t : State} (h : s.ModesAgree) {ch : ChanId} (hd : (s.chan ch).admin = .draining) {d : Chan}
    (chans : t.chans = s.chans.set ch d) (modes : d.ModesAgree) (admin : d.admin = .disabled) (unit : t.cu.pending = none)
    (pool : t.pool.state = s.pool.state) : t.ModesAgree := by
  have hu : s.cu.pending = some ch := (h.draining_iff ch).mp hd
  refine h.settled chans modes ?_ (fun k hk => ?_) ?_
  · rw [admin, unit]
    exact ⟨nofun, nofun⟩
  · rw [unit, hu]
    exact ⟨nofun, fun e => absurd (Option.some.inj e).symm hk⟩
  · cases e : t.pool.state
    · have := h.init_disabled (pool ▸ e) ch
      rw [hd] at this
      cases this
    · rfl

/-- With the aligner OFF and no packet in flight, DISABLED with the framer stopped agrees. -/
theorem Chan.ModesAgree.stopped {c d : Chan} (a : c.ModesAgree) (hc : c.admin ≠ .active)
    (hd : d = { c with admin := .disabled, fr := d.fr, live := d.live, txHolding := d.txHolding })
    (running : d.fr.running = false) (bitPos : d.fr.bitPos = none) (inflight : d.fr.inflight = none)
    (timer : d.fr.drainTimer = none) : d.ModesAgree := by
  have hoff : c.al.state = .off := a.off_iff.mpr hc
  have link : LinkAgrees .disabled c.al d.fr := by
    refine ⟨?_, a.silence_iff, a.silent_clear, ?_, ?_, fun _ => ⟨bitPos, inflight⟩⟩
    · simp [hoff]
    · simp [running]
    · simp [timer]
  have modes := a.unlocked (by rw [hoff]; nofun) (by rw [hoff]; nofun) link
  rw [hd]
  exact Chan.SameModes.agree (.of_rest rfl) modes

/-- A falling edge changes no mode, unless it ends a drain. -/
theorem State.txEdge_modes {s : State} (h : s.ModesAgree) (ch : ChanId) : (s.txEdge ch).ModesAgree := by
  have same := (s.lane ch).fallingEdge_sameModes
  have edge : (s.onLane ch Lane.fallingEdge).ModesAgree := h.lane_same ch same (Lane.fallingEdge_conserves _).state
  unfold State.txEdge
  dsimp only
  split
  · rename_i hd
    obtain ⟨-, hover⟩ := hd
    simp only [Chan.drainOver, Bool.and_eq_true, beq_iff_eq, Option.isNone_iff_eq_none] at hover
    obtain ⟨⟨admin, inflight⟩, -⟩ := hover
    refine edge.drained admin rfl ?_ rfl rfl rfl
    exact (edge.chans ch).stopped (by rw [admin]; nofun) rfl rfl rfl inflight rfl
  · exact edge

theorem Lane.abandonDrain_modes {l : Lane} (a : l.c.ModesAgree) (hl : l.c.admin ≠ .active) (clockStopped : Bool) :
    (l.abandonDrain clockStopped).c.ModesAgree := by
  unfold Lane.abandonDrain
  cases l.c.fr.inflight with
  | none => exact a.stopped hl rfl rfl rfl rfl rfl
  | some p =>
    have returned := (l.returnChain_same .tx p.desc.chain).trans (.of_rest (d := Chan.bump .txabort _) rfl)
    exact (returned.agree a).stopped hl rfl rfl rfl rfl rfl

/-- A drain timer runs in DRAINING only, so its expiry completes a CH_STOP. -/
theorem State.drainExpiry_modes {s : State} (h : s.ModesAgree) (ch : ChanId) (clockStopped : Bool) :
    (s.drainExpiry ch clockStopped).ModesAgree := by
  unfold State.drainExpiry
  split
  · rename_i ht
    have admin : (s.chan ch).admin = .draining := (h.chans ch).draining_iff.mp ht
    refine h.drained admin rfl ?_ rfl rfl (Lane.abandonDrain_conserves clockStopped _).state
    exact Lane.abandonDrain_modes (l := s.lane ch) (h.chans ch) (by rw [State.lane_c, admin]; nofun) clockStopped
  · exact h

theorem State.drainTick_modes {s : State} (h : s.ModesAgree) (ch : ChanId) : (s.drainTick ch).ModesAgree := by
  unfold State.drainTick
  split
  · exact h
  · rename_i n hn
    split
    · exact (State.drainExpiry_modes h ch _).congr rfl rfl rfl
    · refine h.setChan_same ?_
      exact ⟨rfl, rfl, rfl, fun _ => rfl, rfl, rfl, fun _ => ⟨rfl, rfl, rfl⟩, Iff.rfl, rfl, by rw [hn]; rfl, fun _ => ⟨rfl, rfl⟩⟩

theorem State.buildTick_modes {s : State} (h : s.ModesAgree) : s.buildTick.ModesAgree := by
  unfold State.buildTick
  split_ifs
  · exact State.buildComplete_modes h
  · exact h.congr rfl rfl rfl
  · exact h

/-! ### The step -/

theorem State.modesAgree_keptByOperations : KeptByOperations State.ModesAgree where
  window _ _ h := h.congr rfl rfl rfl
  powerOn s _ := s.powerOnReset_modes
  build _ h := State.buildComplete_modes h
  writes _ word v h := State.writeWord_modes h word v
  writesByte _ v h := State.txdataByte_modes h v
  reads _ word h := State.readWord_modes h word
  readsByte _ h := State.rxdataByte_modes h
  rising _ ch b h := State.rxEdge_modes h ch b
  falling _ ch h := State.txEdge_modes h ch
  silence _ ch h := State.silenceExpiry_modes h ch
  counts _ _ _ _ h := h.setChan_same (.of_rest rfl)
  drain _ ch stopped h := State.drainExpiry_modes h ch stopped

theorem State.tick_modes {s : State} (h : s.ModesAgree) : s.tick.ModesAgree :=
  State.tick_kept (P := State.ModesAgree) (fun _ ch h => State.silenceTick_modes h ch) (fun _ ch h => State.drainTick_modes h ch)
    (fun _ h => State.buildTick_modes h) (fun _ _ h => h.congr rfl rfl rfl) h

/-- Settles O56: every operation of a step keeps the modes in agreement, and so does the tick of an empty queue. -/
theorem stepKeepsTheModesInAgreement : Obligations.StepKeepsTheModesInAgreement :=
  fun _ _ h e => State.modesAgree_keptByOperations.step (fun _ _ h => h.congr rfl rfl rfl) (fun _ h => State.tick_modes h) h e

end Sys2Proof.Machine
end

section
/-! PROOFS. Received bits one by one (R16 to R18, R22, R27): what an edge delivers, and what a bit does that ends no marker position. -/
namespace Sys2Proof.Machine

open Sys2Proof

/-! ### The source of the bits (R16) -/

theorem Chan.sourceBit_line {c : Chan} (b : Bool) (h : c.al.loopSource = false) : c.sourceBit b = some b := by
  simp [Chan.sourceBit, h]

theorem Chan.sourceBit_loop {c : Chan} (b : Bool) (h : c.al.loopSource = true) (hp : c.fr.presented = true) :
    c.sourceBit b = some c.fr.txd := by
  simp [Chan.sourceBit, h, hp]

theorem Chan.sourceBit_loop_none {c : Chan} (b : Bool) (h : c.al.loopSource = true) (hp : c.fr.presented = false) :
    c.sourceBit b = none := by
  simp [Chan.sourceBit, h, hp]

/-! ### What a bit does in each state -/

theorem exec_receivedBit (ch : ChanId) (b : Bool) (s : State) : exec (.receivedBit ch b) s = .next (s.rxEdge ch b) := rfl

theorem exec_markerMatch (ch : ChanId) (b : Bool) (s : State) : exec (.markerMatch ch b) s = .next (s.rxEdge ch b) := rfl

theorem exec_silentFirstBit (ch : ChanId) (b : Bool) (s : State) : exec (.silentFirstBit ch b) s = .next (s.rxEdge ch b) := rfl

/-- A tracked bit that ends neither a marker position nor a byte of a processed frame changes the aligner alone. -/
theorem State.rxEdge_plain {s : State} {ch : ChanId} {b x : Bool} (h : (s.chan ch).sourceBit b = some x)
    (hs : (s.chan ch).al.state = .verify ∨ (s.chan ch).al.state = .locked) (h16 : (s.chan ch).al.bitPos + 1 ≠ 16)
    (hb : (s.chan ch).al.state = .verify ∨ (s.chan ch).al.bitPos + 1 < 16 ∨ ((s.chan ch).al.bitPos + 1) % 8 ≠ 0) :
    s.rxEdge ch b = s.setChan ch ((s.chan ch).tracked s.globals x) := by
  rw [State.rxEdge_tracked h hs]
  exact congrArg (s.setLane ch) (Lane.trackBit_plain (l := s.lane ch) h16 hb)

theorem State.rxEdge_hunt {s : State} {ch : ChanId} {b x : Bool} (h : (s.chan ch).sourceBit b = some x)
    (hs : (s.chan ch).al.state = .hunt) :
    s.rxEdge ch b = s.setChan ch { s.chan ch with al := ((s.chan ch).al.takeBit s.globals.tsil x).testWindow } := by
  rw [State.rxEdge_of_bit h]
  unfold State.onLane Lane.receiveBit
  rw [State.lane_c, hs]
  rfl

theorem State.rxEdge_silent {s : State} {ch : ChanId} {b x : Bool} (h : (s.chan ch).sourceBit b = some x)
    (hs : (s.chan ch).al.state = .silent) :
    s.rxEdge ch b = s.setChan ch { s.chan ch with
      al := ({ (s.chan ch).al with state := .hunt }.takeBit s.globals.tsil x).testWindow } := by
  rw [State.rxEdge_of_bit h]
  unfold State.onLane Lane.receiveBit
  rw [State.lane_c, hs]
  rfl

/-! ### The window (R18) -/

theorem Aligner.testWindow_match {a : Aligner} (h : a.searchReg = 0xB54E) :
    a.testWindow = { a with state := .verify, bitPos := 16, verifyCount := 0 } := if_pos h

theorem Aligner.testWindow_noMatch {a : Aligner} (h : a.searchReg ≠ 0xB54E) : a.testWindow = a := if_neg h

/-- The one bit of a cleared register. -/
theorem shiftIn_zero (x : Bool) : shiftIn 0 x = if x then 1 else 0 := by cases x <;> rfl

theorem shiftIn_zero_ne_marker (x : Bool) : shiftIn 0 x ≠ 0xB54E := by cases x <;> decide

/-! ### The statements -/

/-- Settles O32: the source's cases, then a tracked bit that ends nothing, then the three bytes that are kept for later. -/
theorem receivedBitIsTakenByTheAligner : Obligations.ReceivedBitIsTakenByTheAligner := by
  intro s ch b x c bits taken
  refine ⟨Chan.sourceBit_line b, Chan.sourceBit_loop b, fun hl hp => ?_, fun hoff => ?_, fun hb hv h16 => ?_,
    fun hb hl hin hend => ?_, fun off v harr hf => ?_⟩
  · have none := Chan.sourceBit_loop_none b hl hp
    exact ⟨none, by rw [exec_receivedBit, State.rxEdge_of_none none]⟩
  · rw [exec_receivedBit, State.rxEdge_of_off b hoff]
  · rw [exec_receivedBit, State.rxEdge_plain hb (.inl hv) h16 (.inl hv)]
    rfl
  · have h16 : c.al.bitPos + 1 ≠ 16 := by omega
    rw [exec_receivedBit, State.rxEdge_plain hb (.inr hl) h16 (.inr hin)]
    unfold Chan.tracked
    rw [if_neg hend]
  · rw [exec_receivedBit, State.rxEdge_byte harr hf]
    refine ⟨?_, ?_, ?_⟩ <;> rintro rfl <;> rfl

/-- Settles O33: the two outcomes of the window's test, and the first bit in SILENT, whose register cannot match. -/
theorem markerMatchFixesTheFramePositionInHunt : Obligations.MarkerMatchFixesTheFramePositionInHunt := by
  refine ⟨?_, ?_⟩
  · intro s ch b x c taken hb hs
    rw [exec_markerMatch, State.rxEdge_hunt hb hs]
    refine ⟨fun hm => ?_, fun hm => ?_⟩
    · rw [Aligner.testWindow_match hm]
      rfl
    · rw [Aligner.testWindow_noMatch hm]
      rfl
  · intro s ch b x c hb hs hreg
    have taken : ({ c.al with state := .hunt } : Aligner).takeBit s.globals.tsil x =
        { c.al with state := .hunt, searchReg := shiftIn 0 x, silence := some s.globals.tsil.toNat } := by
      rw [← hreg]
      rfl
    rw [exec_silentFirstBit, State.rxEdge_silent hb hs, taken, Aligner.testWindow_noMatch (shiftIn_zero_ne_marker x), shiftIn_zero]

end Sys2Proof.Machine
end

section
/-! PROOFS. The marker comparisons (R19 to R21, R24) and the expiry of the silence timer (R26): the rules of the comparison in VERIFY and in LOCKED,
and what entering LOCKED does to the monitor and the delineator (R33, R56). -/
namespace Sys2Proof.Machine

open Sys2Proof

/-! ### The monitor and the delineator told of an entry to LOCKED -/

/-- Entering MONITORING changes of the channel the monitor, the flags and the live counters only. -/
theorem Chan.monitorEnter_kept (c : Chan) :
    c.monitorEnter = { c with mon := c.monitorEnter.mon, flags := c.monitorEnter.flags, live := c.monitorEnter.live } := by
  unfold Chan.monitorEnter Chan.recordDue
  dsimp only
  split <;> rfl

/-- R33 and R48: the monitor starts afresh, but for its conditions and FCNTs, and waits for the entry record's FCNT. -/
theorem Chan.monitorEnter_mon (c : Chan) :
    c.monitorEnter.mon = { c.mon with
      mode := .monitoring, firstFrame := true, runXor := 0, stat := {}, label := {}, winFrames := 0, winMismatches := 0
      entryFill := true, entrySeq := if c.mon.ring.length < 16 then some c.mon.nextSeq else none
      ring := c.monitorEnter.mon.ring, nextSeq := c.monitorEnter.mon.nextSeq
      pendingLost := c.monitorEnter.mon.pendingLost } := by
  unfold Chan.monitorEnter Chan.recordDue
  dsimp only
  split <;> rfl

theorem Chan.monitorEnter_flags (c : Chan) :
    c.monitorEnter.flags = { c.flags with ohrec := c.monitorEnter.flags.ohrec } :=
  Chan.recordDue_flags ..

theorem Chan.monitorEnter_live (c : Chan) :
    c.monitorEnter.live = { c.live with ohlost := c.monitorEnter.live.ohlost } :=
  Chan.recordDue_live ..

/-- R46: the entry record is due. -/
theorem Chan.monitorEnter_outcome (c : Chan) :
    c.recordOutcome { c.mon.entryRecord with degraded := c.mon.conds.degraded } c.monitorEnter := by
  have due := Chan.recordDue_outcome { align := true } 0 true { c with mon := { c.mon with
    mode := .monitoring, firstFrame := true, runXor := 0, stat := {}, label := {}, winFrames := 0, winMismatches := 0 } }
  exact Chan.recordOutcome_congr due ⟨rfl, rfl, rfl, rfl, rfl⟩ ⟨rfl, rfl, rfl, rfl, rfl⟩

theorem Chan.delinLockedEntered_kept (c : Chan) : c.delinLockedEntered = { c with del := c.delinLockedEntered.del } := by
  unfold Chan.delinLockedEntered
  split <;> rfl

/-- R56: only HOLD is left, for SEEK. -/
theorem Chan.delinLockedEntered_del (c : Chan) :
    c.delinLockedEntered.del = if c.del.state = .hold then c.del.enter .seek else c.del := by
  unfold Chan.delinLockedEntered
  split <;> rfl

/-- R22: the frame's start counts it and takes both marker bytes, as received, into the running XOR. -/
theorem Chan.startProcessed_eq (c : Chan) :
    c.startProcessed = { c with
      mon := { c.mon with runXor := c.mon.runXor ^^^ highByte c.al.searchReg ^^^ lowByte c.al.searchReg }
      live := { c.live with rxframes := countUp c.live.rxframes } } := rfl

/-! ### The comparison in VERIFY -/

theorem exec_verifyMarkerComparison (ch : ChanId) (b : Bool) (s : State) :
    exec (.verifyMarkerComparison ch b) s = .next (s.rxEdge ch b) := rfl

/-- The bit that ends a marker position: the new position is 16, or the frame's end. -/
theorem Chan.tracked_marker {c : Chan} (g : Globals) (x : Bool) (h16 : c.al.bitPos + 1 = 16) :
    c.tracked g x = { c with al := { c.al with
      searchReg := shiftIn c.al.searchReg x, silence := some g.tsil.toNat
      bitPos := if 16 = 8 * c.cfg.flen.toNat then 0 else 16 } } := by
  unfold Chan.tracked
  rw [h16]

theorem State.rxEdge_verifyComparison {s : State} {ch : ChanId} {b x : Bool} (h : (s.chan ch).sourceBit b = some x)
    (hs : (s.chan ch).al.state = .verify) (h16 : (s.chan ch).al.bitPos + 1 = 16) :
    s.rxEdge ch b = s.setChan ch ((s.chan ch).tracked s.globals x).verifyComparison := by
  have key : (s.lane ch).trackBit s.globals x = ((s.lane ch).mapChan (Chan.tracked s.globals x)).mapChan Chan.verifyComparison := by
    rw [Lane.trackBit_marker (l := s.lane ch) h16, State.lane_c, hs]
    exact if_neg nofun
  rw [State.rxEdge_tracked h (.inl hs)]
  exact congrArg (s.setLane ch) key

theorem Chan.verifyComparison_miss {c : Chan} (h : c.al.searchReg ≠ 0xB54E) :
    c.verifyComparison = { c with al := c.al.toHunt } := if_neg h

theorem Chan.verifyComparison_counts {c : Chan} (h : c.al.searchReg = 0xB54E) (hv : c.al.verifyCount + 1 ≠ c.cfg.vcount.toNat) :
    c.verifyComparison = { c with al := { c.al with verifyCount := c.al.verifyCount + 1 } } :=
  (if_pos h).trans (if_neg hv)

theorem Chan.verifyComparison_enters {c : Chan} (h : c.al.searchReg = 0xB54E) (hv : c.al.verifyCount + 1 = c.cfg.vcount.toNat) :
    c.verifyComparison = c.enterLocked :=
  (if_pos h).trans (if_pos hv)

/-- The channel with its aligner in LOCKED and ALIGN set, as the monitor and the delineator are told of the entry (R20). -/
def Chan.inLocked (c : Chan) : Chan :=
  ({ c with al := { c.al with state := .locked, missCount := 0, verifyCount := 0 } } : Chan).flagAlign

/-- R20 part by part: the aligner in LOCKED, the monitor entered with both marker bytes taken, the delineator out of HOLD. -/
theorem Chan.enterLocked_eq (c : Chan) :
    c.enterLocked = { c with
      al := { c.al with state := .locked, missCount := 0, verifyCount := 0 }
      mon := { c.mon with
        mode := .monitoring, firstFrame := true, runXor := highByte c.al.searchReg ^^^ lowByte c.al.searchReg
        stat := {}, label := {}, winFrames := 0, winMismatches := 0
        entryFill := true, entrySeq := if c.mon.ring.length < 16 then some c.mon.nextSeq else none
        ring := c.inLocked.monitorEnter.mon.ring, nextSeq := c.inLocked.monitorEnter.mon.nextSeq
        pendingLost := c.inLocked.monitorEnter.mon.pendingLost }
      del := if c.del.state = .hold then c.del.enter .seek else c.del
      flags := { c.flags with align := true, ohrec := c.inLocked.monitorEnter.flags.ohrec }
      live := { c.live with rxframes := countUp c.live.rxframes, ohlost := c.inLocked.monitorEnter.live.ohlost } } := by
  have kept := c.inLocked.monitorEnter_kept
  have flags := c.inLocked.monitorEnter_flags
  have live := c.inLocked.monitorEnter_live
  have mon := c.inLocked.monitorEnter_mon
  show c.inLocked.monitorEnter.delinLockedEntered.startProcessed = _
  rw [Chan.startProcessed_eq, Chan.delinLockedEntered_kept, Chan.delinLockedEntered_del]
  generalize c.inLocked.monitorEnter = e at *
  rw [kept]
  dsimp only
  rw [flags, live, mon]
  dsimp only
  rw [show 0 ^^^ highByte c.inLocked.al.searchReg = highByte c.al.searchReg from BitVec.zero_xor]
  rfl

/-! ### The comparison in LOCKED -/

theorem exec_lockedMarkerComparison (ch : ChanId) (b : Bool) (s : State) :
    exec (.lockedMarkerComparison ch b) s = .next (s.rxEdge ch b) := rfl

theorem State.rxEdge_lockedComparison {s : State} {ch : ChanId} {b x : Bool} (h : (s.chan ch).sourceBit b = some x)
    (hs : (s.chan ch).al.state = .locked) (h16 : (s.chan ch).al.bitPos + 1 = 16) :
    s.rxEdge ch b = s.onLane ch fun l => (l.mapChan (Chan.tracked s.globals x)).lockedComparison := by
  have key : (s.lane ch).trackBit s.globals x = ((s.lane ch).mapChan (Chan.tracked s.globals x)).lockedComparison := by
    rw [Lane.trackBit_marker (l := s.lane ch) h16]
    exact if_pos hs
  rw [State.rxEdge_tracked h (.inr hs)]
  exact congrArg (s.setLane ch) key

theorem Lane.lockedComparison_match {l : Lane} (h : l.c.al.searchReg = 0xB54E) :
    l.lockedComparison = l.mapChan fun c => { c with al := { c.al with missCount := 0 } }.startProcessed := if_pos h

theorem Lane.lockedComparison_flywheels {l : Lane} (h : l.c.al.searchReg ≠ 0xB54E)
    (hm : l.c.al.missCount + 1 ≠ l.c.cfg.misslim.toNat) :
    l.lockedComparison = l.mapChan fun c => { c with al := { c.al with missCount := c.al.missCount + 1 } }.startProcessed :=
  (if_neg h).trans (if_neg hm)

theorem Lane.lockedComparison_loses {l : Lane} (h : l.c.al.searchReg ≠ 0xB54E)
    (hm : l.c.al.missCount + 1 = l.c.cfg.misslim.toNat) :
    l.lockedComparison = l.loseAlignment.mapChan fun c => { c with al := c.al.toHunt } :=
  (if_neg h).trans (if_pos hm)

/-! ### Alignment loss (R24) -/

/-- A departure says nothing of the aligner. -/
theorem Chan.DepartsLocked.setAl {lost : Bool} {c d : Chan} {p q : Pool} (h : c.DepartsLocked lost d p q) (a a' : Aligner) :
    Chan.DepartsLocked lost { c with al := a } { d with al := a' } p q := by
  obtain ⟨align, waiting, keptMon, record, alarm, hold, parsing, alignloss, keptCounts, keptFlags, kept⟩ := h
  exact ⟨align, waiting, keptMon, record, alarm, hold, parsing, alignloss, keptCounts, keptFlags, kept⟩

/-- Packet memory and the global flags are no part of it. -/
theorem Lane.loseAlignment_mem_gf (l : Lane) : l.loseAlignment.mem = l.mem ∧ l.loseAlignment.gf = l.gf := by
  obtain ⟨-, -, -, mem, gf⟩ := (l.mapChan (Chan.bump .alignloss)).leaveLocked_kept
  exact ⟨mem, gf⟩

/-- What an event that loses alignment leaves of the part: `a` is the aligner it was met with, `f` what it then does to the aligner. -/
theorem State.setLane_loseAlignment (s : State) (ch : ChanId) (a : Aligner) (f : Aligner → Aligner) :
    ∃ t, s.setLane ch ((Lane.loseAlignment { s.lane ch with c := { s.chan ch with al := a } }).mapChan fun c =>
        { c with al := f c.al }) = t
      ∧ s.othersKept ch t ∧ t.mem = s.mem ∧ t.gflags = s.gflags
      ∧ (s.chan ch).DepartsLocked true (t.chan ch) s.pool t.pool ∧ (t.chan ch).admin = (s.chan ch).admin
      ∧ (t.chan ch).fr = (s.chan ch).fr ∧ (t.chan ch).al = f a := by
  obtain ⟨al, admin, fr⟩ := Lane.loseAlignment_kept { s.lane ch with c := { s.chan ch with al := a } }
  obtain ⟨mem, gf⟩ := Lane.loseAlignment_mem_gf { s.lane ch with c := { s.chan ch with al := a } }
  have departs := (Lane.loseAlignment_departs { s.lane ch with c := { s.chan ch with al := a } }).setAl (s.chan ch).al (f a)
  refine ⟨_, rfl, s.onLane_othersKept ch fun _ => _, mem, gf, ?_⟩
  rw [State.chan_setLane_self]
  refine ⟨?_, admin, fr, congrArg f al⟩
  rw [Lane.mapChan_c, al]
  exact departs

/-! ### The expiry of the silence timer (R26) -/

theorem exec_silenceTimerExpiry (ch : ChanId) (s : State) : exec (.silenceTimerExpiry ch) s = .next (s.silenceExpiry ch) := rfl

theorem Lane.silenceExpiry_idle {l : Lane} (h : l.c.al.state = .off ∨ l.c.al.state = .silent) : l.silenceExpiry = l := by
  unfold Lane.silenceExpiry
  rcases h with h | h <;> rw [h]

theorem Lane.silenceExpiry_unlocked {l : Lane} (h : l.c.al.state = .hunt ∨ l.c.al.state = .verify) :
    l.silenceExpiry = l.mapChan fun c => { c with al := c.al.toSilent } := by
  unfold Lane.silenceExpiry
  rcases h with h | h <;> rw [h]

theorem Lane.silenceExpiry_locked {l : Lane} (h : l.c.al.state = .locked) :
    l.silenceExpiry = l.loseAlignment.mapChan fun c => { c with al := c.al.toSilent } := by
  unfold Lane.silenceExpiry
  rw [h]

/-! ### The statements -/

/-- Settles O34: a miss, a match that counts, and the match that enters LOCKED, each by its rule. -/
theorem verifyComparisonCountsOrEntersLocked : Obligations.VerifyComparisonCountsOrEntersLocked := by
  intro s ch b x c reg taken hb hs h16
  have edge : s.rxEdge ch b = s.setChan ch (Chan.verifyComparison { c with al := taken }) := by
    rw [State.rxEdge_verifyComparison hb hs h16, Chan.tracked_marker _ _ h16]
  rw [exec_verifyMarkerComparison, edge]
  refine ⟨fun hr => ?_, fun hr hv => ?_, fun hr hv => ?_⟩
  · rw [Chan.verifyComparison_miss (c := { c with al := taken }) hr]
    exact ⟨_, rfl, by rw [State.chan_setChan_self], by rw [State.chan_setChan_self]; exact ⟨rfl, rfl, rfl⟩⟩
  · rw [Chan.verifyComparison_counts (c := { c with al := taken }) hr hv]
  · rw [Chan.verifyComparison_enters (c := { c with al := taken }) hr hv, Chan.enterLocked_eq]
    have record := Chan.monitorEnter_outcome (Chan.inLocked { c with al := taken })
    refine ⟨_, rfl, rfl, rfl, rfl, rfl, ?_, rfl, rfl, rfl, rfl, rfl, rfl, rfl, rfl, rfl, rfl, ?_, ?_, rfl, rfl, rfl⟩
    · show highByte reg ^^^ lowByte reg = 0xB5 ^^^ 0x4E
      rw [hr]
      rfl
    · exact Chan.recordOutcome_congr record ⟨rfl, rfl, rfl, rfl, rfl⟩ ⟨rfl, rfl, rfl, rfl, rfl⟩
    · by_cases hold : c.del.state = .hold <;> simp only [hold, if_true, if_false]
      exact ⟨rfl, rfl, rfl, rfl, rfl, rfl, rfl, rfl⟩

/-- Settles O35: match, flywheel and loss, each by its rule. -/
theorem lockedComparisonFlywheelsUpToMisslim : Obligations.LockedComparisonFlywheelsUpToMisslim := by
  intro s ch b x c reg taken processed hb hs h16
  have edge : s.rxEdge ch b = s.setLane ch (Lane.lockedComparison { s.lane ch with c := { c with al := taken } }) := by
    rw [State.rxEdge_lockedComparison hb hs h16]
    exact congrArg (fun d => s.setLane ch (Lane.lockedComparison { s.lane ch with c := d })) (Chan.tracked_marker _ _ h16)
  rw [exec_lockedMarkerComparison, edge]
  refine ⟨fun hr => ?_, fun hr hm => ?_, fun hr hm => ?_⟩
  · rw [Lane.lockedComparison_match hr]
    rfl
  · rw [Lane.lockedComparison_flywheels hr hm]
    rfl
  · rw [Lane.lockedComparison_loses hr hm]
    obtain ⟨t, ht, others, mem, gf, departs, admin, fr, al⟩ := s.setLane_loseAlignment ch taken Aligner.toHunt
    refine ⟨t, congrArg Host.Outcome.next ht, others, mem, gf, departs, admin, fr, ?_⟩
    rw [al]
    exact ⟨rfl, rfl, rfl⟩

/-- Settles O36: no timer runs in OFF and SILENT; from HUNT and VERIFY nothing is reported; from LOCKED alignment is lost. -/
theorem silenceExpiryEntersSilent : Obligations.SilenceExpiryEntersSilent := by
  intro s ch c silent
  rw [exec_silenceTimerExpiry]
  unfold State.silenceExpiry State.onLane
  refine ⟨fun hs => ?_, fun hs => ?_, fun hs => ?_⟩
  · rw [Lane.silenceExpiry_idle hs, State.setLane_lane]
  · rw [Lane.silenceExpiry_unlocked hs]
    exact ⟨c.al.toSilent, ⟨rfl, rfl, rfl, rfl, rfl, rfl, rfl⟩, rfl⟩
  · rw [Lane.silenceExpiry_locked hs]
    obtain ⟨t, ht, others, mem, gf, departs, admin, fr, al⟩ := s.setLane_loseAlignment ch c.al Aligner.toSilent
    refine ⟨t, congrArg Host.Outcome.next ht, others, mem, gf, ?_, admin, fr, departs⟩
    rw [al]
    exact ⟨rfl, rfl, rfl, rfl, rfl, rfl, rfl⟩

end Sys2Proof.Machine
end

section
/-! PROOFS. The last byte of a processed frame (R22, R34, R55): the byte's own effect in the delineator, and the frame's end on top of it. -/
namespace Sys2Proof.Machine

open Sys2Proof

theorem exec_payloadByte (ch : ChanId) (b : Bool) (s : State) : exec (.payloadByte ch b) s = .next (s.rxEdge ch b) := rfl

theorem exec_processedFrameEnd (ch : ChanId) (b : Bool) (s : State) :
    exec (.processedFrameEnd ch b) s = .next (s.rxEdge ch b) := rfl

/-- In HOLD and SEEK payload bytes are discarded (R58). -/
theorem Lane.payloadByte_discarded (thr : Word) (pos : Nat) (v : Byte) {l : Lane} (h : l.c.del.state = .hold ∨ l.c.del.state = .seek) :
    l.payloadByte thr pos v = l := by
  unfold Lane.payloadByte
  rcases h with h | h <;> rw [h]

theorem Chan.endedAt_last {off : Nat} {c : Chan} (h : off + 1 = c.cfg.flen.toNat) :
    c.endedAt off = { c with
      al := { c.al with bitPos := 0 }
      mon := { c.mon with prevXor := c.mon.runXor, runXor := 0, firstFrame := false }
      del := { c.del with startPos := none } } := if_pos h

/-- Settles O47: the payload byte leaves aligner and monitor as they are, so the frame's end finds them with the byte taken. -/
theorem lastByteEndsTheProcessedFrame : Obligations.LastByteEndsTheProcessedFrame := by
  intro s ch b x off v c w mon al harr h8 hlast
  obtain ⟨pos, rfl⟩ : ∃ pos, off = pos + 8 := ⟨off - 8, by omega⟩
  have edge := State.rxEdge_payload harr (Nat.le_of_eq hlast)
  rw [exec_processedFrameEnd, edge]
  refine ⟨⟨_, rfl, s.onLane_othersKept ch _, ?_⟩, ?_, fun hs => ?_⟩
  · have kept := Lane.payloadByte_delinKept s.globals.poolthr pos v ((s.lane ch).mapChan (Chan.withByte s.globals x v))
    rw [State.chan_onLane_self, Lane.mapChan_c, Chan.endedAt_last (by rw [kept.cfg]; exact hlast), kept.mon, kept.al]
    exact ⟨rfl, rfl, rfl⟩
  · rw [exec_payloadByte, edge]
  · have discarded := Lane.payloadByte_discarded s.globals.poolthr pos v (l := (s.lane ch).mapChan (Chan.withByte s.globals x v)) hs
    have event : s.rxEdge ch b = s.setChan ch (w.endedAt (pos + 8)) :=
      edge.trans (congrArg (fun l : Lane => s.setLane ch (l.mapChan (Chan.endedAt (pos + 8)))) discarded)
    rw [← edge, event, Chan.endedAt_last (c := w) hlast]
    rfl

end Sys2Proof.Machine
end

section
/-! PROOFS. The power-on and pin reset (R82, R133). -/
namespace Sys2Proof.Machine

open Sys2Proof

theorem exec_powerOnReset (s : State) : exec .powerOnReset s = .next s.powerOnReset := rfl

theorem State.chan_reset (ch : ChanId) : State.reset.chan ch = {} := Quad.get_const ..

theorem Counters.get_zero (k : Ctr) : ({} : Counters).get k = 0 := by cases k <;> rfl

/-- Settles O3: the reset state's values, the channels' as those of one channel, and a power-on reset as the reset state with what is kept. -/
theorem powerOnResetGivesTheResetState : Obligations.PowerOnResetGivesTheResetState := by
  refine ⟨⟨?_, ?_, ?_, ?_, ?_, ?_, fun ch => ?_⟩, exec_powerOnReset⟩
  · exact ⟨rfl, rfl, rfl, rfl, rfl⟩
  · exact ⟨rfl, rfl⟩
  · exact ⟨rfl, rfl, rfl, rfl, rfl, rfl⟩
  · exact ⟨rfl, rfl⟩
  · exact ⟨rfl, rfl, rfl⟩
  · exact ⟨rfl, rfl⟩
  · rw [State.chan_reset]
    refine ⟨⟨rfl, rfl⟩, ?_, ?_, ?_, ?_, ?_, fun k => ⟨Counters.get_zero k, Counters.get_zero k⟩, ⟨rfl, rfl⟩, ⟨rfl, rfl⟩⟩
    · exact ⟨rfl, rfl, rfl, rfl, rfl⟩
    · exact ⟨rfl, rfl, rfl, rfl, rfl, rfl, rfl, rfl, rfl, rfl, rfl, rfl, rfl, rfl⟩
    · exact ⟨rfl, rfl, rfl, rfl, rfl, rfl, rfl, rfl, rfl⟩
    · exact ⟨rfl, rfl, rfl, rfl, rfl⟩
    · exact ⟨rfl, rfl, rfl, rfl⟩

end Sys2Proof.Machine
end

section
/-! PROOFS. The tick that a step on an empty queue takes (R25, R82, R130): each timer's tick by its rule, then the four channels together, then the
build's bound. -/
namespace Sys2Proof.Machine

open Sys2Proof

theorem step_of_empty {s : State} (h : s.pending = []) : step s = .next s.tick := by
  unfold step
  rw [h]

theorem State.tick_inReset {s : State} (h : s.win.inReset = true) : s.tick = s := if_pos h

theorem State.tick_taking {s : State} (h : s.taking) :
    s.tick = ((((s.silenceTick 0).silenceTick 1).silenceTick 2).silenceTick 3).drainTicks.buildTick :=
  if_neg (by rw [h]; nofun)

/-! ### One silence timer (R25, R26) -/

theorem State.silenceTick_stopped {s : State} {ch : ChanId} (h : (s.chan ch).al.silence = none) : s.silenceTick ch = s := by
  unfold State.silenceTick State.onLane Lane.silenceTick
  rw [State.lane_c, h]
  exact State.setLane_lane ..

theorem State.silenceTick_due {s : State} {ch : ChanId} {n : Nat} (h : (s.chan ch).al.silence = some n) (hn : n ≤ 1) :
    s.silenceTick ch = s.silenceExpiry ch := by
  unfold State.silenceTick State.silenceExpiry State.onLane Lane.silenceTick
  rw [State.lane_c, h]
  exact congrArg (s.setLane ch) (if_pos hn)

theorem State.silenceTick_running {s : State} {ch : ChanId} {n : Nat} (h : (s.chan ch).al.silence = some n) (hn : 2 ≤ n) :
    s.silenceTick ch = s.setChan ch { s.chan ch with al := { (s.chan ch).al with silence := some (n - 1) } } := by
  unfold State.silenceTick State.onLane Lane.silenceTick
  rw [State.lane_c, h]
  exact congrArg (s.setLane ch) (if_neg (by omega))

/-- The channel with its silence timer, where it runs, one tick on. -/
def Chan.silenceCounted (c : Chan) : Chan := { c with al := { c.al with silence := c.al.silence.map (· - 1) } }

/-- A timer that is not due counts, and a stopped one stays as it is. -/
theorem State.silenceTick_notDue {s : State} {ch : ChanId} (h : ∀ n, (s.chan ch).al.silence = some n → 2 ≤ n) :
    s.silenceTick ch = s.onChan ch Chan.silenceCounted := by
  unfold State.onChan Chan.silenceCounted
  cases hs : (s.chan ch).al.silence with
  | none =>
    rw [State.silenceTick_stopped hs, Option.map_none, ← hs]
    exact (State.setChan_chan s ch).symm
  | some n => rw [State.silenceTick_running hs (h n hs), Option.map_some]

/-! ### One drain timer (R130) -/

theorem State.drainTick_stopped {s : State} {ch : ChanId} (h : (s.chan ch).fr.drainTimer = none) : s.drainTick ch = s := by
  unfold State.drainTick
  rw [h]

theorem State.drainTick_due {s : State} {ch : ChanId} {n : Nat} (h : (s.chan ch).fr.drainTimer = some n) (hn : n ≤ 1) :
    s.drainTick ch = { s.drainExpiry ch (Config.txClockStopped s.fresh) with fresh := s.fresh + 1 } := by
  unfold State.drainTick
  rw [h]
  exact if_pos hn

theorem State.drainTick_running {s : State} {ch : ChanId} {n : Nat} (h : (s.chan ch).fr.drainTimer = some n) (hn : 2 ≤ n) :
    s.drainTick ch = s.setChan ch { s.chan ch with fr := { (s.chan ch).fr with drainTimer := some (n - 1) } } := by
  unfold State.drainTick
  rw [h]
  exact if_neg (by omega)

/-- The channel with its drain timer, where it runs, one tick on. -/
def Chan.drainCounted (c : Chan) : Chan := { c with fr := { c.fr with drainTimer := c.fr.drainTimer.map (· - 1) } }

theorem State.drainTick_notDue {s : State} {ch : ChanId} (h : ∀ n, (s.chan ch).fr.drainTimer = some n → 2 ≤ n) :
    s.drainTick ch = s.onChan ch Chan.drainCounted := by
  unfold State.onChan Chan.drainCounted
  cases hs : (s.chan ch).fr.drainTimer with
  | none =>
    rw [State.drainTick_stopped hs, Option.map_none, ← hs]
    exact (State.setChan_chan s ch).symm
  | some n => rw [State.drainTick_running hs (h n hs), Option.map_some]

/-! ### The four channels together -/

/-- An event taken by the channels in order, which changes each channel by `g` and rests on that channel alone, changes all four by `g`. -/
theorem State.fourChannels {f : State → ChanId → State} {g : Chan → Chan} {p : Chan → Prop}
    (one : ∀ (s : State) (ch : ChanId), p (s.chan ch) → f s ch = s.onChan ch g) {s : State} (h : ∀ ch, p (s.chan ch)) :
    f (f (f (f s 0) 1) 2) 3 = { s with chans := s.chans.map g } := by
  have kept {t : State} {ch k : ChanId} (hk : k ≠ ch) (ht : p (t.chan k)) : p ((t.onChan ch g).chan k) := by
    rw [State.chan_onChan_ne _ _ hk]
    exact ht
  rw [one s 0 (h 0), one _ 1 (kept (by decide) (h 1)), one _ 2 (kept (by decide) (kept (by decide) (h 2))),
    one _ 3 (kept (by decide) (kept (by decide) (kept (by decide) (h 3))))]
  rfl

theorem State.silenceTicks_notDue {s : State} (h : ∀ ch n, (s.chan ch).al.silence = some n → 2 ≤ n) :
    (((s.silenceTick 0).silenceTick 1).silenceTick 2).silenceTick 3 = { s with chans := s.chans.map Chan.silenceCounted } :=
  State.fourChannels (f := fun s ch => s.silenceTick ch) (p := fun c => ∀ n, c.al.silence = some n → 2 ≤ n)
    (fun _ _ => State.silenceTick_notDue) h

/-- The drain timers of all channels tick on every tenth tick, and the place in a 100 µs tick moves on. -/
theorem State.drainTicks_notDue {s : State} (h : ∀ ch n, (s.chan ch).fr.drainTimer = some n → 2 ≤ n) :
    s.drainTicks = { s with
      chans := if s.prescale = 9 then s.chans.map Chan.drainCounted else s.chans
      prescale := if s.prescale = 9 then 0 else s.prescale + 1 } := by
  have four := State.fourChannels (f := fun s ch => s.drainTick ch) (p := fun c => ∀ n, c.fr.drainTimer = some n → 2 ≤ n)
    (fun _ _ => State.drainTick_notDue) h
  unfold State.drainTicks
  by_cases h9 : s.prescale = 9
  · simp only [h9, if_true]
    exact congrArg (fun t : State => { t with prescale := 0 }) four
  · simp only [h9, if_false]

/-! ### The build's bound (R82) -/

theorem exec_poolBuildComplete (s : State) : exec .poolBuildComplete s = .next s.buildComplete := rfl

theorem State.buildTick_ready {s : State} (h : s.pool.state = .ready) : s.buildTick = s := if_neg (by rw [h]; nofun)

theorem State.buildTick_early {s : State} (h : s.pool.state = .init) (ht : s.pool.ticks < 3) :
    s.buildTick = { s with pool := { s.pool with ticks := s.pool.ticks + 1 } } :=
  (if_pos h).trans (if_neg (by omega))

theorem State.buildTick_late {s : State} (h : s.pool.state = .init) (ht : 3 ≤ s.pool.ticks) : s.buildTick = s.buildComplete :=
  (if_pos h).trans (if_pos ht)

theorem State.buildComplete_building {s : State} (ht : s.taking) (h : s.pool.state = .init) :
    s.buildComplete = { s with pool := s.pool.built, gflags := s.gflags.withInitdone } := if_pos ⟨h, ht⟩

theorem Pool.freeCount_built (p : Pool) : p.built.freeCount = 512 := by
  simp [Pool.freeCount, Pool.built, cellsUpTo]

/-- The build's tick changes the pool and the global flags only. -/
theorem State.buildTick_kept (s : State) : s.buildTick = { s with pool := s.buildTick.pool, gflags := s.buildTick.gflags } := by
  unfold State.buildTick State.buildComplete
  split_ifs <;> rfl

/-! ### The statement -/

/-- One channel's part of the tick, from state `a` to state `b`: the silence timer's expiry, or its count. -/
theorem State.silenceTick_spec (ch : ChanId) (a : State) :
    ((a.chan ch).al.silence = none → a.silenceTick ch = a) ∧
    ∀ n, (a.chan ch).al.silence = some n →
      (n ≤ 1 → exec (.silenceTimerExpiry ch) a = .next (a.silenceTick ch)) ∧
      (2 ≤ n → a.silenceTick ch = a.setChan ch { a.chan ch with al := { (a.chan ch).al with silence := some (n - 1) } }) := by
  refine ⟨State.silenceTick_stopped, fun n h => ⟨fun hn => ?_, State.silenceTick_running h⟩⟩
  rw [exec_silenceTimerExpiry, State.silenceTick_due h hn]

/-- Likewise the drain timer's, with the free value that an expiry takes. -/
theorem State.drainTick_spec (ch : ChanId) (a : State) :
    ((a.chan ch).fr.drainTimer = none → a.drainTick ch = a) ∧
    ∀ n, (a.chan ch).fr.drainTimer = some n →
      (n ≤ 1 → ∃ u clockStopped, exec (.drainTimerExpiry ch clockStopped) a = .next u
        ∧ a.drainTick ch = { u with fresh := (a.drainTick ch).fresh }) ∧
      (2 ≤ n → a.drainTick ch =
        a.setChan ch { a.chan ch with fr := { (a.chan ch).fr with drainTimer := some (n - 1) } }) := by
  refine ⟨State.drainTick_stopped, fun n h => ⟨fun hn => ?_, State.drainTick_running h⟩⟩
  refine ⟨a.drainExpiry ch (Config.txClockStopped a.fresh), Config.txClockStopped a.fresh, rfl, ?_⟩
  rw [State.drainTick_due h hn]

/-- The state with every running timer one tick on: the silence timers, and on the tenth tick the drain timers. -/
def State.counted (s : State) : State :=
  { s with
    chans := if s.prescale = 9 then (s.chans.map Chan.silenceCounted).map Chan.drainCounted else s.chans.map Chan.silenceCounted
    prescale := if s.prescale = 9 then 0 else s.prescale + 1 }

theorem State.chan_counted (s : State) (ch : ChanId) :
    s.counted.chan ch = { s.chan ch with
      al := { (s.chan ch).al with silence := (s.chan ch).al.silence.map (· - 1) }
      fr := { (s.chan ch).fr with drainTimer :=
        if s.prescale = 9 then (s.chan ch).fr.drainTimer.map (· - 1) else (s.chan ch).fr.drainTimer } } := by
  unfold State.counted State.chan
  split
  · rw [Quad.get_map, Quad.get_map]
    rfl
  · rw [Quad.get_map]
    rfl

/-- With no timer due the tick counts, and only the build may be due. -/
theorem State.tick_notDue {s : State} (ht : s.taking) (hs : ∀ ch n, (s.chan ch).al.silence = some n → 2 ≤ n)
    (hd : ∀ ch n, (s.chan ch).fr.drainTimer = some n → 2 ≤ n) : s.tick = s.counted.buildTick := by
  have hd' : ∀ ch n, (State.chan { s with chans := s.chans.map Chan.silenceCounted } ch).fr.drainTimer = some n → 2 ≤ n := by
    intro ch n h
    rw [State.chan, Quad.get_map] at h
    exact hd ch n h
  rw [State.tick_taking ht, State.silenceTicks_notDue hs, State.drainTicks_notDue hd']
  rfl

/-- Settles O2: under -RESET nothing, with no timer due the counts alone, and in every case the ticks of the timers in order. -/
theorem emptyQueueStepIsOneTick : Obligations.EmptyQueueStepIsOneTick := by
  intro s hq
  rw [step_of_empty hq]
  refine ⟨fun hr => by rw [State.tick_inReset hr], fun ht hs hd => ?_, ?_⟩
  · rw [State.tick_notDue ht hs hd]
    have taking : s.counted.taking := ht
    refine ⟨_, rfl, ?_⟩
    rw [State.buildTick_kept]
    refine ⟨rfl, rfl, rfl, rfl, rfl, rfl, hq, s.chan_counted, rfl, fun hr => ?_, fun hi he => ?_, fun hi hl => ?_⟩
    · rw [State.buildTick_ready (s := s.counted) hr]
      exact ⟨rfl, rfl⟩
    · rw [State.buildTick_early (s := s.counted) hi he]
      exact ⟨rfl, rfl⟩
    · rw [State.buildTick_late (s := s.counted) hi hl, State.buildComplete_building taking hi]
      exact ⟨rfl, Pool.freeCount_built s.pool, rfl⟩
  · intro silence drain ht
    rw [State.tick_taking ht]
    generalize hd : (((s.silenceTick 0).silenceTick 1).silenceTick 2).silenceTick 3 = d
    have prescale : d.prescale = s.prescale := by rw [← hd]; rfl
    refine ⟨s.silenceTick 0, (s.silenceTick 0).silenceTick 1, ((s.silenceTick 0).silenceTick 1).silenceTick 2, d,
      d.drainTick 0, (d.drainTick 0).drainTick 1, ((d.drainTick 0).drainTick 1).drainTick 2,
      (((d.drainTick 0).drainTick 1).drainTick 2).drainTick 3, d.drainTicks, d.drainTicks.buildTick,
      State.silenceTick_spec .., State.silenceTick_spec .., State.silenceTick_spec .., hd ▸ State.silenceTick_spec ..,
      fun h9 => ⟨State.drainTick_spec .., State.drainTick_spec .., State.drainTick_spec .., State.drainTick_spec .., ?_⟩, fun h9 => ?_,
      State.buildTick_ready, State.buildTick_early, fun hi hl => ?_, rfl⟩
    · exact if_pos (prescale.trans h9)
    · rw [← prescale] at h9 ⊢
      exact if_neg h9
    · rw [exec_poolBuildComplete, State.buildTick_late hi hl]

end Sys2Proof.Machine
end

section
/-! PROOFS. The bounds (State.InBounds) as an invariant of the whole part (R38, R49, R86, R93, R97, R111, R117, R146, R149, R150): first the writes of
the configuration and global entries, which the conserving operations leave out, then every operation of a step, then the step. -/
namespace Sys2Proof.Machine

open Sys2Proof

/-! ### The tables of entries -/

@[simp] theorem ChanCfg.get_put_self (g : ChanCfg) (e : Entry) (v : Word) : (g.put e v).get e = v := by cases e <;> rfl

theorem ChanCfg.get_put_ne (g : ChanCfg) {e f : Entry} (v : Word) (h : f ≠ e) : (g.put e v).get f = g.get f := by
  cases e <;> cases f <;> first | rfl | exact absurd rfl h

@[simp] theorem Globals.get_put_self (g : Globals) (e : GEntry) (v : Word) : (g.put e v).get e = v := by cases e <;> rfl

theorem Globals.get_put_ne (g : Globals) {e f : GEntry} (v : Word) (h : f ≠ e) : (g.put e v).get f = g.get f := by
  cases e <;> cases f <;> first | rfl | exact absurd rfl h

/-- R146: the defaults are in their ranges. -/
theorem ChanCfg.inRange_default : ({} : ChanCfg).InRange :=
  ⟨fun e => by cases e <;> decide, by decide⟩

theorem Globals.inRange_default : ({} : Globals).InRange := fun e => by cases e <;> decide

theorem Globals.InRange.put {g : Globals} (h : g.InRange) {e : GEntry} {v : Word} (hv : e.inRange v = true) : (g.put e v).InRange := by
  intro f
  by_cases hf : f = e
  · rw [hf, Globals.get_put_self]
    exact hv
  · rw [Globals.get_put_ne g v hf]
    exact h f

/-- R147: what the tests of a write tell of its value. -/
structure Chan.Accepted (e : Entry) (v : Word) (c : Chan) : Prop where
  range : e.inRange v = true
  unlocked : e.locked = true → c.admin = .disabled
  rxQuota : e = .rxquota → c.rxHolding ≤ v.toNat
  txQuota : e = .txquota → c.txHolding ≤ v.toNat
  dset : e = .dset → c.cfg.dclr.toNat < v.toNat
  dclr : e = .dclr → v.toNat < c.cfg.dset.toNat

theorem Chan.accepted_of_acceptsEntry {e : Entry} {v : Word} {c : Chan} (h : c.acceptsEntry e v = true) : c.Accepted e v := by
  simp only [Chan.acceptsEntry, Bool.and_eq_true, Bool.or_eq_true, bne_iff_ne, ne_eq, decide_eq_true_eq, Bool.not_eq_true',
    beq_iff_eq] at h
  obtain ⟨⟨⟨⟨⟨range, unlocked⟩, rxQuota⟩, txQuota⟩, dset⟩, dclr⟩ := h
  refine ⟨range, fun he => unlocked.resolve_left (by simp [he]), ?_, ?_, ?_, ?_⟩
  · exact fun he => rxQuota.resolve_left (not_not_intro he)
  · exact fun he => txQuota.resolve_left (not_not_intro he)
  · exact fun he => dset.resolve_left (not_not_intro he)
  · exact fun he => dclr.resolve_left (not_not_intro he)

/-- R146 to R149: an accepted write keeps every entry in its range, and DSET above DCLR. -/
theorem Chan.Accepted.cfg_inRange {e : Entry} {v : Word} {c : Chan} (h : c.Accepted e v) (g : c.cfg.InRange) : (c.cfg.put e v).InRange := by
  refine ⟨fun f => ?_, ?_⟩
  · by_cases hf : f = e
    · rw [hf, ChanCfg.get_put_self]
      exact h.range
    · rw [ChanCfg.get_put_ne _ v hf]
      exact g.ranges f
  · show ((c.cfg.put e v).get .dclr).toNat < ((c.cfg.put e v).get .dset).toNat
    by_cases hs : e = .dset
    · rw [hs, ChanCfg.get_put_self, ChanCfg.get_put_ne _ v (show Entry.dclr ≠ .dset from nofun)]
      exact h.dset hs
    by_cases hc : e = .dclr
    · rw [hc, ChanCfg.get_put_self, ChanCfg.get_put_ne _ v (show Entry.dset ≠ .dclr from nofun)]
      exact h.dclr hc
    · rw [ChanCfg.get_put_ne _ v (Ne.symm hs), ChanCfg.get_put_ne _ v (Ne.symm hc)]
      exact g.pair

/-- In a DISABLED channel no value is being filtered: the aligner is OFF, so the monitor is WAITING. -/
theorem Chan.ModesAgree.disabled_counts {c : Chan} (a : c.ModesAgree) (h : c.admin = .disabled) :
    c.mon.stat.count = 0 ∧ c.mon.label.count = 0 := by
  have off : c.al.state = .off := a.off_iff.mpr (by rw [h]; nofun)
  obtain ⟨waiting, -⟩ := a.idle (by rw [off]; nofun)
  obtain ⟨-, stat, label⟩ := a.waiting_clear waiting
  rw [stat, label]
  exact ⟨rfl, rfl⟩

/-- An accepted write keeps the channel's bounds: the quotas are not below the holdings (R148), and PERSIST is locked while its counts run. -/
theorem Chan.Accepted.bounds {e : Entry} {v : Word} {c : Chan} (h : c.Accepted e v) (a : c.ModesAgree) (b : c.InBounds) :
    ({ c with cfg := c.cfg.put e v } : Chan).InBounds := by
  refine ⟨h.cfg_inRange b.cfg, b.rq, b.tq, b.ring, b.held, b.fill, ?_, ?_, ?_⟩
  · show c.rxHolding ≤ ((c.cfg.put e v).get .rxquota).toNat
    by_cases he : e = .rxquota
    · rw [he, ChanCfg.get_put_self]
      exact h.rxQuota he
    · rw [ChanCfg.get_put_ne _ v (Ne.symm he)]
      exact b.rxQuota
  · show c.txHolding ≤ ((c.cfg.put e v).get .txquota).toNat
    by_cases he : e = .txquota
    · rw [he, ChanCfg.get_put_self]
      exact h.txQuota he
    · rw [ChanCfg.get_put_ne _ v (Ne.symm he)]
      exact b.txQuota
  · show c.mon.stat.count ≤ ((c.cfg.put e v).get .persist).toNat ∧ c.mon.label.count ≤ ((c.cfg.put e v).get .persist).toNat
    by_cases he : e = .persist
    · obtain ⟨stat, label⟩ := a.disabled_counts (h.unlocked (by rw [he]; rfl))
      rw [stat, label]
      exact ⟨Nat.zero_le _, Nat.zero_le _⟩
    · rw [ChanCfg.get_put_ne _ v (Ne.symm he)]
      exact b.persist

/-- R41 touches a condition and ALARM only. -/
theorem Chan.labelmisReevaluated_stores (c : Chan) : c.SameStores c.labelmisReevaluated := by
  unfold Chan.labelmisReevaluated
  dsimp only
  split <;> exact .of_monitor rfl id

/-- Counters, event flags and masks are no part of what is stored. -/
theorem Chan.observed_same (c : Chan) (live snap : Counters) (flags mask : CFlags) :
    c.SameStores { c with live := live, snap := snap, flags := flags, mask := mask } :=
  ⟨rfl, rfl, id, rfl, rfl, rfl, rfl, ⟨rfl, id⟩, rfl, rfl, id⟩

/-- A channel that holds nothing is within its bounds when its entries are in their ranges. -/
theorem ChanCfg.InRange.idle {g : ChanCfg} (h : g.InRange) (mask : CFlags) : ({ cfg := g, mask := mask } : Chan).InBounds :=
  ⟨h, Nat.zero_le _, Nat.zero_le _, Nat.zero_le _, nofun, nofun, Nat.zero_le _, Nat.zero_le _, Nat.zero_le _, Nat.zero_le _⟩

/-! ### Rules for changes of the state -/

theorem State.InBounds.setChan {s : State} (h : s.InBounds) (ch : ChanId) {c : Chan} (b : c.InBounds) : (s.setChan ch c).InBounds := by
  refine ⟨fun k => ?_, h.globals⟩
  by_cases hk : k = ch
  · rw [hk, State.chan_setChan_self]
    exact b
  · rw [State.chan_setChan_ne s c hk]
    exact h.chans k

theorem State.InBounds.setChan_same {s : State} (h : s.InBounds) {ch : ChanId} {c : Chan} (same : (s.chan ch).SameStores c) :
    (s.setChan ch c).InBounds :=
  h.setChan ch (same.bounds (h.chans ch))

theorem State.InBounds.answer {s : State} (h : s.InBounds) (st : CStat) : (s.answer st).InBounds := h.congr rfl rfl

theorem State.InBounds.answerWith {s : State} (h : s.InBounds) (r0 r1 : Word) : (s.answerWith r0 r1).InBounds := h.congr rfl rfl

/-! ### Resets and the pool's build -/

theorem State.powerOnReset_bounds (s : State) : s.powerOnReset.InBounds := by
  refine ⟨fun ch => ?_, Globals.inRange_default⟩
  have reset : s.powerOnReset.chan ch = {} := Quad.get_const ..
  rw [reset]
  exact ChanCfg.inRange_default.idle {}

/-- R172: a soft reset keeps the configuration, which is all that the bounds of an empty channel rest on. -/
theorem State.softReset_bounds {s : State} (h : s.InBounds) : s.softReset.InBounds := by
  refine ⟨fun ch => ?_, h.globals⟩
  have reset : s.softReset.chan ch = (s.chan ch).softReset := Quad.get_map ..
  rw [reset]
  exact (h.chans ch).cfg.idle _

theorem State.buildComplete_bounds {s : State} (h : s.InBounds) : s.buildComplete.InBounds := by
  unfold State.buildComplete
  split
  · exact h.congr rfl rfl
  · exact h

/-! ### The data ports and the indirect space -/

theorem State.advanceHeld_bounds {s : State} (h : s.InBounds) {n : Nat} {p : Held} (hp : s.paged.held = some p)
    (hn : p.cursor + n ≤ p.desc.storelen) : (s.advanceHeld n).InBounds :=
  (h.lane s.win.page (Lane.heldMoved_conserves n hp hn)).congr rfl rfl

theorem State.rxdataWord_bounds {s : State} (h : s.InBounds) : s.rxdataWord.2.InBounds := by
  unfold State.rxdataWord
  split
  · exact h.congr rfl rfl
  · rename_i p hp
    split_ifs with two one
    · exact State.advanceHeld_bounds h hp two
    · exact State.advanceHeld_bounds h hp (Nat.le_of_eq one)
    · exact h.congr rfl rfl

theorem State.rxdataByte_bounds {s : State} (h : s.InBounds) : s.rxdataByte.2.InBounds := by
  unfold State.rxdataByte
  split
  · exact h.congr rfl rfl
  · rename_i p hp
    split_ifs with one
    · exact State.advanceHeld_bounds h hp one
    · exact h.congr rfl rfl

theorem State.fillByte_bounds {s : State} (h : s.InBounds) (v : Byte) : (s.fillByte v).InBounds := by
  unfold State.fillByte
  split
  · exact h
  · rename_i f hf
    split_ifs with room
    · exact (h.lane s.win.page (Lane.filled_conserves v hf room)).congr rfl rfl
    · exact h

theorem State.txdataWord_bounds {s : State} (h : s.InBounds) (v : Word) : (s.txdataWord v).InBounds := by
  unfold State.txdataWord
  split_ifs
  · exact State.fillByte_bounds (State.fillByte_bounds h _) _
  · exact (State.fillByte_bounds h _).congr rfl rfl
  · exact h.congr rfl rfl

theorem State.txdataByte_bounds {s : State} (h : s.InBounds) (v : Byte) : (s.txdataByte v).InBounds := by
  unfold State.txdataByte
  split_ifs
  · exact State.fillByte_bounds h _
  · exact h.congr rfl rfl

theorem State.idataRead_bounds {s : State} (h : s.InBounds) : s.idataRead.2.InBounds := by
  have seen : s.buildSeen.InBounds := by
    unfold State.buildSeen
    split
    · exact h.congr rfl rfl
    · exact h
  exact seen.congr rfl rfl

theorem State.configWrite_bounds {s : State} (m : s.ModesAgree) (h : s.InBounds) (e : Entry) (v : Word) : (s.configWrite e v).InBounds := by
  unfold State.configWrite
  split
  · rename_i accepted
    have put := (Chan.accepted_of_acceptsEntry accepted).bounds (m.chans s.win.page) (h.chans s.win.page)
    refine h.setChan s.win.page ?_
    dsimp only
    split
    · exact (Chan.labelmisReevaluated_stores _).bounds put
    · exact put
  · exact h.congr rfl rfl

theorem State.globalWrite_bounds {s : State} (h : s.InBounds) (e : GEntry) (v : Word) : (s.globalWrite e v).InBounds := by
  unfold State.globalWrite
  split
  · rename_i range
    exact ⟨h.chans, h.globals.put range⟩
  · exact h.congr rfl rfl

theorem State.idataWrite_bounds {s : State} (m : s.ModesAgree) (h : s.InBounds) (v : Word) : (s.idataWrite v).InBounds := by
  have next {t : State} (ht : t.InBounds) : t.nextIdx.InBounds := ht.congr rfl rfl
  unfold State.idataWrite
  split
  · exact next (State.configWrite_bounds m h _ v)
  · split
    · exact next (State.globalWrite_bounds h _ v)
    · exact next h

/-! ### Commands -/

/-- CH_START is taken in DISABLED only, where the framer is STOPPED with no packet in flight. -/
theorem State.takeChStart_bounds {s : State} (m : s.ModesAgree) (h : s.InBounds) (p : ChanId) : (s.takeChStart p).InBounds := by
  have a := m.chans p
  unfold State.takeChStart
  split
  · rename_i disabled
    have stopped : (s.chan p).fr.running = false := Bool.eq_false_iff.mpr fun run => a.running_iff.mp run disabled
    obtain ⟨-, inflight⟩ := a.stopped_none stopped
    exact (h.lane p (Lane.chStart_conserves s.globals (l := s.lane p) inflight)).answer .ok
  · exact h.answer _

/-- The admin state and the drain timer are no part of what is stored. -/
theorem Chan.drainTimed_same (c : Chan) (a : Admin) (n : Option Nat) :
    c.SameStores { c with admin := a, fr := { c.fr with drainTimer := n } } :=
  .of_framer_congr rfl rfl rfl rfl rfl

theorem State.takeChStop_bounds {s : State} (h : s.InBounds) (p : ChanId) : (s.takeChStop p).InBounds := by
  have receive : (s.onLane p Lane.alignerStop).InBounds := h.lane p (Lane.alignerStop_conserves _)
  unfold State.takeChStop
  split
  · dsimp only
    split
    · exact State.InBounds.congr (receive.setChan_same (Chan.stopped_same _ .disabled)) rfl rfl
    · exact State.InBounds.congr (receive.setChan_same (Chan.drainTimed_same _ .draining (some s.globals.tdrain.toNat))) rfl rfl
  · exact h.answer _

theorem State.takeChReset_bounds {s : State} (h : s.InBounds) (p : ChanId) : (s.takeChReset p).InBounds :=
  State.InBounds.answerWith (h.lane p (Lane.channelReset_conserves _)) _ _

theorem State.takeChFlush_bounds {s : State} (h : s.InBounds) (p : ChanId) : (s.takeChFlush p).InBounds := by
  unfold State.takeChFlush
  dsimp only
  split
  · exact State.InBounds.answerWith (h.lane p (Lane.chFlush_conserves _)) _ _
  · exact h.answer _

theorem State.takeRxOpen_bounds {s : State} (h : s.InBounds) (p : ChanId) : (s.takeRxOpen p).InBounds := by
  unfold State.takeRxOpen
  dsimp only
  split
  · exact h.answer _
  · rename_i notHeld
    split
    · exact h.answer _
    · rename_i hq
      exact State.InBounds.answerWith (h.lane p (Lane.rxOpen_conserves (by simpa using notHeld) hq)) _ _

theorem State.takeRxRelease_bounds {s : State} (h : s.InBounds) (p : ChanId) : (s.takeRxRelease p).InBounds := by
  unfold State.takeRxRelease
  split
  · exact h.answer _
  · rename_i held
    exact State.InBounds.answerWith (h.lane p (Lane.rxRelease_conserves held)) _ _

theorem State.takeRxSkip_bounds {s : State} (h : s.InBounds) (p : ChanId) : (s.takeRxSkip p).InBounds := by
  unfold State.takeRxSkip
  split
  · exact h.answer _
  · rename_i hq
    exact State.InBounds.answerWith (h.lane p (Lane.rxSkip_conserves hq)) _ _

theorem State.takeTxAlloc_bounds {s : State} (h : s.InBounds) (p : ChanId) : (s.takeTxAlloc p).InBounds := by
  unfold State.takeTxAlloc
  dsimp only
  split_ifs with badarg opened claim
  · exact h.answer _
  · exact h.answer _
  · have alloc := Lane.txAlloc_conserves s.globals.poolthr (l := s.lane p) (by omega) (by simpa using opened) claim
    exact State.InBounds.answerWith (h.lane p alloc) _ _
  · exact h.answer _

theorem State.takeTxSubmit_bounds {s : State} (h : s.InBounds) (p : ChanId) : (s.takeTxSubmit p).InBounds := by
  unfold State.takeTxSubmit
  dsimp only
  split
  · exact h.answer _
  · rename_i f hf
    split_ifs with short full
    · exact h.answer _
    · exact h.answer _
    · exact State.InBounds.answerWith (h.lane p (Lane.txSubmit_conserves _ hf (Nat.lt_of_not_le full))) _ _

theorem State.takeTxCancel_bounds {s : State} (h : s.InBounds) (p : ChanId) : (s.takeTxCancel p).InBounds := by
  unfold State.takeTxCancel
  split
  · exact h.answer _
  · rename_i hf
    exact State.InBounds.answerWith (h.lane p (Lane.txCancel_conserves hf)) _ _

theorem State.takeOhPop_bounds {s : State} (h : s.InBounds) (p : ChanId) : (s.takeOhPop p).InBounds := by
  unfold State.takeOhPop
  dsimp only
  split
  · exact h.answer _
  · rename_i ring
    exact State.InBounds.answerWith (h.lane p (Lane.ohPop_conserves ring)) _ _

theorem State.takeCntSnap_bounds {s : State} (h : s.InBounds) (p : ChanId) : (s.takeCntSnap p).InBounds :=
  State.InBounds.answer (h.setChan_same (Chan.observed_same _ {} (s.chan p).live (s.chan p).flags (s.chan p).mask)) _

theorem State.take_bounds {s : State} (m : s.ModesAgree) (h : s.InBounds) (k : Cmd) : (s.take k).InBounds := by
  cases k with
  | chStart => exact State.takeChStart_bounds m h _
  | chStop => exact State.takeChStop_bounds h _
  | chReset => exact State.takeChReset_bounds h _
  | chFlush => exact State.takeChFlush_bounds h _
  | rxOpen => exact State.takeRxOpen_bounds h _
  | rxRelease => exact State.takeRxRelease_bounds h _
  | rxSkip => exact State.takeRxSkip_bounds h _
  | txAlloc => exact State.takeTxAlloc_bounds h _
  | txSubmit => exact State.takeTxSubmit_bounds h _
  | txCancel => exact State.takeTxCancel_bounds h _
  | ohPop => exact State.takeOhPop_bounds h _
  | cntSnap => exact State.takeCntSnap_bounds h _

theorem State.cmdWrite_bounds {s : State} (m : s.ModesAgree) (h : s.InBounds) (code : Byte) : (s.cmdWrite code).InBounds := by
  unfold State.cmdWrite
  split_ifs
  · exact h.answer _
  · exact h.congr rfl rfl
  · split
    · exact h.answer _
    · exact State.take_bounds m h _

/-! ### Words of the bus window -/

theorem State.pageWrite_bounds {s : State} (h : s.InBounds) (v : Word) : (s.pageWrite v).InBounds := by
  unfold State.pageWrite
  split <;> exact h.congr rfl rfl

theorem State.gctlWrite_bounds {s : State} (h : s.InBounds) (v : Word) : (s.gctlWrite v).InBounds := by
  unfold State.gctlWrite
  split
  · exact State.softReset_bounds h
  · exact h

theorem State.writeWord_bounds {s : State} (m : s.ModesAgree) (h : s.InBounds) (word : WordNo) (v : Word) : (s.writeWord word v).InBounds := by
  unfold State.writeWord
  split
  · exact State.gctlWrite_bounds h v
  · exact h.congr rfl rfl
  · exact h.congr rfl rfl
  · exact State.pageWrite_bounds h v
  · exact State.cmdWrite_bounds m h _
  · exact h.congr rfl rfl
  · exact h.congr rfl rfl
  · exact h.congr rfl rfl
  · exact State.idataWrite_bounds m h v
  · exact State.txdataWord_bounds h v
  · exact h.setChan_same (Chan.observed_same ..)
  · exact h.setChan_same (Chan.observed_same ..)
  · exact h

theorem State.readWord_bounds {s : State} (h : s.InBounds) (word : WordNo) : (s.readWord word).2.InBounds := by
  unfold State.readWord
  split
  case h_10 => exact State.idataRead_bounds h
  case h_11 => exact State.rxdataWord_bounds h
  all_goals exact h

/-! ### Links and timers -/

theorem State.rxEdge_bounds {s : State} (h : s.InBounds) (ch : ChanId) (b : Bool) : (s.rxEdge ch b).InBounds :=
  h.lane ch (Lane.risingEdge_conserves ..)

theorem State.silenceExpiry_bounds {s : State} (h : s.InBounds) (ch : ChanId) : (s.silenceExpiry ch).InBounds :=
  h.lane ch (Lane.silenceExpiry_conserves _)

theorem State.silenceTick_bounds {s : State} (h : s.InBounds) (ch : ChanId) : (s.silenceTick ch).InBounds :=
  h.lane ch (Lane.silenceTick_conserves _)

theorem State.txEdge_bounds {s : State} (h : s.InBounds) (ch : ChanId) : (s.txEdge ch).InBounds := by
  have edge : (s.onLane ch Lane.fallingEdge).InBounds := h.lane ch (Lane.fallingEdge_conserves _)
  unfold State.txEdge
  dsimp only
  split
  · exact State.InBounds.congr (edge.setChan_same (Chan.stopped_same _ .disabled)) rfl rfl
  · exact edge

theorem State.drainExpiry_bounds {s : State} (h : s.InBounds) (ch : ChanId) (clockStopped : Bool) :
    (s.drainExpiry ch clockStopped).InBounds := by
  unfold State.drainExpiry
  split
  · exact (h.lane ch (Lane.abandonDrain_conserves clockStopped _)).congr rfl rfl
  · exact h

theorem State.drainTick_bounds {s : State} (h : s.InBounds) (ch : ChanId) : (s.drainTick ch).InBounds := by
  unfold State.drainTick
  split
  · exact h
  · split
    · exact (State.drainExpiry_bounds h ch _).congr rfl rfl
    · exact h.setChan_same (Chan.drainTimed_same _ _ _)

theorem State.buildTick_bounds {s : State} (h : s.InBounds) : s.buildTick.InBounds := by
  rw [State.buildTick_kept]
  exact h.congr rfl rfl

/-! ### The step -/

/-- The modes come along: CH_START and a write of PERSIST keep the bounds only where they agree. -/
theorem State.inBounds_keptByOperations : KeptByOperations fun s => s.ModesAgree ∧ s.InBounds where
  window s w h := ⟨State.modesAgree_keptByOperations.window s w h.1, h.2.congr rfl rfl⟩
  powerOn s _ := ⟨s.powerOnReset_modes, s.powerOnReset_bounds⟩
  build _ h := ⟨State.buildComplete_modes h.1, State.buildComplete_bounds h.2⟩
  writes _ word v h := ⟨State.writeWord_modes h.1 word v, State.writeWord_bounds h.1 h.2 word v⟩
  writesByte _ v h := ⟨State.txdataByte_modes h.1 v, State.txdataByte_bounds h.2 v⟩
  reads _ word h := ⟨State.readWord_modes h.1 word, State.readWord_bounds h.2 word⟩
  readsByte _ h := ⟨State.rxdataByte_modes h.1, State.rxdataByte_bounds h.2⟩
  rising _ ch b h := ⟨State.rxEdge_modes h.1 ch b, State.rxEdge_bounds h.2 ch b⟩
  falling _ ch h := ⟨State.txEdge_modes h.1 ch, State.txEdge_bounds h.2 ch⟩
  silence _ ch h := ⟨State.silenceExpiry_modes h.1 ch, State.silenceExpiry_bounds h.2 ch⟩
  counts s ch snap live h := ⟨State.modesAgree_keptByOperations.counts s ch snap live h.1, h.2.setChan_same (Chan.observed_same ..)⟩
  drain _ ch stopped h := ⟨State.drainExpiry_modes h.1 ch stopped, State.drainExpiry_bounds h.2 ch stopped⟩

theorem State.tick_bounds {s : State} (h : s.InBounds) : s.tick.InBounds :=
  State.tick_kept (P := State.InBounds) (fun _ ch h => State.silenceTick_bounds h ch) (fun _ ch h => State.drainTick_bounds h ch)
    (fun _ h => State.buildTick_bounds h) (fun _ _ h => h.congr rfl rfl) h

/-- Settles O58: every operation of a step keeps the bounds of a part whose modes agree, and so does the tick of an empty queue. -/
theorem stepKeepsTheBounds : Obligations.StepKeepsTheBounds := by
  intro s t modes bounds run
  have kept := State.inBounds_keptByOperations.step (fun _ _ h => ⟨h.1.congr rfl rfl rfl, h.2.congr rfl rfl⟩)
    (fun _ h => ⟨State.tick_modes h.1, State.tick_bounds h.2⟩) ⟨modes, bounds⟩ run
  exact kept.2

end Sys2Proof.Machine
end

section
/-! PROOFS. The record ring and the FCNT byte (R34, R48, R50): OH_POP's two outcomes, and the byte that fills the entry record. -/
namespace Sys2Proof.Machine

open Sys2Proof

/-! ### OH_POP -/

theorem exec_ohPop (hi : Byte) (s : State) : exec (.ohPop hi) s = .next (s.cmdAccess 0x30 hi) := rfl

theorem State.takeOhPop_empty {s : State} {p : ChanId} (h : (s.chan p).mon.ring = []) : s.takeOhPop p = s.answer .empty := by
  unfold State.takeOhPop
  dsimp only
  rw [h]

theorem State.takeOhPop_head {s : State} {p : ChanId} {r : OhRecord} {rest : List OhRecord} (h : (s.chan p).mon.ring = r :: rest) :
    s.takeOhPop p =
      (s.setChan p { s.chan p with mon := { (s.chan p).mon with ring := rest } }).answerWith r.seq (natWord rest.length) := by
  unfold State.takeOhPop
  dsimp only
  rw [h]

/-- Settles O30: the command is taken on the paged channel, and its ring is empty or has a head. -/
theorem ohPopRemovesTheHeadRecord : Obligations.OhPopRemovesTheHeadRecord := by
  intro s hi taken p c
  have popped : exec (.ohPop hi) s = .next (s.takeOhPop p).acked := by
    rw [exec_ohPop, State.cmdAccess_taken hi .ohPop taken rfl]
    rfl
  rw [popped]
  refine ⟨fun empty => ?_, fun r rest head => ?_⟩
  · rw [State.takeOhPop_empty empty]
    rfl
  · rw [State.takeOhPop_head head]
    rfl

/-! ### The FCNT byte -/

theorem exec_fcntByte (ch : ChanId) (b : Bool) (s : State) : exec (.fcntByte ch b) s = .next (s.rxEdge ch b) := rfl

/-- The edge that completes the byte at offset 2 (R34). -/
theorem State.rxEdge_fcntByte {s : State} {ch : ChanId} {b x : Bool} {v : Byte} (h : (s.chan ch).byteArrives b x 2 v)
    (hf : 3 < (s.chan ch).cfg.flen.toNat) :
    s.rxEdge ch b = s.setChan ch (((s.chan ch).withByte s.globals x v).monitorFcnt v) :=
  State.rxEdge_byte h hf

/-- Settles O37: the edge is the FCNT byte's own event, which fills the entry record when the entry-fill flag is set. -/
theorem fcntByteIsKeptAndFillsTheEntryRecord : Obligations.FcntByteIsKeptAndFillsTheEntryRecord := by
  intro s ch b x v c w arrives hf
  rw [exec_fcntByte, State.rxEdge_fcntByte arrives hf]
  refine ⟨if c.mon.entryFill then fillEntry c.mon.entrySeq v c.mon.ring else c.mon.ring, none, rfl, fun clear => ?_, fun set => ?_⟩
  · exact if_neg (by rw [clear]; nofun)
  · exact if_pos set

end Sys2Proof.Machine
end

section
/-! PROOFS. The overhead close (R35 to R43, R46, R47, R56, R71): the monitor's judgement of the frame, then what the delineator is told of CARRIER. -/
namespace Sys2Proof.Machine

open Sys2Proof

theorem exec_overheadClose (ch : ChanId) (b : Bool) (s : State) : exec (.overheadClose ch b) s = .next (s.rxEdge ch b) := rfl

/-- The edge that completes the byte at offset 7 (R35). -/
theorem State.rxEdge_overheadClose {s : State} {ch : ChanId} {b x : Bool} {v : Byte} (h : (s.chan ch).byteArrives b x 7 v)
    (hf : 8 < (s.chan ch).cfg.flen.toNat) :
    s.rxEdge ch b = s.onLane ch fun l => (l.mapChan (Chan.withByte s.globals x v)).overheadClose v :=
  State.rxEdge_byte h hf

/-! ### The tests and filters of a frame -/

theorem bne_eq_decide_ne {α : Type} [BEq α] [LawfulBEq α] [DecidableEq α] (a b : α) : (a != b) = decide (a ≠ b) := by
  rw [Bool.eq_iff_iff, bne_iff_ne, decide_eq_true_iff]

/-- R36. -/
theorem Monitor.fcntJumped_eq (m : Monitor) : m.fcntJumped = (!m.firstFrame && decide (m.frameFcnt ≠ m.lastFcnt + 1)) := by
  rw [Monitor.fcntJumped, bne_eq_decide_ne]

/-- R37. -/
theorem Monitor.checkFailed_eq (v : Byte) (m : Monitor) : m.checkFailed v = (!m.firstFrame && decide (v ≠ m.prevXor)) := by
  rw [Monitor.checkFailed, bne_eq_decide_ne]

/-- R38: how many frames in a row the value `v` has come, up to the filter's length. -/
def Persist.run {α : Type} [DecidableEq α] (lim : Nat) (v : α) (p : Persist α) : Nat :=
  if p.cand = some v then min lim (p.count + 1) else 1

/-- R38 and R39: below its length the filter counts, and at its length it accepts. -/
theorem Persist.step_eq {α : Type} [DecidableEq α] {lim : Nat} {p : Persist α} (v : α) (h : p.count ≤ lim) :
    p.step lim v = ⟨some v, p.run lim v, if p.run lim v = lim then some v else p.accepted⟩ := by
  have count : (if p.cand = some v then (if p.count = lim then p.count else p.count + 1) else 1) = p.run lim v := by
    unfold Persist.run
    split_ifs <;> omega
  unfold Persist.step
  rw [count]

/-! ### The conditions (R40, R43) -/

theorem Conds.evaluate_carrier_iff (e : Word) (a : Option StatVal) (b : Option Byte) (d : Bool) :
    (Conds.evaluate e a b d).carrier = true ↔ ∃ x, a = some x ∧ x.pv = false := by
  cases a <;> simp [Conds.evaluate]

theorem Conds.evaluate_farend_iff (e : Word) (a : Option StatVal) (b : Option Byte) (d : Bool) :
    (Conds.evaluate e a b d).farend = true ↔ ∃ x, a = some x ∧ x.fe = true := by
  cases a <;> simp [Conds.evaluate]

theorem Conds.evaluate_labelmis_iff (e : Word) (a : Option StatVal) (b : Option Byte) (d : Bool) :
    (Conds.evaluate e a b d).labelmis = true ↔ e ≠ 0 ∧ ∃ x, b = some x ∧ x.toNat ≠ e.toNat := by
  have wide (x : Byte) : x.setWidth 16 = e ↔ x.toNat = e.toNat := by
    rw [← BitVec.toNat_inj, BitVec.toNat_setWidth_of_le (by decide)]
  cases b <;> simp [Conds.evaluate, labelMismatch, wide]

/-- R43: DEGRADED changes at a window end only. -/
theorem Chan.condsAfter_degraded (v : Byte) (c : Chan) :
    (c.condsAfter v).degraded =
      (if c.mon.winFrames + 1 = c.cfg.dwin.toNat ∧ c.cfg.dset.toNat ≤ c.mon.windowMismatches v then true
       else if c.mon.winFrames + 1 = c.cfg.dwin.toNat ∧ c.mon.windowMismatches v ≤ c.cfg.dclr.toNat then false
       else c.mon.conds.degraded) := by
  by_cases ends : c.mon.winFrames + 1 = c.cfg.dwin.toNat <;>
    simp [Chan.condsAfter, Conds.evaluate, Chan.windowEnds, Monitor.windowFrames, degradedAfter, ends]

/-- R46: the causes are what has changed of the accepted values and of DEGRADED. -/
theorem Chan.closeCauses_eq (v : Byte) (c : Chan) :
    c.closeCauses v = ⟨false, decide (c.statAfter.accepted ≠ c.mon.stat.accepted),
      decide (c.labelAfter.accepted ≠ c.mon.label.accepted), decide ((c.condsAfter v).degraded ≠ c.mon.conds.degraded)⟩ := by
  unfold Chan.closeCauses
  rw [bne_eq_decide_ne, bne_eq_decide_ne, bne_eq_decide_ne]

/-! ### What the overhead close leaves -/

/-- The delineator's part leaves the monitor as judged. -/
theorem Lane.overheadClose_mon (v : Byte) (l : Lane) : (l.overheadClose v).c.mon = (l.c.overheadJudge v).mon := by
  rw [Lane.overheadClose_kept]

/-- The monitor after the overhead close, but for the ring, the numbering and the pending-lost count. -/
theorem Lane.overheadClose_judged (v : Byte) (l : Lane) :
    (l.overheadClose v).c.mon = { (l.c.judgedBare v).mon with
      ring := (l.overheadClose v).c.mon.ring, nextSeq := (l.overheadClose v).c.mon.nextSeq
      pendingLost := (l.overheadClose v).c.mon.pendingLost } := by
  rw [Lane.overheadClose_mon]
  exact Chan.overheadJudge_mon v l.c

/-- The counters after it, but for those of a record lost and of the delineator. -/
theorem Lane.overheadClose_live (v : Byte) (l : Lane) :
    (l.overheadClose v).c.live = { (l.c.judgedBare v).live with
      ohlost := (l.overheadClose v).c.live.ohlost, rxabort := (l.overheadClose v).c.live.rxabort
      offmiss := (l.overheadClose v).c.live.offmiss } := by
  have kept := congrArg (fun m : Lane => m.c.live) (Lane.overheadClose_kept v l)
  have judged := Chan.overheadJudge_live v l.c
  generalize (l.overheadClose v).c.live = live at *
  rw [kept]
  dsimp only
  rw [judged]

/-- The flags after it, but for OHREC and RXDROP. -/
theorem Lane.overheadClose_flags (v : Byte) (l : Lane) :
    (l.overheadClose v).c.flags = { l.c.flags with
      ohrec := (l.overheadClose v).c.flags.ohrec, rxdrop := (l.overheadClose v).c.flags.rxdrop
      alarm := l.c.flags.alarm || decide (l.c.condsAfter v ≠ l.c.mon.conds) } := by
  have kept := congrArg (fun m : Lane => m.c.flags) (Lane.overheadClose_kept v l)
  have judged := Chan.overheadJudge_flags v l.c
  generalize (l.overheadClose v).c.flags = flags at *
  rw [kept]
  dsimp only
  rw [judged]

/-- The parts of the lane that the overhead close can touch. -/
theorem Lane.overheadClose_rest (v : Byte) (l : Lane) :
    l.overheadClose v = { l with
      pool := (l.overheadClose v).pool
      c := { l.c with
        mon := (l.overheadClose v).c.mon, del := (l.overheadClose v).c.del, live := (l.overheadClose v).c.live
        flags := (l.overheadClose v).c.flags, rxHolding := (l.overheadClose v).c.rxHolding } } := by
  have kept := Lane.overheadClose_kept v l
  have judged := Chan.overheadJudge_kept v l.c
  generalize l.overheadClose v = m at *
  generalize l.c.overheadJudge v = j at *
  rw [kept, judged]

/-- R46, R47 and R49: the record due at the overhead close, if a cause has arisen. -/
theorem Lane.overheadClose_record (v : Byte) (l : Lane) :
    if l.c.closeCauses v = ⟨false, false, false, false⟩ then
      (l.overheadClose v).c.mon.ring = l.c.mon.ring ∧ (l.overheadClose v).c.mon.nextSeq = l.c.mon.nextSeq
        ∧ (l.overheadClose v).c.mon.pendingLost = l.c.mon.pendingLost
        ∧ (l.overheadClose v).c.flags.ohrec = l.c.flags.ohrec ∧ (l.overheadClose v).c.live.ohlost = l.c.live.ohlost
    else l.c.recordOutcome ((l.c.judgedBare v).mon.record (l.c.closeCauses v) l.c.mon.frameFcnt true) (l.overheadClose v).c := by
  have mon := Lane.overheadClose_mon v l
  have ohrec : (l.overheadClose v).c.flags.ohrec = (l.c.overheadJudge v).flags.ohrec := by rw [Lane.overheadClose_kept]
  have ohlost : (l.overheadClose v).c.live.ohlost = (l.c.overheadJudge v).live.ohlost := by rw [Lane.overheadClose_kept]
  split
  · rename_i none
    rw [mon, ohrec, ohlost]
    exact Chan.overheadJudge_noRecord ((Causes.any_eq_false_iff _).mpr none)
  · rename_i some
    have due : (l.c.closeCauses v).any = true := by
      rw [← Bool.not_eq_false]
      exact fun none => some ((Causes.any_eq_false_iff _).mp none)
    refine Chan.recordOutcome_congr (Chan.overheadJudge_record due) ⟨rfl, rfl, rfl, rfl, rfl⟩ ?_
    rw [mon]
    exact ⟨rfl, rfl, rfl, ohrec, ohlost⟩

/-! ### The judgement -/

/-- Settles O40: the edge is the overhead close of the channel with the byte taken, whose parts the lemmas above say one by one. -/
theorem overheadCloseJudgesTheFrame : Obligations.OverheadCloseJudgesTheFrame := by
  intro s ch b x v c m g jumped failed stat run misses windowEnd arrives hf hstat hlabel
  rw [exec_overheadClose, State.rxEdge_overheadClose arrives hf]
  refine ⟨_, rfl, ?_⟩
  intro d
  let l : Lane := (s.lane ch).mapChan (Chan.withByte s.globals x v)
  have hd : d = (l.overheadClose v).c := State.chan_onLane_self ..
  have hjumped : m.fcntJumped = jumped := Monitor.fcntJumped_eq m
  have hfailed : m.checkFailed v = failed := Monitor.checkFailed_eq v m
  have hmisses : m.windowMismatches v = misses := by rw [Monitor.windowMismatches, hfailed]
  have rest := Lane.overheadClose_rest v l
  have mon := Lane.overheadClose_judged v l
  have live := Lane.overheadClose_live v l
  have flags := Lane.overheadClose_flags v l
  have record := Lane.overheadClose_record v l
  have hst : c.statAfter = ⟨some stat, run m.stat stat, if run m.stat stat = g.persist.toNat then some stat else m.stat.accepted⟩ :=
    Persist.step_eq stat hstat
  have hlb : c.labelAfter = ⟨some m.labelByte, run m.label m.labelByte,
      if run m.label m.labelByte = g.persist.toNat then some m.labelByte else m.label.accepted⟩ :=
    Persist.step_eq m.labelByte hlabel
  have dstat : d.mon.stat = c.statAfter := by rw [hd, mon]; rfl
  have dlabel : d.mon.label = c.labelAfter := by rw [hd, mon]; rfl
  have dconds : d.mon.conds = c.condsAfter v := by rw [hd, mon]; rfl
  have causes := Chan.closeCauses_eq v c
  have hends : c.windowEnds = true ↔ windowEnd := beq_iff_eq
  refine ⟨s.onLane_othersKept ch _, ?mem, ?gflags, ?al, ?runXor, ?fcjump, ?fcerr, ?lastFcnt, dstat.trans hst, dlabel.trans hlb, ?carrier,
    ?farend, ?labelmis, ?degraded, ?winFrames, ?winMismatches, ?alarm, ?record, ?kept, ?counts, ?rxq, ?align, ?txdone, ?monitor⟩
  case mem => show (l.overheadClose v).mem = s.mem; rw [rest]; rfl
  case gflags => show (l.overheadClose v).gf = s.gflags; rw [rest]; rfl
  case al => rw [hd, rest]; rfl
  case runXor => rw [hd, mon]; rfl
  case fcjump => rw [hd, live, ← hjumped]; rfl
  case fcerr => rw [hd, live, ← hfailed]; rfl
  case lastFcnt => rw [hd, mon]; rfl
  case carrier => rw [dconds, dstat]; exact Conds.evaluate_carrier_iff ..
  case farend => rw [dconds, dstat]; exact Conds.evaluate_farend_iff ..
  case labelmis => rw [dconds, dlabel]; exact Conds.evaluate_labelmis_iff ..
  case degraded => rw [dconds, ← hmisses]; exact Chan.condsAfter_degraded v c
  case winFrames => rw [hd, mon]; exact if_congr hends rfl rfl
  case winMismatches => rw [hd, mon]; exact if_congr hends rfl hmisses
  case alarm => rw [dconds, hd, flags]; rfl
  case record => rw [dstat, dlabel, dconds, ← causes, hd]; exact record
  case kept => rw [hd, congrArg Lane.c rest]; rfl
  case counts =>
    intro k fcjump fcerr ohlost rxabort offmiss
    rw [hd, live]
    cases k <;> first | contradiction | rfl
  case rxq => rw [hd, flags]; rfl
  case align => rw [hd, flags]; rfl
  case txdone => rw [hd, flags]; rfl
  case monitor => rw [hd, mon]; rfl

end Sys2Proof.Machine
end

section
/-! PROOFS. What the delineator is told at an overhead close (R42, R56, R57, R70, R71): nothing, a CARRIER onset, or a CARRIER end. -/
namespace Sys2Proof.Machine

open Sys2Proof

/-- The delineator and what an abort or a missed offset of it would change, from lane `l` to lane `m`: all as it was. -/
def Lane.DelinUntouched (l m : Lane) : Prop :=
  m.c.del = l.c.del ∧ m.pool = l.pool ∧ m.c.rxHolding = l.c.rxHolding ∧ m.c.live.rxabort = l.c.live.rxabort
    ∧ m.c.live.offmiss = l.c.live.offmiss ∧ m.c.flags.rxdrop = l.c.flags.rxdrop

/-- The monitor's judgement does not touch the delineator. -/
theorem Lane.judge_delinUntouched (v : Byte) (l : Lane) : l.DelinUntouched (l.mapChan (Chan.overheadJudge v)) := by
  have kept := Chan.overheadJudge_kept v l.c
  have live := Chan.overheadJudge_live v l.c
  have flags := Chan.overheadJudge_flags v l.c
  unfold Lane.DelinUntouched
  rw [Lane.mapChan_c, Lane.mapChan_pool, live, flags, kept]
  exact ⟨rfl, rfl, rfl, rfl, rfl, rfl⟩

/-- With CARRIER as it was, the delineator is told nothing (R42). -/
theorem Lane.overheadClose_untouched {v : Byte} {l : Lane} (h : l.c.mon.conds.carrier = (l.c.condsAfter v).carrier) :
    l.DelinUntouched (l.overheadClose v) := by
  rw [Lane.overheadClose_same h]
  exact l.judge_delinUntouched v

/-- R71: a CARRIER onset finds the delineator in HOLD already. -/
theorem Lane.overheadClose_onset_hold {v : Byte} {l : Lane} (h : l.c.mon.conds.carrier = false)
    (h' : (l.c.condsAfter v).carrier = true) (hold : l.c.del.state = .hold) : l.DelinUntouched (l.overheadClose v) := by
  have judged := l.judge_delinUntouched v
  rw [Lane.overheadClose_onset h h', Lane.delinHold_of_hold (by rw [judged.1]; exact hold)]
  exact judged

/-- R70 and R71: a CARRIER onset ends the parse, with a packet in assembly aborted. -/
theorem Lane.overheadClose_onset_parsing {v : Byte} {l : Lane} (h : l.c.mon.conds.carrier = false)
    (h' : (l.c.condsAfter v).carrier = true) (parsing : l.c.del.state ≠ .hold) :
    (l.overheadClose v).c.del = l.c.del.givenUp .hold ∧ l.c.abortOutcome (l.overheadClose v).c l.pool (l.overheadClose v).pool
      ∧ (l.overheadClose v).c.live.offmiss = l.c.live.offmiss := by
  obtain ⟨del, pool, rxHolding, rxabort, offmiss, rxdrop⟩ := l.judge_delinUntouched v
  rw [Lane.overheadClose_onset h h']
  generalize l.mapChan (Chan.overheadJudge v) = j at *
  rw [← del] at parsing ⊢
  refine ⟨Lane.delinHold_del parsing, ?_, ?_⟩
  · rw [← pool]
    exact Chan.abortOutcome_congr (Lane.delinHold_outcome parsing)
      ⟨congrArg Delin.assembly del.symm, rxHolding.symm, rxabort.symm, rxdrop.symm⟩ ⟨rfl, rfl, rfl⟩
  · rw [← offmiss, Lane.delinHold_kept]

/-- With no packet in assembly, a parse given up holds nothing that entering the new state would leave. -/
theorem Delin.enter_eq_givenUp {d : Delin} (st : DelState) (h : d.assembly = none) : d.enter st = d.givenUp st := by
  unfold Delin.enter Delin.givenUp
  rw [← h]

/-- R56: a CARRIER end leaves HOLD for SEEK, and evaluates the latched FBO. -/
theorem Chan.delinCarrierEnd_hold {c : Chan} (hold : c.del.state = .hold) (empty : c.del.assembly = none) :
    c.delinCarrierEnd = ({ c with del := c.del.givenUp .seek } : Chan).seekEvaluate true false := by
  unfold Chan.delinCarrierEnd
  rw [if_pos hold, Delin.enter_eq_givenUp .seek empty]

/-- R57 at a CARRIER end: a position in the frame is taken, 0xFFFF leaves SEEK, and any other offset counts OFFMISS. -/
theorem Chan.delinCarrierEnd_cases {c : Chan} (hold : c.del.state = .hold) (empty : c.del.assembly = none) (hp : c.payloadLen ≤ 0xFFFF) :
    (c.del.latchedFbo.toNat < c.payloadLen → c.delinCarrierEnd =
      { c with del := { c.del.givenUp .header with startPos := some c.del.latchedFbo.toNat } }) ∧
    (c.del.latchedFbo.toNat = 0xFFFF → c.delinCarrierEnd = { c with del := c.del.givenUp .seek }) ∧
    (c.payloadLen ≤ c.del.latchedFbo.toNat → c.del.latchedFbo.toNat ≠ 0xFFFF → c.delinCarrierEnd =
      { c with del := c.del.givenUp .seek }.bump .offmiss) := by
  rw [Chan.delinCarrierEnd_hold hold empty]
  refine ⟨fun inFrame => ?_, fun none => ?_, fun beyond some => ?_⟩
  · exact Chan.seekEvaluate_taken (c := { c with del := c.del.givenUp .seek }) inFrame (.inl rfl)
  · exact Chan.seekEvaluate_none (c := { c with del := c.del.givenUp .seek }) (none ▸ hp) (BitVec.eq_of_toNat_eq none)
  · exact Chan.seekEvaluate_miss (c := { c with del := c.del.givenUp .seek }) beyond fun none => some (congrArg BitVec.toNat none)

/-- R56 and R57: what a CARRIER end leaves of the delineator and beside it. -/
theorem Lane.overheadClose_end_hold {v : Byte} {l : Lane} (h : l.c.mon.conds.carrier = true)
    (h' : (l.c.condsAfter v).carrier = false) (hold : l.c.del.state = .hold) (empty : l.c.del.assembly = none)
    (hp : l.c.payloadLen ≤ 0xFFFF) :
    let m := l.overheadClose v
    let fbo := l.c.del.latchedFbo.toNat
    m.pool = l.pool ∧ m.c.rxHolding = l.c.rxHolding ∧ m.c.live.rxabort = l.c.live.rxabort ∧ m.c.flags.rxdrop = l.c.flags.rxdrop ∧
    (fbo < l.c.payloadLen → m.c.del = { l.c.del.givenUp .header with startPos := some fbo } ∧ m.c.live.offmiss = l.c.live.offmiss) ∧
    (fbo = 0xFFFF → m.c.del = l.c.del.givenUp .seek ∧ m.c.live.offmiss = l.c.live.offmiss) ∧
    (l.c.payloadLen ≤ fbo → fbo ≠ 0xFFFF →
      m.c.del = l.c.del.givenUp .seek ∧ m.c.live.offmiss = countUp l.c.live.offmiss) := by
  obtain ⟨del, pool, rxHolding, rxabort, offmiss, rxdrop⟩ := l.judge_delinUntouched v
  have cfg : (l.mapChan (Chan.overheadJudge v)).c.cfg = l.c.cfg := by rw [Lane.mapChan_c, Chan.overheadJudge_kept]
  rw [Lane.overheadClose_end h h']
  generalize l.mapChan (Chan.overheadJudge v) = j at *
  have payload : j.c.payloadLen = l.c.payloadLen := by rw [Chan.payloadLen, cfg]; rfl
  rw [← del] at hold empty ⊢
  rw [← payload] at hp ⊢
  obtain ⟨taken, stays, misses⟩ := Chan.delinCarrierEnd_cases hold empty hp
  rw [← offmiss]
  dsimp only
  rw [Lane.mapChan_c, Lane.mapChan_pool]
  refine ⟨pool, ?_, ?_, ?_, fun inFrame => ?_, fun none => ?_, fun beyond some => ?_⟩
  · rw [Chan.delinCarrierEnd_kept]
    exact rxHolding
  · rw [Chan.delinCarrierEnd_kept]
    exact rxabort
  · rw [Chan.delinCarrierEnd_kept]
    exact rxdrop
  · rw [taken inFrame]
    exact ⟨rfl, rfl⟩
  · rw [stays none]
    exact ⟨rfl, rfl⟩
  · rw [misses beyond some]
    exact ⟨rfl, rfl⟩

/-- Settles O41: CARRIER stays, begins or ends, each by its rule. -/
theorem carrierOnsetHoldsAndCarrierEndSeeks : Obligations.CarrierOnsetHoldsAndCarrierEndSeeks := by
  intro s ch b x v c fbo payload arrives hmin hmax
  rw [exec_overheadClose, State.rxEdge_overheadClose arrives (Nat.lt_of_lt_of_le (by decide) hmin)]
  refine ⟨_, rfl, ?_⟩
  intro d untouched
  let l : Lane := (s.lane ch).mapChan (Chan.withByte s.globals x v)
  have hd : d = (l.overheadClose v).c := State.chan_onLane_self ..
  have carrier : d.mon.conds.carrier = (l.c.condsAfter v).carrier := by
    rw [hd, Lane.overheadClose_judged]
    rfl
  have hp : l.c.payloadLen ≤ 0xFFFF := by
    show c.cfg.flen.toNat - 8 ≤ 0xFFFF
    omega
  rw [carrier]
  have same (h : l.DelinUntouched (l.overheadClose v)) : untouched := by
    unfold Lane.DelinUntouched at h
    rw [← hd] at h
    exact h
  refine ⟨fun stays => same (Lane.overheadClose_untouched stays), fun before after => ⟨fun hold => ?_, fun parsing => ?_⟩,
    fun before after hold empty => ?_⟩
  · exact same (Lane.overheadClose_onset_hold before after hold)
  · rw [hd]
    exact Lane.overheadClose_onset_parsing before after parsing
  · rw [hd]
    exact Lane.overheadClose_end_hold before after hold empty hp

end Sys2Proof.Machine
end

section
/-! PROOFS. The offset point (R55, R57, R60 to R62): the FBO latched, evaluated in SEEK, and compared in TRACK with the position that the bytes
remaining predict. -/
namespace Sys2Proof.Machine

open Sys2Proof

/-! ### The FBO latched (R55) -/

/-- The channel with the FBO latched whose low byte is `low`. -/
def Chan.latched (low : Byte) (c : Chan) : Chan := { c with del := { c.del with latchedFbo := c.del.fboHigh ++ low } }

theorem Lane.offsetPoint_of_hold {low : Byte} {l : Lane} (h : l.c.del.state = .hold) :
    l.offsetPoint low = l.mapChan (Chan.latched low) := by
  unfold Lane.offsetPoint
  rw [h]
  rfl

theorem Lane.offsetPoint_of_seek {low : Byte} {l : Lane} (h : l.c.del.state = .seek) :
    l.offsetPoint low = l.mapChan fun c => (c.latched low).seekEvaluate true false := by
  unfold Lane.offsetPoint
  rw [h]
  rfl

theorem Lane.offsetPoint_of_track {low : Byte} {l : Lane} (h : l.c.del.state ≠ .hold) (h' : l.c.del.state ≠ .seek) :
    l.offsetPoint low = (l.mapChan (Chan.latched low)).offsetCheck := by
  unfold Lane.offsetPoint
  cases e : l.c.del.state with
  | hold => exact absurd e h
  | seek => exact absurd e h'
  | header | body | skip => rfl

/-- The row of the offset point is the edge that completes the byte at offset 5. -/
theorem exec_offsetPoint {s : State} {ch : ChanId} {b x : Bool} {v : Byte} (h : (s.chan ch).byteArrives b x 5 v)
    (hf : 64 ≤ (s.chan ch).cfg.flen.toNat) :
    exec (.offsetPoint ch b) s
      = .next (s.setLane ch (((s.lane ch).mapChan (Chan.withByte s.globals x v)).offsetPoint v)) :=
  congrArg Host.Outcome.next (State.rxEdge_byte h (Nat.lt_of_lt_of_le (by decide) hf))

/-- Settles O38: HOLD ignores the FBO, and SEEK takes it, leaves it or counts it by its range. -/
theorem seekTakesTheFirstValidOffset : Obligations.SeekTakesTheFirstValidOffset := by
  intro s ch b x v c w fbo latched payload arrives hmin hmax
  have evaluated (seek : c.del.state = .seek) :
      exec (.offsetPoint ch b) s = .next (s.setChan ch ((w.latched v).seekEvaluate true false)) := by
    rw [exec_offsetPoint arrives hmin, Lane.offsetPoint_of_seek seek]
    rfl
  refine ⟨fun hold => ?_, fun seek inFrame => ?_, fun seek none => ?_, fun seek beyond some => ?_⟩
  · rw [exec_offsetPoint arrives hmin, Lane.offsetPoint_of_hold hold]
    rfl
  · rw [evaluated seek, Chan.seekEvaluate_taken (c := w.latched v) inFrame (.inl rfl)]
    rfl
  · have beyond : payload ≤ fbo.toNat := by
      have : fbo.toNat = 0xFFFF := congrArg BitVec.toNat none
      omega
    rw [evaluated seek, Chan.seekEvaluate_none (c := w.latched v) beyond none]
    rfl
  · rw [evaluated seek, Chan.seekEvaluate_miss (c := w.latched v) beyond some]
    rfl

/-! ### The comparison (R60 to R62) -/

/-- The delineator is in mid-block: in BODY or SKIP. -/
def Delin.MidBlock (d : Delin) : Prop := d.state = .body ∨ d.state = .skip

/-- The offset point makes the comparison of TRACK at once, and does not defer it. -/
def Delin.Compares (d : Delin) : Prop := d.MidBlock ∨ (d.state = .header ∧ d.headerByte = none)

/-- The FBO agrees with what a delineator in TRACK predicts at the offset point of a frame with payload length `p`. -/
def Delin.AgreesWith (fbo : Word) (p : Nat) (d : Delin) : Prop :=
  (d.MidBlock ∧ d.remaining < p ∧ fbo.toNat = d.remaining) ∨ (d.MidBlock ∧ p ≤ d.remaining ∧ fbo = 0xFFFF)
    ∨ (d.state = .header ∧ fbo = 0)

/-- The position that a delineator in TRACK predicts at the offset point (R60). -/
def Delin.prediction (p : Nat) (d : Delin) : Option Nat :=
  if d.state = .header then some 0 else predictAfter p d.remaining

theorem Delin.MidBlock.ne_header {d : Delin} (h : d.MidBlock) : d.state ≠ .header := by
  rcases h with h | h <;> rw [h] <;> nofun

theorem Delin.fboAgrees_prediction {d : Delin} (h : d.Compares) (fbo : Word) (p : Nat) :
    fboAgrees fbo.toNat (d.prediction p) = true ↔ d.AgreesWith fbo p := by
  unfold Delin.prediction Delin.AgreesWith
  rcases h with mid | ⟨header, -⟩
  · have hh := mid.ne_header
    rw [if_neg hh, fboAgrees_predictAfter]
    simp only [mid, hh, true_and, false_and, or_false]
  · have hm : ¬d.MidBlock := fun mid => mid.ne_header header
    have zero : fboAgrees fbo.toNat (some 0) = true ↔ fbo = 0 :=
      beq_iff_eq.trans ⟨fun e => BitVec.eq_of_toNat_eq e, fun e => congrArg BitVec.toNat e⟩
    rw [if_pos header, zero]
    simp only [hm, header, true_and, false_and, false_or]

theorem Lane.offsetPoint_deferred {low : Byte} {l : Lane} (h : l.c.del.state = .header) (hb : l.c.del.headerByte ≠ none) :
    l.offsetPoint low = l.mapChan (Chan.latched low) := by
  rw [Lane.offsetPoint_of_track (by rw [h]; nofun) (by rw [h]; nofun)]
  exact Lane.offsetCheck_deferred (l := l.mapChan (Chan.latched low)) h hb

theorem Lane.offsetPoint_compares {low : Byte} {l : Lane} (h : l.c.del.Compares) :
    l.offsetPoint low = ((l.mapChan (Chan.latched low)).offsetCompare (l.c.del.prediction l.c.payloadLen) false).1 := by
  unfold Delin.prediction
  rcases h with mid | ⟨header, empty⟩
  · rw [if_neg mid.ne_header, Lane.offsetPoint_of_track (by rcases mid with h | h <;> rw [h] <;> nofun)
      (by rcases mid with h | h <;> rw [h] <;> nofun)]
    exact Lane.offsetCheck_midBlock (l := l.mapChan (Chan.latched low)) mid
  · rw [if_pos header, Lane.offsetPoint_of_track (by rw [header]; nofun) (by rw [header]; nofun)]
    exact Lane.offsetCheck_header (l := l.mapChan (Chan.latched low)) header empty

/-- A first disagreement counts OFFMISS and leaves the parse (R61). -/
theorem Lane.offsetCompare_counts {l : Lane} {p : Option Nat} {q : Bool} (h : ¬fboAgrees l.c.del.latchedFbo.toNat p = true)
    (hm : l.c.del.mismatch = 0) :
    l.offsetCompare p q = ({ l with c := { l.c with
      del := { l.c.del with mismatch := 1 }, live := { l.c.live with offmiss := countUp l.c.live.offmiss } } }, true) := by
  rw [Lane.offsetCompare_first h (by omega)]
  exact congrArg (fun n => (({ l with c := { l.c with
    del := { l.c.del with mismatch := n + 1 }, live := { l.c.live with offmiss := countUp l.c.live.offmiss } } } : Lane), true)) hm

/-! ### The second disagreement (R62) -/

/-- The parse given up and the latched FBO evaluated in SEEK at once, in a frame with payload length `p`; a position that has gone by already
is not taken. -/
def Delin.reevaluated (p : Nat) (pos0Passed : Bool) (d : Delin) : Delin :=
  if d.latchedFbo.toNat < p ∧ (pos0Passed = true → d.latchedFbo.toNat ≠ 0) then
    { d.givenUp .header with startPos := some d.latchedFbo.toNat }
  else d.givenUp .seek

theorem Chan.seekEvaluate_givenUp (c : Chan) (pos0Passed : Bool) :
    ({ c with del := c.del.givenUp .seek } : Chan).seekEvaluate false pos0Passed
      = { c with del := c.del.reevaluated c.payloadLen pos0Passed } := by
  let u : Chan := { c with del := c.del.givenUp .seek }
  show u.seekEvaluate false pos0Passed = _
  unfold Delin.reevaluated
  by_cases inFrame : u.del.latchedFbo.toNat < u.payloadLen
  · by_cases passed : pos0Passed = true ∧ u.del.latchedFbo.toNat = 0
    · obtain ⟨rfl, zero⟩ := passed
      rw [Chan.seekEvaluate_passed inFrame zero, if_neg fun taken => taken.2 rfl zero]
    · have notPassed := (not_and_or.mp passed).imp_left Bool.eq_false_of_not_eq_true
      rw [Chan.seekEvaluate_taken inFrame notPassed, if_pos ⟨inFrame, fun p z => passed ⟨p, z⟩⟩]
      rfl
  · have stays : u.seekEvaluate false pos0Passed = u := by
      by_cases none : u.del.latchedFbo = 0xFFFF
      · exact Chan.seekEvaluate_none (Nat.le_of_not_lt inFrame) none
      · exact Chan.seekEvaluate_miss (Nat.le_of_not_lt inFrame) none
    rw [stays, if_neg fun taken => inFrame taken.1]

/-- A second disagreement: OFFMISS counted, a packet in assembly aborted, the parse given up and the FBO evaluated. -/
theorem Lane.offsetCompare_ends {l : Lane} {p : Option Nat} {q : Bool} (h : ¬fboAgrees l.c.del.latchedFbo.toNat p = true)
    (hm : l.c.del.mismatch = 1) :
    let a := (l.mapChan (Chan.bump .offmiss)).abortAssembly
    l.offsetCompare p q = ({ l with
      pool := a.pool
      c := { l.c with
        del := l.c.del.reevaluated l.c.payloadLen q, rxHolding := a.c.rxHolding
        live := { l.c.live with offmiss := countUp l.c.live.offmiss, rxabort := a.c.live.rxabort }
        flags := { l.c.flags with rxdrop := a.c.flags.rxdrop } } }, false) := by
  intro a
  have kept : a = _ := Lane.abortAssembly_kept (l.mapChan (Chan.bump .offmiss))
  rw [Lane.offsetCompare_second h (by omega)]
  show (a.mapChan _, false) = _
  rw [kept]
  exact congrArg (fun c => ({ l with c := c, pool := a.pool }, false))
    (Chan.seekEvaluate_givenUp { l.c with
      rxHolding := a.c.rxHolding
      live := { l.c.live with offmiss := countUp l.c.live.offmiss, rxabort := a.c.live.rxabort }
      flags := { l.c.flags with rxdrop := a.c.flags.rxdrop } } q)

/-- Settles O39: deferred with one header byte collected, else the comparison's three outcomes. -/
theorem offsetIsCheckedAgainstThePredictedPosition : Obligations.OffsetIsCheckedAgainstThePredictedPosition := by
  refine ⟨?_, ?_⟩
  · intro s ch b x v c w fbo latched payload midBlock agrees arrives hmin hmax
    rw [exec_offsetPoint arrives hmin]
    refine ⟨fun header collected => ?_, fun compares => ?_⟩
    · rw [Lane.offsetPoint_deferred header collected]
      rfl
    · have agrees_iff := Delin.fboAgrees_prediction (d := c.del) compares fbo payload
      rw [Lane.offsetPoint_compares (l := (s.lane ch).mapChan (Chan.withByte s.globals x v)) compares]
      refine ⟨fun agree => ?_, fun differ first => ?_⟩
      · rw [Lane.offsetCompare_agrees (agrees_iff.mpr agree)]
        rfl
      · rw [Lane.offsetCompare_counts (mt agrees_iff.mp differ) first]
        rfl
  · intro s ch b x v c w fbo payload midBlock agrees arrives hmin hmax compares differ second
    have agrees_iff := Delin.fboAgrees_prediction (d := c.del) compares fbo payload
    let l : Lane := ((s.lane ch).mapChan (Chan.withByte s.globals x v)).mapChan (Chan.latched v)
    have outcome := Lane.abortAssembly_outcome (l.mapChan (Chan.bump .offmiss))
    rw [exec_offsetPoint arrives hmin,
      Lane.offsetPoint_compares (l := (s.lane ch).mapChan (Chan.withByte s.globals x v)) compares,
      Lane.offsetCompare_ends (mt agrees_iff.mp differ) second]
    refine ⟨_, rfl, s.onLane_othersKept ch fun _ => _, rfl, rfl, ?_, ?_, ?_⟩
    · rw [State.chan_setLane_self]
      rfl
    · rw [State.chan_setLane_self]
      exact Chan.abortOutcome_congr outcome ⟨rfl, rfl, rfl, rfl⟩ ⟨rfl, rfl, rfl⟩
    · rw [State.chan_setLane_self]
      exact if_congr (and_iff_left nofun) rfl rfl

end Sys2Proof.Machine
end

section
/-! PROOFS. Payload bytes (R58, R59, R63): what each state of the delineator does with a byte, and the bytes that concern no cells. -/
namespace Sys2Proof.Machine

open Sys2Proof

/-! ### A byte in each state (R58) -/

/-- Payload position `pos` is at the start position of its frame or after it. -/
def Delin.Passed (pos : Nat) (d : Delin) : Prop := ∀ p, d.startPos = some p → p ≤ pos

theorem Delin.beforeStart_iff {pos : Nat} {d : Delin} : d.beforeStart pos = true ↔ ¬d.Passed pos := by
  unfold Delin.beforeStart Delin.Passed
  cases d.startPos <;> simp

theorem Delin.Passed.not_beforeStart {pos : Nat} {d : Delin} (h : d.Passed pos) : ¬d.beforeStart pos = true :=
  fun before => Delin.beforeStart_iff.mp before h

theorem Lane.payloadByte_beforeStart (thr : Word) (v : Byte) {pos : Nat} {l : Lane} (h : ¬l.c.del.Passed pos) :
    l.payloadByte thr pos v = l := by
  unfold Lane.payloadByte
  rw [if_pos (Delin.beforeStart_iff.mpr h), if_pos (Delin.beforeStart_iff.mpr h), if_pos (Delin.beforeStart_iff.mpr h)]
  cases l.c.del.state <;> rfl

theorem Lane.payloadByte_header (thr : Word) (v : Byte) {pos : Nat} {l : Lane} (hp : l.c.del.Passed pos) (h : l.c.del.state = .header) :
    l.payloadByte thr pos v = l.headerByteIn thr pos v := by
  unfold Lane.payloadByte
  rw [h]
  exact if_neg hp.not_beforeStart

theorem Lane.payloadByte_body (thr : Word) (v : Byte) {pos : Nat} {l : Lane} (hp : l.c.del.Passed pos) (h : l.c.del.state = .body) :
    l.payloadByte thr pos v = l.bodyByte v := by
  unfold Lane.payloadByte
  rw [h]
  exact if_neg hp.not_beforeStart

theorem Lane.payloadByte_skip (thr : Word) (v : Byte) {pos : Nat} {l : Lane} (hp : l.c.del.Passed pos) (h : l.c.del.state = .skip) :
    l.payloadByte thr pos v = l.skipByte := by
  unfold Lane.payloadByte
  rw [h]
  exact if_neg hp.not_beforeStart

/-- The row of a payload byte, its delineator's part known. -/
theorem exec_payloadByte_of {s : State} {ch : ChanId} {b x : Bool} {pos : Nat} {v : Byte} {m : Lane}
    (arrives : (s.chan ch).byteArrives b x (pos + 8) v) (hf : pos + 9 ≤ (s.chan ch).cfg.flen.toNat)
    (byte : ((s.lane ch).mapChan (Chan.withByte s.globals x v)).payloadByte s.globals.poolthr pos v = m) :
    exec (.payloadByte ch b) s = .next (s.setLane ch (m.mapChan (Chan.endedAt (pos + 8)))) := by
  rw [exec_payloadByte, State.rxEdge_payload arrives hf, ← byte]
  rfl

/-- The row of a payload byte short of its frame's last. -/
theorem exec_payloadByte_within {s : State} {ch : ChanId} {b x : Bool} {pos : Nat} {v : Byte} {m : Lane}
    (arrives : (s.chan ch).byteArrives b x (pos + 8) v) (hf : pos + 9 < (s.chan ch).cfg.flen.toNat)
    (byte : ((s.lane ch).mapChan (Chan.withByte s.globals x v)).payloadByte s.globals.poolthr pos v = m) :
    exec (.payloadByte ch b) s = .next (s.setLane ch m) := by
  rw [exec_payloadByte, State.rxEdge_byte arrives hf, ← byte]
  rfl

/-! ### Headers (R58, R59, R63) -/

/-- The first byte of a header is kept with the frame FCNT. -/
theorem Lane.payloadByte_firstHeaderByte (thr : Word) (v : Byte) {pos : Nat} {l : Lane} (hp : l.c.del.Passed pos)
    (h : l.c.del.state = .header) (hb : l.c.del.headerByte = none) :
    l.payloadByte thr pos v =
      l.mapChan fun c => { c with del := { c.del with headerByte := some v, headerFcnt := c.mon.frameFcnt } } := by
  rw [Lane.payloadByte_header thr v hp h]
  unfold Lane.headerByteIn
  rw [hb]

/-- The second byte completes the header. -/
theorem Lane.payloadByte_secondHeaderByte (thr : Word) (v : Byte) {pos : Nat} {l : Lane} {y : Byte} (hp : l.c.del.Passed pos)
    (h : l.c.del.state = .header) (hb : l.c.del.headerByte = some y) :
    l.payloadByte thr pos v = l.headerCompleted thr pos (y ++ v) := by
  rw [Lane.payloadByte_header thr v hp h]
  unfold Lane.headerByteIn
  rw [hb]
  rfl

theorem Lane.headerCompleted_invalid (thr : Word) (pos : Nat) {h : Word} (l : Lane) (hv : headerValid h = false) :
    l.headerCompleted thr pos h = l.mapChan Chan.headerFailed :=
  if_neg (by rw [hv]; nofun)

/-- Away from position 0 a valid header is acted on. -/
theorem Lane.headerCompleted_later (thr : Word) {pos : Nat} {h : Word} (l : Lane) (hv : headerValid h = true) (hp : pos ≠ 0) :
    l.headerCompleted thr pos h = l.actOnHeader thr (headerLen h) := by
  unfold Lane.headerCompleted
  rw [if_pos hv, if_neg hp]

/-- At position 0 a valid header is acted on if its deferred comparison stays with the parse (R61). -/
theorem Lane.headerCompleted_stays (thr : Word) {h : Word} {l m : Lane} (hv : headerValid h = true)
    (hc : l.offsetCompare (predictAfter l.c.payloadLen (1 + headerLen h)) true = (m, true)) :
    l.headerCompleted thr 0 h = m.actOnHeader thr (headerLen h) := by
  unfold Lane.headerCompleted
  rw [if_pos hv, if_pos rfl, hc]
  rfl

/-- At position 0 a valid header is dropped if its deferred comparison ends the parse (R62). -/
theorem Lane.headerCompleted_ends (thr : Word) {h : Word} {l m : Lane} (hv : headerValid h = true)
    (hc : l.offsetCompare (predictAfter l.c.payloadLen (1 + headerLen h)) true = (m, false)) : l.headerCompleted thr 0 h = m := by
  unfold Lane.headerCompleted
  rw [if_pos hv, if_pos rfl, hc]
  rfl

/-- An idle header is consumed (R59). -/
theorem Lane.actOnHeader_idle (thr : Word) {len : Nat} (l : Lane) (h : len = 0) :
    l.actOnHeader thr len = l.mapChan fun c => { c with del := { c.del with headerByte := none } } := if_pos h

theorem Lane.actOnHeader_packet (thr : Word) {len : Nat} (l : Lane) (h : 1 ≤ len) :
    l.actOnHeader thr len = l.acceptHeader thr len := if_neg (by omega)

/-! ### Skipped bodies -/

theorem Lane.skipByte_within {l : Lane} (h : 1 < l.c.del.remaining) : l.skipByte = l.consume :=
  if_neg (show ¬l.c.del.remaining - 1 = 0 by omega)

theorem Lane.consume_last {l : Lane} (h : l.c.del.remaining = 1) :
    l.consume = l.mapChan fun c => { c with del := { c.del with remaining := 0 } } :=
  congrArg (fun n => ({ l with c := { l.c with del := { l.c.del with remaining := n } } } : Lane))
    (show l.c.del.remaining - 1 = 0 by omega)

theorem Lane.skipByte_last {l : Lane} (h : l.c.del.remaining = 1) :
    l.skipByte = l.mapChan fun c => { c with del := { c.del with remaining := 0, state := .header, headerByte := none } } := by
  unfold Lane.skipByte
  rw [Lane.consume_last h]
  exact if_pos rfl

/-- Settles O43: each byte by the state that finds it, the frame's end on top of it when it is the last. -/
theorem payloadBytesAreDiscardedCollectedOrSkipped : Obligations.PayloadBytesAreDiscardedCollectedOrSkipped := by
  intro s ch b x pos v c w passed leaves arrives hf
  let l : Lane := (s.lane ch).mapChan (Chan.withByte s.globals x v)
  have row {m : Lane} := exec_payloadByte_of (m := m) arrives hf
  have second {y : Byte} (hp : l.c.del.Passed pos) := Lane.payloadByte_secondHeaderByte (y := y) s.globals.poolthr v hp
  refine ⟨fun discarded => ?_, fun hp header empty => ?_, fun y hp header collected invalid => ?_,
    fun y hp header collected idle hpos => ?_, fun hp skip within => ?_, fun hp skip last => ?_⟩
  · have byte : l.payloadByte s.globals.poolthr pos v = l := by
      rcases discarded with hold | seek | before
      · exact Lane.payloadByte_discarded _ _ _ (.inl hold)
      · exact Lane.payloadByte_discarded _ _ _ (.inr seek)
      · exact Lane.payloadByte_beforeStart _ _ before
    exact row byte
  · exact row (Lane.payloadByte_firstHeaderByte _ v hp header empty)
  · exact row ((second hp header collected).trans (Lane.headerCompleted_invalid _ pos l invalid))
  · have valid : headerValid (y ++ v) = true := by rw [idle]; decide
    have len : headerLen (y ++ v) = 0 := by rw [idle]; rfl
    exact row ((second hp header collected).trans
      ((Lane.headerCompleted_later _ l valid hpos).trans (Lane.actOnHeader_idle _ l len)))
  · exact row ((Lane.payloadByte_skip (l := l) _ v hp skip).trans (Lane.skipByte_within within))
  · exact row ((Lane.payloadByte_skip (l := l) _ v hp skip).trans (Lane.skipByte_last last))

end Sys2Proof.Machine
end

section
/-! PROOFS. The header of a packet accepted (R64 to R66, R85, R88) and the deferred comparison of a header completed at payload position 0 (R61,
R62). -/
namespace Sys2Proof.Machine

open Sys2Proof

/-! ### The claim (R65, R66, R85) -/

theorem ChanCfg.storeLen_eq (g : ChanCfg) (len : Nat) :
    g.storeLen len = if g.slotlen.toNat = 0 then min len g.maxlen.toNat else g.slotlen.toNat :=
  if_congr (BitVec.toNat_inj (y := 0#16)).symm rfl rfl

/-- A granted claim puts the descriptor with its cells in assembly (R64, R85, R88). -/
theorem Lane.acceptHeader_granted (thr : Word) (len : Nat) {l : Lane} :
    let n := cellsFor (l.c.cfg.storeLen len)
    l.canClaim .rx n = true → l.acceptHeader thr len = { l with
      c := { l.c with
        rxHolding := l.c.rxHolding + n
        del := { l.c.del with
          state := .body, headerByte := none, remaining := len, stored := 0, nextPktseq := l.c.del.nextPktseq + 1
          assembly := some (l.c.newDesc len (l.pool.free.take n)) } }
      pool := { l.pool with free := l.pool.free.drop n }
      gf := { l.gf with poollow := l.gf.poollow || crossesDown thr.toNat l.pool.free.length (l.pool.free.length - n) } } :=
  fun granted => if_pos granted

/-- A refused claim counts DROPNOBUF, sets RXDROP and has the body skipped (R66). -/
theorem Lane.acceptHeader_refused (thr : Word) (len : Nat) {l : Lane} (h : ¬l.canClaim .rx (cellsFor (l.c.cfg.storeLen len)) = true) :
    l.acceptHeader thr len = l.mapChan fun c => { c with
      live := { c.live with dropnobuf := countUp c.live.dropnobuf }
      flags := { c.flags with rxdrop := true }
      del := { c.del with state := .skip, headerByte := none, remaining := len, nextPktseq := c.del.nextPktseq + 1 } } :=
  if_neg h

/-! ### The header acted on (R61, R64) -/

/-- The channel after the deferred comparison of a header completed at payload position `pos`, with the FBO agreeing or a first disagreement
(R61); after position 0 no comparison is due. -/
def Chan.deferredCompared (pos : Nat) (agrees : Prop) [Decidable agrees] (c : Chan) : Chan :=
  if 0 < pos then c
  else if agrees then { c with del := { c.del with mismatch := 0 } }
  else { c with del := { c.del with mismatch := 1 }, live := { c.live with offmiss := countUp c.live.offmiss } }

/-- The comparison touches the mismatch count and OFFMISS only. -/
theorem Chan.deferredCompared_kept (pos : Nat) (agrees : Prop) [Decidable agrees] (c : Chan) :
    ∃ m o, c.deferredCompared pos agrees = { c with
      del := { c.del with mismatch := m }, live := { c.live with offmiss := o } } := by
  unfold Chan.deferredCompared
  split_ifs <;> exact ⟨_, _, rfl⟩

/-- The comparison does not depend on the aligner and the running XOR, which have taken the byte already. -/
theorem Chan.withByte_deferredCompared (g : Globals) (x : Bool) (v : Byte) (pos : Nat) (agrees : Prop) [Decidable agrees] (c : Chan) :
    (c.deferredCompared pos agrees).withByte g x v = (c.withByte g x v).deferredCompared pos agrees := by
  unfold Chan.deferredCompared
  split_ifs <;> rfl

/-- A valid header that its comparison, if one is due, leaves in the parse is acted on (R61). -/
theorem Lane.headerCompleted_parses (thr : Word) {pos : Nat} {h : Word} {l : Lane} {agrees : Prop} [Decidable agrees]
    (hv : headerValid h = true)
    (agrees_iff : fboAgrees l.c.del.latchedFbo.toNat (predictAfter l.c.payloadLen (1 + headerLen h)) = true ↔ agrees)
    (parses : 0 < pos ∨ agrees ∨ l.c.del.mismatch = 0) :
    l.headerCompleted thr pos h = (l.mapChan (Chan.deferredCompared pos agrees)).actOnHeader thr (headerLen h) := by
  unfold Lane.mapChan Chan.deferredCompared
  rcases Nat.eq_zero_or_pos pos with rfl | hpos
  · rw [if_neg (Nat.lt_irrefl 0)]
    by_cases agree : agrees
    · rw [if_pos agree]
      exact Lane.headerCompleted_stays _ hv (Lane.offsetCompare_agrees (agrees_iff.mpr agree))
    · have first : l.c.del.mismatch = 0 := (parses.resolve_left (Nat.lt_irrefl 0)).resolve_left agree
      rw [if_neg agree]
      exact Lane.headerCompleted_stays _ hv (Lane.offsetCompare_counts (mt agrees_iff.mp agree) first)
  · rw [if_pos hpos]
    exact Lane.headerCompleted_later _ l hv (Nat.ne_of_gt hpos)

/-- Settles O44: the header is acted on, at position 0 after its comparison, and the claim it makes is granted or refused. -/
theorem acceptedHeaderClaimsItsCells : Obligations.AcceptedHeaderClaimsItsCells := by
  intro s ch b x pos v h c len fbo payload agrees compared w storelen n granted arrives hf parses hp header collected valid hlen
  let l : Lane := (s.lane ch).mapChan (Chan.withByte s.globals x v)
  let k : Lane := { l with c := w }
  have len_eq : headerLen (h ++ v) = len := headerLen_eq_extractLsb' _
  have agrees_iff : fboAgrees fbo (predictAfter payload (1 + headerLen (h ++ v))) = true ↔ agrees := by
    rw [len_eq, fboAgrees_predictAfter, ← BitVec.toNat_inj]
    rfl
  have w_eq : w = l.c.deferredCompared pos agrees := Chan.withByte_deferredCompared s.globals x v pos agrees c
  have accepted : l.payloadByte s.globals.poolthr pos v = k.acceptHeader s.globals.poolthr len := by
    rw [Lane.payloadByte_secondHeaderByte (l := l) _ v hp header collected, Lane.headerCompleted_parses (l := l) _ valid agrees_iff parses,
      len_eq, Lane.actOnHeader_packet _ _ hlen]
    unfold k Lane.mapChan
    rw [w_eq]
  have storelen_eq : c.cfg.storeLen len = storelen := ChanCfg.storeLen_eq ..
  have kept := Chan.deferredCompared_kept pos agrees l.c
  rw [exec_payloadByte_of arrives hf accepted]
  rw [← w_eq] at kept
  obtain ⟨m, o, hw⟩ := kept
  clear accepted w_eq
  clear_value w storelen
  subst hw storelen_eq
  have claim : k.canClaim .rx n = true ↔ granted := Lane.canClaim_iff ..
  refine ⟨fun grant => ?_, fun refuse => ?_⟩
  · rw [Lane.acceptHeader_granted (l := k) _ len (claim.mpr grant)]
    rfl
  · rw [Lane.acceptHeader_refused (l := k) _ len (mt claim.mp refuse)]
    rfl

/-! ### The deferred comparison's outcomes (R61, R62) -/

/-- With no packet in assembly there is nothing to abort. -/
theorem Lane.abortAssembly_of_none {l : Lane} (h : l.c.del.assembly = none) : l.abortAssembly = l := by
  unfold Lane.abortAssembly
  rw [h]

/-- Settles O45: the comparison's three outcomes, for a header completed at position 0. -/
theorem deferredComparisonIsMadeAtPositionZero : Obligations.DeferredComparisonIsMadeAtPositionZero := by
  intro s ch b x v h c w fbo payload next agrees missed arrives hmin hmax noStart header collected empty valid
  let l : Lane := (s.lane ch).mapChan (Chan.withByte s.globals x v)
  have agrees_iff : fboAgrees fbo (predictAfter payload (1 + headerLen (h ++ v))) = true ↔ agrees := by
    rw [fboAgrees_predictAfter, ← BitVec.toNat_inj]
    rfl
  have passed : l.c.del.Passed 0 := fun p start => by cases noStart.symm.trans start
  have row {m : Lane} (completed : l.headerCompleted s.globals.poolthr 0 (h ++ v) = m) :
      exec (.payloadByte ch b) s = .next (s.setLane ch m) :=
    exec_payloadByte_within (pos := 0) arrives (Nat.lt_of_lt_of_le (by decide) hmin)
      ((Lane.payloadByte_secondHeaderByte (l := l) _ v passed header collected).trans completed)
  refine ⟨fun idle agree => ?_, fun idle differ first => ?_, fun differ second => ?_⟩
  · have compared := Lane.offsetCompare_agrees (l := l) (q := true) (agrees_iff.mpr agree)
    exact row ((Lane.headerCompleted_stays (l := l) _ valid compared).trans (Lane.actOnHeader_idle _ _ idle))
  · have compared := Lane.offsetCompare_counts (l := l) (q := true) (mt agrees_iff.mp differ) first
    exact row ((Lane.headerCompleted_stays (l := l) _ valid compared).trans (Lane.actOnHeader_idle _ _ idle))
  · have compared := Lane.offsetCompare_ends (l := l) (q := true) (mt agrees_iff.mp differ) second
    rw [Lane.abortAssembly_of_none (l := l.mapChan (Chan.bump .offmiss)) empty] at compared
    have taken_iff : (fbo < payload ∧ (true = true → fbo ≠ 0)) ↔ 0 < fbo ∧ fbo < payload :=
      ⟨fun t => ⟨Nat.pos_of_ne_zero (t.2 rfl), t.1⟩, fun t => ⟨t.2, fun _ => Nat.ne_of_gt t.1⟩⟩
    have evaluated : c.del.reevaluated payload true = _ := if_congr taken_iff rfl rfl
    rw [row (Lane.headerCompleted_ends (l := l) _ valid compared), ← evaluated]
    rfl

end Sys2Proof.Machine
end

section
/-! PROOFS. Body bytes (R67) and the completion of a packet (R68, R94, R95). -/
namespace Sys2Proof.Machine

open Sys2Proof

/-! ### Storing -/

theorem Lane.storeBody_beyond {v : Byte} {l : Lane} {a : RxDesc} (h : l.c.del.assembly = some a) (hs : a.storelen ≤ l.c.del.stored) :
    l.storeBody v = l := by
  unfold Lane.storeBody
  rw [h]
  exact if_neg (Nat.not_lt.mpr hs)

theorem Lane.storeBody_within {v : Byte} {l : Lane} {a : RxDesc} (h : l.c.del.assembly = some a) (hs : l.c.del.stored < a.storelen) :
    l.storeBody v = { l with
      mem := packetWrite l.mem a.chain l.c.del.stored v
      c := { l.c with del := { l.c.del with stored := l.c.del.stored + 1 } } } := by
  unfold Lane.storeBody
  rw [h]
  exact if_pos hs

/-- Storing a byte changes packet memory at the byte's place, while there is one, and the stored count. -/
theorem Lane.storeBody_eq {v : Byte} {l : Lane} {a : RxDesc} (h : l.c.del.assembly = some a) :
    ∃ n, l.storeBody v = { l with
      mem := if l.c.del.stored < a.storelen then packetWrite l.mem a.chain l.c.del.stored v else l.mem
      c := { l.c with del := { l.c.del with stored := n } } } := by
  by_cases hs : l.c.del.stored < a.storelen
  · exact ⟨l.c.del.stored + 1, by rw [Lane.storeBody_within h hs, if_pos hs]⟩
  · exact ⟨l.c.del.stored, by rw [Lane.storeBody_beyond h (Nat.le_of_not_lt hs), if_neg hs]⟩

theorem Lane.bodyByte_within {v : Byte} {l : Lane} (h : 1 < (l.storeBody v).c.del.remaining) :
    l.bodyByte v = (l.storeBody v).consume :=
  if_neg (show ¬(l.storeBody v).c.del.remaining - 1 = 0 by omega)

theorem Lane.bodyByte_last {v : Byte} {l : Lane} (h : (l.storeBody v).c.del.remaining = 1) :
    l.bodyByte v = ((l.storeBody v).mapChan fun c => { c with del := { c.del with remaining := 0 } }).completePacket := by
  unfold Lane.bodyByte
  rw [Lane.consume_last h]
  exact if_pos rfl

/-! ### Completion (R68) -/

/-- The delineator after the last byte of a body: in HEADER with no byte collected and no packet in assembly. -/
def Delin.bodyEnded (d : Delin) : Delin := { d with state := .header, headerByte := none, stored := 0, assembly := none }

/-- With room in the queue the packet joins its tail. -/
theorem Lane.completePacket_queued {l : Lane} {a : RxDesc} (h : l.c.del.assembly = some a) (hq : l.c.rq.length < 32) :
    l.completePacket = l.mapChan fun c => { c with
      rq := c.rq ++ [a]
      live := { c.live with
        rxpkts := countUp c.live.rxpkts
        rxlong := if a.long then countUp c.live.rxlong else c.live.rxlong
        rxpadded := if a.padded then countUp c.live.rxpadded else c.live.rxpadded }
      flags := { c.flags with
        rxq := c.flags.rxq || (decide (c.rq.length < c.cfg.rqthr.toNat) && decide (c.cfg.rqthr.toNat ≤ c.rq.length + 1)) }
      del := c.del.bodyEnded } := by
  unfold Lane.completePacket
  rw [h]
  dsimp only
  rw [if_pos hq]
  unfold Lane.mapChan
  rw [Chan.appendRx_eq]
  rfl

/-- Against a full queue it is dropped, its chain returned, DROPQFULL counted and RXDROP set. -/
theorem Lane.completePacket_dropped {l : Lane} {a : RxDesc} (h : l.c.del.assembly = some a) (hq : 32 ≤ l.c.rq.length) :
    l.completePacket = (l.returnChain .rx a.chain).mapChan fun c => { c with
      live := { c.live with dropqfull := countUp c.live.dropqfull }
      flags := { c.flags with rxdrop := true }
      del := c.del.bodyEnded } := by
  unfold Lane.completePacket
  rw [h]
  dsimp only
  rw [if_neg (Nat.not_lt.mpr hq)]
  rfl

/-- Settles O46: a byte within the body is stored or passed over; the last one completes the packet into the queue or against it. -/
theorem bodyBytesAreStoredAndTheLastCompletesThePacket : Obligations.BodyBytesAreStoredAndTheLastCompletesThePacket := by
  refine ⟨?_, ?_⟩
  · intro s ch b x pos v a c w arrives hf hp body assembly within
    let l : Lane := (s.lane ch).mapChan (Chan.withByte s.globals x v)
    have byte : l.payloadByte s.globals.poolthr pos v = l.bodyByte v := Lane.payloadByte_body (l := l) _ v hp body
    refine ⟨fun beyond => ?_, fun stored => ?_, fun _ wf k => read_packetWrite a.chain c.del.stored v k wf⟩
    · have kept := Lane.storeBody_beyond (v := v) (l := l) assembly beyond
      rw [exec_payloadByte_of arrives hf (byte.trans (Lane.bodyByte_within (by rw [kept]; exact within))), kept]
      rfl
    · have written := Lane.storeBody_within (v := v) (l := l) assembly stored
      rw [exec_payloadByte_of arrives hf (byte.trans (Lane.bodyByte_within (by rw [written]; exact within))), written]
      rfl
  · intro s ch b x pos v a c w mem ended arrives hf hp body assembly last
    let l : Lane := (s.lane ch).mapChan (Chan.withByte s.globals x v)
    have byte : l.payloadByte s.globals.poolthr pos v = l.bodyByte v := Lane.payloadByte_body (l := l) _ v hp body
    obtain ⟨n, written⟩ := Lane.storeBody_eq (v := v) (l := l) assembly
    rw [exec_payloadByte_of arrives hf (byte.trans (Lane.bodyByte_last (by rw [written]; exact last))), written]
    refine ⟨fun room => ?_, fun full => ?_⟩
    · rw [Lane.completePacket_queued assembly room]
      rfl
    · rw [Lane.completePacket_dropped assembly full]
      rfl

end Sys2Proof.Machine
end

section
/-! PROOFS. The cell pool's own facts: where a packet's bytes lie (R78, R79), what ends a reset and the build (R82, R160), and that FREE and the
holdings add up (R81). -/
namespace Sys2Proof.Machine

open Sys2Proof

/-! ### Bytes of packets (R78, R79) -/

theorem packetByte_of_addr {chain : List CellNo} {i a : Nat} (m : List Host.Cell) (h : packetAddr chain i = some a) :
    packetByte m chain i = Memory.read m a := by
  unfold packetByte
  rw [h]

/-- A byte written elsewhere is not seen at a position whose address, if it has one, is another. -/
theorem packetByte_packetWrite_ne {m : List Host.Cell} {chain other : List CellNo} {i j : Nat} (v : Byte) (h : Memory.wf m)
    (hne : ∀ a, packetAddr chain i = some a → packetAddr other j ≠ some a) :
    packetByte (packetWrite m chain i v) other j = packetByte m other j := by
  unfold packetByte
  split
  · rename_i a ha
    rw [read_packetWrite chain i v a h, if_neg fun hi => hne a hi ha]
  · rfl

/-- Settles O19: the address of a position, what a write leaves at every address, and that distinct positions have distinct addresses. -/
theorem packetBytesAreKeptApart : Obligations.PacketBytesAreKeptApart := by
  intro m chain other i j v wf nodup within
  obtain ⟨a, ha⟩ := Option.isSome_iff_exists.mp (packetAddr_isSome within)
  obtain ⟨c, hc, place⟩ := packetAddr_eq_some.mp ha
  have readBack (k : Nat) : Memory.read (packetWrite m chain i v) k = if k = a then v else Memory.read m k := by
    simp only [read_packetWrite chain i v k wf, ha, Option.some.injEq, eq_comm]
  refine ⟨⟨c, hc, ?_, ?_⟩, ?_, fun hji => ?_, fun apart => ?_⟩
  · rw [packetByte_of_addr m ha, place]
  · rw [← place]
    exact readBack
  · rw [packetByte_of_addr _ ha, readBack, if_pos rfl]
  · exact packetByte_packetWrite_ne v wf fun b hi hj => hji (packetAddr_injective nodup hj hi)
  · exact packetByte_packetWrite_ne v wf fun b hi hj => packetAddr_disjoint apart hi hj

/-! ### The end of a reset and of the build (R82, R160) -/

theorem exec_resetRelease (width : Bool) (s : State) : exec (.resetRelease width) s = .next (s.resetRelease width) := rfl

@[simp] theorem length_cellsUpTo (k : Nat) : (cellsUpTo k).length = k := by simp [cellsUpTo]

theorem map_val_cellsUpTo {k : Nat} (h : k ≤ 512) : (cellsUpTo k).map Fin.val = List.range k := by
  have same : ∀ i ∈ List.range k, (Fin.val ∘ Fin.ofNat 512) i = i := fun i hi =>
    Nat.mod_eq_of_lt (Nat.lt_of_lt_of_le (List.mem_range.mp hi) h)
  rw [cellsUpTo, List.map_map, List.map_congr_left same, List.map_id']

theorem Pool.free_built (p : Pool) : p.built.free = cellsUpTo 512 := by simp only [Pool.built]

/-- Settles O4: with its occasion each row does what R82 and R160 say, without it nothing. -/
theorem resetEndsAndThePoolIsBuilt : Obligations.ResetEndsAndThePoolIsBuilt := by
  intro s width
  rw [exec_resetRelease, exec_poolBuildComplete]
  refine ⟨fun held => ?_, fun taking => ?_, fun taking init => ?_, fun noOccasion => ?_⟩
  · rw [State.resetRelease, if_pos held]
  · rw [State.resetRelease, if_neg (by rw [taking]; nofun)]
  · rw [State.buildComplete_building taking init]
    refine ⟨_, rfl, rfl, rfl, ?_⟩
    dsimp only
    rw [Pool.free_built, map_val_cellsUpTo (Nat.le_refl 512)]
  · have noBuild : ¬(s.pool.state = .init ∧ s.win.inReset = false) := by
      rintro ⟨init, taking⟩
      rcases noOccasion with held | ready
      · exact absurd (held.symm.trans taking) nofun
      · exact absurd (ready.symm.trans init) nofun
    rw [State.buildComplete, if_neg noBuild]

/-! ### FREE and the holdings (R81) -/

theorem Chan.CellsAgree.length_cells {c : Chan} (a : c.CellsAgree) : c.cells.length = c.rxHolding + c.txHolding := by
  rw [Chan.cells, List.length_append, a.rx_holding, a.tx_holding]

/-- Settles O59: the cells of the part are counted twice, as the 512 and as the free list with the holdings. -/
theorem freeAndHoldingsAddUpTo512 : Obligations.FreeAndHoldingsAddUpTo512 := by
  intro s conserved ready
  have all : s.cells.length = 512 := (conserved.ready ready).length_eq.trans (length_cellsUpTo 512)
  have counted (ch : ChanId) := (conserved.chans ch).length_cells
  simp only [State.cells, List.length_append, counted] at all
  unfold Pool.freeCount
  omega

end Sys2Proof.Machine
end

section
/-! PROOFS. The operations of a step as moves of cells on one lane, gone through once for any property that such moves keep. -/
namespace Sys2Proof.Machine

open Sys2Proof

/-- What a property must be kept by for every operation of a step to keep it in a part for which `M` holds: beside the conserving moves on one
lane, changes of other items, of a configuration and of the whole pool, and CH_START, which conserves only where `M` says so. -/
structure KeptByCellMoves (M P : State → Prop) : Prop where
  rest : ∀ {s t : State}, P s → t.chans = s.chans → t.pool.state = s.pool.state → t.pool.free = s.pool.free → t.mem = s.mem → P t
  lane : ∀ {s : State} (ch : ChanId) {l : Lane}, P s → (s.lane ch).Conserves l → P (s.setLane ch l)
  config : ∀ {s : State} (ch : ChanId) (g : ChanCfg), P s → P (s.setChan ch { s.chan ch with cfg := g })
  start : ∀ {s : State} (p : ChanId), M s → P s → P (s.takeChStart p)
  powerOn : ∀ s : State, P s → P s.powerOnReset
  softReset : ∀ s : State, P s → P s.softReset
  seen : ∀ {s : State}, P s → P s.buildSeen
  build : ∀ {s : State}, P s → P s.buildComplete

namespace KeptByCellMoves

variable {M P : State → Prop} {s : State}

theorem setChan (k : KeptByCellMoves M P) (h : P s) {ch : ChanId} {c : Chan} (same : (s.chan ch).SameStores c) : P (s.setChan ch c) :=
  k.lane ch (l := { s.lane ch with c := c }) h (.of_same s.gflags same)

theorem answer (k : KeptByCellMoves M P) (h : P s) (st : CStat) : P (s.answer st) := k.rest h rfl rfl rfl rfl

theorem answerWith (k : KeptByCellMoves M P) (h : P s) (r0 r1 : Word) : P (s.answerWith r0 r1) := k.rest h rfl rfl rfl rfl

/-! The data ports and the indirect space. -/

theorem advanceHeld (k : KeptByCellMoves M P) (h : P s) {n : Nat} {p : Held} (hp : s.paged.held = some p)
    (hn : p.cursor + n ≤ p.desc.storelen) : P (s.advanceHeld n) :=
  k.lane s.win.page h (Lane.heldMoved_conserves n hp hn)

theorem rxdataWord (k : KeptByCellMoves M P) (h : P s) : P s.rxdataWord.2 := by
  unfold State.rxdataWord
  split
  · exact k.rest h rfl rfl rfl rfl
  · rename_i p hp
    split_ifs with two one
    · exact k.advanceHeld h hp two
    · exact k.advanceHeld h hp (Nat.le_of_eq one)
    · exact k.rest h rfl rfl rfl rfl

theorem rxdataByte (k : KeptByCellMoves M P) (h : P s) : P s.rxdataByte.2 := by
  unfold State.rxdataByte
  split
  · exact k.rest h rfl rfl rfl rfl
  · rename_i p hp
    split_ifs with one
    · exact k.advanceHeld h hp one
    · exact k.rest h rfl rfl rfl rfl

theorem fillByte (k : KeptByCellMoves M P) (h : P s) (v : Byte) : P (s.fillByte v) := by
  unfold State.fillByte
  split
  · exact h
  · rename_i f hf
    split_ifs with room
    · exact k.lane s.win.page h (Lane.filled_conserves v hf room)
    · exact h

theorem txdataWord (k : KeptByCellMoves M P) (h : P s) (v : Word) : P (s.txdataWord v) := by
  unfold State.txdataWord
  split_ifs
  · exact k.fillByte (k.fillByte h _) _
  · exact k.rest (k.fillByte h _) rfl rfl rfl rfl
  · exact k.rest h rfl rfl rfl rfl

theorem txdataByte (k : KeptByCellMoves M P) (h : P s) (v : Byte) : P (s.txdataByte v) := by
  unfold State.txdataByte
  split_ifs
  · exact k.fillByte h _
  · exact k.rest h rfl rfl rfl rfl

theorem configWrite (k : KeptByCellMoves M P) (h : P s) (e : Entry) (v : Word) : P (s.configWrite e v) := by
  have put : P (s.setChan s.win.page { s.paged with cfg := s.paged.cfg.put e v }) := k.config s.win.page _ h
  unfold State.configWrite State.onChan
  split
  · dsimp only
    split
    · have judged := k.setChan put (ch := s.win.page) (Chan.labelmisReevaluated_stores _)
      rw [State.setChan_setChan, State.chan_setChan_self] at judged
      exact judged
    · exact put
  · exact k.rest h rfl rfl rfl rfl

theorem idataWrite (k : KeptByCellMoves M P) (h : P s) (v : Word) : P (s.idataWrite v) := by
  have next {t : State} (ht : P t) : P t.nextIdx := k.rest ht rfl rfl rfl rfl
  unfold State.idataWrite
  split
  · exact next (k.configWrite h _ v)
  · split
    · unfold State.globalWrite
      split <;> exact k.rest h rfl rfl rfl rfl
    · exact next h

/-! Commands. -/

theorem takeChStop (k : KeptByCellMoves M P) (h : P s) (p : ChanId) : P (s.takeChStop p) := by
  have receive : P (s.onLane p Lane.alignerStop) := k.lane p h (Lane.alignerStop_conserves _)
  unfold State.takeChStop
  split
  · dsimp only
    split
    · exact k.rest (k.setChan receive (Chan.stopped_same _ .disabled)) rfl rfl rfl rfl
    · exact k.rest (k.setChan receive (Chan.drainTimed_same _ .draining (some s.globals.tdrain.toNat))) rfl rfl rfl rfl
  · exact k.answer h _

theorem takeChReset (k : KeptByCellMoves M P) (h : P s) (p : ChanId) : P (s.takeChReset p) :=
  k.answerWith (k.lane p h (Lane.channelReset_conserves _)) _ _

theorem takeChFlush (k : KeptByCellMoves M P) (h : P s) (p : ChanId) : P (s.takeChFlush p) := by
  unfold State.takeChFlush
  dsimp only
  split
  · exact k.answerWith (k.lane p h (Lane.chFlush_conserves _)) _ _
  · exact k.answer h _

theorem takeRxOpen (k : KeptByCellMoves M P) (h : P s) (p : ChanId) : P (s.takeRxOpen p) := by
  unfold State.takeRxOpen
  dsimp only
  split
  · exact k.answer h _
  · rename_i notHeld
    split
    · exact k.answer h _
    · rename_i hq
      exact k.answerWith (k.lane p h (Lane.rxOpen_conserves (by simpa using notHeld) hq)) _ _

theorem takeRxRelease (k : KeptByCellMoves M P) (h : P s) (p : ChanId) : P (s.takeRxRelease p) := by
  unfold State.takeRxRelease
  split
  · exact k.answer h _
  · rename_i held
    exact k.answerWith (k.lane p h (Lane.rxRelease_conserves held)) _ _

theorem takeRxSkip (k : KeptByCellMoves M P) (h : P s) (p : ChanId) : P (s.takeRxSkip p) := by
  unfold State.takeRxSkip
  split
  · exact k.answer h _
  · rename_i hq
    exact k.answerWith (k.lane p h (Lane.rxSkip_conserves hq)) _ _

theorem takeTxAlloc (k : KeptByCellMoves M P) (h : P s) (p : ChanId) : P (s.takeTxAlloc p) := by
  unfold State.takeTxAlloc
  dsimp only
  split_ifs with badarg opened claim
  · exact k.answer h _
  · exact k.answer h _
  · have alloc := Lane.txAlloc_conserves s.globals.poolthr (l := s.lane p) (by omega) (by simpa using opened) claim
    exact k.answerWith (k.lane p h alloc) _ _
  · exact k.answer h _

theorem takeTxSubmit (k : KeptByCellMoves M P) (h : P s) (p : ChanId) : P (s.takeTxSubmit p) := by
  unfold State.takeTxSubmit
  dsimp only
  split
  · exact k.answer h _
  · rename_i f hf
    split_ifs with short full
    · exact k.answer h _
    · exact k.answer h _
    · exact k.answerWith (k.lane p h (Lane.txSubmit_conserves _ hf (Nat.lt_of_not_le full))) _ _

theorem takeTxCancel (k : KeptByCellMoves M P) (h : P s) (p : ChanId) : P (s.takeTxCancel p) := by
  unfold State.takeTxCancel
  split
  · exact k.answer h _
  · rename_i hf
    exact k.answerWith (k.lane p h (Lane.txCancel_conserves hf)) _ _

theorem takeOhPop (k : KeptByCellMoves M P) (h : P s) (p : ChanId) : P (s.takeOhPop p) := by
  unfold State.takeOhPop
  dsimp only
  split
  · exact k.answer h _
  · rename_i ring
    exact k.answerWith (k.lane p h (Lane.ohPop_conserves ring)) _ _

theorem takeCntSnap (k : KeptByCellMoves M P) (h : P s) (p : ChanId) : P (s.takeCntSnap p) :=
  k.answer (k.setChan h (Chan.observed_same _ {} (s.chan p).live (s.chan p).flags (s.chan p).mask)) _

theorem take (k : KeptByCellMoves M P) (m : M s) (h : P s) (c : Cmd) : P (s.take c) := by
  cases c with
  | chStart => exact k.start _ m h
  | chStop => exact k.takeChStop h _
  | chReset => exact k.takeChReset h _
  | chFlush => exact k.takeChFlush h _
  | rxOpen => exact k.takeRxOpen h _
  | rxRelease => exact k.takeRxRelease h _
  | rxSkip => exact k.takeRxSkip h _
  | txAlloc => exact k.takeTxAlloc h _
  | txSubmit => exact k.takeTxSubmit h _
  | txCancel => exact k.takeTxCancel h _
  | ohPop => exact k.takeOhPop h _
  | cntSnap => exact k.takeCntSnap h _

theorem cmdWrite (k : KeptByCellMoves M P) (m : M s) (h : P s) (code : Byte) : P (s.cmdWrite code) := by
  unfold State.cmdWrite
  split_ifs
  · exact k.answer h _
  · exact k.rest h rfl rfl rfl rfl
  · split
    · exact k.answer h _
    · exact k.take m h _

/-! Words of the bus window. -/

theorem writeWord (k : KeptByCellMoves M P) (m : M s) (h : P s) (word : WordNo) (v : Word) : P (s.writeWord word v) := by
  have kept {t : State} (hc : t.chans = s.chans) (hp : t.pool = s.pool) (hm : t.mem = s.mem) : P t :=
    k.rest h hc (by rw [hp]) (by rw [hp]) hm
  unfold State.writeWord
  split
  · unfold State.gctlWrite
    split
    · exact k.softReset s h
    · exact h
  · exact kept rfl rfl rfl
  · exact kept rfl rfl rfl
  · unfold State.pageWrite
    split <;> exact kept rfl rfl rfl
  · exact k.cmdWrite m h _
  · exact kept rfl rfl rfl
  · exact kept rfl rfl rfl
  · exact kept rfl rfl rfl
  · exact k.idataWrite h v
  · exact k.txdataWord h v
  · exact k.setChan h (Chan.observed_same ..)
  · exact k.setChan h (Chan.observed_same ..)
  · exact h

theorem readWord (k : KeptByCellMoves M P) (h : P s) (word : WordNo) : P (s.readWord word).2 := by
  unfold State.readWord
  split
  case h_10 => exact k.rest (k.seen h) rfl rfl rfl rfl
  case h_11 => exact k.rxdataWord h
  all_goals exact h

/-! Links and timers. -/

theorem txEdge (k : KeptByCellMoves M P) (h : P s) (ch : ChanId) : P (s.txEdge ch) := by
  have edge : P (s.onLane ch Lane.fallingEdge) := k.lane ch h (Lane.fallingEdge_conserves _)
  unfold State.txEdge
  dsimp only
  split
  · exact k.rest (k.setChan edge (Chan.stopped_same _ .disabled)) rfl rfl rfl rfl
  · exact edge

theorem drainExpiry (k : KeptByCellMoves M P) (h : P s) (ch : ChanId) (clockStopped : Bool) : P (s.drainExpiry ch clockStopped) := by
  unfold State.drainExpiry
  split
  · exact k.rest (k.lane ch h (Lane.abandonDrain_conserves clockStopped _)) rfl rfl rfl rfl
  · exact h

theorem drainTick (k : KeptByCellMoves M P) (h : P s) (ch : ChanId) : P (s.drainTick ch) := by
  unfold State.drainTick
  split
  · exact h
  · split
    · exact k.rest (k.drainExpiry h ch _) rfl rfl rfl rfl
    · exact k.setChan h (Chan.drainTimed_same _ _ _)

theorem buildTick (k : KeptByCellMoves M P) (h : P s) : P s.buildTick := by
  unfold State.buildTick
  split_ifs
  · exact k.build h
  · exact k.rest h rfl rfl rfl rfl
  · exact h

theorem tick (k : KeptByCellMoves M P) (h : P s) : P s.tick :=
  State.tick_kept (P := P) (fun _ ch h => k.lane ch h (Lane.silenceTick_conserves _)) (fun _ ch h => k.drainTick h ch)
    (fun _ h => k.buildTick h) (fun _ _ h => k.rest h rfl rfl rfl rfl) h

/-- The operations keep the property together with `M`, on which CH_START rests. -/
theorem keptByOperations (k : KeptByCellMoves M P) (m : KeptByOperations M) : KeptByOperations fun s => M s ∧ P s where
  window s w h := ⟨m.window s w h.1, k.rest h.2 rfl rfl rfl rfl⟩
  powerOn s h := ⟨m.powerOn s h.1, k.powerOn s h.2⟩
  build s h := ⟨m.build s h.1, k.build h.2⟩
  writes s word v h := ⟨m.writes s word v h.1, k.writeWord h.1 h.2 word v⟩
  writesByte s v h := ⟨m.writesByte s v h.1, k.txdataByte h.2 v⟩
  reads s word h := ⟨m.reads s word h.1, k.readWord h.2 word⟩
  readsByte s h := ⟨m.readsByte s h.1, k.rxdataByte h.2⟩
  rising s ch b h := ⟨m.rising s ch b h.1, k.lane ch h.2 (Lane.risingEdge_conserves ..)⟩
  falling s ch h := ⟨m.falling s ch h.1, k.txEdge h.2 ch⟩
  silence s ch h := ⟨m.silence s ch h.1, k.lane ch h.2 (Lane.silenceExpiry_conserves _)⟩
  counts s ch snap live h := ⟨m.counts s ch snap live h.1, k.setChan h.2 (Chan.observed_same ..)⟩
  drain s ch stopped h := ⟨m.drain s ch stopped h.1, k.drainExpiry h.2 ch stopped⟩

/-- Every step keeps the property in a part for which `M` holds. -/
theorem step (k : KeptByCellMoves M P) (m : KeptByOperations M) (queue : ∀ (s : State) (q : List Instr), M s → M { s with pending := q })
    (ticked : ∀ s : State, M s → M s.tick) {t : State} (hm : M s) (h : P s) (e : Sys2Proof.Machine.step s = .next t) : P t :=
  ((k.keptByOperations m).step (fun s q h => ⟨queue s q h.1, k.rest h.2 rfl rfl rfl rfl⟩)
    (fun s h => ⟨ticked s h.1, k.tick h.2⟩) ⟨hm, h⟩ e).2

end KeptByCellMoves

end Sys2Proof.Machine
end

section
/-! PROOFS. What moves of cells keep: packet memory's canonical form, and the account of the 512 cells (R80, R81); with them, that the part as a
reset leaves it meets every law. -/
namespace Sys2Proof.Machine

open Sys2Proof

/-! ### Packet memory's canonical form -/

/-- Only bytes written into packets change packet memory, and they keep its canonical form; CH_START needs nothing for it. -/
theorem Memory.wf_keptByCellMoves : KeptByCellMoves (fun _ => True) fun s => Memory.wf s.mem where
  rest h _ _ _ hm := by
    rw [hm]
    exact h
  lane _ _ h moved := moved.mem h
  config _ _ h := h
  start _ _ h := by
    unfold State.takeChStart
    split <;> exact h
  powerOn _ h := h
  softReset _ h := h
  seen h := by
    unfold State.buildSeen
    split <;> exact h
  build h := by
    unfold State.buildComplete
    split <;> exact h

theorem KeptByOperations.trivially : KeptByOperations fun _ => True := by
  constructor <;> intros <;> trivial

/-- Settles O55: packet memory changes by moves of cells only, in whatever modes the part is. -/
theorem stepKeepsPacketMemoryCanonical : Obligations.StepKeepsPacketMemoryCanonical :=
  fun _ _ wf run => Memory.wf_keptByCellMoves.step .trivially (fun _ _ _ => trivial) (fun _ _ => trivial) trivial wf run

/-! ### The 512 cells -/

/-- The account of the cells rests on each channel's own account and cells, the pool's state and the free list. -/
theorem State.CellsConserved.same {s t : State} (h : s.CellsConserved) (agree : ∀ ch, (t.chan ch).CellsAgree)
    (cells : ∀ ch, (t.chan ch).cells = (s.chan ch).cells) (state : t.pool.state = s.pool.state) (free : t.pool.free = s.pool.free) :
    t.CellsConserved := by
  have all : t.cells = s.cells := by simp only [State.cells, cells, free]
  have count : t.pool.freeCount = s.pool.freeCount := congrArg List.length free
  refine ⟨agree, fun ready => ?_, fun init => ?_⟩
  · rw [all]
    exact h.ready (state ▸ ready)
  · rw [count, free]
    simp only [cells]
    exact h.init (state ▸ init)

/-- A change of the configuration moves no packet. -/
theorem State.CellsConserved.config {s : State} (h : s.CellsConserved) (ch : ChanId) (g : ChanCfg) :
    (s.setChan ch { s.chan ch with cfg := g }).CellsConserved := by
  obtain ⟨a1, a2, a3, a4, a5, a6, a7, a8, a9, a10⟩ := h.chans ch
  refine h.same (fun k => ?_) (fun k => ?_) rfl rfl <;> by_cases hk : k = ch
  · rw [hk, State.chan_setChan_self]
    exact ⟨a1, a2, a3, a4, a5, a6, a7, a8, a9, a10⟩
  · rw [State.chan_setChan_ne _ _ hk]
    exact h.chans k
  · rw [hk, State.chan_setChan_self]
    rfl
  · rw [State.chan_setChan_ne _ _ hk]

/-- In a DISABLED channel the framer is STOPPED, so no packet is in flight. -/
theorem Chan.ModesAgree.disabled_noFlight {c : Chan} (a : c.ModesAgree) (h : c.admin = .disabled) : c.fr.inflight = none := by
  have stopped : c.fr.running = false := Bool.eq_false_iff.mpr fun run => a.running_iff.mp run h
  exact (a.stopped_none stopped).2

/-- CH_START is taken in DISABLED only, so it loses no packet in flight. -/
theorem State.CellsConserved.start {s : State} (m : s.ModesAgree) (h : s.CellsConserved) (p : ChanId) :
    (s.takeChStart p).CellsConserved := by
  unfold State.takeChStart
  split
  · rename_i disabled
    have started := Lane.chStart_conserves s.globals (l := s.lane p) ((m.chans p).disabled_noFlight disabled)
    exact (h.lane p started).congr rfl rfl
  · exact h.congr rfl rfl

/-- A channel at its reset values but for its configuration and masks holds nothing. -/
theorem Chan.cellsAgree_idle (g : ChanCfg) (mask : CFlags) : ({ cfg := g, mask := mask } : Chan).CellsAgree :=
  ⟨rfl, rfl, ⟨nofun, nofun⟩, .inl rfl, nofun, nofun, nofun, nofun, nofun, nofun⟩

/-- A reset loses no cell: the build to come appends all of them. -/
theorem State.cellsConserved_of_reset {s : State} (pool : s.pool = {})
    (chans : ∀ ch, ∃ g mask, s.chan ch = { cfg := g, mask := mask }) : s.CellsConserved := by
  refine ⟨fun ch => ?_, fun ready => ?_, fun _ => ⟨fun ch => ?_, ?_, ?_⟩⟩
  · obtain ⟨g, mask, reset⟩ := chans ch
    rw [reset]
    exact Chan.cellsAgree_idle g mask
  · rw [pool] at ready
    cases ready
  · obtain ⟨g, mask, reset⟩ := chans ch
    rw [reset]
    rfl
  · rw [pool]
    exact Nat.zero_le _
  · rw [pool]
    rfl

theorem State.powerOnReset_cells (s : State) : s.powerOnReset.CellsConserved :=
  State.cellsConserved_of_reset rfl fun ch => ⟨{}, {}, Quad.get_const _ ch⟩

theorem State.softReset_cells (s : State) : s.softReset.CellsConserved :=
  State.cellsConserved_of_reset rfl fun ch => ⟨(s.chan ch).cfg, (s.chan ch).mask, Quad.get_map Chan.softReset s.chans ch⟩

/-- R84: a look at a build finds the first cells in ascending order, short of the last. -/
theorem State.CellsConserved.seen {s : State} (h : s.CellsConserved) : s.buildSeen.CellsConserved := by
  unfold State.buildSeen
  split
  · rename_i building
    refine ⟨h.chans, fun ready => absurd (building.1.symm.trans ready) nofun, fun init => ⟨(h.init init).1, ?_, ?_⟩⟩
    · show (cellsUpTo _).length ≤ 511
      rw [length_cellsUpTo]
      exact Nat.min_le_left ..
    · show cellsUpTo _ = cellsUpTo (cellsUpTo _).length
      rw [length_cellsUpTo]
  · exact h

/-- R82: at the build's end all 512 cells are free, as no packet held one. -/
theorem State.CellsConserved.build {s : State} (h : s.CellsConserved) : s.buildComplete.CellsConserved := by
  unfold State.buildComplete
  split
  · rename_i building
    obtain ⟨empty, -, -⟩ := h.init building.1
    refine ⟨h.chans, fun _ => ?_, nofun⟩
    show (s.pool.built.free ++ ((s.chan 0).cells ++ ((s.chan 1).cells ++ ((s.chan 2).cells ++ (s.chan 3).cells)))).Perm _
    simp only [empty, Pool.free_built, List.append_nil]
    exact .refl _
  · exact h

theorem State.cellsConserved_keptByCellMoves : KeptByCellMoves State.ModesAgree State.CellsConserved where
  rest h chans state free _ :=
    h.same (fun ch => State.chan_congr chans ch ▸ h.chans ch) (fun ch => by rw [State.chan_congr chans]) state free
  lane ch _ h moved := h.lane ch moved
  config ch g h := h.config ch g
  start p m h := h.start m p
  powerOn s _ := s.powerOnReset_cells
  softReset s _ := s.softReset_cells
  seen h := h.seen
  build h := h.build

/-- Settles O57: every operation of a step moves cells without gain or loss in a part whose modes agree, and so does the tick of an empty queue. -/
theorem stepConservesTheCells : Obligations.StepConservesTheCells :=
  fun _ _ modes cells run => State.cellsConserved_keptByCellMoves.step State.modesAgree_keptByOperations
    (fun _ _ h => h.congr rfl rfl rfl) (fun _ h => State.tick_modes h) modes cells run

/-! ### The part as a reset leaves it -/

/-- Settles O60: the reset state is one that a power-on reset leaves, and each law holds of every such state. -/
theorem resetMeetsTheLaws : Obligations.ResetMeetsTheLaws :=
  ⟨Memory.wf_nil, State.powerOnReset_modes .reset, State.powerOnReset_cells .reset, State.powerOnReset_bounds .reset⟩

end Sys2Proof.Machine
end

section
/-! PROOFS. The receive commands (R98 to R100), outcome by outcome, and the return of a receive chain (R89) as a change of the channel
and of the pool. -/
namespace Sys2Proof.Machine

open Sys2Proof

/-! ### RX_OPEN (R98) -/

theorem exec_rxOpen_taken {s : State} (hi : Byte) (taken : s.takesCmd 0x10) :
    exec (.rxOpen hi) s = .next (s.takeRxOpen s.win.page).acked :=
  congrArg Host.Outcome.next (State.cmdAccess_taken hi .rxOpen taken rfl)

theorem State.takeRxOpen_held {s : State} {p : ChanId} (held : (s.chan p).held ≠ none) : s.takeRxOpen p = s.answer .state := by
  unfold State.takeRxOpen
  exact if_pos (Option.isSome_iff_ne_none.mpr held)

theorem State.takeRxOpen_empty {s : State} {p : ChanId} (free : (s.chan p).held = none) (empty : (s.chan p).rq = []) :
    s.takeRxOpen p = s.answer .empty := by
  unfold State.takeRxOpen
  dsimp only
  rw [free, empty]
  rfl

theorem State.takeRxOpen_head {s : State} {p : ChanId} {d : RxDesc} {rest : List RxDesc} (free : (s.chan p).held = none)
    (head : (s.chan p).rq = d :: rest) :
    s.takeRxOpen p =
      (s.setChan p { s.chan p with rq := rest, held := some ⟨d, 0⟩ }).answerWith (natWord d.storelen) d.pktseq := by
  unfold State.takeRxOpen
  dsimp only
  rw [free, head]
  rfl

/-- Settles O25: the command is taken on the paged channel, which holds a packet, or has an empty queue, or a head to open. -/
theorem rxOpenTakesTheHeadOfTheQueue : Obligations.RxOpenTakesTheHeadOfTheQueue := by
  intro s hi taken p c
  rw [exec_rxOpen_taken hi taken]
  refine ⟨fun held => ?_, fun free empty => ?_, fun d rest free head => ?_⟩
  · rw [State.takeRxOpen_held held]
    rfl
  · rw [State.takeRxOpen_empty free empty]
    rfl
  · rw [State.takeRxOpen_head free head]
    rfl

/-! ### RX_RELEASE and RX_SKIP (R99, R100) -/

theorem exec_rxRelease_taken {s : State} (hi : Byte) (taken : s.takesCmd 0x11) :
    exec (.rxRelease hi) s = .next (s.takeRxRelease s.win.page).acked :=
  congrArg Host.Outcome.next (State.cmdAccess_taken hi .rxRelease taken rfl)

theorem exec_rxSkip_taken {s : State} (hi : Byte) (taken : s.takesCmd 0x12) :
    exec (.rxSkip hi) s = .next (s.takeRxSkip s.win.page).acked :=
  congrArg Host.Outcome.next (State.cmdAccess_taken hi .rxSkip taken rfl)

/-- R89: a receive chain returned, with a change of the channel beside it, moves nothing but the channel and the free list. -/
theorem State.onLane_returnRx (s : State) (p : ChanId) (chain : List CellNo) (f : Chan → Chan) :
    (s.onLane p fun l => (l.returnChain .rx chain).mapChan f) =
      { s.setChan p (f { s.chan p with rxHolding := (s.chan p).rxHolding - chain.length }) with
        pool := { s.pool with free := s.pool.free ++ chain } } := rfl

theorem State.takeRxRelease_none {s : State} {p : ChanId} (free : (s.chan p).held = none) : s.takeRxRelease p = s.answer .state := by
  unfold State.takeRxRelease
  rw [free]

theorem State.takeRxRelease_held {s : State} {p : ChanId} {h : Held} (held : (s.chan p).held = some h) :
    s.takeRxRelease p =
      (s.onLane p fun l => (l.returnChain .rx h.desc.chain).mapChan fun c => { c with held := none }).answerWith
        h.desc.pktseq (natWord h.cursor) := by
  unfold State.takeRxRelease
  rw [held]

theorem State.takeRxSkip_empty {s : State} {p : ChanId} (empty : (s.chan p).rq = []) : s.takeRxSkip p = s.answer .empty := by
  unfold State.takeRxSkip
  rw [empty]

theorem State.takeRxSkip_head {s : State} {p : ChanId} {d : RxDesc} {rest : List RxDesc} (head : (s.chan p).rq = d :: rest) :
    s.takeRxSkip p =
      (s.onLane p fun l => (l.returnChain .rx d.chain).mapChan fun c => { c with rq := rest }).answerWith
        d.pktseq (natWord rest.length) := by
  unfold State.takeRxSkip
  rw [head]

/-- Settles O26: each command has a packet whose chain it returns, or none to return. -/
theorem rxReleaseAndRxSkipReturnTheirChains : Obligations.RxReleaseAndRxSkipReturnTheirChains := by
  refine ⟨fun s hi taken => ?_, fun s hi taken => ?_⟩
  · intro p c
    rw [exec_rxRelease_taken hi taken]
    refine ⟨fun free => ?_, fun h held => ?_⟩
    · rw [State.takeRxRelease_none free]
      rfl
    · rw [State.takeRxRelease_held held, State.onLane_returnRx]
      rfl
  · intro p c
    rw [exec_rxSkip_taken hi taken]
    refine ⟨fun empty => ?_, fun d rest head => ?_⟩
    · rw [State.takeRxSkip_empty empty]
      rfl
    · rw [State.takeRxSkip_head head, State.onLane_returnRx]
      rfl

end Sys2Proof.Machine
end

section
/-! PROOFS. The read port (R101 to R104): a read of RXDATA by the bus width, by what the channel holds and by the place of the cursor. -/
namespace Sys2Proof.Machine

open Sys2Proof

/-! ### The access in each bus width -/

/-- R101: in 16-bit mode the row is a port read of a word. -/
theorem exec_rxdataRead_word {s t : State} {w : Word} (ht : s.taking) (wide : s.win.width16 = true) (port : s.rxdataWord = (w, t)) :
    exec .rxdataRead s = .next (t.answered (.all w)) := by
  have read : s.readAccess 12 false = s.rxdataWord.2.answered (.all s.rxdataWord.1) := State.readAccess_word 12 false ht wide
  rw [port] at read
  exact congrArg Host.Outcome.next read

/-- R102: an 8-bit read of RXDATA is a port read of one byte, without the read latch. -/
theorem State.readAccess_rxdataByte {s : State} (odd : Bool) (ht : s.taking) (narrow : s.win.width16 = false) :
    s.readAccess 12 odd = s.rxdataByte.2.answered (.low s.rxdataByte.1) := by
  have h0 : s.win.inReset = false := ht
  simp [State.readAccess, h0, narrow]

theorem exec_rxdataRead_byte {s t : State} {b : Byte} (ht : s.taking) (narrow : s.win.width16 = false) (port : s.rxdataByte = (b, t)) :
    exec .rxdataRead s = .next (t.answered (.low b)) := by
  have read := State.readAccess_rxdataByte false ht narrow
  rw [port] at read
  exact congrArg Host.Outcome.next read

/-! ### What the port gives -/

section
variable {s : State} {h : Held}

theorem State.advanceHeld_held (n : Nat) (held : s.paged.held = some h) :
    s.advanceHeld n = s.setChan s.win.page { s.paged with held := some { h with cursor := h.cursor + n } } := by
  show s.setChan s.win.page { s.paged with held := s.paged.held.map _ } = _
  rw [held]
  rfl

theorem State.rxdataWord_none (free : s.paged.held = none) : s.rxdataWord = (0, s.porterr) := by
  unfold State.rxdataWord
  rw [free]

theorem State.rxdataWord_atEnd (held : s.paged.held = some h) (atEnd : h.cursor = h.desc.storelen) :
    s.rxdataWord = (0, s.porterr) := by
  unfold State.rxdataWord
  rw [held]
  dsimp only
  rw [if_neg (by omega), if_neg (by omega)]

theorem State.rxdataWord_oneLeft (held : s.paged.held = some h) (one : h.cursor + 1 = h.desc.storelen) :
    s.rxdataWord = (mkWord 0 (h.byteAt s.mem h.cursor),
      s.setChan s.win.page { s.paged with held := some { h with cursor := h.cursor + 1 } }) := by
  rw [← State.advanceHeld_held 1 held]
  unfold State.rxdataWord
  rw [held]
  dsimp only
  rw [if_neg (by omega), if_pos one]

theorem State.rxdataWord_twoLeft (held : s.paged.held = some h) (two : h.cursor + 2 ≤ h.desc.storelen) :
    s.rxdataWord = (mkWord (h.byteAt s.mem (h.cursor + 1)) (h.byteAt s.mem h.cursor),
      s.setChan s.win.page { s.paged with held := some { h with cursor := h.cursor + 2 } }) := by
  rw [← State.advanceHeld_held 2 held]
  unfold State.rxdataWord
  rw [held]
  exact if_pos two

theorem State.rxdataByte_none (free : s.paged.held = none) : s.rxdataByte = (0, s.porterr) := by
  unfold State.rxdataByte
  rw [free]

theorem State.rxdataByte_atEnd (held : s.paged.held = some h) (atEnd : h.cursor = h.desc.storelen) :
    s.rxdataByte = (0, s.porterr) := by
  unfold State.rxdataByte
  rw [held]
  exact if_neg (Nat.not_lt_of_le atEnd.ge)

theorem State.rxdataByte_left (held : s.paged.held = some h) (left : h.cursor < h.desc.storelen) :
    s.rxdataByte = (h.byteAt s.mem h.cursor,
      s.setChan s.win.page { s.paged with held := some { h with cursor := h.cursor + 1 } }) := by
  rw [← State.advanceHeld_held 1 held]
  unfold State.rxdataByte
  rw [held]
  exact if_pos left

end

/-! ### The statement -/

/-- Settles O17: in each width the channel holds no packet, or one with its cursor at the end or short of it. -/
theorem rxdataReadReturnsHeldBytes : Obligations.RxdataReadReturnsHeldBytes := by
  refine ⟨fun s ht wide => ?_, fun s ht narrow => ?_⟩
  · refine ⟨fun free => ?_, fun h held => ⟨fun atEnd => ?_, fun one => ?_, fun two => ?_⟩⟩
    · exact exec_rxdataRead_word ht wide (State.rxdataWord_none free)
    · exact exec_rxdataRead_word ht wide (State.rxdataWord_atEnd held atEnd)
    · exact exec_rxdataRead_word ht wide (State.rxdataWord_oneLeft held one)
    · exact exec_rxdataRead_word ht wide (State.rxdataWord_twoLeft held two)
  · refine ⟨fun free => ?_, fun h held => ⟨fun atEnd => ?_, fun left => ?_⟩⟩
    · exact exec_rxdataRead_byte ht narrow (State.rxdataByte_none free)
    · exact exec_rxdataRead_byte ht narrow (State.rxdataByte_atEnd held atEnd)
    · exact exec_rxdataRead_byte ht narrow (State.rxdataByte_left held left)

end Sys2Proof.Machine
end

section
/-! PROOFS. The transmit commands (R112, R115, R116), outcome by outcome. -/
namespace Sys2Proof.Machine

open Sys2Proof

/-! ### TX_ALLOC (R112) -/

theorem exec_txAlloc_taken {s : State} (hi : Byte) (taken : s.takesCmd 0x20) :
    exec (.txAlloc hi) s = .next (s.takeTxAlloc s.win.page).acked :=
  congrArg Host.Outcome.next (State.cmdAccess_taken hi .txAlloc taken rfl)

section
variable {s : State} {p : ChanId}

theorem State.takeTxAlloc_badLength (bad : s.cu.arg0.toNat = 0 ∨ 4095 < s.cu.arg0.toNat) :
    s.takeTxAlloc p = s.answer .badarg := if_pos bad

theorem State.takeTxAlloc_open (good : ¬(s.cu.arg0.toNat = 0 ∨ 4095 < s.cu.arg0.toNat)) (filling : (s.chan p).fill ≠ none) :
    s.takeTxAlloc p = s.answer .state :=
  (if_neg good).trans (if_pos (Option.isSome_iff_ne_none.mpr filling))

/-- Past the tests of the length and of an open fill packet, the claim decides. -/
theorem State.takeTxAlloc_claim (good : ¬(s.cu.arg0.toNat = 0 ∨ 4095 < s.cu.arg0.toNat)) (free : (s.chan p).fill = none) :
    s.takeTxAlloc p =
      if (s.lane p).canClaim .tx (cellsFor s.cu.arg0.toNat) then
        (s.onLane p fun l =>
          (l.grant s.globals.poolthr .tx (cellsFor s.cu.arg0.toNat)).mapChan fun c =>
            { c with fill := some ⟨s.cu.arg0.toNat, 0, l.claimed (cellsFor s.cu.arg0.toNat)⟩ }).answerWith
          (natWord (cellsFor s.cu.arg0.toNat)) (natWord s.cu.arg0.toNat)
      else s.answer .nospace := by
  have shut : ¬(s.chan p).fill.isSome = true := by rw [free]; nofun
  exact (if_neg good).trans (if_neg shut)

/-- R85 while the pool is READY: FREE and the quota decide the claim of a fill packet. -/
theorem State.canClaim_tx_iff (ready : s.pool.state = .ready) (n : Nat) :
    (s.lane p).canClaim .tx n = true ↔
      n ≤ s.pool.free.length ∧ (s.chan p).txHolding + n ≤ (s.chan p).cfg.txquota.toNat :=
  (Lane.canClaim_iff ..).trans ⟨fun ⟨_, room, quota⟩ => ⟨room, quota⟩, fun ⟨room, quota⟩ => ⟨ready, room, quota⟩⟩

end

/-- Settles O27: the tests in their order, the last of them the claim. -/
theorem txAllocClaimsTheWholePacket : Obligations.TxAllocClaimsTheWholePacket := by
  intro s hi taken p c len n fits
  have ready : s.pool.state = .ready := taken.2.1
  have claim : (s.lane p).canClaim .tx (cellsFor len) = true ↔ fits := State.canClaim_tx_iff ready n
  rw [exec_txAlloc_taken hi taken]
  refine ⟨fun bad => ?_, fun low high filling => ?_, fun low high free full => ?_, fun low high free room => ?_⟩
  · rw [State.takeTxAlloc_badLength bad]
    rfl
  · rw [State.takeTxAlloc_open (by omega) filling]
    rfl
  · rw [State.takeTxAlloc_claim (by omega) free, if_neg (mt claim.mp full)]
    rfl
  · rw [State.takeTxAlloc_claim (by omega) free, if_pos (claim.mpr room)]
    rfl

/-! ### TX_SUBMIT (R115) -/

theorem exec_txSubmit_taken {s : State} (hi : Byte) (taken : s.takesCmd 0x21) :
    exec (.txSubmit hi) s = .next (s.takeTxSubmit s.win.page).acked :=
  congrArg Host.Outcome.next (State.cmdAccess_taken hi .txSubmit taken rfl)

section
variable {s : State} {p : ChanId} {f : FillPkt}

theorem State.takeTxSubmit_none (free : (s.chan p).fill = none) : s.takeTxSubmit p = s.answer .state := by
  unfold State.takeTxSubmit
  dsimp only
  rw [free]

theorem State.takeTxSubmit_short (filling : (s.chan p).fill = some f) (short : f.cursor < f.len) :
    s.takeTxSubmit p = s.answer .short := by
  unfold State.takeTxSubmit
  dsimp only
  rw [filling]
  exact if_pos short

theorem State.takeTxSubmit_full (filling : (s.chan p).fill = some f) (whole : f.len ≤ f.cursor) (full : 16 ≤ (s.chan p).tq.length) :
    s.takeTxSubmit p = s.answer .qfull := by
  unfold State.takeTxSubmit
  dsimp only
  rw [filling]
  exact (if_neg (by omega)).trans (if_pos full)

theorem State.takeTxSubmit_queued (filling : (s.chan p).fill = some f) (whole : f.len ≤ f.cursor)
    (room : (s.chan p).tq.length < 16) :
    s.takeTxSubmit p =
      (s.setChan p { s.chan p with
        tq := (s.chan p).tq ++ [⟨(s.chan p).nextTxseq, f.len, f.chain⟩], fill := none
        nextTxseq := (s.chan p).nextTxseq + 1 }).answerWith (s.chan p).nextTxseq (natWord ((s.chan p).tq.length + 1)) := by
  unfold State.takeTxSubmit
  dsimp only
  rw [filling]
  exact (if_neg (by omega)).trans (if_neg (by omega))

end

/-- Settles O28: no fill packet, one not yet written, or one written whole that finds the queue full or not. -/
theorem txSubmitQueuesTheFilledPacket : Obligations.TxSubmitQueuesTheFilledPacket := by
  intro s hi taken p c
  rw [exec_txSubmit_taken hi taken]
  refine ⟨fun free => ?_, fun f filling => ⟨fun short => ?_, fun whole full => ?_, fun whole room => ?_⟩⟩
  · rw [State.takeTxSubmit_none free]
    rfl
  · rw [State.takeTxSubmit_short filling short]
    rfl
  · rw [State.takeTxSubmit_full filling whole full]
    rfl
  · rw [State.takeTxSubmit_queued filling whole room]
    rfl

/-! ### TX_CANCEL (R116) -/

theorem exec_txCancel_taken {s : State} (hi : Byte) (taken : s.takesCmd 0x22) :
    exec (.txCancel hi) s = .next (s.takeTxCancel s.win.page).acked :=
  congrArg Host.Outcome.next (State.cmdAccess_taken hi .txCancel taken rfl)

theorem State.takeTxCancel_none {s : State} {p : ChanId} (free : (s.chan p).fill = none) : s.takeTxCancel p = s.answer .state := by
  unfold State.takeTxCancel
  rw [free]

/-- The fill packet's chain goes back to the pool, and the channel has no fill packet any more. -/
theorem State.takeTxCancel_filling {s : State} {p : ChanId} {f : FillPkt} (filling : (s.chan p).fill = some f) :
    s.takeTxCancel p =
      ({ s.setChan p { s.chan p with fill := none, txHolding := (s.chan p).txHolding - f.chain.length } with
        pool := { s.pool with free := s.pool.free ++ f.chain } } : State).answerWith (natWord f.chain.length) (natWord f.cursor) := by
  unfold State.takeTxCancel
  rw [filling]
  rfl

/-- Settles O29: the paged channel has a fill packet, whose chain goes back, or has none. -/
theorem txCancelReturnsTheFillPacket : Obligations.TxCancelReturnsTheFillPacket := by
  intro s hi taken p c
  rw [exec_txCancel_taken hi taken]
  refine ⟨fun free => ?_, fun f filling => ?_⟩
  · rw [State.takeTxCancel_none free]
    rfl
  · rw [State.takeTxCancel_filling filling]
    rfl

end Sys2Proof.Machine
end

section
/-! PROOFS. The fill port (R113, R114): a write of TXDATA by the bus width and by the room left in the fill packet, and a read of TXDATA. -/
namespace Sys2Proof.Machine

open Sys2Proof

/-! ### The access in each bus width -/

section
variable {s : State} {d : Word}

/-- R113: in 16-bit mode the row is a port write of a word. -/
theorem exec_txdataWrite_word (ht : s.taking) (wide : s.win.width16 = true) :
    exec (.txdataWrite d) s = .next (s.txdataWord d).acked := by
  have h0 : s.win.inReset = false := ht
  have word : s.writeAccess 13 d = (s.txdataWord d).acked := by
    simp [State.writeAccess, h0, wide, Window.committed, State.writeWord, State.acked_eq]
  exact congrArg Host.Outcome.next word

/-- R114: in 8-bit mode it is a port write of one byte, without the holding latch. -/
theorem State.writeAccess_txdataByte (ht : s.taking) (narrow : s.win.width16 = false) :
    s.writeAccess 13 d = (s.txdataByte (lowByte d)).acked := by
  have h0 : s.win.inReset = false := ht
  simp [State.writeAccess, h0, narrow, State.acked_eq]

/-- R114: the even byte address is a port write too. -/
theorem State.evenWriteAccess_txdata (ht : s.taking) : s.evenWriteAccess 13 d = s.writeAccess 13 d := by
  have h0 : s.win.inReset = false := ht
  simp [State.evenWriteAccess, h0]

theorem exec_txdataWrite_byte {i : Instr} (ht : s.taking) (narrow : s.win.width16 = false)
    (row : i = .txdataWrite d ∨ i = .evenByteWrite 13 d) : exec i s = .next (s.txdataByte (lowByte d)).acked := by
  have byte := State.writeAccess_txdataByte (d := d) ht narrow
  rcases row with rfl | rfl
  · exact congrArg Host.Outcome.next byte
  · exact congrArg Host.Outcome.next ((State.evenWriteAccess_txdata ht).trans byte)

end

/-! ### What the port takes -/

section
variable {s : State} {f : FillPkt}

theorem State.fillRoom_none (free : s.paged.fill = none) : s.fillRoom = 0 := by
  unfold State.fillRoom
  rw [free]
  rfl

theorem State.fillRoom_filling (filling : s.paged.fill = some f) : s.fillRoom = f.len - f.cursor := by
  unfold State.fillRoom
  rw [filling]
  rfl

/-- A byte written where there is room stands at the fill cursor, which moves past it. -/
theorem State.fillByte_room (v : Byte) (filling : s.paged.fill = some f) (room : f.cursor < f.len) :
    s.fillByte v =
      { s.setChan s.win.page { s.paged with fill := some { f with cursor := f.cursor + 1 } } with
        mem := packetWrite s.mem f.chain f.cursor v } := by
  unfold State.fillByte
  rw [filling]
  exact if_pos room

/-- A second change of a channel and of packet memory replaces the first. -/
theorem State.setChan_mem_setChan_mem (s : State) (p : ChanId) (c d : Chan) (m n : List Host.Cell) :
    ({ ({ s.setChan p c with mem := m } : State).setChan p d with mem := n } : State) = { s.setChan p d with mem := n } := by
  simp [State.setChan]

/-- Two bytes written one after the other stand at the fill cursor and behind it. -/
theorem State.fillByte_fillByte_room (v w : Byte) (filling : s.paged.fill = some f) (room : f.cursor + 2 ≤ f.len) :
    (s.fillByte v).fillByte w =
      { s.setChan s.win.page { s.paged with fill := some { f with cursor := f.cursor + 2 } } with
        mem := packetWrite (packetWrite s.mem f.chain f.cursor v) f.chain (f.cursor + 1) w } := by
  have first := State.fillByte_room v filling (Nat.lt_of_succ_lt room)
  have page : (s.fillByte v).win.page = s.win.page := by rw [first]; rfl
  have paged : (s.fillByte v).paged = { s.paged with fill := some { f with cursor := f.cursor + 1 } } := by
    rw [State.paged, page, first]
    exact State.chan_setChan_self ..
  have filled : (s.fillByte v).paged.fill = some { f with cursor := f.cursor + 1 } := by rw [paged]
  rw [State.fillByte_room w filled room, paged, first]
  exact State.setChan_mem_setChan_mem ..

theorem State.txdataWord_full (d : Word) (full : s.fillRoom = 0) : s.txdataWord d = s.porterr := by
  unfold State.txdataWord
  rw [full]
  rfl

theorem State.txdataWord_oneLeft (d : Word) (one : s.fillRoom = 1) : s.txdataWord d = (s.fillByte (lowByte d)).porterr := by
  unfold State.txdataWord
  rw [one]
  rfl

theorem State.txdataWord_twoLeft (d : Word) (two : 2 ≤ s.fillRoom) :
    s.txdataWord d = (s.fillByte (lowByte d)).fillByte (highByte d) := if_pos two

theorem State.txdataByte_full (v : Byte) (full : s.fillRoom = 0) : s.txdataByte v = s.porterr := by
  unfold State.txdataByte
  rw [full]
  rfl

theorem State.txdataByte_left (v : Byte) (left : 1 ≤ s.fillRoom) : s.txdataByte v = s.fillByte v := if_pos left

end

/-! ### The statement -/

/-- R113: a read of TXDATA gives 0. -/
theorem exec_idataRead_txdata {s : State} (odd : Bool) (ht : s.taking) (wide : s.win.width16 = true) :
    exec (.idataRead 13 odd) s = .next (s.answered (.all 0)) :=
  congrArg Host.Outcome.next (State.readAccess_word 13 odd ht wide)

/-- Settles O18: in each width the channel has no fill packet, or one with its cursor at the end or short of it. -/
theorem txdataWriteFillsTheFillPacket : Obligations.TxdataWriteFillsTheFillPacket := by
  refine ⟨fun s d ht wide => ?_, fun s d i ht narrow row => ?_, fun s odd ht wide => ?_⟩
  · intro p c portError
    rw [exec_txdataWrite_word ht wide]
    refine ⟨fun free => ?_, fun f fill => ?_⟩
    · rw [State.txdataWord_full d (State.fillRoom_none free)]
      rfl
    · have room := State.fillRoom_filling fill
      refine ⟨fun atEnd => ?_, fun one => ?_, fun two => ?_⟩
      · rw [State.txdataWord_full d (by omega)]
        rfl
      · rw [State.txdataWord_oneLeft d (by omega), State.fillByte_room _ fill (by omega)]
        rfl
      · rw [State.txdataWord_twoLeft d (by omega), State.fillByte_fillByte_room _ _ fill two]
        rfl
  · intro p c portError
    rw [exec_txdataWrite_byte ht narrow row]
    refine ⟨fun free => ?_, fun f fill => ?_⟩
    · rw [State.txdataByte_full _ (State.fillRoom_none free)]
      rfl
    · have room := State.fillRoom_filling fill
      refine ⟨fun atEnd => ?_, fun left => ?_⟩
      · rw [State.txdataByte_full _ (by omega)]
        rfl
      · rw [State.txdataByte_left _ (by omega), State.fillByte_room _ fill left]
        rfl
  · exact exec_idataRead_txdata odd ht wide

end Sys2Proof.Machine
end

section
/-! PROOFS. Falling edges of the transmit clock (R118 to R122, R124 to R126): what each bit of a byte does, a frame start, a block boundary, and the
bits between them. -/
namespace Sys2Proof.Machine

open Sys2Proof

theorem exec_txclkFallingEdge (ch : ChanId) (s : State) : exec (.txclkFallingEdge ch) s = .next (s.txEdge ch) := rfl

theorem exec_frameStart (ch : ChanId) (s : State) : exec (.frameStart ch) s = .next (s.txEdge ch) := rfl

theorem exec_blockBoundary (ch : ChanId) (s : State) : exec (.blockBoundary ch) s = .next (s.txEdge ch) := rfl

/-! ### The bits of a byte (R119) -/

/-- The framer `f` after an edge that presents bit number `pos` of the frame, out of the byte `out`. -/
def Framer.shows (out : Byte) (pos : Nat) (f : Framer) : Framer :=
  { f with outByte := out, txd := out.getLsbD (7 - pos % 8), presented := true, bitPos := some (pos + 1) }

/-- A lane whose framer presents bit number `pos` of the frame, out of the byte that is going out. -/
def Lane.shows (pos : Nat) (l : Lane) : Lane := l.mapChan fun c => { c with fr := c.fr.shows c.fr.outByte pos }

/-- A lane with its framer replaced. -/
def Lane.setFr (g : Framer) (l : Lane) : Lane := l.mapChan fun c => { c with fr := g }

theorem Framer.shows_first {pos : Nat} (h0 : pos % 8 = 0) (out : Byte) (f : Framer) :
    f.shows out pos = { f with outByte := out, txd := out.getLsbD 7, presented := true, bitPos := some (pos + 1) } := by
  unfold Framer.shows
  rw [h0]

section
variable {l : Lane} {pos : Nat}

/-- A byte's first bit is that of the byte loaded. -/
theorem Lane.presentNext_first {f : Framer} {out : Byte} (h0 : pos % 8 = 0)
    (load : l.loadByte (pos / 8) = l.setFr { f with outByte := out }) : l.presentNext pos = l.setFr (f.shows out pos) := by
  rw [Lane.presentNext_inner (by omega), if_pos h0, load]
  rfl

theorem Lane.presentNext_middle (h0 : pos % 8 ≠ 0) (h7 : pos % 8 ≠ 7) : l.presentNext pos = l.shows pos := by
  rw [Lane.presentNext_inner h7, if_neg h0]
  rfl

theorem Lane.presentNext_shows_last (h7 : pos % 8 = 7) (short : pos + 1 ≠ 8 * l.c.fr.flenInUse) :
    l.presentNext pos = (l.shows pos).byteSent (pos / 8) := by
  rw [Lane.presentNext_lastOfByte h7 short, Lane.shows]
  unfold Framer.shows
  rw [h7]
  rfl

end

/-- An edge that leaves a frame in progress ends no drain. -/
theorem State.txEdge_within {s : State} {ch : ChanId} {l : Lane} {k : Nat} (edge : (s.lane ch).fallingEdge = l)
    (within : l.c.fr.bitPos = some k) : s.txEdge ch = s.setLane ch l := by
  rw [State.txEdge_of_running, edge]
  rw [edge]
  exact Chan.drainOver_of_bitPos within

/-! ### Frame starts (R119, R120, R124 to R126) -/

/-- R124: at this frame start a NORMAL framer with no packet in flight enters ALARM. -/
abbrev Chan.EntersAlarm (c : Chan) : Prop := c.fr.mode = .normal ∧ c.cfg.sendalarm = 1 ∧ c.fr.inflight = none

/-- R125: at this frame start the framer leaves ALARM. -/
abbrev Chan.LeavesAlarm (c : Chan) : Prop := c.fr.mode = .alarm ∧ c.cfg.sendalarm = 0

/-- R124 and R125 together: a frame start enters ALARM, or leaves it, or goes on in the framer's mode. -/
theorem Chan.applyModeRules_eq (c : Chan) :
    c.applyModeRules = { c with fr := { c.fr with
      mode := if c.EntersAlarm then .alarm else if c.LeavesAlarm then .normal else c.fr.mode
      owed := if c.EntersAlarm ∨ c.LeavesAlarm then 0 else c.fr.owed
      kind := if c.EntersAlarm ∨ c.LeavesAlarm then .idleHeader else c.fr.kind } } := by
  unfold Chan.applyModeRules
  by_cases enters : c.EntersAlarm
  · have changes : c.EntersAlarm ∨ c.LeavesAlarm := .inl enters
    rw [if_pos enters, if_pos changes, if_pos changes]
    obtain ⟨normal, alarm⟩ := enters
    rw [normal]
    exact if_pos alarm
  · by_cases leaves : c.LeavesAlarm
    · have changes : c.EntersAlarm ∨ c.LeavesAlarm := .inr leaves
      rw [if_neg enters, if_pos leaves, if_pos changes, if_pos changes]
      obtain ⟨alarm, quiet⟩ := leaves
      rw [alarm]
      exact if_pos quiet
    · have stays : ¬(c.EntersAlarm ∨ c.LeavesAlarm) := not_or.mpr ⟨enters, leaves⟩
      rw [if_neg enters, if_neg leaves, if_neg stays, if_neg stays]
      split
      · next normal => exact if_neg fun alarm => enters ⟨normal, alarm⟩
      · next alarm => exact if_neg fun quiet => leaves ⟨alarm, quiet⟩

/-- R5: PV and FE as the numbers they add to the STAT byte. -/
theorem statByteOf_decide (pv : Prop) [Decidable pv] (fe : Bool) :
    statByteOf (decide pv) fe = BitVec.ofNat 8 ((if pv then 128 else 0) + if fe then 64 else 0) := by
  by_cases pv <;> cases fe <;> simp [statByteOf, *]

/-- R120: the bytes owed stand in FBO in a NORMAL frame whose payload they do not fill, else 0xFFFF. -/
theorem Framer.fbo_eq (f : Framer) :
    f.fbo = if f.mode = .normal ∧ f.owed < f.flenInUse - 8 then BitVec.ofNat 16 f.owed else 0xFFFF := by
  unfold Framer.fbo Framer.payloadLen natWord
  cases f.mode <;> simp

/-- R119: the overhead composed, field by field. -/
theorem Chan.composed_eq (c : Chan) :
    c.composed = {
      fcnt := c.fr.nextFcnt
      stat := BitVec.ofNat 8 ((if c.fr.mode = .normal then 128 else 0) + if c.feSent then 64 else 0)
      fbo := if c.fr.mode = .normal ∧ c.fr.owed < c.fr.flenInUse - 8 then BitVec.ofNat 16 c.fr.owed else 0xFFFF
      label := lowByte c.cfg.txlabel, fchk := c.fr.prevXor } := by
  rw [← statByteOf_decide, ← Framer.fbo_eq]
  rfl

/-- R119: a frame start of the channel `m` that the mode rules leave. -/
theorem Chan.frameStart_of_rules {c m : Chan} (rules : c.applyModeRules = m) :
    c.frameStart = { m with fr := { m.fr with
      bitPos := some 0
      nextFcnt := m.fr.nextFcnt + 1
      overhead := {
        fcnt := m.fr.nextFcnt
        stat := BitVec.ofNat 8 ((if m.fr.mode = .normal then 128 else 0) + if m.feSent then 64 else 0)
        fbo := if m.fr.mode = .normal ∧ m.fr.owed < m.fr.flenInUse - 8 then BitVec.ofNat 16 m.fr.owed else 0xFFFF
        label := lowByte m.cfg.txlabel, fchk := m.fr.prevXor } } } := by
  rw [← Chan.composed_eq, ← rules]
  rfl

/-- A frame start is followed by the first bit of MARK. -/
theorem Lane.fallingEdge_frameStart {l : Lane} (running : l.c.fr.running = true) (idle : l.c.fr.bitPos = none) :
    l.fallingEdge = l.mapChan fun c => { c.frameStart with fr := c.frameStart.fr.shows 0xB5 0 } :=
  (Lane.fallingEdge_start running idle).trans
    (Lane.presentNext_first (f := l.c.frameStart.fr) rfl (Lane.loadByte_overhead (by decide)))

theorem State.txEdge_frameStart {s : State} {ch : ChanId} (running : (s.chan ch).fr.running = true)
    (idle : (s.chan ch).fr.bitPos = none) :
    s.txEdge ch = s.setChan ch { (s.chan ch).frameStart with fr := (s.chan ch).frameStart.fr.shows 0xB5 0 } :=
  State.txEdge_within (k := 1) (Lane.fallingEdge_frameStart running idle) rfl

/-- Settles O48: the mode rules, then the overhead of the channel they leave, then the first bit of MARK. -/
theorem frameStartComposesTheOverhead : Obligations.FrameStartComposesTheOverhead := by
  intro s ch c f enters leaves mode owed fe running idle
  rw [exec_frameStart, State.txEdge_frameStart running idle, Chan.frameStart_of_rules (Chan.applyModeRules_eq c)]
  rfl

/-! ### Block boundaries (R121, R122) -/

theorem Chan.blockBoundary_starts {c : Chan} {d : TxDesc} {rest : List TxDesc} (head : c.tq = d :: rest) (active : c.admin = .active)
    (quiet : c.cfg.sendalarm = 0) :
    c.blockBoundary = { c with
      tq := rest, fr := { c.fr with owed := d.len + 2, kind := .packetHeader, inflight := some ⟨d, 0⟩ } } := by
  unfold Chan.blockBoundary
  rw [head]
  exact if_pos ⟨active, quiet⟩

theorem Chan.blockBoundary_idles {c : Chan} (idle : c.tq = [] ∨ c.admin ≠ .active ∨ c.cfg.sendalarm ≠ 0) :
    c.blockBoundary = { c with fr := { c.fr with owed := 2, kind := .idleHeader } } := by
  unfold Chan.blockBoundary
  cases queue : c.tq with
  | nil => rfl
  | cons d rest =>
    refine if_neg ?_
    rintro ⟨active, quiet⟩
    rcases idle with empty | stopped | alarm
    · rw [queue] at empty
      nomatch empty
    · exact stopped active
    · exact alarm quiet

section
variable {l : Lane}

/-- R122: the two bytes of the idle header 0x000F, of the header of LEN 0. -/
theorem Lane.streamByte_idleFirst (kind : l.c.fr.kind = .idleHeader) (owed : l.c.fr.owed = 2) : l.streamByte = 0x00 := by
  unfold Lane.streamByte
  rw [kind]
  exact (if_pos owed).trans (by decide)

theorem Lane.streamByte_idleSecond (kind : l.c.fr.kind = .idleHeader) (owed : l.c.fr.owed = 1) : l.streamByte = 0x0F := by
  unfold Lane.streamByte
  rw [kind]
  exact (if_neg (by omega)).trans (by decide)

theorem Lane.streamByte_headerFirst {p : InFlight} (kind : l.c.fr.kind = .packetHeader) (flight : l.c.fr.inflight = some p)
    (owed : l.c.fr.owed = p.desc.len + 2) : l.streamByte = highByte (headerOf p.desc.len) := by
  unfold Lane.streamByte
  rw [kind, flight]
  exact if_pos owed

theorem Lane.streamByte_headerSecond {p : InFlight} (kind : l.c.fr.kind = .packetHeader) (flight : l.c.fr.inflight = some p)
    (owed : l.c.fr.owed = p.desc.len + 1) : l.streamByte = lowByte (headerOf p.desc.len) := by
  unfold Lane.streamByte
  rw [kind, flight]
  exact if_neg (by omega)

theorem Lane.streamByte_body {p : InFlight} (kind : l.c.fr.kind = .packetBody) (flight : l.c.fr.inflight = some p) :
    l.streamByte = packetByte l.mem p.desc.chain p.cursor := by
  unfold Lane.streamByte
  rw [kind, flight]

end

/-- At a payload position of a NORMAL frame with no byte owed, the boundary makes `b` of the channel, and the first bit of its first byte `out` is
presented. -/
theorem State.txEdge_blockBoundary {s : State} {ch : ChanId} {off : Nat} {b : Chan} {out : Byte}
    (running : (s.chan ch).fr.running = true) (at_off : (s.chan ch).fr.bitPos = some (8 * off)) (payload : 8 ≤ off)
    (normal : (s.chan ch).fr.mode = .normal) (none_owed : (s.chan ch).fr.owed = 0) (block : (s.chan ch).blockBoundary = b)
    (byte : Lane.streamByte { s.lane ch with c := b } = out) :
    s.txEdge ch = s.setChan ch { b with fr := b.fr.shows out (8 * off) } := by
  have first : 8 * off % 8 = 0 := by omega
  have place : 8 * off / 8 = off := by omega
  have load : (s.lane ch).loadByte off = { s.lane ch with c := { b with fr := { b.fr with outByte := out } } } := by
    rw [Lane.loadByte_boundary payload normal none_owed, ← byte, ← block]
    rfl
  have edge : (s.lane ch).fallingEdge = { s.lane ch with c := { b with fr := b.fr.shows out (8 * off) } } := by
    rw [Lane.fallingEdge_next running at_off, Lane.presentNext_inner (by omega), if_pos first, place, load, Framer.shows_first first, first]
    rfl
  exact State.txEdge_within (k := 8 * off + 1) edge rfl

/-- Settles O49: the boundary starts the head of the queue, or an idle block. -/
theorem blockBoundaryStartsAPacketOrAnIdleBlock : Obligations.BlockBoundaryStartsAPacketOrAnIdleBlock := by
  intro s ch off c f running at_off payload normal none_owed
  have first : 8 * off % 8 = 0 := by omega
  have edge := fun b out => State.txEdge_blockBoundary (b := b) (out := out) running at_off payload normal none_owed
  rw [exec_blockBoundary]
  refine ⟨fun d rest head active quiet => ?_, fun idle => ?_⟩
  · rw [edge _ _ (Chan.blockBoundary_starts head active quiet) (Lane.streamByte_headerFirst rfl rfl rfl), Framer.shows_first first]
  · rw [edge _ _ (Chan.blockBoundary_idles idle) (Lane.streamByte_idleFirst rfl rfl), Framer.shows_first first]
    rfl

/-! ### The bits between (R118, R119, R121, R122) -/

theorem State.txEdge_stopped {s : State} {ch : ChanId} (stopped : (s.chan ch).fr.running = false) :
    s.txEdge ch = s.setChan ch { s.chan ch with fr := { (s.chan ch).fr with txd := true } } := by
  rw [State.txEdge_of_stopped stopped]
  exact congrArg (s.setLane ch) (if_neg (by rw [State.lane_c, stopped]; nofun))

/-- A byte of the overhead, by its place in Table 21. -/
theorem Overhead.byteAt_eq (o : Overhead) {off : Nat} (h : off < 8) :
    o.byteAt off = [0xB5, 0x4E, o.fcnt, o.stat, highByte o.fbo, lowByte o.fbo, o.label, o.fchk].getD off 0 := by
  interval_cases off <;> rfl

/-- Within a frame, an edge that shows a bit of `out` and leaves the framer as `t` otherwise is a change of the framer alone. -/
theorem State.txEdge_shows {s : State} {ch : ChanId} {pos : Nat} {out : Byte} {t : Framer} (running : (s.chan ch).fr.running = true)
    (at_pos : (s.chan ch).fr.bitPos = some pos) (next : (s.lane ch).presentNext pos = (s.lane ch).setFr (t.shows out pos)) :
    s.txEdge ch = s.setChan ch { s.chan ch with fr := t.shows out pos } :=
  State.txEdge_within (k := pos + 1) ((Lane.fallingEdge_next running at_pos).trans next) rfl

/-- The framer with the byte going out in the running XOR (R119). -/
def Framer.xored (f : Framer) : Framer := { f with runXor := f.runXor ^^^ f.outByte }

/-- The framer with the byte going out sent, and the block stream and its flight as given after it (R122). -/
def Framer.sent (owed : Nat) (kind : BlockKind) (flight : Option InFlight) (f : Framer) : Framer :=
  { f.xored with owed := owed, kind := kind, inflight := flight }

/-- Once bit number `pos` of the frame, the last of the byte going out, has been shown and the byte sent, only the framer is changed: the stream and
its flight are as given. -/
def Lane.Sends (pos owed : Nat) (kind : BlockKind) (flight : Option InFlight) (l : Lane) : Prop :=
  (l.shows pos).byteSent (pos / 8) = l.setFr ((l.c.fr.sent owed kind flight).shows l.c.fr.outByte pos)

section
variable {l : Lane} {pos : Nat}

/-- A byte of the overhead or of an alarm payload is no byte of the block stream. -/
theorem Lane.sends_plain (plain : pos < 64 ∨ l.c.fr.mode = .alarm) : l.Sends pos l.c.fr.owed l.c.fr.kind l.c.fr.inflight :=
  Lane.byteSent_plain (plain.imp_left fun h => by omega)

/-- A payload byte of a NORMAL frame is a byte of the block stream. -/
theorem Lane.shows_byteSent_stream (payload : 64 ≤ pos) (normal : l.c.fr.mode = .normal) :
    (l.shows pos).byteSent (pos / 8) = (l.setFr (l.c.fr.xored.shows l.c.fr.outByte pos)).streamByteSent :=
  Lane.byteSent_stream (l := l.shows pos) (by omega) normal

theorem Lane.sends_idle (payload : 64 ≤ pos) (normal : l.c.fr.mode = .normal) (kind : l.c.fr.kind = .idleHeader) :
    l.Sends pos (l.c.fr.owed - 1) l.c.fr.kind l.c.fr.inflight :=
  (Lane.shows_byteSent_stream payload normal).trans (Lane.streamByteSent_idle kind)

section
variable {p : InFlight} (payload : 64 ≤ pos) (normal : l.c.fr.mode = .normal) (flight : l.c.fr.inflight = some p)
include payload normal flight

/-- A byte of a packet's header; once LEN bytes are owed the body begins. -/
theorem Lane.sends_header (kind : l.c.fr.kind = .packetHeader) :
    l.Sends pos (l.c.fr.owed - 1) (if l.c.fr.owed - 1 = p.desc.len then .packetBody else .packetHeader) l.c.fr.inflight :=
  (Lane.shows_byteSent_stream payload normal).trans (Lane.streamByteSent_header kind flight)

theorem Lane.sends_headerFirst (kind : l.c.fr.kind = .packetHeader) (owed : l.c.fr.owed = p.desc.len + 2) :
    l.Sends pos (p.desc.len + 1) l.c.fr.kind l.c.fr.inflight := by
  have left : l.c.fr.owed - 1 = p.desc.len + 1 := by omega
  have sends := Lane.sends_header payload normal flight kind
  rw [left, if_neg (by omega), ← kind] at sends
  exact sends

theorem Lane.sends_headerSecond (kind : l.c.fr.kind = .packetHeader) (owed : l.c.fr.owed = p.desc.len + 1) :
    l.Sends pos p.desc.len .packetBody l.c.fr.inflight := by
  have left : l.c.fr.owed - 1 = p.desc.len := by omega
  have sends := Lane.sends_header payload normal flight kind
  rw [left, if_pos rfl] at sends
  exact sends

/-- A body byte short of the last moves the send cursor. -/
theorem Lane.sends_body (kind : l.c.fr.kind = .packetBody) (owed : 1 < l.c.fr.owed) :
    l.Sends pos (l.c.fr.owed - 1) l.c.fr.kind (some { p with cursor := p.cursor + 1 }) := by
  have more : l.c.fr.owed - 1 ≠ 0 := by omega
  have sends : l.Sends pos (l.c.fr.owed - 1) l.c.fr.kind
      (l.c.fr.inflight.map fun p => { p with cursor := p.cursor + 1 }) :=
    (Lane.shows_byteSent_stream payload normal).trans (Lane.streamByteSent_body kind more)
  rw [flight] at sends
  exact sends

end
end

/-- A byte's first bit, short of a block boundary, within a frame. -/
theorem State.txEdge_first {s : State} {ch : ChanId} {pos : Nat} {out : Byte} (running : (s.chan ch).fr.running = true)
    (at_pos : (s.chan ch).fr.bitPos = some pos) (h0 : pos % 8 = 0)
    (load : (s.lane ch).loadByte (pos / 8) = (s.lane ch).setFr { (s.chan ch).fr with outByte := out }) :
    s.txEdge ch = s.setChan ch { s.chan ch with fr := (s.chan ch).fr.shows out pos } :=
  State.txEdge_shows running at_pos (Lane.presentNext_first h0 load)

/-- A byte of the block stream loaded. -/
theorem Lane.loadByte_streamByte {l : Lane} {pos : Nat} {out : Byte} (payload : 64 ≤ pos) (normal : l.c.fr.mode = .normal)
    (owed : l.c.fr.owed ≠ 0) (byte : l.streamByte = out) : l.loadByte (pos / 8) = l.setFr { l.c.fr with outByte := out } := by
  rw [← byte]
  exact Lane.loadByte_stream (by omega) normal owed

/-- A byte's last bit, short of the frame's last. -/
theorem State.txEdge_last {s : State} {ch : ChanId} {pos owed : Nat} {kind : BlockKind} {flight : Option InFlight}
    (running : (s.chan ch).fr.running = true) (at_pos : (s.chan ch).fr.bitPos = some pos) (h7 : pos % 8 = 7)
    (short : pos + 1 ≠ 8 * (s.chan ch).fr.flenInUse) (sends : (s.lane ch).Sends pos owed kind flight) :
    s.txEdge ch = s.setChan ch { s.chan ch with
      fr := ((s.chan ch).fr.sent owed kind flight).shows (s.chan ch).fr.outByte pos } :=
  State.txEdge_shows running at_pos ((Lane.presentNext_shows_last h7 short).trans sends)

/-- Settles O50: while STOPPED, a bit inside a byte, a byte's first bit by the kind of byte, and its last by the kind of byte. -/
theorem fallingEdgePresentsTheNextBit : Obligations.FallingEdgePresentsTheNextBit := by
  intro s ch pos c f present sent
  refine ⟨fun stopped => congrArg Host.Outcome.next (State.txEdge_stopped stopped), fun running at_pos => ?_⟩
  have first {out : Byte} (h0 : pos % 8 = 0) (load : (s.lane ch).loadByte (pos / 8) = (s.lane ch).setFr { f with outByte := out }) :
      present out f := congrArg Host.Outcome.next (State.txEdge_first running at_pos h0 load)
  have last {owed : Nat} {kind : BlockKind} {flight : Option InFlight} (h7 : pos % 8 = 7) (short : pos + 1 ≠ 8 * f.flenInUse)
      (sends : (s.lane ch).Sends pos owed kind flight) : present f.outByte (f.sent owed kind flight) :=
    congrArg Host.Outcome.next (State.txEdge_last running at_pos h7 short sends)
  refine ⟨fun h0 h7 => ?_, fun h0 overhead => ?_, fun h0 payload alarm => ?_, fun h0 payload normal kind owed => ?_,
    fun p h0 payload normal kind flight owed => ?_, fun p h0 payload normal kind owed flight => ?_, fun h7 plain short => ?_,
    fun h7 payload normal kind short => ?_, fun p h7 payload normal kind flight short => ⟨fun owed => ?_, fun owed => ?_⟩,
    fun p h7 payload normal kind owed flight short => ?_⟩
  · exact congrArg Host.Outcome.next (State.txEdge_shows running at_pos (Lane.presentNext_middle h0 h7))
  · refine first h0 ?_
    rw [← Overhead.byteAt_eq _ (by omega)]
    exact Lane.loadByte_overhead (by omega)
  · exact first h0 (Lane.loadByte_alarm (by omega) alarm)
  · exact first h0 (Lane.loadByte_streamByte payload normal (owed ▸ by decide) (Lane.streamByte_idleSecond kind owed))
  · exact first h0 (Lane.loadByte_streamByte payload normal (owed ▸ Nat.succ_ne_zero _) (Lane.streamByte_headerSecond kind flight owed))
  · exact first h0 (Lane.loadByte_streamByte payload normal owed (Lane.streamByte_body kind flight))
  · exact last h7 short (Lane.sends_plain plain)
  · exact last h7 short (Lane.sends_idle payload normal kind)
  · exact last h7 short (Lane.sends_headerFirst payload normal flight kind owed)
  · exact last h7 short (Lane.sends_headerSecond payload normal flight kind owed)
  · exact last h7 short (Lane.sends_body payload normal flight kind owed)

end Sys2Proof.Machine
end

section
/-! PROOFS. The ends on the transmit side (R119, R123, R129, R130, R143): of a packet, of a frame, of a drain, and of a drain's time. -/
namespace Sys2Proof.Machine

open Sys2Proof

theorem exec_packetEnd (ch : ChanId) (s : State) : exec (.packetEnd ch) s = .next (s.txEdge ch) := rfl

theorem exec_transmitFrameEnd (ch : ChanId) (s : State) : exec (.transmitFrameEnd ch) s = .next (s.txEdge ch) := rfl

theorem exec_drainEnd (ch : ChanId) (s : State) : exec (.drainEnd ch) s = .next (s.txEdge ch) := rfl

/-! ### The last bit of a packet (R123) -/

/-- The lane with its in-flight packet `p` ended and its framer as `g`: the chain returned, TXPKTS counted, TXDONE set. -/
def Lane.packetDone (p : InFlight) (g : Framer) (l : Lane) : Lane :=
  { l with
    c := { l.c with
      txHolding := l.c.txHolding - p.desc.chain.length
      live := { l.c.live with txpkts := countUp l.c.live.txpkts }
      flags := { l.c.flags with txdone := true }
      fr := g }
    pool := { l.pool with free := l.pool.free ++ p.desc.chain } }

/-- The last bit of the last body byte ends the packet. -/
theorem Lane.shows_byteSent_packetDone {l : Lane} {pos : Nat} {p : InFlight} (payload : 64 ≤ pos) (normal : l.c.fr.mode = .normal)
    (kind : l.c.fr.kind = .packetBody) (owed : l.c.fr.owed = 1) (flight : l.c.fr.inflight = some p) :
    (l.shows pos).byteSent (pos / 8) =
      l.packetDone p (Framer.shows l.c.fr.outByte pos (l.c.fr.sent 0 l.c.fr.kind none)) := by
  have left : l.c.fr.owed - 1 = 0 := by omega
  have flown : (l.c.fr.inflight.map fun p => { p with cursor := p.cursor + 1 }) = some { p with cursor := p.cursor + 1 } := by
    rw [flight]
    rfl
  have last := (Lane.shows_byteSent_stream payload normal).trans (Lane.streamByteSent_last kind left)
  have landed : (l.shows pos).byteSent (pos / 8) =
      l.packetDone p (Framer.shows l.c.fr.outByte pos (l.c.fr.sent (l.c.fr.owed - 1) l.c.fr.kind none)) :=
    last.trans (Lane.packetEnd_of_some (p := { p with cursor := p.cursor + 1 }) flown)
  rw [landed, left]

/-! ### The last bit of a frame (R119) -/

theorem Chan.drainOver_of_flight {c : Chan} (h : c.fr.inflight ≠ none) : c.drainOver = false := by
  have : c.fr.inflight.isNone = false := by rwa [Option.isNone_eq_false_iff, Option.isSome_iff_ne_none]
  simp [Chan.drainOver, this]

section
variable {s : State} {ch : ChanId} {pos : Nat} {m : Lane} (running : (s.chan ch).fr.running = true)
  (at_pos : (s.chan ch).fr.bitPos = some pos) (last : pos + 1 = 8 * (s.chan ch).fr.flenInUse)
  (sent : ((s.lane ch).shows pos).byteSent (pos / 8) = m)
include running at_pos last sent

/-- The frame's last bit sends the byte that it is the last bit of, and ends the frame. -/
theorem State.fallingEdge_lastOfFrame : (s.lane ch).fallingEdge = m.mapChan Chan.transmitFrameEnd := by
  have h7 : pos % 8 = 7 := by omega
  rw [Lane.fallingEdge_next running at_pos, Lane.presentNext_lastOfFrame last, ← sent]
  unfold Lane.shows Framer.shows
  rw [h7]
  rfl

/-- Unless a drain has its last packet sent with it, the frame's last bit is the framer's own event. -/
theorem State.txEdge_frameEnd (going : m.c.admin = .active ∨ m.c.fr.inflight ≠ none) :
    s.txEdge ch = s.setLane ch (m.mapChan Chan.transmitFrameEnd) := by
  have edge := State.fallingEdge_lastOfFrame running at_pos last sent
  rw [State.txEdge_of_running, edge]
  rw [edge]
  rcases going with active | flight
  · refine Chan.drainOver_of_admin ?_
    show m.c.admin ≠ .draining
    rw [active]
    nofun
  · exact Chan.drainOver_of_flight flight

/-- R129: in a drain with no packet left in flight it ends the drain. -/
theorem State.txEdge_drainEnd (draining : m.c.admin = .draining) (landed : m.c.fr.inflight = none) :
    s.txEdge ch = (s.setLane ch (m.mapChan Chan.transmitFrameEnd)).drainEnded ch := by
  have edge := State.fallingEdge_lastOfFrame running at_pos last sent
  have ends : (m.mapChan Chan.transmitFrameEnd).c.drainOver = true := by
    simp [Chan.drainOver, Chan.transmitFrameEnd, Chan.bump, draining, landed]
  rw [State.txEdge_of_drainOver running, edge]
  rw [edge]
  exact ends

end

/-- A frame's last bit with its byte sent as `Lane.Sends` says changes the channel alone: TXFRAMES and the framer. -/
theorem State.txEdge_frameEnd_sends {s : State} {ch : ChanId} {pos owed : Nat} {kind : BlockKind} {flight : Option InFlight}
    (running : (s.chan ch).fr.running = true) (at_pos : (s.chan ch).fr.bitPos = some pos)
    (last : pos + 1 = 8 * (s.chan ch).fr.flenInUse) (sends : (s.lane ch).Sends pos owed kind flight)
    (going : (s.chan ch).admin = .active ∨ flight ≠ none) :
    s.txEdge ch = s.setChan ch { s.chan ch with
      live := { (s.chan ch).live with txframes := countUp (s.chan ch).live.txframes }
      fr := { (s.chan ch).fr with
        owed := owed, kind := kind, inflight := flight, prevXor := (s.chan ch).fr.runXor ^^^ (s.chan ch).fr.outByte, runXor := 0
        bitPos := none, txd := (s.chan ch).fr.outByte.getLsbD 0, presented := true } } := by
  have bit : 7 - pos % 8 = 0 := by omega
  rw [State.txEdge_frameEnd running at_pos last sends going]
  unfold Framer.shows
  rw [bit]
  rfl

/-- A packet's last bit short of the frame's last. -/
theorem State.txEdge_packetDone {s : State} {ch : ChanId} {pos : Nat} {p : InFlight} {t : Framer}
    (running : (s.chan ch).fr.running = true) (at_pos : (s.chan ch).fr.bitPos = some pos) (h7 : pos % 8 = 7)
    (short : pos + 1 ≠ 8 * (s.chan ch).fr.flenInUse)
    (sent : ((s.lane ch).shows pos).byteSent (pos / 8) = (s.lane ch).packetDone p (t.shows (s.chan ch).fr.outByte pos)) :
    s.txEdge ch = s.setLane ch ((s.lane ch).packetDone p (t.shows (s.chan ch).fr.outByte pos)) :=
  State.txEdge_within (k := pos + 1)
    (((Lane.fallingEdge_next running at_pos).trans (Lane.presentNext_shows_last h7 short)).trans sent) rfl

/-- R119 while ACTIVE: whatever byte the frame's last bit sends. -/
theorem State.txEdge_frameEnd_active {s : State} {ch : ChanId} {pos : Nat} (running : (s.chan ch).fr.running = true)
    (at_pos : (s.chan ch).fr.bitPos = some pos) (last : pos + 1 = 8 * (s.chan ch).fr.flenInUse)
    (active : (s.chan ch).admin = .active) :
    ∃ m : Lane, s.txEdge ch = s.setLane ch (m.mapChan Chan.transmitFrameEnd) ∧
      ((s.lane ch).setFr ((s.chan ch).fr.xored.shows (s.chan ch).fr.outByte pos)).SendKept m := by
  have kept := Lane.byteSent_kept (pos / 8) ((s.lane ch).shows pos)
  exact ⟨_, State.txEdge_frameEnd running at_pos last rfl (.inl (kept.admin.trans active)), kept⟩

/-- Settles O51: the packet's last bit with and without the frame's, the frame's last bit by what every byte leaves alone, and the same by the kind
of byte that it is the last bit of. -/
theorem lastBitsEndThePacketAndTheFrame : Obligations.LastBitsEndThePacketAndTheFrame := by
  refine ⟨fun s ch pos p => ?_, fun s ch pos => ?_, fun s ch pos => ?_⟩
  · intro c f frameEnds xor running at_pos h7 payload going normal kind owed flight
    have sent := Lane.shows_byteSent_packetDone (l := s.lane ch) payload normal kind owed flight
    have bit : 7 - pos % 8 = 0 := by omega
    rw [exec_packetEnd]
    by_cases ends : frameEnds
    · have active : c.admin = .active := going.resolve_left (not_not_intro ends)
      rw [State.txEdge_frameEnd running at_pos ends sent (.inl active)]
      unfold Framer.shows
      rw [bit]
      simp only [if_pos ends]
      rfl
    · rw [State.txEdge_packetDone running at_pos h7 ends sent]
      unfold Framer.shows
      rw [bit]
      simp only [if_neg ends]
      rfl
  · intro c f running at_pos last active
    obtain ⟨m, edge, kept⟩ := State.txEdge_frameEnd_active running at_pos last active
    have bit : 7 - pos % 8 = 0 := by omega
    have txd : m.c.fr.txd = f.outByte.getLsbD 0 := kept.txd.trans (by rw [← bit]; rfl)
    have self : (s.setLane ch (m.mapChan Chan.transmitFrameEnd)).chan ch = m.c.transmitFrameEnd := State.chan_setLane_self ..
    refine ⟨_, congrArg Host.Outcome.next edge, ⟨fun k hk => State.chan_setLane_ne _ _ hk, rfl, rfl, rfl, rfl, rfl, rfl, rfl⟩,
      kept.mem, kept.gf, ?_⟩
    rw [self]
    exact ⟨kept.runXor, rfl, rfl, kept.running.trans running, txd, kept.nextFcnt, congrArg countUp kept.txframes,
      kept.admin.trans active, kept.al, kept.mon, kept.del, kept.rq, kept.held, kept.tq, kept.fill, kept.cfg⟩
  · intro c f ends running at_pos last long
    have payload : 64 ≤ pos := by omega
    have frameEnd {owed : Nat} {kind : BlockKind} {flight : Option InFlight} (sends : (s.lane ch).Sends pos owed kind flight)
        (going : c.admin = .active ∨ flight ≠ none) : ends { f with owed := owed, kind := kind, inflight := flight } :=
      congrArg Host.Outcome.next (State.txEdge_frameEnd_sends running at_pos last sends going)
    refine ⟨fun active alarm => ?_, fun active normal kind => ?_, fun p normal kind flight => ⟨fun owed => ?_, fun owed => ?_⟩,
      fun p normal kind owed flight => ?_⟩
    · exact frameEnd (Lane.sends_plain (.inr alarm)) (.inl active)
    · exact frameEnd (Lane.sends_idle payload normal kind) (.inl active)
    · exact frameEnd (Lane.sends_headerFirst payload normal flight kind owed) (.inr (flight ▸ nofun))
    · exact frameEnd (Lane.sends_headerSecond payload normal flight kind owed) (.inr (flight ▸ nofun))
    · exact frameEnd (Lane.sends_body payload normal flight kind owed) (.inr nofun)

/-! ### The end of a drain (R129, R143) -/

theorem State.chan_drainEnded_self (s : State) (ch : ChanId) :
    (s.drainEnded ch).chan ch = { s.chan ch with admin := .disabled, fr := (s.chan ch).fr.stop } :=
  (State.chan_stopCompleted ..).trans (State.chan_onChan_self ..)

theorem State.chan_drainEnded_ne (s : State) {ch k : ChanId} (hk : k ≠ ch) : (s.drainEnded ch).chan k = s.chan k :=
  (State.chan_stopCompleted ..).trans (State.chan_onChan_ne _ _ hk)

/-- The framer `f` with its frame ended and itself STOPPED. -/
def Framer.drained (f : Framer) : Framer :=
  { f with prevXor := f.runXor, runXor := 0, bitPos := none, running := false, drainTimer := none }

/-- What a drain's last frame leaves of the channel `c` that has sent its last byte. -/
theorem State.chan_drainEnded_frameEnd (s : State) (ch : ChanId) {m : Lane} {c : Chan} (hm : m.c = c) :
    ((s.setLane ch (m.mapChan Chan.transmitFrameEnd)).drainEnded ch).chan ch =
      { c with admin := .disabled, fr := c.fr.drained, live := { c.live with txframes := countUp c.live.txframes } } := by
  rw [State.chan_drainEnded_self, State.chan_setLane_self, ← hm]
  rfl

/-- Settles O52: the drain's last bit sends a byte that leaves no packet in flight: with none in flight only the framer is changed by it, and a last
body byte ends the packet. -/
theorem drainEndsWithItsLastFrame : Obligations.DrainEndsWithItsLastFrame := by
  intro s ch pos c f running at_pos last long draining landing
  have payload : 64 ≤ pos := by omega
  have others (l : Lane) {k : ChanId} (hk : k ≠ ch) : ((s.setLane ch l).drainEnded ch).chan k = s.chan k :=
    (State.chan_drainEnded_ne _ hk).trans (State.chan_setLane_ne _ _ hk)
  rw [exec_drainEnd]
  cases flight : f.inflight with
  | none =>
    have sent := Lane.byteSent_noFlight_framer (off := pos / 8) (l := (s.lane ch).shows pos) flight
    have landed := Lane.byteSent_noFlight (off := pos / 8) (l := (s.lane ch).shows pos) flight
    generalize (((s.lane ch).shows pos).byteSent (pos / 8)).c.fr = g at sent landed
    have edge := State.txEdge_drainEnd running at_pos last sent draining landed
    refine ⟨_, congrArg Host.Outcome.next edge, fun k hk => others _ hk, rfl, rfl, rfl, rfl, rfl, rfl, ?_⟩
    rw [State.chan_drainEnded_frameEnd s ch (c := { c with fr := g }) rfl]
    exact ⟨rfl, rfl, rfl, rfl, landed, rfl, rfl, rfl, rfl, rfl, rfl, rfl, fun _ => ⟨rfl, rfl⟩, nofun⟩
  | some p =>
    obtain ⟨normal, kind, owed⟩ := landing.resolve_left (by rw [flight]; nofun)
    have sent := Lane.shows_byteSent_packetDone (l := s.lane ch) payload normal kind owed flight
    have edge := State.txEdge_drainEnd running at_pos last sent draining rfl
    refine ⟨_, congrArg Host.Outcome.next edge, fun k hk => others _ hk, rfl, rfl, rfl, rfl, rfl, rfl, ?_⟩
    rw [State.chan_drainEnded_frameEnd s ch rfl]
    refine ⟨rfl, rfl, rfl, rfl, rfl, rfl, rfl, rfl, rfl, rfl, rfl, rfl, nofun, ?_⟩
    rintro _ ⟨⟩
    exact ⟨rfl, rfl⟩

/-! ### The expiry of a drain's time (R130, R143) -/

theorem exec_drainTimerExpiry (ch : ChanId) (clockStopped : Bool) (s : State) :
    exec (.drainTimerExpiry ch clockStopped) s = .next (s.drainExpiry ch clockStopped) := rfl

theorem State.drainExpiry_running {s : State} {ch : ChanId} {n : Nat} (clockStopped : Bool) (timer : (s.chan ch).fr.drainTimer = some n) :
    s.drainExpiry ch clockStopped = (s.onLane ch (Lane.abandonDrain clockStopped)).stopCompleted .timeout :=
  if_pos (by rw [timer]; rfl)

/-- The framer with its frame cut and its packet abandoned: TXD_n at 1 if TXCLK_n has stopped, else as it was. -/
def Framer.abandoned (clockStopped : Bool) (f : Framer) : Framer :=
  { f.stop with inflight := none, owed := 0, kind := .idleHeader, runXor := 0, txd := clockStopped || f.txd }

theorem Lane.abandonDrain_none (clockStopped : Bool) {l : Lane} (landed : l.c.fr.inflight = none) :
    l.abandonDrain clockStopped = l.mapChan fun c => { c with admin := .disabled, fr := c.fr.abandoned clockStopped } := by
  unfold Lane.abandonDrain
  rw [landed]
  cases clockStopped <;> rfl

theorem Lane.abandonDrain_some (clockStopped : Bool) {l : Lane} {p : InFlight} (flight : l.c.fr.inflight = some p) :
    l.abandonDrain clockStopped =
      { l with
        c := { l.c with
          admin := .disabled, fr := l.c.fr.abandoned clockStopped, txHolding := l.c.txHolding - p.desc.chain.length
          live := { l.c.live with txabort := countUp l.c.live.txabort } }
        pool := { l.pool with free := l.pool.free ++ p.desc.chain } } := by
  unfold Lane.abandonDrain
  rw [flight]
  cases clockStopped <;> rfl

/-- Settles O53: the timer runs, so the drain is abandoned, with a packet in flight or without. -/
theorem drainTimerExpiryAbandonsTheDrain : Obligations.DrainTimerExpiryAbandonsTheDrain := by
  intro s ch clockStopped n c stopped timer
  rw [exec_drainTimerExpiry, State.drainExpiry_running clockStopped timer]
  unfold State.onLane
  have others (l : Lane) {k : ChanId} (hk : k ≠ ch) : ((s.setLane ch l).stopCompleted .timeout).chan k = s.chan k :=
    State.chan_setLane_ne _ _ hk
  have self (l : Lane) : ((s.setLane ch l).stopCompleted .timeout).chan ch = l.c := State.chan_setLane_self ..
  cases flight : c.fr.inflight with
  | none =>
    rw [Lane.abandonDrain_none (l := s.lane ch) clockStopped flight]
    refine ⟨_, rfl, fun k hk => others _ hk, rfl, rfl, rfl, rfl, rfl, rfl, ?_⟩
    rw [self]
    exact ⟨⟨rfl, rfl, rfl, rfl, rfl, rfl⟩, fun _ => ⟨rfl, rfl⟩, nofun⟩
  | some p =>
    rw [Lane.abandonDrain_some (l := s.lane ch) clockStopped flight]
    refine ⟨_, rfl, fun k hk => others _ hk, rfl, rfl, rfl, rfl, rfl, rfl, ?_⟩
    rw [self]
    refine ⟨⟨rfl, rfl, rfl, rfl, rfl, rfl⟩, nofun, ?_⟩
    rintro _ ⟨⟩
    exact ⟨rfl, rfl⟩

end Sys2Proof.Machine
end

section
/-! PROOFS. Writes of the entries in the indirect space (R147 to R150): the configuration table by index, the tests of a write, and what a write
taken or refused leaves. -/
namespace Sys2Proof.Machine

open Sys2Proof

/-! ### The tables by index (Tables 27 and 32) -/

/-- The configuration entries in the order of their indices. -/
def Entry.all : List Entry :=
  [.flen, .maxlen, .slotlen, .rxquota, .txquota, .persist, .vcount, .misslim, .dwin, .loop, .explabel, .txlabel, .dset, .dclr, .rqthr,
   .sendalarm, .forcefe, .autofe]

/-- The index of an entry. -/
def Entry.index : Entry → Nat
  | .flen => 0x00
  | .maxlen => 0x01
  | .slotlen => 0x02
  | .rxquota => 0x03
  | .txquota => 0x04
  | .persist => 0x05
  | .vcount => 0x06
  | .misslim => 0x07
  | .dwin => 0x08
  | .loop => 0x09
  | .explabel => 0x0A
  | .txlabel => 0x0B
  | .dset => 0x0C
  | .dclr => 0x0D
  | .rqthr => 0x0E
  | .sendalarm => 0x0F
  | .forcefe => 0x10
  | .autofe => 0x11

theorem Entry.atIndex_index (e : Entry) : Entry.atIndex e.index = some e := by cases e <;> rfl

theorem Entry.index_inj {e f : Entry} : e.index = f.index ↔ e = f := by
  refine ⟨fun h => ?_, congrArg Entry.index⟩
  have at_e := e.atIndex_index
  rw [h, Entry.atIndex_index] at at_e
  exact (Option.some.inj at_e).symm

theorem Entry.index_of_all_getElem? {i : Nat} {e : Entry} (h : Entry.all[i]? = some e) : i = e.index := by
  obtain ⟨below, rfl⟩ := List.getElem?_eq_some_iff.mp h
  have : i < 18 := below
  interval_cases i <;> rfl

/-- A row of a table that lists something of every entry is the row of the entry at that index. -/
theorem Entry.of_row {α : Type} {row : Entry → α} {i : Nat} {a : α} (h : (Entry.all.map row)[i]? = some a) :
    ∃ e : Entry, i = e.index ∧ row e = a := by
  rw [List.getElem?_map, Option.map_eq_some_iff] at h
  obtain ⟨e, at_i, value⟩ := h
  exact ⟨e, Entry.index_of_all_getElem? at_i, value⟩

/-- An entry replaced is the table's list with its place replaced. -/
theorem ChanCfg.all_put (g : ChanCfg) (e : Entry) (v : Word) : Entry.all.map (g.put e v).get = (Entry.all.map g.get).set e.index v := by
  cases e <;> rfl

/-- The index of a global entry. -/
def GEntry.index : GEntry → Nat
  | .tsil => 0xF0
  | .tdrain => 0xF1
  | .poolthr => 0xF2

/-! ### The tests of a configuration write (R147 to R149) -/

theorem Entry.inRange_iff (e : Entry) (v : Word) :
    e.inRange v = true ↔ e.bounds.1 ≤ v.toNat ∧ v.toNat ≤ e.bounds.2 ∧ (e = .flen → v.toNat % 8 = 0) := by
  simp only [Entry.inRange, Bool.and_eq_true, Bool.or_eq_true, decide_eq_true_eq, bne_iff_ne, beq_iff_eq, and_assoc,
    ← imp_iff_not_or, ne_eq]

theorem Chan.acceptsEntry_iff_accepted (e : Entry) (v : Word) (c : Chan) : c.acceptsEntry e v = true ↔ c.Accepted e v := by
  refine ⟨Chan.accepted_of_acceptsEntry, fun ⟨range, unlocked, rxQuota, txQuota, dset, dclr⟩ => ?_⟩
  simp only [Chan.acceptsEntry, Bool.and_eq_true, Bool.or_eq_true, bne_iff_ne, ne_eq, decide_eq_true_eq, Bool.not_eq_true',
    beq_iff_eq, ← imp_iff_not_or, ← Bool.not_eq_true]
  exact ⟨⟨⟨⟨⟨range, unlocked⟩, rxQuota⟩, txQuota⟩, dset⟩, dclr⟩

/-- The tests by the entry's index. -/
theorem Chan.acceptsEntry_iff_index (e : Entry) (v : Word) (c : Chan) :
    c.acceptsEntry e v = true ↔
      (e.bounds.1 ≤ v.toNat ∧ v.toNat ≤ e.bounds.2 ∧ (e.index = 0x00 → v.toNat % 8 = 0))
      ∧ (e.locked = true → c.admin = .disabled)
      ∧ (e.index = 0x03 → c.rxHolding ≤ v.toNat) ∧ (e.index = 0x04 → c.txHolding ≤ v.toNat)
      ∧ (e.index = 0x0C → c.cfg.dclr.toNat < v.toNat) ∧ (e.index = 0x0D → v.toNat < c.cfg.dset.toNat) := by
  have named (f : Entry) : e.index = f.index ↔ e = f := Entry.index_inj
  have range : e.inRange v = true ↔ e.bounds.1 ≤ v.toNat ∧ v.toNat ≤ e.bounds.2 ∧ (e.index = 0x00 → v.toNat % 8 = 0) := by
    rw [e.inRange_iff, ← named .flen]
    rfl
  rw [Chan.acceptsEntry_iff_accepted, ← range]
  constructor
  · rintro ⟨inRange, unlocked, rxQuota, txQuota, dset, dclr⟩
    exact ⟨inRange, unlocked, rxQuota ∘ (named .rxquota).mp, txQuota ∘ (named .txquota).mp, dset ∘ (named .dset).mp,
      dclr ∘ (named .dclr).mp⟩
  · rintro ⟨inRange, unlocked, rxQuota, txQuota, dset, dclr⟩
    exact ⟨inRange, unlocked, rxQuota ∘ (named .rxquota).mpr, txQuota ∘ (named .txquota).mpr, dset ∘ (named .dset).mpr,
      dclr ∘ (named .dclr).mpr⟩

/-! ### LABELMIS re-evaluated (R41) -/

theorem labelMismatch_eq (explabel : Word) (accepted : Option Byte) :
    labelMismatch explabel accepted = match accepted with
      | none => false
      | some label => decide (explabel ≠ 0 ∧ label.toNat ≠ explabel.toNat) := by
  cases accepted with
  | none => rfl
  | some label =>
    rw [Bool.eq_iff_iff, decide_eq_true_eq]
    show (Conds.evaluate explabel none (some label) false).labelmis = true ↔ _
    rw [Conds.evaluate_labelmis_iff]
    simp

/-- The condition takes its new value; a change in MONITORING sets ALARM. -/
theorem Chan.labelmisReevaluated_eq (c : Chan) :
    c.labelmisReevaluated = { c with
      mon := { c.mon with conds := { c.mon.conds with labelmis := labelMismatch c.cfg.explabel c.mon.label.accepted } }
      flags := { c.flags with
        alarm := c.flags.alarm || (decide (c.mon.mode = .monitoring)
          && (labelMismatch c.cfg.explabel c.mon.label.accepted != c.mon.conds.labelmis)) } } := by
  have alarm : (decide (c.mon.mode = .monitoring) && (labelMismatch c.cfg.explabel c.mon.label.accepted != c.mon.conds.labelmis)) = true
      ↔ c.mon.mode = .monitoring ∧ labelMismatch c.cfg.explabel c.mon.label.accepted ≠ c.mon.conds.labelmis := by
    rw [Bool.and_eq_true, decide_eq_true_eq, bne_iff_ne]
  unfold Chan.labelmisReevaluated
  dsimp only
  split
  · rename_i changed
    rw [alarm.mpr changed, Bool.or_true]
    rfl
  · rename_i same
    rw [Bool.eq_false_iff.mpr (mt alarm.mp same), Bool.or_false]

/-! ### The writes -/

theorem State.idataWrite_entry {s : State} {e : Entry} (v : Word) (at_e : s.win.idx.toNat = e.index) :
    s.idataWrite v = (s.configWrite e v).nextIdx := by
  unfold State.idataWrite
  rw [at_e, Entry.atIndex_index]

theorem State.idataWrite_global {s : State} {e : GEntry} (v : Word) (at_e : s.win.idx.toNat = e.index) :
    s.idataWrite v = (s.globalWrite e v).nextIdx := by
  unfold State.idataWrite
  rw [at_e]
  cases e <;> rfl

theorem exec_configurationWrite_entry {s : State} {d v : Word} {e : Entry} (ht : s.taking) (hc : s.carries d v)
    (at_e : s.win.idx.toNat = e.index) : exec (.configurationWrite d) s = .next (s.configWrite e v).nextIdx.acked := by
  rw [← State.idataWrite_entry v at_e]
  exact congrArg Host.Outcome.next (State.writeAccess_of_carries (word := 11) ht (by decide) hc)

theorem State.configWrite_refused {s : State} {e : Entry} {v : Word} (refused : s.paged.acceptsEntry e v ≠ true) :
    s.configWrite e v = s.cfgerr := if_neg refused

theorem State.configWrite_taken {s : State} {e : Entry} {v : Word} (taken : s.paged.acceptsEntry e v = true) (other : e ≠ .explabel) :
    s.configWrite e v = s.setChan s.win.page { s.paged with cfg := s.paged.cfg.put e v } := by
  unfold State.configWrite
  rw [if_pos taken]
  simp only [if_neg other]
  rfl

theorem State.configWrite_explabel {s : State} {v : Word} (taken : s.paged.acceptsEntry .explabel v = true) :
    s.configWrite .explabel v =
      s.setChan s.win.page (Chan.labelmisReevaluated { s.paged with cfg := { s.paged.cfg with explabel := v } }) := by
  unfold State.configWrite
  rw [if_pos taken]
  rfl

/-- R150: the range decides between the value taken and CFGERR; `P` is the range as it is written in Table 32. -/
theorem exec_globalEntryWrite_tested {s : State} {d v : Word} {e : GEntry} {P : Prop} [Decidable P] (ht : s.taking)
    (hc : s.carries d v) (range : e.inRange v = true ↔ P) (at_e : s.win.idx.toNat = e.index) :
    exec (.globalEntryWrite d) s = .next
      (if P then { s with globals := s.globals.put e v }.nextIdx.acked else s.cfgerr.nextIdx.acked) := by
  have written : exec (.globalEntryWrite d) s = .next (s.idataWrite v).acked :=
    congrArg Host.Outcome.next (State.writeAccess_of_carries (word := 11) ht (by decide) hc)
  rw [written, State.idataWrite_global v at_e]
  unfold State.globalWrite
  by_cases inRange : P
  · rw [if_pos inRange, if_pos (range.mpr inRange)]
  · rw [if_neg inRange, if_neg (mt range.mp inRange)]

/-! ### The statements -/

/-- Settles O14: the row of the table is that of one entry, whose tests decide; EXPLABEL taken re-evaluates LABELMIS beside. -/
theorem configurationWriteIsTestedAndTaken : Obligations.ConfigurationWriteIsTestedAndTaken := by
  intro s d v lo hi locked ht hc p c i table entries accepted after row
  obtain ⟨e, at_e, bounds⟩ : ∃ e : Entry, i = e.index ∧ (e.bounds.1, e.bounds.2, e.locked) = (lo, hi, locked) := Entry.of_row row
  obtain ⟨rfl, rfl, rfl⟩ : e.bounds.1 = lo ∧ e.bounds.2 = hi ∧ e.locked = locked := by simpa using bounds
  have tests : c.acceptsEntry e v = true ↔ accepted := by
    rw [Chan.acceptsEntry_iff_index, ← at_e]
  rw [exec_configurationWrite_entry ht hc at_e]
  refine ⟨fun refused => ?_, fun taken other => ?_, fun taken explabel => ?_⟩
  · rw [State.configWrite_refused (mt tests.mp refused)]
    rfl
  · have name : e ≠ .explabel := by
      rintro rfl
      exact other at_e
    refine ⟨c.cfg.put e v, ?_, ?_⟩
    · rw [at_e]
      exact c.cfg.all_put e v
    · rw [State.configWrite_taken (tests.mpr taken) name]
      rfl
  · obtain rfl : e = .explabel := Entry.index_inj.mp (at_e.symm.trans explabel)
    intro mis
    have label : labelMismatch v c.mon.label.accepted = mis := labelMismatch_eq ..
    rw [State.configWrite_explabel (tests.mpr taken), Chan.labelmisReevaluated_eq, ← label]
    rfl

/-- Settles O15: each of the three indices by its range, and FREE as an index with no entry that is written. -/
theorem globalEntryWriteIsTestedAndTaken : Obligations.GlobalEntryWriteIsTestedAndTaken := by
  intro s d v ht hc i after refused
  have between (lo hi : Nat) : (decide (lo ≤ v.toNat) && decide (v.toNat ≤ hi)) = true ↔ lo ≤ v.toNat ∧ v.toNat ≤ hi := by
    rw [Bool.and_eq_true, decide_eq_true_eq, decide_eq_true_eq]
  refine ⟨fun at_i => ?_, fun at_i => ?_, fun at_i => ?_, fun at_i => ?_⟩
  · exact exec_globalEntryWrite_tested (e := .tsil) ht hc (between 2 255) at_i
  · exact exec_globalEntryWrite_tested (e := .tdrain) ht hc (between 1 255) at_i
  · exact exec_globalEntryWrite_tested (e := .poolthr) ht hc decide_eq_true_iff at_i
  · have ignored : s.idataWrite v = s.nextIdx := by
      unfold State.idataWrite
      rw [show s.win.idx.toNat = 0xF3 from at_i]
      rfl
    show Host.Outcome.next (s.writeAccess 11 d) = _
    rw [State.writeAccess_of_carries ht (by decide) hc]
    show Host.Outcome.next (s.idataWrite v).acked = _
    rw [ignored]
    rfl

end Sys2Proof.Machine
end

section
/-! PROOFS. The tests of a CMD write (R137 to R140), and CH_START (R141): what is refused, and what a DISABLED channel starts with. -/
namespace Sys2Proof.Machine

open Sys2Proof

/-! ### Refusals (R138 to R140) -/

theorem exec_unknownCommand (d : Word) (s : State) : exec (.unknownCommand d) s = .next (s.writeAccess 6 d) := rfl

/-- Each row of Table 25 is the CMD write of its code. -/
theorem exec_cmdRows (hi : Byte) (s : State) : ∀ r ∈ cmdRows hi, exec r.1 s = .next (s.cmdAccess r.2 hi) := by
  simp only [cmdRows, List.forall_mem_cons, List.not_mem_nil, false_imp_iff, implies_true, and_true]
  exact ⟨rfl, rfl, rfl, rfl, rfl, rfl, rfl, rfl, rfl, rfl, rfl, rfl⟩

/-- Every row of the Command Unit is the write of some code, known or not. -/
theorem exec_cmd_cases {s : State} {i : Instr} {d : Word} {hi : Byte} (ht : s.taking)
    (row : i ∈ Instr.unknownCommand d :: (cmdRows hi).map Prod.fst) : ∃ code, exec i s = .next (s.cmdWrite code).acked := by
  rcases List.mem_cons.mp row with rfl | known
  · have carried : s.carries d (s.win.committed d) := by
      unfold State.carries Window.committed
      cases s.win.width16 <;> simp
    exact ⟨lowByte (s.win.committed d), congrArg Host.Outcome.next (State.writeAccess_of_carries ht (by decide) carried)⟩
  · obtain ⟨r, listed, rfl⟩ := List.mem_map.mp known
    obtain ⟨code, written⟩ := s.cmdAccess_cases r.2 hi ht
    exact ⟨code, by rw [exec_cmdRows hi s r listed, written]⟩

theorem State.cmdWrite_unknown {s : State} {code : Byte} (ready : s.pool.state = .ready) (idle : s.cu.pending = none)
    (unknown : commandCodes.contains code = false) : s.cmdWrite code = s.answer .badcmd := by
  simp [State.cmdWrite, ready, idle, Cmd.ofCode_eq_none unknown]

/-- Settles O20: every row writes some code, which INIT and PENDING refuse unseen; past them an unknown code is refused. -/
theorem cmdWritesAreRefusedInInitAndWhilePending : Obligations.CmdWritesAreRefusedInInitAndWhilePending := by
  refine ⟨fun hi d i s row ht => ?_, fun s d v ht ready idle hc unknown => ?_⟩
  · obtain ⟨code, written⟩ := exec_cmd_cases ht row
    rw [written]
    refine ⟨fun init => ?_, fun ready pending => ?_⟩
    · rw [State.cmdWrite_busy code init]
      rfl
    · rw [State.cmdWrite_pending code ready pending]
      rfl
  · rw [exec_unknownCommand, State.writeAccess_of_carries ht (by decide) hc]
    exact congrArg (fun t => Host.Outcome.next (State.acked t)) (State.cmdWrite_unknown ready idle unknown)

/-! ### CH_START (R141) -/

theorem exec_chStart_taken {s : State} (hi : Byte) (taken : s.takesCmd 0x01) :
    exec (.chStart hi) s = .next (s.takeChStart s.win.page).acked :=
  congrArg Host.Outcome.next (State.cmdAccess_taken hi .chStart taken rfl)

theorem State.takeChStart_running {s : State} {p : ChanId} (running : (s.chan p).admin ≠ .disabled) :
    s.takeChStart p = s.answer .state := if_neg running

/-- A channel as CH_START leaves it: the aligner in HUNT (R28), the framer at a block boundary (R127), the next PKTSEQ 0 (R73). -/
def Chan.started (g : Globals) (c : Chan) : Chan :=
  { c with
    admin := .active
    al := { state := .hunt, silence := some g.tsil.toNat, loopSource := c.cfg.loop == 1 }
    fr := { running := true, flenInUse := c.cfg.flen.toNat, txd := c.fr.txd }
    del := { c.del with nextPktseq := 0 } }

theorem State.takeChStart_disabled {s : State} {p : ChanId} (disabled : (s.chan p).admin = .disabled) :
    s.takeChStart p = (s.setChan p ((s.chan p).started s.globals)).answer .ok := if_pos disabled

/-- Settles O21: an ACTIVE channel is refused, a DISABLED one becomes `Chan.started`. -/
theorem chStartStartsADisabledChannel : Obligations.ChStartStartsADisabledChannel := by
  intro s hi taken p c
  rw [exec_chStart_taken hi taken]
  refine ⟨fun active => ?_, fun disabled => ⟨c.started s.globals, ?_, ?_⟩⟩
  · have running : c.admin ≠ .disabled := by
      rw [active]
      nofun
    rw [State.takeChStart_running running]
    rfl
  · rw [State.takeChStart_disabled disabled]
    rfl
  · exact ⟨rfl, rfl, rfl, rfl, rfl, rfl, beq_iff_eq, rfl, rfl, rfl, rfl, rfl, rfl, rfl, rfl, rfl, rfl, rfl⟩

end Sys2Proof.Machine
end

section
/-! PROOFS. CH_STOP (R142): the receive side stopped (R29), and the drain over at once (R129) or begun (R130). -/
namespace Sys2Proof.Machine

open Sys2Proof

/-! ### The receive side stopped (R29) -/

theorem Lane.alignerStop_locked {l : Lane} (locked : l.c.al.state = .locked) :
    l.alignerStop = l.leaveLocked.mapChan fun c => { c with al := {} } := by
  unfold Lane.alignerStop
  rw [if_pos locked]

theorem Lane.alignerStop_unlocked {l : Lane} (unlocked : l.c.al.state ≠ .locked) :
    l.alignerStop = l.mapChan fun c => { c with al := {} } := by
  unfold Lane.alignerStop
  rw [if_neg unlocked]

theorem Lane.alignerStop_mem_gf (l : Lane) : l.alignerStop.mem = l.mem ∧ l.alignerStop.gf = l.gf := by
  by_cases locked : l.c.al.state = .locked
  · rw [Lane.alignerStop_locked locked]
    obtain ⟨-, -, -, mem, gf⟩ := l.leaveLocked_kept
    exact ⟨mem, gf⟩
  · rw [Lane.alignerStop_unlocked locked]
    exact ⟨rfl, rfl⟩

/-- A departure says nothing of the channel's aligner, admin state and framer afterwards. -/
theorem Chan.DepartsLocked.setLink {lost : Bool} {c d : Chan} {p q : Pool} (h : c.DepartsLocked lost d p q) (a : Aligner) (adm : Admin)
    (f : Framer) : c.DepartsLocked lost { d with al := a, admin := adm, fr := f } p q := by
  obtain ⟨align, waiting, keptMon, record, alarm, hold, parsing, alignloss, keptCounts, keptFlags, kept⟩ := h
  exact ⟨align, waiting, keptMon, record, alarm, hold, parsing, alignloss, keptCounts, keptFlags, kept⟩

/-- The part with channel `p`'s receive side stopped, in the admin state `adm` and with the framer changed by `f`. -/
def State.receiveStopped (p : ChanId) (adm : Admin) (f : Framer → Framer) (s : State) : State :=
  s.setLane p ((s.lane p).alignerStop.mapChan fun c => { c with admin := adm, fr := f c.fr })

theorem State.receiveStopped_othersKept (p : ChanId) (adm : Admin) (f : Framer → Framer) (s : State) :
    s.othersKept p (s.receiveStopped p adm f) := s.onLane_othersKept p fun _ => _

theorem State.receiveStopped_mem_gflags (p : ChanId) (adm : Admin) (f : Framer → Framer) (s : State) :
    (s.receiveStopped p adm f).mem = s.mem ∧ (s.receiveStopped p adm f).gflags = s.gflags := (s.lane p).alignerStop_mem_gf

theorem State.receiveStopped_chan (p : ChanId) (adm : Admin) (f : Framer → Framer) (s : State) :
    (s.receiveStopped p adm f).chan p = { (s.lane p).alignerStop.c with al := {}, admin := adm, fr := f (s.chan p).fr } := by
  unfold State.receiveStopped
  rw [State.chan_setLane_self, Lane.mapChan_c, Lane.alignerStop_fr]
  rfl

/-- What becomes of aligner, admin state and framer, LOCKED or not. -/
theorem State.receiveStopped_link (p : ChanId) (adm : Admin) (f : Framer → Framer) (s : State) :
    ((s.receiveStopped p adm f).chan p).al.state = .off ∧ ((s.receiveStopped p adm f).chan p).admin = adm
      ∧ ((s.receiveStopped p adm f).chan p).fr = f (s.chan p).fr := by
  rw [State.receiveStopped_chan]
  exact ⟨rfl, rfl, rfl⟩

theorem State.receiveStopped_locked {s : State} {p : ChanId} (locked : (s.chan p).al.state = .locked) (adm : Admin)
    (f : Framer → Framer) :
    (s.chan p).DepartsLocked false ((s.receiveStopped p adm f).chan p) s.pool (s.receiveStopped p adm f).pool := by
  have departs := (s.lane p).leaveLocked_departs.setLink {} adm (f (s.chan p).fr)
  rw [State.receiveStopped_chan]
  show Chan.DepartsLocked false _ { (s.lane p).alignerStop.c with al := {}, admin := adm, fr := f (s.chan p).fr } _
    (s.lane p).alignerStop.pool
  rw [Lane.alignerStop_locked (l := s.lane p) locked]
  exact departs

/-- With the aligner out of LOCKED nobody is told, so the aligner alone is changed beside admin state and framer. -/
theorem State.receiveStopped_unlocked {s : State} {p : ChanId} (unlocked : (s.chan p).al.state ≠ .locked) (adm : Admin)
    (f : Framer → Framer) :
    let t := s.receiveStopped p adm f
    t.pool = s.pool ∧ t.chan p = { s.chan p with al := (t.chan p).al, admin := (t.chan p).admin, fr := (t.chan p).fr } := by
  dsimp only
  rw [State.receiveStopped_chan]
  unfold State.receiveStopped
  rw [Lane.alignerStop_unlocked (l := s.lane p) unlocked]
  exact ⟨rfl, rfl⟩

/-! ### The command (R142) -/

theorem exec_chStop_taken {s : State} (hi : Byte) (taken : s.takesCmd 0x02) :
    exec (.chStop hi) s = .next (s.takeChStop s.win.page).acked :=
  congrArg Host.Outcome.next (State.cmdAccess_taken hi .chStop taken rfl)

theorem Chan.drainsAtOnce_iff (c : Chan) : c.drainsAtOnce = true ↔ c.fr.inflight = none ∧ c.fr.bitPos = none := by
  simp [Chan.drainsAtOnce]

theorem State.takeChStop_idle {s : State} {p : ChanId} (idle : (s.chan p).admin ≠ .active) : s.takeChStop p = s.answer .state :=
  if_neg idle

/-- R129: with no packet in flight and no frame begun, the drain is over at once. -/
theorem State.takeChStop_atOnce {s : State} {p : ChanId} (active : (s.chan p).admin = .active)
    (sent : (s.chan p).drainsAtOnce = true) :
    s.takeChStop p = (s.receiveStopped p .disabled Framer.stop).stopCompleted .ok := by
  unfold State.takeChStop
  rw [if_pos active]
  dsimp only
  rw [if_pos sent, State.onLane_onChan]
  rfl

/-- The drain timer loaded from TDRAIN (R130). -/
def Framer.loadDrain (g : Globals) (f : Framer) : Framer := { f with drainTimer := some g.tdrain.toNat }

/-- R130: the drain begins, with the unit PENDING on the channel and the drain timer loaded. -/
theorem State.takeChStop_drains {s : State} {p : ChanId} (active : (s.chan p).admin = .active)
    (sending : (s.chan p).drainsAtOnce ≠ true) :
    s.takeChStop p =
      { s.receiveStopped p .draining (Framer.loadDrain s.globals) with
        cu := { s.cu with pending := some p, cstat := .pending } } := by
  unfold State.takeChStop
  rw [if_pos active]
  dsimp only
  rw [if_neg sending, State.onLane_onChan]
  rfl

/-- Settles O22: the receive side stops in one way, LOCKED or not; the drain that follows is over at once or begins. -/
theorem chStopStopsReceivingAndStartsTheDrain : Obligations.ChStopStopsReceivingAndStartsTheDrain := by
  intro s hi taken p c
  rw [exec_chStop_taken hi taken]
  refine ⟨fun disabled => ?_, fun active => ?_⟩
  · have idle : c.admin ≠ .active := by
      rw [disabled]
      nofun
    rw [State.takeChStop_idle idle]
    rfl
  by_cases sent : c.fr.inflight = none ∧ c.fr.bitPos = none
  · obtain ⟨others, -⟩ := s.receiveStopped_othersKept p .disabled Framer.stop
    obtain ⟨mem, gflags⟩ := s.receiveStopped_mem_gflags p .disabled Framer.stop
    obtain ⟨off, admin, fr⟩ := s.receiveStopped_link p .disabled Framer.stop
    rw [State.takeChStop_atOnce active (c.drainsAtOnce_iff.mpr sent)]
    refine ⟨_, rfl, others, mem, rfl, rfl, rfl, rfl, rfl, rfl, rfl, off, fun locked => State.receiveStopped_locked locked _ _,
      fun unlocked => State.receiveStopped_unlocked unlocked _ _, ?_⟩
    rw [if_pos sent]
    exact ⟨admin, congrArg Framer.running fr, rfl, rfl, congrArg GFlags.withCmddone gflags⟩
  · obtain ⟨others, -⟩ := s.receiveStopped_othersKept p .draining (Framer.loadDrain s.globals)
    obtain ⟨mem, gflags⟩ := s.receiveStopped_mem_gflags p .draining (Framer.loadDrain s.globals)
    obtain ⟨off, admin, fr⟩ := s.receiveStopped_link p .draining (Framer.loadDrain s.globals)
    rw [State.takeChStop_drains active (mt c.drainsAtOnce_iff.mp sent)]
    refine ⟨_, rfl, others, mem, rfl, rfl, rfl, rfl, rfl, rfl, rfl, off, fun locked => State.receiveStopped_locked locked _ _,
      fun unlocked => State.receiveStopped_unlocked unlocked _ _, ?_⟩
    rw [if_neg sent]
    exact ⟨admin, fr, rfl, rfl, gflags⟩

end Sys2Proof.Machine
end

section
/-! PROOFS. CH_FLUSH and CH_RESET (R144, R145): every chain of the channel given back as one return (R90), and what the channel is left as. -/
namespace Sys2Proof.Machine

open Sys2Proof

/-! ### The chains of a channel (R90) -/

/-- The chain of the packet in assembly, empty with none. -/
def Chan.assemblyChain (c : Chan) : List CellNo := (c.del.assembly.map RxDesc.chain).getD []

theorem Chan.rxChains_eq (c : Chan) : c.rxChains = c.assemblyChain ++ c.queuedRxChains := List.append_assoc ..

/-- With nothing in assembly the receive side holds its queue and its held packet. -/
theorem Chan.rxChains_queued {c : Chan} (none_assembled : c.del.assembly = none) : c.rxChains = c.queuedRxChains := by
  rw [Chan.rxChains_eq, Chan.assemblyChain, none_assembled]
  rfl

/-- With nothing in flight the transmit side holds its queue and its fill packet. -/
theorem Chan.txChains_queued {c : Chan} (none_inflight : c.fr.inflight = none) : c.txChains = c.queuedTxChains := by
  rw [Chan.txChains, none_inflight]
  rfl

/-- R54: a packet is in assembly in BODY only, so there is none in HOLD. -/
theorem Chan.CellsAgree.hold_noAssembly {c : Chan} (a : c.CellsAgree) (hold : c.del.state = .hold) : c.del.assembly = none := by
  rw [← Option.not_isSome_iff_eq_none, a.assembly_iff, hold]
  nofun

/-- A change of one lane that leaves packet memory and the global flags is a change of its channel and of the pool. -/
theorem State.setLane_kept {s : State} {p : ChanId} {l : Lane} (mem : l.mem = s.mem) (gf : l.gf = s.gflags) :
    s.setLane p l = { s.setChan p l.c with pool := l.pool } := by
  unfold State.setLane
  rw [mem, gf]
  rfl

/-! ### CH_FLUSH (R144) -/

theorem exec_chFlush_taken {s : State} (hi : Byte) (taken : s.takesCmd 0x04) :
    exec (.chFlush hi) s = .next (s.takeChFlush s.win.page).acked :=
  congrArg Host.Outcome.next (State.cmdAccess_taken hi .chFlush taken rfl)

theorem State.takeChFlush_running {s : State} {p : ChanId} (running : (s.chan p).admin ≠ .disabled) :
    s.takeChFlush p = s.answer .state := if_neg running

/-- A channel as CH_FLUSH leaves it: its stores and its ring empty, and each holding lower by the cells given back. -/
def Chan.flushed (c : Chan) : Chan :=
  { c with
    rq := [], held := none, tq := [], fill := none, mon := { c.mon with ring := [] }
    rxHolding := c.rxHolding - c.queuedRxChains.length, txHolding := c.txHolding - c.queuedTxChains.length }

theorem Lane.flushed_eq (l : Lane) :
    (((l.returnChain .rx l.c.queuedRxChains).returnChain .tx l.c.queuedTxChains).mapChan fun d =>
        { d.emptied with mon := { d.mon with ring := [] } }) =
      { l with
        c := l.c.flushed
        pool := { l.pool with free := l.pool.free ++ l.c.queuedRxChains ++ l.c.queuedTxChains } } := rfl

/-- R90: the two sides' chains go back one after the other. -/
theorem State.takeChFlush_disabled {s : State} {p : ChanId} (disabled : (s.chan p).admin = .disabled) :
    s.takeChFlush p =
      ({ s.setChan p (s.chan p).flushed with
        pool := { s.pool with
          free := s.pool.free ++ (s.chan p).queuedRxChains ++ (s.chan p).queuedTxChains } } : State).answerWith
        (natWord (s.chan p).queuedRxChains.length) (natWord (s.chan p).queuedTxChains.length) :=
  (if_pos disabled).trans (congrArg (fun l => (s.setLane p l).answerWith (natWord (s.chan p).queuedRxChains.length)
    (natWord (s.chan p).queuedTxChains.length)) (s.lane p).flushed_eq)

/-- With nothing in assembly or in flight the flushed channel holds no cell. -/
theorem Chan.flushed_of_queued {c : Chan} (agree : c.CellsAgree) (rx : c.rxChains = c.queuedRxChains)
    (tx : c.txChains = c.queuedTxChains) :
    c.flushed = { c with
      rq := [], held := none, tq := [], fill := none, rxHolding := 0, txHolding := 0, mon := { c.mon with ring := [] } } := by
  have rxEmpty : c.rxHolding - c.queuedRxChains.length = 0 := by rw [agree.rx_holding, rx, Nat.sub_self]
  have txEmpty : c.txHolding - c.queuedTxChains.length = 0 := by rw [agree.tx_holding, tx, Nat.sub_self]
  unfold Chan.flushed
  rw [rxEmpty, txEmpty]

/-- Settles O24: in DISABLED nothing is in assembly or in flight, so what is queued is all that the holdings count. -/
theorem chFlushEmptiesADisabledChannel : Obligations.ChFlushEmptiesADisabledChannel := by
  intro s hi taken p c
  rw [exec_chFlush_taken hi taken]
  refine ⟨fun active => ?_, fun disabled agree modes => ?_⟩
  · have running : c.admin ≠ .disabled := by
      rw [active]
      nofun
    rw [State.takeChFlush_running running]
    rfl
  · have off : c.al.state = .off := modes.off_iff.mpr (by rw [disabled]; nofun)
    have hold : c.del.state = .hold := (modes.idle (by rw [off]; nofun)).2
    have rx : c.rxChains = c.queuedRxChains := Chan.rxChains_queued (agree.hold_noAssembly hold)
    have tx : c.txChains = c.queuedTxChains := Chan.txChains_queued (modes.disabled_noFlight disabled)
    rw [State.takeChFlush_disabled disabled, Chan.flushed_of_queued agree rx tx, rx, tx, List.append_assoc]
    rfl

/-! ### The receive side stopped, with its abort (R29, R70) -/

/-- Of the counters a departure touches RXABORT and OHLOST only. -/
theorem Lane.leaveLocked_live (l : Lane) :
    l.leaveLocked.c.live = { l.c.live with
      rxabort := l.leaveLocked.c.live.rxabort, ohlost := l.leaveLocked.c.live.ohlost } := by
  have told := Lane.delinHold_kept (l.mapChan fun c => c.flagAlign.monitorLeave)
  change l.leaveLocked = _ at told
  rw [told]
  show ({ l.c.flagAlign.monitorLeave.live with rxabort := l.leaveLocked.c.live.rxabort } : Counters) = _
  rw [l.c.flagAlign.monitorLeave_live]
  rfl

/-- R49: the departure's record is lost against a full ring, and OHLOST counts it. -/
theorem Chan.recordOutcome_ohlost {r : OhRecord} {c d : Chan} (h : c.recordOutcome r d) :
    d.live.ohlost = if 16 ≤ c.mon.ring.length then countUp c.live.ohlost else c.live.ohlost := by
  unfold Chan.recordOutcome at h
  split at h
  · rename_i room
    obtain ⟨-, -, -, -, -, -, ohlost⟩ := h
    rw [ohlost, if_neg (Nat.not_le.mpr room)]
  · rename_i full
    obtain ⟨-, -, -, -, ohlost⟩ := h
    rw [ohlost, if_pos (Nat.not_lt.mp full)]

/-- What giving up the packet in assembly does, from channel `c` and pool `p` to channel `d` and pool `q`: nothing is in assembly any
more, its chain goes to the free list's tail, and RXABORT counts it if there was one. -/
def Chan.AssemblyGone (c d : Chan) (p q : Pool) : Prop :=
  d.del.assembly = none ∧ q = { p with free := p.free ++ c.assemblyChain }
    ∧ d.live.rxabort = if c.del.assembly.isSome then countUp c.live.rxabort else c.live.rxabort

/-- With nothing in assembly there is nothing to give up. -/
theorem Chan.AssemblyGone.of_none {c d : Chan} {p q : Pool} (empty : c.del.assembly = none) (after : d.del.assembly = none)
    (pool : q = p) (count : d.live.rxabort = c.live.rxabort) : c.AssemblyGone d p q := by
  unfold Chan.AssemblyGone Chan.assemblyChain
  rw [empty, pool, count]
  exact ⟨after, by simp, rfl⟩

/-- R70: an abort gives up the packet in assembly. -/
theorem Chan.abortOutcome.gone {c d : Chan} {p q : Pool} (h : c.abortOutcome d p q) (after : d.del.assembly = none) :
    c.AssemblyGone d p q := by
  unfold Chan.abortOutcome at h
  split at h
  · rename_i empty
    obtain ⟨pool, -, count, -⟩ := h
    exact .of_none empty after pool count
  · rename_i a assembled
    obtain ⟨pool, -, count, -⟩ := h
    unfold Chan.AssemblyGone Chan.assemblyChain
    rw [assembled]
    exact ⟨after, pool, count⟩

/-- A departure from LOCKED gives up the packet in assembly, in HOLD and out of it. -/
theorem Chan.DepartsLocked.gone {lost : Bool} {c d : Chan} {p q : Pool} (h : c.DepartsLocked lost d p q) (agree : c.CellsAgree) :
    c.AssemblyGone d p q := by
  by_cases hold : c.del.state = .hold
  · obtain ⟨del, pool, -, count, -⟩ := h.hold hold
    have empty := agree.hold_noAssembly hold
    exact .of_none empty (by rw [del, empty]) pool count
  · obtain ⟨del, aborted⟩ := h.parsing hold
    exact aborted.gone (by rw [del]; rfl)

theorem Lane.alignerStop_gone {l : Lane} (agree : l.c.CellsAgree) (modes : l.c.ModesAgree) :
    l.c.AssemblyGone l.alignerStop.c l.pool l.alignerStop.pool := by
  by_cases locked : l.c.al.state = .locked
  · rw [Lane.alignerStop_locked locked]
    exact l.leaveLocked_departs.gone agree
  · have empty := agree.hold_noAssembly (modes.idle locked).2
    rw [Lane.alignerStop_unlocked locked]
    exact .of_none empty empty rfl rfl

/-- The counters of a receive side stopped: RXABORT for a packet in assembly, OHLOST for a departure record that a full ring loses. -/
theorem Lane.alignerStop_live {l : Lane} (agree : l.c.CellsAgree) (modes : l.c.ModesAgree) :
    l.alignerStop.c.live = { l.c.live with
      rxabort := if l.c.del.assembly.isSome then countUp l.c.live.rxabort else l.c.live.rxabort
      ohlost := if l.c.al.state = .locked ∧ 16 ≤ l.c.mon.ring.length then countUp l.c.live.ohlost else l.c.live.ohlost } := by
  obtain ⟨-, -, rxabort⟩ := Lane.alignerStop_gone agree modes
  rw [← rxabort]
  by_cases locked : l.c.al.state = .locked
  · have ohlost := Chan.recordOutcome_ohlost l.leaveLocked_departs.record
    simp only [locked, true_and]
    rw [← ohlost, Lane.alignerStop_locked locked]
    exact l.leaveLocked_live
  · rw [if_neg fun ⟨h, _⟩ => locked h, Lane.alignerStop_unlocked locked]
    rfl

/-- What stopping the receive side leaves of the rest of the channel. -/
theorem Lane.alignerStop_kept (l : Lane) :
    (l.alignerStop.c.cfg = l.c.cfg ∧ l.alignerStop.c.snap = l.c.snap ∧ l.alignerStop.c.mask = l.c.mask)
      ∧ l.alignerStop.c.queuedRxChains = l.c.queuedRxChains ∧ l.alignerStop.c.txChains = l.c.txChains := by
  by_cases locked : l.c.al.state = .locked
  · obtain ⟨-, -, fr, -, -⟩ := l.leaveLocked_kept
    obtain ⟨cfg, rq, held, fill, tq, -, snap, mask, -⟩ := l.leaveLocked_departs.kept
    rw [Lane.alignerStop_locked locked]
    refine ⟨⟨cfg, snap, mask⟩, ?_, ?_⟩
    · simp only [Chan.queuedRxChains, Lane.mapChan_c, held, rq]
    · simp only [Chan.txChains, Lane.mapChan_c, fr, tq, fill]
  · rw [Lane.alignerStop_unlocked locked]
    exact ⟨⟨rfl, rfl, rfl⟩, rfl, rfl⟩

/-! ### CH_RESET (R145) -/

theorem exec_chReset_taken {s : State} (hi : Byte) (taken : s.takesCmd 0x03) :
    exec (.chReset hi) s = .next (s.takeChReset s.win.page).acked :=
  congrArg Host.Outcome.next (State.cmdAccess_taken hi .chReset taken rfl)

/-- The counters after the framer's reset: a packet in flight is abandoned with TXABORT counted (R131). -/
def Chan.framerResetLive (c : Chan) : Counters :=
  { c.live with txabort := if c.fr.inflight.isSome then countUp c.live.txabort else c.live.txabort }

theorem Chan.framerReset_eq (c : Chan) : c.framerReset = { c with live := c.framerResetLive, fr := { txd := c.fr.txd } } := by
  unfold Chan.framerReset Chan.framerResetLive
  dsimp only
  split <;> rfl

/-- Beside its holdings the channel has what the stopped receive side left of configuration, masks, counters and TXD_n. -/
theorem Lane.channelReset_c (l : Lane) :
    l.channelReset.c = { ({} : Chan) with
      cfg := l.alignerStop.c.cfg, mask := l.alignerStop.c.mask, snap := l.alignerStop.c.snap
      live := l.alignerStop.c.framerResetLive, fr := { txd := l.alignerStop.c.fr.txd }
      rxHolding := l.channelReset.c.rxHolding, txHolding := l.channelReset.c.txHolding } := by
  simp only [Lane.channelReset, Lane.mapChan_c, Lane.returnChain_c, Chan.framerReset_eq, Chan.emptied, Chan.setHolding_rx,
    Chan.setHolding_tx]
  rfl

/-- A channel whose holdings count its cells holds none after its reset. -/
theorem Lane.channelReset_holdings {l : Lane} (agree : l.c.CellsAgree) :
    l.channelReset.c.rxHolding = 0 ∧ l.channelReset.c.txHolding = 0 := by
  have after := l.channelReset_conserves.agree agree
  exact ⟨after.rx_holding, after.tx_holding⟩

/-- The channel that CH_RESET leaves, for a channel whose holdings count its cells. -/
theorem Lane.channelReset_c_of {l : Lane} (agree : l.c.CellsAgree) (modes : l.c.ModesAgree) :
    l.channelReset.c = { ({} : Chan) with
      cfg := l.c.cfg, mask := l.c.mask, snap := l.c.snap, fr := { txd := l.c.fr.txd }
      live := { l.c.live with
        rxabort := if l.c.del.assembly.isSome then countUp l.c.live.rxabort else l.c.live.rxabort
        txabort := if l.c.fr.inflight.isSome then countUp l.c.live.txabort else l.c.live.txabort
        ohlost := if l.c.al.state = .locked ∧ 16 ≤ l.c.mon.ring.length then countUp l.c.live.ohlost else l.c.live.ohlost } } := by
  obtain ⟨rx, tx⟩ := Lane.channelReset_holdings agree
  obtain ⟨⟨cfg, snap, mask⟩, -, -⟩ := l.alignerStop_kept
  rw [Lane.channelReset_c, rx, tx, cfg, snap, mask, Chan.framerResetLive, l.alignerStop_fr, Lane.alignerStop_live agree modes]

/-- R90: every chain of the channel goes to the free list's tail, the aborted packet's first. -/
theorem Lane.channelReset_pool {l : Lane} (agree : l.c.CellsAgree) (modes : l.c.ModesAgree) :
    l.channelReset.pool = { l.pool with free := l.pool.free ++ (l.c.rxChains ++ l.c.txChains) } := by
  obtain ⟨empty, pool, -⟩ := Lane.alignerStop_gone agree modes
  obtain ⟨-, rx, tx⟩ := l.alignerStop_kept
  have returned : l.channelReset.pool = { l.alignerStop.pool with
      free := l.alignerStop.pool.free ++ l.alignerStop.c.rxChains ++ l.alignerStop.c.txChains } := rfl
  rw [returned, pool, Chan.rxChains_queued empty, rx, tx, l.c.rxChains_eq]
  simp only [List.append_assoc]

/-- Settles O23: the lane's reset, channel and pool apart; its results count the chains the channel had before. -/
theorem chResetReturnsTheChannelToItsResetState : Obligations.ChResetReturnsTheChannelToItsResetState := by
  intro s hi taken agree modes p c
  have chan := Lane.channelReset_c_of (l := s.lane p) agree modes
  have pool := Lane.channelReset_pool (l := s.lane p) agree modes
  obtain ⟨mem, gf⟩ := (s.lane p).alignerStop_mem_gf
  have reset : s.onLane p Lane.channelReset =
      { s.setChan p (s.lane p).channelReset.c with pool := (s.lane p).channelReset.pool } := State.setLane_kept mem gf
  have left : (s.takeChReset p).acked.chan p = (s.lane p).channelReset.c := State.chan_onLane_self ..
  refine ⟨_, exec_chReset_taken hi taken, ?_, ?_, ?_⟩
  · rw [left]
    show ((s.onLane p Lane.channelReset).answerWith (natWord c.rxChains.length) (natWord c.txChains.length)).acked = _
    rw [reset, pool]
    rfl
  · rw [left, chan, State.chan_reset]
    rfl
  · rw [left, chan]
    rfl

end Sys2Proof.Machine
end

section
/-! PROOFS. The counters (R152, R153) and CNT_SNAP (R155, R156): the command alone, and the counts of a silence expiry that it meets. -/
namespace Sys2Proof.Machine

open Sys2Proof

/-- Settles O54: the counter of the occurrence by `countUp`, every other one kept. -/
theorem countersSaturate : Obligations.CountersSaturate := by
  intro c k j
  refine ⟨?_, c.get_bump_ne⟩
  rw [Counters.get_bump_self, countUp_toNat]

/-! ### CNT_SNAP alone (R155) -/

theorem State.cntSnap_taken {s : State} (hi : Byte) (taken : s.takesCmd 0x31) :
    s.cmdAccess 0x31 hi = (s.takeCntSnap s.win.page).acked := State.cmdAccess_taken hi .cntSnap taken rfl

/-- The paged channel after a snapshot. -/
theorem State.chan_cntSnap {s : State} (hi : Byte) (taken : s.takesCmd 0x31) :
    (s.cmdAccess 0x31 hi).chan s.win.page = { s.chan s.win.page with snap := (s.chan s.win.page).live, live := {} } := by
  rw [State.cntSnap_taken hi taken]
  exact State.chan_onChan_self s s.win.page fun c => { c with snap := c.live, live := {} }

/-! ### CNT_SNAP met by a line event (R156) -/

theorem exec_cntSnap_met (hi : Byte) (m : Meeting) (s : State) : exec (.cntSnap ⟨hi, some m⟩) s = .next (s.snapMeets m hi) := rfl

/-- Table 16's column of blocks, each block with the list of its counters. -/
theorem Ctr.block_eq (k : Ctr) :
    k.block = if k ∈ [.rxframes, .alignloss] then .aligner else if k ∈ [.fcerr, .fcjump, .ohlost] then .monitor
      else if k ∈ [.txframes, .txpkts, .txabort] then .framer else .delineator := by
  cases k <;> rfl

/-- A block in `first` counts before the snapshot. -/
theorem State.snapMeets_before {s : State} {m : Meeting} (hi : Byte) (taken : s.takesCmd 0x31) {k : Ctr} (before : k.block ∈ m.first) :
    let early := ((s.lineEvent m.event).cmdAccess 0x31 hi).chan s.win.page
    let d := (s.snapMeets m hi).chan s.win.page
    d.snap.get k = early.snap.get k ∧ d.live.get k = early.live.get k := by
  have counts := (State.snapMeets_taken m hi taken).2 k
  rwa [if_pos before] at counts

/-- A block that is not in `first` counts after it. -/
theorem State.snapMeets_after {s : State} {m : Meeting} (hi : Byte) (taken : s.takesCmd 0x31) {k : Ctr} (after : k.block ∉ m.first) :
    let late := ((s.cmdAccess 0x31 hi).lineEvent m.event).chan s.win.page
    let d := (s.snapMeets m hi).chan s.win.page
    d.snap.get k = late.snap.get k ∧ d.live.get k = late.live.get k := by
  have counts := (State.snapMeets_taken m hi taken).2 k
  rwa [if_neg after] at counts

/-! ### An alignment loss by silence that aborts a packet in assembly (9.5) -/

/-- The expiry of a silence timer is nothing that a CMD write is tested for. -/
theorem State.takesCmd.silenced {s : State} {code : Byte} (taken : s.takesCmd code) (ch : ChanId) :
    (s.silenceExpiry ch).takesCmd code := by
  obtain ⟨taking, ready, idle, carries⟩ := taken
  exact ⟨taking, (s.lane ch).silenceExpiry_conserves.state.trans ready, idle, carries⟩

/-- What the expiry leaves in the channel `d` of a channel `c` that was LOCKED with a packet in assembly: one ALIGNLOSS and one RXABORT
more, the snapshot values as they were. -/
structure Chan.SilencedInAssembly (c d : Chan) : Prop where
  silent : d.al.state = .silent
  snap : d.snap = c.snap
  counted : ∀ k ∈ [Ctr.alignloss, .rxabort], d.live.get k = countUp (c.live.get k)

theorem State.silenceExpiry_inAssembly {s : State} {p : ChanId} (locked : (s.chan p).al.state = .locked)
    (body : (s.chan p).del.state = .body) (assembling : (s.chan p).del.assembly.isSome) :
    (s.chan p).SilencedInAssembly ((s.silenceExpiry p).chan p) := by
  obtain ⟨a, assembly⟩ := Option.isSome_iff_exists.mp assembling
  have departs := (s.lane p).loseAlignment_departs
  have abort : (s.chan p).abortOutcome (s.lane p).loseAlignment.c s.pool (s.lane p).loseAlignment.pool :=
    (departs.parsing (by rw [State.lane_c, body]; nofun)).2
  unfold Chan.abortOutcome at abort
  rw [assembly] at abort
  obtain ⟨-, -, rxabort, -⟩ := abort
  obtain ⟨-, -, -, -, -, -, snap, -, -⟩ := departs.kept
  rw [State.silenceExpiry, State.chan_onLane_self, Lane.silenceExpiry_locked (l := s.lane p) locked]
  refine ⟨rfl, snap, fun k counts => ?_⟩
  rcases List.mem_pair.mp counts with rfl | rfl
  · exact departs.alignloss
  · exact rxabort

/-- The snapshot taken between the counts of such an expiry: a count before it is in the snapshot and leaves 0, a count after it leaves
the snapshot without it and raises the counter from 0. -/
theorem State.snapMeets_silence {s : State} (hi : Byte) (first : List CountingBlock) (taken : s.takesCmd 0x31) {c : Chan}
    (paged : s.chan s.win.page = c) (locked : c.al.state = .locked) (body : c.del.state = .body) (assembling : c.del.assembly.isSome) :
    let d := (s.snapMeets ⟨.silence s.win.page, first⟩ hi).chan s.win.page
    d.al.state = .silent ∧ ∀ k ∈ [Ctr.alignloss, .rxabort],
      (k.block ∈ first → d.snap.get k = countUp (c.live.get k) ∧ d.live.get k = 0)
      ∧ (k.block ∉ first → d.snap.get k = c.live.get k ∧ d.live.get k = 1) := by
  subst paged
  have snapped := State.chan_cntSnap hi taken
  have eventFirst := State.silenceExpiry_inAssembly locked body assembling
  have early := State.chan_cntSnap hi (taken.silenced s.win.page)
  have late := State.silenceExpiry_inAssembly (s := s.cmdAccess 0x31 hi) (p := s.win.page) (by rw [snapped]; exact locked)
    (by rw [snapped]; exact body) (by rw [snapped]; exact assembling)
  rw [snapped] at late
  refine ⟨?_, fun k counts => ⟨fun before => ?_, fun after => ?_⟩⟩
  · rw [(State.snapMeets_taken ⟨.silence s.win.page, first⟩ hi taken).1, State.chan_setChan_self]
    exact (congrArg (fun d : Chan => d.al.state) early).trans eventFirst.silent
  · obtain ⟨snap, live⟩ := State.snapMeets_before (m := ⟨.silence s.win.page, first⟩) hi taken before
    refine ⟨snap.trans ?_, live.trans ?_⟩
    · exact (congrArg (fun d : Chan => d.snap.get k) early).trans (eventFirst.counted k counts)
    · exact (congrArg (fun d : Chan => d.live.get k) early).trans (Counters.get_zero k)
  · obtain ⟨snap, live⟩ := State.snapMeets_after (m := ⟨.silence s.win.page, first⟩) hi taken after
    refine ⟨snap.trans (congrArg (fun b : Counters => b.get k) late.snap), live.trans ((late.counted k counts).trans ?_)⟩
    rw [Counters.get_zero]
    rfl

/-- Settles O31: the snapshot alone; both orders of the command and the event, between which the blocks' counts are divided; and the
alignment loss that aborts a packet, whose two counts fall on the old interval or on the new one. -/
theorem cntSnapCopiesAndClearsTheCounters : Obligations.CntSnapCopiesAndClearsTheCounters := by
  refine ⟨?_, ?_, ?_⟩
  · intro s hi taken p c
    exact ⟨{}, Counters.get_zero, congrArg Host.Outcome.next (State.cntSnap_taken hi taken)⟩
  · intro s hi e first i
    have event (u : State) : exec i u = .next (u.lineEvent e) := by cases e <;> rfl
    refine ⟨_, _, _, _, event s, rfl, rfl, event _, fun refused => ?_, fun taken => ?_⟩
    · exact congrArg Host.Outcome.next (State.snapMeets_not_taken ⟨e, first⟩ hi refused)
    · obtain ⟨only, counts⟩ := State.snapMeets_taken ⟨e, first⟩ hi taken
      refine ⟨_, rfl, only, fun k => ?_⟩
      have divided := counts k
      rw [k.block_eq] at divided
      exact divided
  · intro s hi first taken p c locked body assembling
    obtain ⟨silent, counts⟩ := State.snapMeets_silence hi first taken rfl locked body assembling
    obtain ⟨lossBefore, lossAfter⟩ := counts .alignloss (by decide)
    obtain ⟨abortBefore, abortAfter⟩ := counts .rxabort (by decide)
    exact ⟨_, exec_cntSnap_met hi ⟨.silence p, first⟩ s, silent, lossBefore, lossAfter, abortBefore, abortAfter⟩

end Sys2Proof.Machine
end

section
/-! PROOFS. The views of the indirect space (R157, R52, R76, R96, R110, R134, R176; Tables 28 to 31): words made of fields as numbers, the words of
each view, and the read of IDATA that returns them. -/
namespace Sys2Proof.Machine

open Sys2Proof

/-! ### Words made of fields -/

/-- The word `w` is the number `n`, and its fields so far end below bit `i`. -/
def Fields (w : Word) (n i : Nat) : Prop := w = natWord n ∧ n < 2 ^ i

/-- A further field of `k` bits above the others adds its number at its place. -/
theorem Fields.field {w : Word} {n i k m : Nat} (h : Fields w n i) (hm : m < 2 ^ k) :
    Fields (w ||| fieldAt i m) (n + 2 ^ i * m) (i + k) := by
  obtain ⟨rfl, below⟩ := h
  constructor
  · rw [fieldAt, natWord, natWord, ← BitVec.ofNat_or, Nat.or_comm, Nat.mul_comm m, ← Nat.two_pow_add_eq_or_of_lt below, Nat.add_comm]
    rfl
  · calc n + 2 ^ i * m < 2 ^ i * (m + 1) := by rw [Nat.mul_succ, Nat.add_comm]; exact Nat.add_lt_add_left below _
      _ ≤ 2 ^ i * 2 ^ k := Nat.mul_le_mul_left _ hm
      _ = 2 ^ (i + k) := (Nat.pow_add ..).symm

theorem fieldAt_zero (n : Nat) : fieldAt 0 n = natWord n := by rw [fieldAt, Nat.pow_zero, Nat.mul_one]

/-- A field as low as it can lie is alone in its word. -/
theorem Fields.lowest {m k : Nat} (hm : m < 2 ^ k) : Fields (fieldAt 0 m) m k :=
  ⟨fieldAt_zero m, hm⟩

/-- Unused bits between two fields. -/
theorem Fields.upTo {w : Word} {n i j : Nat} (h : Fields w n i) (hij : i ≤ j) : Fields w n j :=
  ⟨h.1, h.2.trans_le (Nat.pow_le_pow_right Nat.two_pos hij)⟩

theorem bitAt_eq_fieldAt (i : Nat) (b : Bool) : bitAt i b = fieldAt i b.toNat := by
  cases b
  · exact congrArg natWord (Nat.zero_mul _).symm
  · exact congrArg natWord (Nat.one_mul _).symm

/-- A bit is a field of one bit. -/
theorem Fields.bit {w : Word} {n i : Nat} (h : Fields w n i) (b : Bool) : Fields (w ||| bitAt i b) (n + 2 ^ i * b.toNat) (i + 1) := by
  rw [bitAt_eq_fieldAt]
  exact h.field (k := 1) b.toNat_lt

theorem Fields.lowestBit (b : Bool) : Fields (bitAt 0 b) b.toNat 1 := by
  rw [bitAt_eq_fieldAt]
  exact Fields.lowest (k := 1) b.toNat_lt

/-- A byte above the number of the byte below it. -/
theorem append_ofNat_eq_natWord (hi : Byte) {n : Nat} (h : n < 2 ^ 8) :
    (hi ++ BitVec.ofNat 8 n : BitVec (8 + 8)) = natWord (n + 2 ^ 8 * hi.toNat) := by
  have := hi.isLt
  apply BitVec.eq_of_toNat_eq
  rw [BitVec.toNat_append, BitVec.toNat_ofNat, Nat.mod_eq_of_lt h, ← Nat.shiftLeft_add_eq_or_of_lt h, Nat.shiftLeft_eq]
  show _ = (n + 2 ^ 8 * hi.toNat) % 2 ^ 16
  omega

/-! ### The words of each view -/

/-- The sixteen snapshot values in counter-number order. -/
def Counters.inOrder (c : Counters) : List (BitVec 24) :=
  [c.rxframes, c.fcerr, c.fcjump, c.alignloss, c.rxpkts, c.rxlong, c.rxpadded, c.hdrerr, c.offmiss, c.dropnobuf, c.dropqfull, c.rxabort,
   c.ohlost, c.txframes, c.txpkts, c.txabort]

theorem Counters.inOrder_eq_map (c : Counters) : c.inOrder = (List.range 16).map fun n => c.get (Ctr.ofNum n) := rfl

theorem Counters.of_inOrder {c : Counters} {n : Nat} {v : BitVec 24} (h : c.inOrder[n]? = some v) : n < 16 ∧ c.get (Ctr.ofNum n) = v := by
  rw [Counters.inOrder_eq_map, List.getElem?_map, Option.map_eq_some_iff] at h
  obtain ⟨m, place, value⟩ := h
  obtain ⟨below, rfl⟩ := List.getElem?_eq_some_iff.mp place
  rw [List.length_range] at below
  rw [List.getElem_range] at value
  exact ⟨below, value⟩

/-- Table 28: the low word of a value. -/
theorem Chan.snapshotWord_low (n : Nat) (c : Chan) : c.snapshotWord (2 * n) = (c.snap.get (Ctr.ofNum n)).extractLsb' 0 16 := by
  have number : 2 * n / 2 = n := by omega
  have even : 2 * n % 2 = 0 := by omega
  rw [Chan.snapshotWord, number, if_pos even]
  apply BitVec.eq_of_toNat_eq
  rw [BitVec.extractLsb'_toNat, Nat.shiftRight_zero]
  exact Nat.mod_mod ..

/-- Table 28: the high word of a value, its own high byte 0. -/
theorem Chan.snapshotWord_high (n : Nat) (c : Chan) :
    c.snapshotWord (2 * n + 1) = ((c.snap.get (Ctr.ofNum n)).extractLsb' 16 8).setWidth 16 := by
  have number : (2 * n + 1) / 2 = n := by omega
  have odd : ¬(2 * n + 1) % 2 = 0 := by omega
  have := (c.snap.get (Ctr.ofNum n)).isLt
  rw [Chan.snapshotWord, number, if_neg odd]
  apply BitVec.eq_of_toNat_eq
  rw [BitVec.toNat_setWidth, BitVec.extractLsb'_toNat, Nat.shiftRight_eq_div_pow]
  show _ / 65536 % 2 ^ 16 = _
  omega

theorem Chan.headView_empty {c : Chan} (empty : c.rq = []) (k : Nat) : c.headView k = 0 := by rw [Chan.headView, empty]

/-- Table 29: the words of the head view. -/
theorem Chan.headView_head {c : Chan} {d : RxDesc} {rest : List RxDesc} (head : c.rq = d :: rest) :
    c.headView 0 = natWord (1 + 2 * d.long.toNat + 4 * d.padded.toNat) ∧ c.headView 1 = d.pktseq
      ∧ c.headView 2 = natWord d.wirelen ∧ c.headView 3 = natWord d.storelen ∧ c.headView 4 = d.fcnt.setWidth 16
      ∧ c.headView 5 = natWord d.cells ∧ c.headView 6 = 0 ∧ c.headView 7 = 0 := by
  unfold Chan.headView
  rw [head]
  have flags := ((Fields.lowestBit true).bit d.long).bit d.padded
  exact ⟨flags.1, rfl, fieldAt_zero _, fieldAt_zero _, rfl, fieldAt_zero _, rfl, rfl⟩

theorem Chan.recordView_empty {c : Chan} (empty : c.mon.ring = []) (k : Nat) : c.recordView k = 0 := by rw [Chan.recordView, empty]

/-- Table 30: the words of the record view. -/
theorem Chan.recordView_head {c : Chan} {r : OhRecord} {rest : List OhRecord} (head : c.mon.ring = r :: rest) :
    c.recordView 0 = natWord (1 + 2 * r.locked.toNat + 4 * r.statKnown.toNat + 8 * r.pv.toNat + 16 * r.fe.toNat
        + 32 * r.labelKnown.toNat + 64 * r.degraded.toNat + 256 * r.causes.align.toNat + 512 * r.causes.status.toNat
        + 1024 * r.causes.label.toNat + 2048 * r.causes.degrade.toNat)
      ∧ c.recordView 1 = r.seq ∧ c.recordView 2 = r.label ++ r.fcnt ∧ c.recordView 3 = r.lost.setWidth 16
      ∧ ∀ k, 4 ≤ k → c.recordView k = 0 := by
  unfold Chan.recordView
  rw [head]
  have state := ((((((Fields.lowestBit true).bit r.locked).bit r.statKnown).bit r.pv).bit r.fe).bit r.labelKnown).bit r.degraded
  have causes := ((((state.upTo (j := 8) (by decide)).bit r.causes.align).bit r.causes.status).bit r.causes.label).bit r.causes.degrade
  refine ⟨causes.1, rfl, rfl, rfl, fun k above => ?_⟩
  obtain ⟨k, rfl⟩ := Nat.exists_eq_add_of_le' above
  rfl

theorem Admin.code_lt (a : Admin) : a.code < 2 ^ 2 := by cases a <;> decide

theorem AlState.code_lt (a : AlState) : a.code < 2 ^ 3 := by cases a <;> decide

theorem DelState.code_lt (d : DelState) : d.code < 2 ^ 3 := by cases d <;> decide

theorem Chan.framerModeCode_eq (c : Chan) :
    c.framerModeCode = if c.fr.running = false then 0 else if c.fr.mode = .alarm then 3 else if c.cfg.sendalarm = 1 then 2 else 1 := by
  unfold Chan.framerModeCode
  cases c.fr.running <;> cases c.fr.mode <;> rfl

theorem Chan.framerModeCode_lt (c : Chan) : c.framerModeCode < 2 ^ 2 := by
  rw [Chan.framerModeCode_eq]
  split_ifs <;> decide

/-- Table 31, word 0: the four states. -/
theorem Chan.statusView_states (c : Chan) : c.statusView 0 =
    natWord (c.admin.code + 4 * c.al.state.code + 32 * c.del.state.code + 256 * c.framerModeCode) :=
  ((((Fields.lowest c.admin.code_lt).field c.al.state.code_lt).field c.del.state.code_lt).field c.framerModeCode_lt).1

/-- Table 31, word 1: the conditions and the accepted bytes. -/
theorem Chan.statusView_conditions (c : Chan) : c.statusView 1 =
    (c.mon.label.accepted.getD 0) ++ BitVec.ofNat 8 (c.mon.conds.carrier.toNat + 2 * c.mon.conds.farend.toNat
      + 4 * c.mon.conds.labelmis.toNat + 8 * c.mon.conds.degraded.toNat + 16 * c.mon.stat.accepted.isSome.toNat
      + 32 * ((c.mon.stat.accepted.map StatVal.pv).getD false).toNat
      + 64 * ((c.mon.stat.accepted.map StatVal.fe).getD false).toNat + 128 * c.mon.label.accepted.isSome.toNat) := by
  have conditions := (((Fields.lowestBit c.mon.conds.carrier).bit c.mon.conds.farend).bit c.mon.conds.labelmis).bit c.mon.conds.degraded
  have known := (((conditions.bit c.mon.stat.accepted.isSome).bit ((c.mon.stat.accepted.map StatVal.pv).getD false)).bit
    ((c.mon.stat.accepted.map StatVal.fe).getD false)).bit c.mon.label.accepted.isSome
  have word := known.field (k := 8) (c.mon.label.accepted.getD 0).isLt
  exact word.1.trans (append_ofNat_eq_natWord _ known.2).symm

theorem Chan.statusView_unused {k : Nat} (c : Chan) (above : 12 ≤ k) : c.statusView k = 0 := by
  obtain ⟨k, rfl⟩ := Nat.exists_eq_add_of_le' above
  rfl

theorem bitAt_isSome {α : Type} (o : Option α) [Decidable (o = none)] : bitAt 0 o.isSome = if o = none then 0 else 1 := by
  cases o
  · exact (if_pos rfl).symm
  · exact (if_neg nofun).symm

/-- A number of an item that may be absent reads 0 when it is (R176). -/
theorem fieldAt_map_getD {α : Type} (f : α → Nat) (o : Option α) :
    (o = none → fieldAt 0 ((o.map f).getD 0) = 0) ∧ ∀ a, o = some a → fieldAt 0 ((o.map f).getD 0) = natWord (f a) := by
  rw [fieldAt_zero]
  refine ⟨fun absent => ?_, fun a present => ?_⟩
  · rw [absent]
    rfl
  · rw [present]
    rfl

/-! ### Reads of the indirect space (R166) -/

/-- Above Table 27's indices there is no configuration entry. -/
theorem Entry.atIndex_eq_none {i : Nat} (h : 0x12 ≤ i) : Entry.atIndex i = none := by
  obtain ⟨k, rfl⟩ := Nat.exists_eq_add_of_le' h
  rfl

/-- Below Table 32's indices there is no global entry. -/
theorem GEntry.atIndex_eq_none {i : Nat} (h : i < 0xF0) : GEntry.atIndex i = none := by
  unfold GEntry.atIndex
  split
  case h_4 => rfl
  all_goals omega

section

variable (c : Chan) (g : Globals) (p : Pool) {k : Nat}

theorem indirectWord_snapshot (h : k < 32) : indirectWord (0x20 + k) c g p = c.snapshotWord k := by
  rw [indirectWord, Entry.atIndex_eq_none (by omega), GEntry.atIndex_eq_none (by omega)]
  dsimp only
  rw [if_pos (by omega), Nat.add_sub_cancel_left]

theorem indirectWord_head (h : k < 8) : indirectWord (0x40 + k) c g p = c.headView k := by
  rw [indirectWord, Entry.atIndex_eq_none (by omega), GEntry.atIndex_eq_none (by omega)]
  dsimp only
  rw [if_neg (by omega), if_pos (by omega), Nat.add_sub_cancel_left]

theorem indirectWord_record (h : k < 8) : indirectWord (0x48 + k) c g p = c.recordView k := by
  rw [indirectWord, Entry.atIndex_eq_none (by omega), GEntry.atIndex_eq_none (by omega)]
  dsimp only
  rw [if_neg (by omega), if_neg (by omega), if_pos (by omega), Nat.add_sub_cancel_left]

theorem indirectWord_status (h : k < 16) : indirectWord (0x50 + k) c g p = c.statusView k := by
  rw [indirectWord, Entry.atIndex_eq_none (by omega), GEntry.atIndex_eq_none (by omega)]
  dsimp only
  rw [if_neg (by omega), if_neg (by omega), if_neg (by omega), if_pos (by omega), Nat.add_sub_cancel_left]

end

/-- A read of FREE alone moves the build on. -/
theorem State.buildSeen_elsewhere {s : State} (h : s.win.idx.toNat ≠ 0xF3) : s.buildSeen = s := if_neg fun seen => h seen.2

/-- A 16-bit read of IDATA, but of FREE, drives the indirect word and moves IDX on. -/
theorem exec_idataRead_indirect {s : State} {i : Nat} {w : Word} (ht : s.taking) (wide : s.win.width16 = true)
    (place : s.win.idx.toNat = i) (notFree : i ≠ 0xF3) (word : indirectWord i (s.chan s.win.page) s.globals s.pool = w) :
    exec (.idataRead 11 false) s
      = .next { s with win := { s.win with idx := s.win.idx + 1, lines := .all w, ready := true } } := by
  have seen := State.buildSeen_elsewhere (place ▸ notFree)
  have read : s.readWord 11 = (w, s.nextIdx) := by
    show (indirectWord s.win.idx.toNat s.buildSeen.paged s.buildSeen.globals s.buildSeen.pool, s.buildSeen.nextIdx) = _
    rw [seen, place, ← word]
    rfl
  show Host.Outcome.next (s.readAccess 11 false) = _
  rw [State.readAccess_word 11 false ht wide, read]
  rfl

/-- Settles O11: each index names a word of its view, and each view's words are as its table lists them. -/
theorem viewsReadTheirFields : Obligations.ViewsReadTheirFields := by
  refine ⟨?_, ?_⟩
  · intro s ht wide c i reads counts
    have snapshot (k : Nat) {w : Word} (word : c.snapshotWord k = w) (below : k < 32) (place : i = 0x20 + k) : reads w :=
      exec_idataRead_indirect ht wide place (by omega) ((indirectWord_snapshot c _ _ below).trans word)
    have head (k : Nat) {w : Word} (word : c.headView k = w) (below : k < 8) (place : i = 0x40 + k) : reads w :=
      exec_idataRead_indirect ht wide place (by omega) ((indirectWord_head c _ _ below).trans word)
    have record (k : Nat) {w : Word} (word : c.recordView k = w) (below : k < 8) (place : i = 0x48 + k) : reads w :=
      exec_idataRead_indirect ht wide place (by omega) ((indirectWord_record c _ _ below).trans word)
    refine ⟨fun n v count => ?_, fun empty above upTo => ?_, fun d rest queued => ?_, fun empty above upTo => ?_, fun r rest queued => ?_⟩
    · obtain ⟨below, rfl⟩ := Counters.of_inOrder (c := c.snap) count
      exact ⟨snapshot (2 * n) (c.snapshotWord_low n) (by omega),
        fun place => snapshot (2 * n + 1) (c.snapshotWord_high n) (by omega) (by omega)⟩
    · exact head (i - 0x40) (Chan.headView_empty empty _) (by omega) (by omega)
    · obtain ⟨flags, pktseq, wirelen, storelen, fcnt, cells, unused6, unused7⟩ := Chan.headView_head queued
      refine ⟨head 0 flags (by decide), head 1 pktseq (by decide), head 2 wirelen (by decide), head 3 storelen (by decide),
        head 4 fcnt (by decide), head 5 cells (by decide), fun unused => ?_⟩
      rcases unused with place | place
      · exact head 6 unused6 (by decide) place
      · exact head 7 unused7 (by decide) place
    · exact record (i - 0x48) (Chan.recordView_empty empty _) (by omega) (by omega)
    · obtain ⟨flags, seq, bytes, lost, unused⟩ := Chan.recordView_head queued
      exact ⟨record 0 flags (by decide), record 1 seq (by decide), record 2 bytes (by decide), record 3 lost (by decide),
        fun above upTo => record (i - 0x48) (unused _ (by omega)) (by omega) (by omega)⟩
  · intro s ht wide c i reads admin alstate delin
    have status (k : Nat) {w : Word} (word : c.statusView k = w) (below : k < 16) (place : i = 0x50 + k) : reads w :=
      exec_idataRead_indirect ht wide place (by omega) ((indirectWord_status c _ _ below).trans word)
    have number (k n : Nat) (word : c.statusView k = fieldAt 0 n) : k < 16 → i = 0x50 + k → reads (natWord n) :=
      status k (word.trans (fieldAt_zero n))
    have states : c.statusView 0 = natWord (admin + 4 * alstate + 32 * delin + 256 * _) :=
      c.framerModeCode_eq ▸ c.statusView_states
    have cursor := fieldAt_map_getD Held.cursor c.held
    have filled := fieldAt_map_getD FillPkt.cursor c.fill
    have length := fieldAt_map_getD FillPkt.len c.fill
    refine ⟨status 0 states (by decide), status 1 c.statusView_conditions (by decide), number 2 _ rfl (by decide),
      number 3 _ rfl (by decide), number 4 _ rfl (by decide), number 5 _ rfl (by decide), number 6 _ rfl (by decide),
      status 7 (bitAt_isSome c.held) (by decide), fun place => ⟨fun absent => ?_, fun h held => ?_⟩,
      status 9 (bitAt_isSome c.fill) (by decide), fun place => ⟨fun absent => ?_, fun f filling => ?_⟩,
      fun place => ⟨fun absent => ?_, fun f filling => ?_⟩, fun above upTo => ?_⟩
    · exact status 8 (cursor.1 absent) (by decide) place
    · exact status 8 (cursor.2 h held) (by decide) place
    · exact status 10 (filled.1 absent) (by decide) place
    · exact status 10 (filled.2 f filling) (by decide) place
    · exact status 11 (length.1 absent) (by decide) place
    · exact status 11 (length.2 f filling) (by decide) place
    · exact status (i - 0x50) (c.statusView_unused (by omega)) (by omega) (by omega)

end Sys2Proof.Machine
end

section
/-! PROOFS. Accesses of the bus window that write (R159, R162, R164 to R166, R169, R170, R172): not taken under -RESET, refused, ignored, or stored;
the soft reset, and -INT as the flags and masks have it. -/
namespace Sys2Proof.Machine

open Sys2Proof

/-! ### The rows that are accesses (R159) -/

/-- A row that is an access and nothing beside is a committing write, a write with A0 at 0, a read, or an access with both strobes. -/
theorem exec_access_cases {i : Instr} (access : isAccess i = true) (s : State) :
    (∃ word d, exec i s = .next (s.writeAccess word d)) ∨ (∃ word d, exec i s = .next (s.evenWriteAccess word d))
      ∨ (∃ word odd, exec i s = .next (s.readAccess word odd)) ∨ exec i s = .next s.strobesConflict := by
  cases i with
  | softReset _ | pageWrite _ | idxWrite _ | configurationWrite _ | globalEntryWrite _ | ignoredIndirectWrite _ | eventFlagClear _ _
  | eventMaskWrite _ _ | registerWrite _ _ | txdataWrite _ | chStart _ | chStop _ | chReset _ | chFlush _ | rxOpen _ | rxRelease _
  | rxSkip _ | txAlloc _ | txSubmit _ | txCancel _ | ohPop _ | unknownCommand _ => exact .inl ⟨_, _, rfl⟩
  | cntSnap w =>
    obtain ⟨hi, _ | meeting⟩ := w
    · exact .inl ⟨_, _, rfl⟩
    · cases access
  | evenByteWrite _ _ => exact .inr (.inl ⟨_, _, rfl⟩)
  | idataRead _ _ | rxdataRead => exact .inr (.inr (.inl ⟨_, _, rfl⟩))
  | conflictingStrobes _ _ => exact .inr (.inr (.inr rfl))
  | _ => cases access

theorem State.strobesConflict_inReset {s : State} (held : s.win.inReset = true) : s.strobesConflict = s.notTaken := if_pos held

theorem State.strobesConflict_taking {s : State} (ht : s.taking) : s.strobesConflict = s.acked :=
  if_neg (Bool.eq_false_iff.mp ht)

/-- Settles O6: each kind of access is not taken under -RESET; with both strobes a taken one is answered alone. -/
theorem accessesInResetAndWithBothStrobesTouchNothing : Obligations.AccessesInResetAndWithBothStrobesTouchNothing := by
  refine ⟨fun i s access held => ?_, fun word d s ht => ?_⟩
  · rcases exec_access_cases access s with ⟨word, d, row⟩ | ⟨word, d, row⟩ | ⟨word, odd, row⟩ | row
    · rw [row, State.writeAccess_inReset word d held]
      rfl
    · rw [row, State.evenWriteAccess_inReset word d held]
      rfl
    · rw [row, State.readAccess_inReset word odd held]
      rfl
    · rw [row, State.strobesConflict_inReset held]
      rfl
  · exact congrArg Host.Outcome.next (State.strobesConflict_taking ht)

/-! ### Words written (R164, R166, R169) -/

theorem State.carries_committed (s : State) (d : Word) : s.carries d (s.win.committed d) := by
  unfold State.carries Window.committed
  cases s.win.width16 <;> simp

/-- A taken row that is a committing write leaves what the write of the carried word leaves, answered. -/
theorem State.next_writeAccess {s t : State} {d v : Word} (word : WordNo) (other : word ≠ 13) (ht : s.taking) (hc : s.carries d v)
    (write : s.writeWord word v = t) : (.next (s.writeAccess word d) : Answer) = .next t.acked := by
  rw [State.writeAccess_of_carries ht other hc, write]

theorem State.gctlWrite_srst {s : State} {v : Word} (srst : v.getLsbD 0 = true) : s.gctlWrite v = s.softReset := if_pos srst

theorem State.gctlWrite_idle {s : State} {v : Word} (idle : v.getLsbD 0 = false) : s.gctlWrite v = s :=
  if_neg (Bool.eq_false_iff.mp idle)

/-- R164: the read-only words ignore a write. -/
theorem State.writeWord_readOnly {s : State} {word : WordNo} (v : Word) (readOnly : word = 0 ∨ word = 2 ∨ word = 7 ∨ word = 12) :
    s.writeWord word v = s := by
  rcases readOnly with rfl | rfl | rfl | rfl <;> rfl

/-- Settles O13: the write of each word by Table 19. -/
theorem registerWritesStoreArgumentsAndIgnoreReadOnlyWords : Obligations.RegisterWritesStoreArgumentsAndIgnoreReadOnlyWords := by
  intro s d v ht hc
  refine ⟨?_, ?_, fun word readOnly => ?_, fun idle => ?_⟩
  · exact State.next_writeAccess 8 (by decide) ht hc rfl
  · exact State.next_writeAccess 9 (by decide) ht hc rfl
  · have other : word ≠ 13 := by
      rintro rfl
      exact absurd readOnly (by decide)
    exact State.next_writeAccess word other ht hc (State.writeWord_readOnly v readOnly)
  · exact State.next_writeAccess 1 (by decide) ht hc (State.gctlWrite_idle idle)

/-- R166: at an index with no entry an IDATA write moves IDX on, and that is all. -/
theorem State.idataWrite_ignored {s : State} (v : Word) (entry : Entry.atIndex s.win.idx.toNat = none)
    (global : GEntry.atIndex s.win.idx.toNat = none) : s.idataWrite v = s.nextIdx := by
  unfold State.idataWrite
  rw [entry, global]

/-- Above POOLTHR's index there is no global entry. -/
theorem GEntry.atIndex_eq_none_above {i : Nat} (h : 0xF3 ≤ i) : GEntry.atIndex i = none := by
  obtain ⟨k, rfl⟩ := Nat.exists_eq_add_of_le' h
  rfl

/-- Settles O8: the two ranges of indices lie beside the entries of both tables. -/
theorem idxIsWrittenAndCountsIgnoredWrites : Obligations.IdxIsWrittenAndCountsIgnoredWrites := by
  refine fun s d v ht hc => ⟨?_, fun unlisted => ?_⟩
  · exact State.next_writeAccess 10 (by decide) ht hc rfl
  · have entry : Entry.atIndex s.win.idx.toNat = none := Entry.atIndex_eq_none (by omega)
    have global : GEntry.atIndex s.win.idx.toNat = none := by
      rcases unlisted with ⟨-, below⟩ | above
      · exact GEntry.atIndex_eq_none below
      · exact GEntry.atIndex_eq_none_above above
    exact State.next_writeAccess 11 (by decide) ht hc (State.idataWrite_ignored v entry global)

/-! ### The soft reset (R172) -/

/-- R172: configuration and masks are kept, the rest of a channel is as the reset state has it. -/
theorem State.chan_softReset (s : State) (ch : ChanId) :
    s.softReset.chan ch = { State.reset.chan ch with cfg := (s.chan ch).cfg, mask := (s.chan ch).mask } := by
  rw [State.chan_reset]
  exact Quad.get_map Chan.softReset s.chans ch

/-- Settles O5: GCTL is written, and SRST decides whether that is the soft reset or nothing. -/
theorem softResetActsOnEveryBlock : Obligations.SoftResetActsOnEveryBlock := by
  refine fun s d v ht hc => ⟨fun idle => ?_, fun srst => ?_⟩
  · exact State.next_writeAccess 1 (by decide) ht hc (State.gctlWrite_idle idle)
  · exact ⟨s.softReset.acked, State.next_writeAccess 1 (by decide) ht hc (State.gctlWrite_srst srst), s.chan_softReset,
      rfl, rfl, rfl, rfl, rfl, rfl, rfl, rfl, rfl⟩

/-! ### PAGE (R165) -/

theorem State.pageWrite_taken {s : State} {v : Word} {p : ChanId} (names : v.toNat = p.val) :
    s.pageWrite v = { s with win := { s.win with page := p } } := by
  have page : Fin.ofNat 4 p.val = p := Fin.ofNat_val_eq_self p
  rw [State.pageWrite, names, if_pos p.isLt, page]

theorem State.pageWrite_refused {s : State} {v : Word} (beyond : 4 ≤ v.toNat) : s.pageWrite v = s.cfgerr :=
  if_neg (Nat.not_lt.mpr beyond)

/-- A write of GCTL keeps PAGE, whether it is taken and whether SRST is 1 (R171, R172). -/
theorem State.writeAccess_gctl_page (s : State) (d : Word) : (s.writeAccess 1 d).win.page = s.win.page := by
  by_cases held : s.win.inReset = true
  · rw [State.writeAccess_inReset 1 d held]
    rfl
  · rw [State.writeAccess_of_carries (Bool.eq_false_iff.mpr held) (by decide) (s.carries_committed d)]
    show (s.gctlWrite (s.win.committed d)).win.page = s.win.page
    unfold State.gctlWrite
    split <;> rfl

/-- Settles O7: the write of PAGE by its value, then the resets, of which none but the power-on reset touches PAGE. -/
theorem pageTakesAWholeValueOfZeroToThree : Obligations.PageTakesAWholeValueOfZeroToThree := by
  refine ⟨fun s d v ht hc => ⟨fun p names => ?_, fun beyond => ?_⟩, fun s t reset => ?_, fun s t d reset => ?_, fun s t hi taken reset => ?_⟩
  · exact State.next_writeAccess 5 (by decide) ht hc (State.pageWrite_taken names)
  · exact State.next_writeAccess 5 (by decide) ht hc (State.pageWrite_refused beyond)
  · obtain rfl := Host.Outcome.next.inj ((exec_powerOnReset s).symm.trans reset)
    rfl
  · obtain rfl : s.writeAccess 1 d = t := Host.Outcome.next.inj reset
    exact s.writeAccess_gctl_page d
  · obtain rfl := Host.Outcome.next.inj ((exec_chReset_taken hi taken).symm.trans reset)
    rfl

/-! ### Flags, masks and -INT (R169, R170) -/

theorem GFlags.enabled_iff (f m : GFlags) : f.enabled m = true ↔
    (f.initdone ∧ m.initdone) ∨ (f.cmddone ∧ m.cmddone) ∨ (f.cmdlost ∧ m.cmdlost) ∨ (f.poollow ∧ m.poollow)
      ∨ (f.porterr ∧ m.porterr) ∨ (f.cfgerr ∧ m.cfgerr) := by
  simp only [GFlags.enabled, Bool.or_eq_true, Bool.and_eq_true, or_assoc]

theorem Chan.enabledEvent_iff (c : Chan) : c.enabledEvent = true ↔
    (c.flags.rxq ∧ c.mask.rxq) ∨ (c.flags.rxdrop ∧ c.mask.rxdrop) ∨ (c.flags.ohrec ∧ c.mask.ohrec) ∨ (c.flags.align ∧ c.mask.align)
      ∨ (c.flags.alarm ∧ c.mask.alarm) ∨ (c.flags.txdone ∧ c.mask.txdone) := by
  simp only [Chan.enabledEvent, Bool.or_eq_true, Bool.and_eq_true, or_assoc]

/-- R170: -INT looks at the global flags and at each channel's. -/
theorem State.intAsserted_iff (s : State) :
    s.intAsserted = true ↔ s.gflags.enabled s.gmask = true ∨ ∃ ch, (s.chan ch).enabledEvent = true := by
  have four : (∃ ch : ChanId, (s.chan ch).enabledEvent = true) ↔ (s.chan 0).enabledEvent = true ∨ (s.chan 1).enabledEvent = true
      ∨ (s.chan 2).enabledEvent = true ∨ (s.chan 3).enabledEvent = true := by
    rw [Fin.exists_fin_succ, Fin.exists_fin_succ, Fin.exists_fin_two]
    rfl
  rw [four]
  simp only [State.intAsserted, Bool.or_eq_true, or_assoc]

/-- Settles O16: the two scopes of a clearing write and of a mask write, and -INT flag by flag. -/
theorem flagsClearMasksAreWrittenAndIntFollows : Obligations.FlagsClearMasksAreWrittenAndIntFollows := by
  refine ⟨fun s d v ht hc => ⟨?_, ?_⟩, fun s d v ht hc => ⟨?_, ?_⟩, fun s => ?_⟩
  · exact State.next_writeAccess 3 (by decide) ht hc rfl
  · exact State.next_writeAccess 14 (by decide) ht hc rfl
  · exact State.next_writeAccess 4 (by decide) ht hc rfl
  · exact State.next_writeAccess 15 (by decide) ht hc rfl
  · rw [State.intAsserted_iff, GFlags.enabled_iff]
    simp only [Chan.enabledEvent_iff]

end Sys2Proof.Machine
end

section
/-! PROOFS. Reads of the direct words and of IDATA (R84, R161, R162, R164, R166; Tables 19, 23, 24, 26, 27 and 32), in 16-bit mode and through the
byte-lane latches of 8-bit mode. -/
namespace Sys2Proof.Machine

open Sys2Proof

/-! ### Words made of bits (Table 23) -/

theorem getLsbD_bitAt {k : Nat} (b : Bool) (i : Nat) (place : k < 16) : (bitAt k b).getLsbD i = (decide (i = k) && b) := by
  cases b
  · rw [Bool.and_false]
    exact BitVec.getLsbD_zero
  · show (BitVec.ofNat 16 (2 ^ k)).getLsbD i = _
    rw [BitVec.getLsbD_ofNat, Nat.testBit_two_pow, Bool.and_true, ← Bool.decide_and, decide_eq_decide]
    omega

/-- Six flags as a word: their bits from bit 0 up, and 0 above them. -/
theorem getLsbD_sixBits (b0 b1 b2 b3 b4 b5 : Bool) (i : Nat) :
    (bitAt 0 b0 ||| bitAt 1 b1 ||| bitAt 2 b2 ||| bitAt 3 b3 ||| bitAt 4 b4 ||| bitAt 5 b5).getLsbD i
      = [b0, b1, b2, b3, b4, b5].getD i false := by
  simp only [BitVec.getLsbD_or, getLsbD_bitAt, Nat.reduceLT]
  match i with
  | 0 | 1 | 2 | 3 | 4 | 5 => simp
  | i + 6 => simp

theorem getD_sixBits_above (b0 b1 b2 b3 b4 b5 : Bool) {i : Nat} (above : 6 ≤ i) : [b0, b1, b2, b3, b4, b5].getD i false = false :=
  List.getD_eq_default _ _ above

/-- GSTAT's bits: three of the whole part, and the four channels' from bit 8 up. -/
theorem State.getLsbD_gstat (s : State) (i : Nat) :
    s.gstat.getLsbD i = [s.pool.state == .ready, s.cu.pending.isSome, s.win.width16, false, false, false, false, false,
      (s.chan 0).flags.any, (s.chan 1).flags.any, (s.chan 2).flags.any, (s.chan 3).flags.any].getD i false := by
  simp only [State.gstat, BitVec.getLsbD_or, getLsbD_bitAt, Nat.reduceLT]
  match i with
  | 0 | 1 | 2 | 3 | 4 | 5 | 6 | 7 | 8 | 9 | 10 | 11 => simp
  | i + 12 => simp

theorem State.getLsbD_gstat_chan (s : State) (ch : ChanId) : s.gstat.getLsbD (8 + ch.val) = (s.chan ch).flags.any := by
  rw [State.getLsbD_gstat]
  fin_cases ch <;> rfl

theorem State.getLsbD_gstat_unused (s : State) {i : Nat} (unused : ¬(i < 3 ∨ (8 ≤ i ∧ i < 12))) : s.gstat.getLsbD i = false := by
  rw [State.getLsbD_gstat]
  by_cases above : 12 ≤ i
  · exact List.getD_eq_default _ _ above
  · have between : 3 ≤ i ∧ i < 8 := by omega
    obtain ⟨lower, upper⟩ := between
    interval_cases i <;> rfl

/-! ### Reads in 16-bit mode (Table 19) -/

/-- A 16-bit read that leaves `t` drives its word, at either byte address. -/
theorem exec_idataRead_wide {s t : State} {word : WordNo} {w : Word} (odd : Bool) (ht : s.taking) (wide : s.win.width16 = true)
    (read : s.readWord word = (w, t)) : exec (.idataRead word odd) s = .next (t.answered (.all w)) := by
  show Host.Outcome.next (s.readAccess word odd) = _
  rw [State.readAccess_word word odd ht wide, read]

/-- Settles O9: what each word's read returns, which leaves the state as it was, and the bits of the words made of bits. -/
theorem directWordsReadTheirFields : Obligations.DirectWordsReadTheirFields := by
  intro s odd ht wide reads
  have plain (k : WordNo) {w : Word} (read : s.readWord k = (w, s)) : reads k w := exec_idataRead_wide odd ht wide read
  refine ⟨⟨plain 0 rfl, plain 1 rfl, plain 6 rfl, plain 13 rfl⟩, ⟨plain 5 rfl, plain 10 rfl⟩, ⟨plain 7 ?_, plain 8 rfl, plain 9 rfl⟩,
    ⟨s.gstat, plain 2 rfl, ?_⟩, ⟨s.gflags.toWord, plain 3 rfl, ?_⟩, ⟨s.gmask.toWord, plain 4 rfl, ?_⟩,
    ⟨(s.chan s.win.page).flags.toWord, plain 14 rfl, ?_⟩, ⟨(s.chan s.win.page).mask.toWord, plain 15 rfl, ?_⟩⟩
  · show (natWord s.cu.cstat.code, s) = _
    cases s.cu.cstat <;> rfl
  · exact ⟨s.getLsbD_gstat 0, s.getLsbD_gstat 1, s.getLsbD_gstat 2, s.getLsbD_gstat_chan, fun _ => s.getLsbD_gstat_unused⟩
  all_goals
    exact ⟨getLsbD_sixBits .., getLsbD_sixBits .., getLsbD_sixBits .., getLsbD_sixBits .., getLsbD_sixBits .., getLsbD_sixBits ..,
      fun _ above => (getLsbD_sixBits ..).trans (getD_sixBits_above _ _ _ _ _ _ above)⟩

/-! ### Entries and FREE (R84, R166) -/

theorem indirectWord_entry (e : Entry) (c : Chan) (g : Globals) (p : Pool) : indirectWord e.index c g p = c.cfg.get e := by
  rw [indirectWord, Entry.atIndex_index]

theorem indirectWord_global (e : GEntry) (c : Chan) (g : Globals) (p : Pool) : indirectWord e.index c g p = g.get e := by
  cases e <;> rfl

theorem indirectWord_free (c : Chan) (g : Globals) (p : Pool) : indirectWord 0xF3 c g p = natWord p.freeCount :=
  fieldAt_zero p.freeCount

/-- Table 24: the indices that list nothing. -/
theorem indirectWord_unlisted {i : Nat} (c : Chan) (g : Globals) (p : Pool)
    (unlisted : (0x12 ≤ i ∧ i < 0x20) ∨ (0x60 ≤ i ∧ i < 0xF0) ∨ 0xF4 ≤ i) : indirectWord i c g p = 0 := by
  have global : GEntry.atIndex i = none := by
    by_cases below : i < 0xF0
    · exact GEntry.atIndex_eq_none below
    · exact GEntry.atIndex_eq_none_above (by omega)
  rw [indirectWord, Entry.atIndex_eq_none (by omega), global]
  dsimp only
  rw [if_neg (by omega), if_neg (by omega), if_neg (by omega), if_neg (by omega), if_neg (by omega)]

/-- A read of FREE returns the count of the pool as the read leaves it. -/
theorem exec_idataRead_free {s : State} (ht : s.taking) (wide : s.win.width16 = true) (place : s.win.idx.toNat = 0xF3) :
    exec (.idataRead 11 false) s = .next (s.buildSeen.nextIdx.answered (.all (natWord s.buildSeen.pool.freeCount))) := by
  refine exec_idataRead_wide false ht wide ?_
  show (indirectWord s.win.idx.toNat s.buildSeen.paged s.buildSeen.globals s.buildSeen.pool, s.buildSeen.nextIdx) = _
  rw [place, indirectWord_free]

theorem State.buildSeen_ready {s : State} (ready : s.pool.state = .ready) : s.buildSeen = s := by
  have noBuild : ¬(s.pool.state = .init ∧ s.win.idx.toNat = 0xF3) := fun ⟨init, _⟩ => absurd (ready.symm.trans init) nofun
  rw [State.buildSeen, if_neg noBuild]

theorem State.buildSeen_building {s : State} (init : s.pool.state = .init) (place : s.win.idx.toNat = 0xF3) :
    s.buildSeen = { s with pool := s.pool.advanced (Config.buildAdvance s.fresh), fresh := s.fresh + 1 } := if_pos ⟨init, place⟩

theorem Pool.freeCount_advanced (k : Nat) (p : Pool) : (p.advanced k).freeCount = min 511 (p.freeCount + k) := length_cellsUpTo _

/-- Settles O10: each index by its table, FREE in READY as it stands and in INIT as the build has got. -/
theorem entriesAndFreeReadAtTheirIndices : Obligations.EntriesAndFreeReadAtTheirIndices := by
  refine ⟨?_, ?_⟩
  · intro s ht wide c i reads
    refine ⟨fun below => ?_, fun place => ?_, fun place => ?_, fun place => ?_, fun place ready => ?_, fun unlisted => ?_⟩
    · have row := List.getElem?_eq_getElem (l := Entry.all.map c.cfg.get) below
      obtain ⟨e, at_e, value⟩ := Entry.of_row row
      refine exec_idataRead_indirect ht wide at_e ?_ ?_
      · exact at_e ▸ (below.trans (by decide)).ne
      · rw [indirectWord_entry, List.getD_eq_getElem _ _ below]
        exact value
    · exact exec_idataRead_indirect ht wide place (by decide) (indirectWord_global .tsil _ _ _)
    · exact exec_idataRead_indirect ht wide place (by decide) (indirectWord_global .tdrain _ _ _)
    · exact exec_idataRead_indirect ht wide place (by decide) (indirectWord_global .poolthr _ _ _)
    · have read := exec_idataRead_free ht wide place
      rw [State.buildSeen_ready ready] at read
      exact read
    · exact exec_idataRead_indirect ht wide rfl (by omega) (indirectWord_unlisted _ _ _ unlisted)
  · intro s ht wide place init building
    have read := exec_idataRead_free ht wide place
    have count := Pool.freeCount_advanced (Config.buildAdvance s.fresh) s.pool
    rw [State.buildSeen_building init place] at read
    refine ⟨_, read, rfl, init, ?_, ?_⟩
    · show s.pool.freeCount ≤ (s.pool.advanced _).freeCount
      omega
    · show (s.pool.advanced _).freeCount ≤ 512
      omega

/-! ### The byte-lane latches (R161, R162) -/

/-- The state with the bus width replaced. -/
def State.withWidth (width : Bool) (s : State) : State := { s with win := { s.win with width16 := width } }

theorem State.withWidth_self {s : State} {width : Bool} (h : s.win.width16 = width) : s.withWidth width = s := by
  subst h
  rfl

/-- An even byte of 8-bit mode: the word is read, its low byte driven, and the word kept in the read latch. -/
theorem exec_idataRead_even {s t : State} {word : WordNo} {w : Word} (ht : s.taking) (narrow : s.win.width16 = false)
    (other : word ≠ 12) (read : s.readWord word = (w, t)) : exec (.idataRead word false) s
      = .next { t with win := { t.win with readLatch := w, lines := .low (lowByte w), ready := true } } := by
  show Host.Outcome.next (s.readAccess word false) = _
  have taken : s.win.inReset = false := ht
  simp only [State.readAccess, taken, narrow, other, read, Bool.false_eq_true, if_false]
  rfl

/-- An odd byte of 8-bit mode: the latch's high byte is driven. -/
theorem exec_idataRead_odd {s : State} {word : WordNo} (ht : s.taking) (narrow : s.win.width16 = false) (other : word ≠ 12) :
    exec (.idataRead word true) s = .next (s.answered (.low (highByte s.win.readLatch))) := by
  show Host.Outcome.next (s.readAccess word true) = _
  have taken : s.win.inReset = false := ht
  simp only [State.readAccess, taken, narrow, other, Bool.false_eq_true, if_false, if_true]

/-- The word read and what its read leaves do not depend on the width, but for GSTAT and RXDATA's words. -/
theorem State.readWord_withWidth (s : State) (width : Bool) {word : WordNo} (notGstat : word ≠ 2) (notPort : word ≠ 12) :
    (s.withWidth width).readWord word = ((s.readWord word).1, (s.readWord word).2.withWidth width) := by
  have seen : (s.withWidth width).buildSeen = s.buildSeen.withWidth width := by
    unfold State.buildSeen State.withWidth
    dsimp only
    split <;> rfl
  have indirect : (s.withWidth width).idataRead = (s.idataRead.1, s.idataRead.2.withWidth width) := by
    unfold State.idataRead
    rw [seen]
    rfl
  match word with
  | 2 => exact absurd rfl notGstat
  | 11 => exact indirect
  | 12 => exact absurd rfl notPort
  | 0 | 1 | 3 | 4 | 5 | 6 | 7 | 8 | 9 | 10 | 13 | 14 | 15 => rfl
  | ⟨n + 16, beyond⟩ => exact absurd beyond (Nat.not_lt.mpr (Nat.le_add_left 16 n))

theorem State.evenWriteAccess_latch {s : State} {word : WordNo} (d : Word) (ht : s.taking) (narrow : s.win.width16 = false)
    (other : word ≠ 13) : s.evenWriteAccess word d = { s with win := { s.win with holdLatch := lowByte d } }.acked := by
  have taken : s.win.inReset = false := ht
  simp only [State.evenWriteAccess, taken, narrow, other, Bool.false_eq_true, or_self, if_false]
  rfl

/-- Table 18: in 16-bit mode A0 is disregarded. -/
theorem State.evenWriteAccess_wide {s : State} (word : WordNo) (d : Word) (wide : s.win.width16 = true) :
    s.evenWriteAccess word d = s.writeAccess word d := by
  unfold State.evenWriteAccess State.writeAccess
  simp only [wide, true_or, if_true]
  split <;> rfl

/-- Settles O12: even and odd bytes by their rules, an even byte beside the 16-bit read of the same state, and even-byte writes. -/
theorem evenBytesFillTheByteLaneLatches : Obligations.EvenBytesFillTheByteLaneLatches := by
  refine ⟨fun s word ht narrow other => ⟨?_, fun notGstat => ?_, fun gstat => ?_, ?_⟩, fun s word d ht => ⟨fun narrow other => ?_, fun wide => ?_⟩⟩
  · exact exec_idataRead_even ht narrow other rfl
  · have wide := exec_idataRead_wide (s := s.withWidth true) false ht rfl (s.readWord_withWidth true notGstat other)
    have same := s.readWord_withWidth false notGstat other
    rw [State.withWidth_self narrow] at same
    refine ⟨_, _, wide, rfl, ?_⟩
    rw [exec_idataRead_even ht narrow other same]
    rfl
  · subst gstat
    refine ⟨s.gstat, exec_idataRead_even ht narrow other rfl, s.getLsbD_gstat 0, s.getLsbD_gstat 1, s.getLsbD_gstat_chan, fun i unused => ?_⟩
    by_cases width : i = 2
    · rw [width, s.getLsbD_gstat 2]
      exact narrow
    · exact s.getLsbD_gstat_unused (by omega)
  · exact exec_idataRead_odd ht narrow other
  · exact congrArg Host.Outcome.next (State.evenWriteAccess_latch d ht narrow other)
  · exact congrArg Host.Outcome.next (State.evenWriteAccess_wide word d wide)

end Sys2Proof.Machine
end

section
/-! PROOFS. The step on a queue that holds a command: the counterpart of `step_of_empty` (log entry 18). -/
namespace Sys2Proof.Machine

open Sys2Proof

theorem step_of_front {s : State} {i : Instr} {rest : List Instr} (h : s.pending = i :: rest) :
    step s = exec i { s with pending := rest } := by
  unfold step
  rw [h]

/-- Settles O1: with the front command known, the step is that command's run, and the queue's rest overwrites the queue. -/
theorem stepRunsTheFrontCommand : Obligations.StepRunsTheFrontCommand :=
  fun i rest s => step_of_front (s := { s with pending := i :: rest }) rfl

end Sys2Proof.Machine
end
